-- ==== Sys2Proof/Word.lean ====
section
/-! DEFINITION. The word types of the CORE and its one named word constant (00_scope.md R5 to R7). -/

namespace Sys2Proof

/-- A 64-bit word: `W = MAGW = 64` (R5). -/
abbrev Word := BitVec 64

/-- An 8-bit byte of the exchange buffer, or a small operand field. -/
abbrev Byte := BitVec 8

/-- `ALL1 = 2^64 - 1` (R6), the unlimited bit budget. -/
def all1 : Word := BitVec.allOnes 64

end Sys2Proof
end

