-- ==== Sys2Proof/Syntax.lean ====
section
/-! DEFINITION. The command frame and the 38 commands of 30_encoding.md R106, one constructor each.
A field that a format takes from `a[0]` alone is a `Bool`; `a` and `b` are bytes; `P`, `Q`, `R` are words. -/

namespace Sys2Proof

/-- A command frame: four 64-bit words in the order `H`, `P`, `Q`, `R` (R100). -/
structure Frame where
  h : Word
  p : Word
  q : Word
  r : Word
deriving DecidableEq, Repr

/-- The commands, in the order of spec/opcode_table.json. Operands are the used fields of R106, in the
order `a`, `b`, `P`, `Q`, `R`. -/
inductive Instr where
  | nop
  | reset
  | rdreg (reg : Byte)
  | bsWbit (bit : Bool)
  | bsWbits (n : Byte) (value : Word)
  | bsRbit
  | bsRbits (n : Byte)
  | bsRewind
  | bsWseek (pos : Word)
  | bsRseek (pos : Word)
  | bsFlush
  | bsRrbit (pos : Word)
  | bsRwbit (bit : Bool) (pos : Word)
  | bsTest (start len : Word)
  | bsGet (addr : Word)
  | bsParse (addr bits : Word)
  | mkResize (size : Word)
  | mkReset
  | mkRbit (idx : Word)
  | mkWbit (bit : Bool) (idx : Word)
  | mkWtrue (idx : Word)
  | mkWfalse (idx : Word)
  | mkCount
  | mkHas (start len : Word)
  | mkView (addr : Word)
  | mkUse (addr : Word)
  | cmShape (d : Byte) (n0 n1 n2 : Word)
  | cmSt (sign : Bool) (idx mag : Word)
  | cmLd (idx : Word)
  | spkEnc (budget : Word)
  | spkDec (maxbits : Byte) (budget : Word)
  | outTol (tau : Word)
  | outEnc (addr count len : Word)
  | outDec (maxbits wsel : Byte) (addr len : Word)
  | xbSt8 (value : Byte) (addr : Word)
  | xbLd8 (addr : Word)
  | xbSt64 (addr value : Word)
  | xbLd64 (addr : Word)
deriving DecidableEq, Repr

end Sys2Proof
end

