-- ==== Sys2Proof/WellFormed.lean ====
section
/-! DEFINITION. Which commands hold no reserved field value (30_encoding.md R108). A command that holds one
is answered with `ILLEGAL` by its own first check (R102 step 4). -/

namespace Sys2Proof

/-- The register numbers listed in 10_state.md R60: `0x00 .. 0x0E` and `0x10 .. 0x14`. -/
def listedRegister (reg : Byte) : Bool := reg.toNat ≤ 0x0E || (0x10 ≤ reg.toNat && reg.toNat ≤ 0x14)

/-- The legal dimensionalities `1, 2, 3` of `CM_SHAPE` (43_coefficient_memory_and_sets.md R210). -/
def legalDim (d : Byte) : Bool := 1 ≤ d.toNat && d.toNat ≤ 3

/-- The extent operand of every dimension `i ≥ d` is 0 (R210). `N0` is used by every legal `d`. -/
def unusedExtentsZero (d : Byte) (n1 n2 : Word) : Bool :=
  (2 ≤ d.toNat || n1 == 0) && (3 ≤ d.toNat || n2 == 0)

/-- No field of the command holds a value its rule calls reserved (R108). -/
def Instr.wellFormed : Instr → Bool
  | .rdreg reg => listedRegister reg
  | .bsWbits n _ => n.toNat ≤ 64
  | .bsRbits n => n.toNat ≤ 64
  | .cmShape d _ n1 n2 => legalDim d && unusedExtentsZero d n1 n2
  | .spkDec maxbits _ => maxbits.toNat ≤ 63
  | .outDec maxbits wsel _ _ => maxbits.toNat ≤ 63 && wsel.toNat ≤ 3
  | .nop | .reset | .bsWbit _ | .bsRbit | .bsRewind | .bsWseek _ | .bsRseek _ | .bsFlush | .bsRrbit _
  | .bsRwbit _ _ | .bsTest _ _ | .bsGet _ | .bsParse _ _ | .mkResize _ | .mkReset | .mkRbit _
  | .mkWbit _ _ | .mkWtrue _ | .mkWfalse _ | .mkCount | .mkHas _ _ | .mkView _ | .mkUse _
  | .cmSt _ _ _ | .cmLd _ | .spkEnc _ | .outTol _ | .outEnc _ _ _ | .xbSt8 _ _ | .xbLd8 _
  | .xbSt64 _ _ | .xbLd64 _ => true

end Sys2Proof
end

