-- ==== Sys2Proof/Decode.lean ====
section
/-! DEFINITION. Decoding a command frame (30_encoding.md R100 to R102, R106 to R108), total on every frame and
rejecting by name; then the encoder. The decoder makes steps 2 and 3 of R102; step 1 (`FAULTED`) needs the state
and step 4 (reserved field values) is the first check of each command's own rule. -/

namespace Sys2Proof

/-- Why a frame spells no command: step 2 or step 3 of R102. Both are answered with `ILLEGAL`. -/
inductive DecodeError where
  /-- The opcode is not in the table of R106. -/
  | unknownOpcode
  /-- A must-be-zero field of the command's format is not zero (R101). -/
  | mustBeZero
deriving DecidableEq, Repr

/-- `H[63:56]` (R100). -/
def Frame.opcode (f : Frame) : Byte := f.h.extractLsb' 56 8

/-- `H[55:48]` (R100). -/
def Frame.a (f : Frame) : Byte := f.h.extractLsb' 48 8

/-- `H[47:40]` (R100). -/
def Frame.b (f : Frame) : Byte := f.h.extractLsb' 40 8

/-- `H[39:0]`, which every format requires to be 0 (R100). -/
def Frame.zero (f : Frame) : BitVec 40 := f.h.extractLsb' 0 40

/-- `a[0]`, the bit operand of the formats `Fa1`, `Fa1P`, `Fa1PQ`. -/
def Frame.a0 (f : Frame) : Bool := f.a.getLsbD 0

/-- The formats of R101. -/
inductive Format where
  | F0 | Fa1 | Fa | FP | Fa1P | FaP | FPQ | Fa1PQ | FaPQR | FPQR | FabPQ
deriving DecidableEq, Repr

/-- `a[7:1]` is 0. -/
def Frame.aHighZero (f : Frame) : Bool := f.a.extractLsb' 1 7 == 0

/-- Every must-be-zero field of the format is zero: the last column of R101's table. -/
def Format.zerosOk : Format → Frame → Bool
  | .F0,    f => f.a == 0 && f.b == 0 && f.zero == 0 && f.p == 0 && f.q == 0 && f.r == 0
  | .Fa1,   f => f.aHighZero && f.b == 0 && f.zero == 0 && f.p == 0 && f.q == 0 && f.r == 0
  | .Fa,    f => f.b == 0 && f.zero == 0 && f.p == 0 && f.q == 0 && f.r == 0
  | .FP,    f => f.a == 0 && f.b == 0 && f.zero == 0 && f.q == 0 && f.r == 0
  | .Fa1P,  f => f.aHighZero && f.b == 0 && f.zero == 0 && f.q == 0 && f.r == 0
  | .FaP,   f => f.b == 0 && f.zero == 0 && f.q == 0 && f.r == 0
  | .FPQ,   f => f.a == 0 && f.b == 0 && f.zero == 0 && f.r == 0
  | .Fa1PQ, f => f.aHighZero && f.b == 0 && f.zero == 0 && f.r == 0
  | .FaPQR, f => f.b == 0 && f.zero == 0
  | .FPQR,  f => f.a == 0 && f.b == 0 && f.zero == 0
  | .FabPQ, f => f.zero == 0 && f.r == 0

/-- The opcode map of R106: the format of an opcode's command and the command read from a frame's fields;
`none` for the opcodes R108 lists as illegal. -/
def opcodeRow (op : Byte) (f : Frame) : Option (Format × Instr) :=
  match op.toNat with
  | 0x00 => some (.F0, .nop)
  | 0x01 => some (.F0, .reset)
  | 0x02 => some (.Fa, .rdreg f.a)
  | 0x10 => some (.Fa1, .bsWbit f.a0)
  | 0x11 => some (.FaP, .bsWbits f.a f.p)
  | 0x12 => some (.F0, .bsRbit)
  | 0x13 => some (.Fa, .bsRbits f.a)
  | 0x14 => some (.F0, .bsRewind)
  | 0x15 => some (.FP, .bsWseek f.p)
  | 0x16 => some (.FP, .bsRseek f.p)
  | 0x17 => some (.F0, .bsFlush)
  | 0x18 => some (.FP, .bsRrbit f.p)
  | 0x19 => some (.Fa1P, .bsRwbit f.a0 f.p)
  | 0x1A => some (.FPQ, .bsTest f.p f.q)
  | 0x1B => some (.FP, .bsGet f.p)
  | 0x1C => some (.FPQ, .bsParse f.p f.q)
  | 0x20 => some (.FP, .mkResize f.p)
  | 0x21 => some (.F0, .mkReset)
  | 0x22 => some (.FP, .mkRbit f.p)
  | 0x23 => some (.Fa1P, .mkWbit f.a0 f.p)
  | 0x24 => some (.FP, .mkWtrue f.p)
  | 0x25 => some (.FP, .mkWfalse f.p)
  | 0x26 => some (.F0, .mkCount)
  | 0x27 => some (.FPQ, .mkHas f.p f.q)
  | 0x28 => some (.FP, .mkView f.p)
  | 0x29 => some (.FP, .mkUse f.p)
  | 0x30 => some (.FaPQR, .cmShape f.a f.p f.q f.r)
  | 0x31 => some (.Fa1PQ, .cmSt f.a0 f.p f.q)
  | 0x32 => some (.FP, .cmLd f.p)
  | 0x40 => some (.FP, .spkEnc f.p)
  | 0x41 => some (.FaP, .spkDec f.a f.p)
  | 0x50 => some (.FP, .outTol f.p)
  | 0x51 => some (.FPQR, .outEnc f.p f.q f.r)
  | 0x52 => some (.FabPQ, .outDec f.a f.b f.p f.q)
  | 0x60 => some (.FaP, .xbSt8 f.a f.p)
  | 0x61 => some (.FP, .xbLd8 f.p)
  | 0x62 => some (.FPQ, .xbSt64 f.p f.q)
  | 0x63 => some (.FP, .xbLd64 f.p)
  | _ => none

/-- R102 steps 2 and 3: the opcode selects the row, then the row's must-be-zero fields are checked. -/
def decode (f : Frame) : Except DecodeError Instr :=
  match opcodeRow f.opcode f with
  | none => .error .unknownOpcode
  | some (fmt, i) => if fmt.zerosOk f then .ok i else .error .mustBeZero

/-- The word `H` of an opcode and its small operands, `zero` being 0 (R100). -/
def headWord (op a b : Byte) : Word := op ++ a ++ b ++ (0 : BitVec 40)

/-- The small operand of a one-bit field: `a[0]` is the bit and `a[7:1]` is 0. -/
def bitField (v : Bool) : Byte := BitVec.ofNat 8 v.toNat

/-- The frame of a command, written from R100, R101 and R106. -/
def encode : Instr → Frame
  | .nop => ⟨headWord 0x00 0 0, 0, 0, 0⟩
  | .reset => ⟨headWord 0x01 0 0, 0, 0, 0⟩
  | .rdreg reg => ⟨headWord 0x02 reg 0, 0, 0, 0⟩
  | .bsWbit v => ⟨headWord 0x10 (bitField v) 0, 0, 0, 0⟩
  | .bsWbits n value => ⟨headWord 0x11 n 0, value, 0, 0⟩
  | .bsRbit => ⟨headWord 0x12 0 0, 0, 0, 0⟩
  | .bsRbits n => ⟨headWord 0x13 n 0, 0, 0, 0⟩
  | .bsRewind => ⟨headWord 0x14 0 0, 0, 0, 0⟩
  | .bsWseek pos => ⟨headWord 0x15 0 0, pos, 0, 0⟩
  | .bsRseek pos => ⟨headWord 0x16 0 0, pos, 0, 0⟩
  | .bsFlush => ⟨headWord 0x17 0 0, 0, 0, 0⟩
  | .bsRrbit pos => ⟨headWord 0x18 0 0, pos, 0, 0⟩
  | .bsRwbit v pos => ⟨headWord 0x19 (bitField v) 0, pos, 0, 0⟩
  | .bsTest start len => ⟨headWord 0x1A 0 0, start, len, 0⟩
  | .bsGet addr => ⟨headWord 0x1B 0 0, addr, 0, 0⟩
  | .bsParse addr bits => ⟨headWord 0x1C 0 0, addr, bits, 0⟩
  | .mkResize size => ⟨headWord 0x20 0 0, size, 0, 0⟩
  | .mkReset => ⟨headWord 0x21 0 0, 0, 0, 0⟩
  | .mkRbit idx => ⟨headWord 0x22 0 0, idx, 0, 0⟩
  | .mkWbit v idx => ⟨headWord 0x23 (bitField v) 0, idx, 0, 0⟩
  | .mkWtrue idx => ⟨headWord 0x24 0 0, idx, 0, 0⟩
  | .mkWfalse idx => ⟨headWord 0x25 0 0, idx, 0, 0⟩
  | .mkCount => ⟨headWord 0x26 0 0, 0, 0, 0⟩
  | .mkHas start len => ⟨headWord 0x27 0 0, start, len, 0⟩
  | .mkView addr => ⟨headWord 0x28 0 0, addr, 0, 0⟩
  | .mkUse addr => ⟨headWord 0x29 0 0, addr, 0, 0⟩
  | .cmShape d n0 n1 n2 => ⟨headWord 0x30 d 0, n0, n1, n2⟩
  | .cmSt sign idx mag => ⟨headWord 0x31 (bitField sign) 0, idx, mag, 0⟩
  | .cmLd idx => ⟨headWord 0x32 0 0, idx, 0, 0⟩
  | .spkEnc budget => ⟨headWord 0x40 0 0, budget, 0, 0⟩
  | .spkDec maxbits budget => ⟨headWord 0x41 maxbits 0, budget, 0, 0⟩
  | .outTol tau => ⟨headWord 0x50 0 0, tau, 0, 0⟩
  | .outEnc addr count len => ⟨headWord 0x51 0 0, addr, count, len⟩
  | .outDec maxbits wsel addr len => ⟨headWord 0x52 maxbits wsel, addr, len, 0⟩
  | .xbSt8 value addr => ⟨headWord 0x60 value 0, addr, 0, 0⟩
  | .xbLd8 addr => ⟨headWord 0x61 0 0, addr, 0, 0⟩
  | .xbSt64 addr value => ⟨headWord 0x62 0 0, addr, value, 0⟩
  | .xbLd64 addr => ⟨headWord 0x63 0 0, addr, 0, 0⟩

/-- A row of the opcode table: the word `H` it matches under its mask, and which operand words must be 0 (R107). -/
structure OpcodeRow where
  mnemonic : String
  pattern : Word
  mask : Word
  zeroP : Bool
  zeroQ : Bool
  zeroR : Bool
deriving DecidableEq, Repr

/-- A frame is of the row: `H AND mask = match`, and the row's zero words are 0 (R107). -/
def OpcodeRow.selects (row : OpcodeRow) (f : Frame) : Bool :=
  (f.h &&& row.mask == row.pattern) && (!row.zeroP || f.p == 0) && (!row.zeroQ || f.q == 0) && (!row.zeroR || f.r == 0)

/-- The rows of spec/opcode_table.json, letter for letter. The decoder does not read them; statements hold it against
them. -/
def opcodeTable : List OpcodeRow :=
  [⟨"NOP", 0x0000000000000000, 0xFFFFFFFFFFFFFFFF, true, true, true⟩,
   ⟨"RESET", 0x0100000000000000, 0xFFFFFFFFFFFFFFFF, true, true, true⟩,
   ⟨"RDREG", 0x0200000000000000, 0xFF00FFFFFFFFFFFF, true, true, true⟩,
   ⟨"BS_WBIT", 0x1000000000000000, 0xFFFEFFFFFFFFFFFF, true, true, true⟩,
   ⟨"BS_WBITS", 0x1100000000000000, 0xFF00FFFFFFFFFFFF, false, true, true⟩,
   ⟨"BS_RBIT", 0x1200000000000000, 0xFFFFFFFFFFFFFFFF, true, true, true⟩,
   ⟨"BS_RBITS", 0x1300000000000000, 0xFF00FFFFFFFFFFFF, true, true, true⟩,
   ⟨"BS_REWIND", 0x1400000000000000, 0xFFFFFFFFFFFFFFFF, true, true, true⟩,
   ⟨"BS_WSEEK", 0x1500000000000000, 0xFFFFFFFFFFFFFFFF, false, true, true⟩,
   ⟨"BS_RSEEK", 0x1600000000000000, 0xFFFFFFFFFFFFFFFF, false, true, true⟩,
   ⟨"BS_FLUSH", 0x1700000000000000, 0xFFFFFFFFFFFFFFFF, true, true, true⟩,
   ⟨"BS_RRBIT", 0x1800000000000000, 0xFFFFFFFFFFFFFFFF, false, true, true⟩,
   ⟨"BS_RWBIT", 0x1900000000000000, 0xFFFEFFFFFFFFFFFF, false, true, true⟩,
   ⟨"BS_TEST", 0x1A00000000000000, 0xFFFFFFFFFFFFFFFF, false, false, true⟩,
   ⟨"BS_GET", 0x1B00000000000000, 0xFFFFFFFFFFFFFFFF, false, true, true⟩,
   ⟨"BS_PARSE", 0x1C00000000000000, 0xFFFFFFFFFFFFFFFF, false, false, true⟩,
   ⟨"MK_RESIZE", 0x2000000000000000, 0xFFFFFFFFFFFFFFFF, false, true, true⟩,
   ⟨"MK_RESET", 0x2100000000000000, 0xFFFFFFFFFFFFFFFF, true, true, true⟩,
   ⟨"MK_RBIT", 0x2200000000000000, 0xFFFFFFFFFFFFFFFF, false, true, true⟩,
   ⟨"MK_WBIT", 0x2300000000000000, 0xFFFEFFFFFFFFFFFF, false, true, true⟩,
   ⟨"MK_WTRUE", 0x2400000000000000, 0xFFFFFFFFFFFFFFFF, false, true, true⟩,
   ⟨"MK_WFALSE", 0x2500000000000000, 0xFFFFFFFFFFFFFFFF, false, true, true⟩,
   ⟨"MK_COUNT", 0x2600000000000000, 0xFFFFFFFFFFFFFFFF, true, true, true⟩,
   ⟨"MK_HAS", 0x2700000000000000, 0xFFFFFFFFFFFFFFFF, false, false, true⟩,
   ⟨"MK_VIEW", 0x2800000000000000, 0xFFFFFFFFFFFFFFFF, false, true, true⟩,
   ⟨"MK_USE", 0x2900000000000000, 0xFFFFFFFFFFFFFFFF, false, true, true⟩,
   ⟨"CM_SHAPE", 0x3000000000000000, 0xFF00FFFFFFFFFFFF, false, false, false⟩,
   ⟨"CM_ST", 0x3100000000000000, 0xFFFEFFFFFFFFFFFF, false, false, true⟩,
   ⟨"CM_LD", 0x3200000000000000, 0xFFFFFFFFFFFFFFFF, false, true, true⟩,
   ⟨"SPK_ENC", 0x4000000000000000, 0xFFFFFFFFFFFFFFFF, false, true, true⟩,
   ⟨"SPK_DEC", 0x4100000000000000, 0xFF00FFFFFFFFFFFF, false, true, true⟩,
   ⟨"OUT_TOL", 0x5000000000000000, 0xFFFFFFFFFFFFFFFF, false, true, true⟩,
   ⟨"OUT_ENC", 0x5100000000000000, 0xFFFFFFFFFFFFFFFF, false, false, false⟩,
   ⟨"OUT_DEC", 0x5200000000000000, 0xFF0000FFFFFFFFFF, false, false, true⟩,
   ⟨"XB_ST8", 0x6000000000000000, 0xFF00FFFFFFFFFFFF, false, true, true⟩,
   ⟨"XB_LD8", 0x6100000000000000, 0xFFFFFFFFFFFFFFFF, false, true, true⟩,
   ⟨"XB_ST64", 0x6200000000000000, 0xFFFFFFFFFFFFFFFF, false, false, true⟩,
   ⟨"XB_LD64", 0x6300000000000000, 0xFFFFFFFFFFFFFFFF, false, true, true⟩]

/-- The frame whose 256 bits, numbered from bit 0 of `H`, are the low `nbits` bits of `w`; the bits above are 0. -/
def Frame.ofBits (nbits w : Nat) : Frame :=
  let v := w % 2 ^ nbits
  ⟨BitVec.ofNat 64 v, BitVec.ofNat 64 (v / 2 ^ 64), BitVec.ofNat 64 (v / 2 ^ 128), BitVec.ofNat 64 (v / 2 ^ 192)⟩

/-- The command the decoder reads from a frame given as a number, bit 0 being bit 0 of the word `H`. -/
def decodeTableWord (nbits w : Nat) : Option Instr :=
  match decode (Frame.ofBits nbits w) with
  | .ok i => some i
  | .error _ => none

end Sys2Proof
end

