-- ==== Sys2Proof/Machine/Bits.lean ====
section
/-! DEFINITION. Bits, slices and integer functions of 00_scope.md R7 and R9. -/

namespace Sys2Proof.Machine

/-- `lowmask(k) = 2^k - 1` as a word, for `0 ≤ k ≤ 64` (R7). -/
def lowmask (k : Nat) : Word := BitVec.ofNat 64 (2 ^ k - 1)

/-- `ceil(a/b)` (R7). -/
def ceilDiv (a b : Nat) : Nat := (a + b - 1) / b

/-- `flog2(n)`: the greatest `k` with `2^k ≤ n`, for `n ≥ 1` (R7). -/
def flog2 (n : Nat) : Nat := Nat.log2 n

/-- `clog2(n)`: the least `k` with `2^k ≥ n`, for `n ≥ 1` (R7). -/
def clog2 (n : Nat) : Nat := if n ≤ 1 then 0 else Nat.log2 (n - 1) + 1

/-- `zeros(k)`: `k` zero words (R8). -/
def zeros (k : Nat) : List Word := List.replicate k 0

/-- The word with bit `j` set to `v` and every other bit kept. -/
def setBit (w : Word) (j : Nat) (v : Bool) : Word :=
  if v then w ||| BitVec.twoPow 64 j else w &&& ~~~ BitVec.twoPow 64 j

/-- Bit position `p` of a word-packed store: `m[p div 64][p mod 64]` (R9, 20_memory.md R72). -/
def getBitAt (m : List Word) (p : Nat) : Bool := (m.getD (p / 64) 0).getLsbD (p % 64)

/-- A word-packed store with bit position `p` set to `v`. -/
def setBitAt (m : List Word) (p : Nat) (v : Bool) : List Word :=
  m.set (p / 64) (setBit (m.getD (p / 64) 0) (p % 64) v)

/-- The number `Σ_{i<n} bit(i) · 2^i`. -/
def bitsToNat (bit : Nat → Bool) : Nat → Nat
  | 0 => 0
  | n + 1 => bitsToNat bit n + (bit n).toNat * 2 ^ n

/-- A bit as a result word. -/
def bitWord (v : Bool) : Word := BitVec.ofNat 64 v.toNat

end Sys2Proof.Machine
end

