-- ==== Sys2Proof/Machine/Units.lean ====
section
/-! DEFINITION. The units of the CORE's state (10_state.md), as plain data. -/

namespace Sys2Proof.Machine

/-- The BitStream unit `BS` (10_state.md R27 to R31). -/
structure BitStream where
  /-- Capacity in words (R27). -/
  cap : Nat
  /-- The word-packed buffer, `cap` words (R28). -/
  mem : List Word
  /-- The write cursor, a bit position (R29). -/
  wpos : Nat
  /-- The read cursor, a bit position (R29). -/
  rpos : Nat
  /-- The write buffer: the pending bits (R30). -/
  wbuf : Word
  /-- The declared length in bits (R31). -/
  blen : Nat
deriving DecidableEq, Repr, Inhabited

/-- A Bitmask `(n, mw)` (R32): `MK` and `LIP` are the two instances. -/
structure Bitmask where
  n : Nat
  mw : List Word
deriving DecidableEq, Repr, Inhabited

/-- A triple indexed by dimension 0, 1, 2. -/
structure Tri where
  x : Nat
  y : Nat
  z : Nat
deriving DecidableEq, Repr, Inhabited

/-- The coefficient memory `CM` (R35, R36). `CM.n` is `CoefMem.n`, the product of the extents. -/
structure CoefMem where
  /-- Dimensionality: 0 (unshaped), 1, 2 or 3. -/
  d : Nat
  /-- The extents `CM.N[0..2]`. -/
  ext : Tri
  mag : List Word
  /-- 1 = positive or zero, 0 = negative (43_coefficient_memory_and_sets.md R212). -/
  sgn : List Bool
deriving DecidableEq, Repr, Inhabited

/-- A CoefficientSet kept as a box (R51); `kind` is determined by the extents and TypeI is `Worklists.idepth`. -/
structure CoefSet where
  origin : Tri
  extent : Tri
  level : Nat
deriving DecidableEq, Repr, Inhabited

/-- The worklists `WL` (R50), which exist only inside a coding command. -/
structure Worklists where
  /-- Root depth `K`. -/
  k : Nat
  /-- `LIS[0..K]`, one ordered sequence per level. -/
  lis : List (List CoefSet)
  /-- `LSP`, element indices in order of becoming significant. -/
  lsp : List Nat
  /-- Depth of the TypeI set; 0 means it is empty. -/
  idepth : Nat
  /-- Current bitplane. -/
  p : Nat
  /-- Bits coded so far in this command. -/
  nb : Nat
  /-- The bit budget; `ALL1` is unlimited. -/
  b : Word
deriving DecidableEq, Repr, Inhabited

/-- The Outlier Coder registers `OC` (R55). -/
structure OutlierRegs where
  /-- The tolerance, a binary64 bit pattern. -/
  tol : Word
  /-- Set when `tol` holds a value accepted by `OUT_TOL`. -/
  tolv : Bool
deriving DecidableEq, Repr, Inhabited

/-- Every unit other than `ST` and `XB`: what a fatal fault leaves unspecified (93_implementation_defined.md U1). -/
structure Units where
  bs : BitStream
  mask : Bitmask
  lip : Bitmask
  cm : CoefMem
  wl : Worklists
  oc : OutlierRegs
deriving DecidableEq, Repr, Inhabited

/-- The status codes of 30_encoding.md R104. -/
inductive Status where
  | ok | illegal | range | align | arg | dataShort | dataWidth | alloc | faulted
deriving DecidableEq, Repr

/-- The status unit `ST` (R24 to R26). -/
structure StatusUnit where
  /-- The sticky flags. -/
  flags : Byte
  /-- The status of the most recently completed command. -/
  lastst : Byte
  /-- Set by a fatal fault, left only by reset. -/
  faulted : Bool
deriving DecidableEq, Repr

/-- A response: the word `S`'s status and the two result words (30_encoding.md R103). -/
structure Response where
  status : Status
  res0 : Word
  res1 : Word
deriving DecidableEq, Repr

end Sys2Proof.Machine
end

