-- ==== Sys2Proof/Config.lean ====
section
/-! DEFINITION. What an implementation fixes: the parameters of 00_scope.md R5, and the free values, which have
no body so that nothing can be proved of them. -/

namespace Sys2Proof

/-- The open parameters of 00_scope.md R5. -/
structure Params where
  /-- BitStream capacity in words after reset. -/
  cap0Words : Nat
  /-- Largest BitStream capacity in words. -/
  maxWords : Nat
  /-- Largest logical size of a Bitmask. -/
  mkMaxBits : Nat
  /-- Largest element count of the coefficient memory. -/
  maxElems : Nat
  /-- Size of the exchange buffer in bytes. -/
  xbBytes : Nat
deriving DecidableEq, Repr

/-- The default column of R5. -/
def Params.default : Params :=
  { cap0Words := 1, maxWords := 2 ^ 20, mkMaxBits := 2 ^ 24, maxElems := 2 ^ 24, xbBytes := 2 ^ 20 }

/-- FREE VALUE (log 6, safe): what the units other than `ST` and `XB` hold after the `k`-th fatal fault
(93_implementation_defined.md U1: "any value" until `RESET`). -/
opaque Config.unitsAfterAlloc (k : Nat) : Machine.Units

/-- FREE VALUE (log 10, safe): the payload of the NaN a binary64 operation on `x` and `y` gives, which
45_outlier_coder.md R291 does not state. -/
opaque Config.nanPayload (x y : Word) : Word

/-- FREE VALUE (log 10, safe): `f2u` of an `x` that is not an integer with `0 ≤ x < 2^64`, the domain R291 gives it. -/
opaque Config.f2uOutside (x : Word) : Word

end Sys2Proof
end

