-- ==== Sys2Proof/Machine/State.lean ====
section
/-! DEFINITION. The whole state of the CORE (10_state.md R21, R65), its ports, and the state after reset. -/

namespace Sys2Proof.Machine

/-- The exchange buffer's contents: (address, byte) pairs, addresses strictly rising, no byte listed that equals what
an unlisted address reads as (`xbUnlisted`). -/
abbrev Memory := List Host.Cell

/-- What an unlisted byte of `XB` reads as. DESIGN CHOICE (log 5): the spec leaves `XB` unspecified after hardware
reset (R58); every content of `XB` is some list, and no statement about all states rests on this value. -/
def xbUnlisted : Byte := 0

/-- The canonical form of an exchange buffer's contents. -/
def Memory.wf : Memory → Bool
  | [] => true
  | [c] => c.2 != xbUnlisted
  | c :: c' :: rest => c.2 != xbUnlisted && decide (c.1 < c'.1) && Memory.wf (c' :: rest)

/-- The state of the CORE, with its command and response ports. -/
structure State where
  /-- Status unit (R24 to R26). -/
  st : StatusUnit
  /-- BitStream (R27 to R31). -/
  bs : BitStream
  /-- Host Bitmask (R33). -/
  mask : Bitmask
  /-- Engine-private Bitmask (R34), empty between commands. -/
  lip : Bitmask
  /-- Coefficient memory (R35, R36). -/
  cm : CoefMem
  /-- Worklists (R50), empty between commands. -/
  wl : Worklists
  /-- Outlier coder registers (R55). -/
  oc : OutlierRegs
  /-- Exchange buffer (R58). -/
  xb : Memory
  /-- Command port: the frames presented and not yet accepted, in arrival order (R100; log 1). -/
  cmdPort : List Frame
  /-- Response port: the responses given, in order (R103; log 2). -/
  rspPort : List Response
  /-- The parameters of 00_scope.md R5, which no step changes (log 3). -/
  cfg : Params
  /-- The model's own counter of free values drawn (log 6). -/
  freeCount : Nat
deriving DecidableEq, Repr

/-- Why the machine stops: never. Every frame is answered with a response and the CORE goes on
(93_implementation_defined.md: "a model is total"), so there is no fault of the machine itself; the faults of
60_exceptions.md are statuses. -/
inductive Fault : Type
deriving DecidableEq, Repr

/-- Why a command is refused without a meaning. -/
inductive Refusal where
  /-- Raised by `exec` for a command that has no meaning yet; safe. No arm raises it. -/
  | notModelled (mnemonic : String)
deriving DecidableEq, Repr

/-- `BS` after reset: `CAP0_WORDS` zero words (R27 to R31, R65). -/
def BitStream.reset (cap0Words : Nat) : BitStream :=
  { cap := cap0Words, mem := List.replicate cap0Words 0, wpos := 0, rpos := 0, wbuf := 0, blen := 0 }

/-- A Bitmask of size 0 (R33, R34). -/
def Bitmask.empty : Bitmask := { n := 0, mw := [] }

/-- `CM` unshaped (R35, R36). -/
def CoefMem.unshaped : CoefMem := { d := 0, ext := ⟨0, 0, 0⟩, mag := [], sgn := [] }

/-- `WL` at reset and between commands (R50, R65). -/
def Worklists.empty : Worklists := { k := 0, lis := [], lsp := [], idepth := 0, p := 0, nb := 0, b := 0 }

/-- `OC` after reset (R55). -/
def OutlierRegs.reset : OutlierRegs := { tol := 0, tolv := false }

/-- `ST` after reset (R24 to R26). -/
def StatusUnit.reset : StatusUnit := { flags := 0, lastst := 0, faulted := false }

/-- The state after hardware reset of a CORE with parameters `cfg` whose exchange buffer came up holding `xb`
(10_state.md R65, 70_reset_and_hazards.md R370). -/
def State.hardwareReset (cfg : Params) (xb : Memory) : State :=
  { st := .reset, bs := .reset cfg.cap0Words, mask := .empty, lip := .empty, cm := .unshaped, wl := .empty, oc := .reset
    xb := xb, cmdPort := [], rspPort := [], cfg := cfg, freeCount := 0 }

/-- The machine right after reset, with the default parameters and no byte of `XB` listed (log 3, log 5). -/
def State.reset : State := .hardwareReset .default []

end Sys2Proof.Machine
end

