-- ==== Sys2Proof/Machine/Flags.lean ====
section
/-! DEFINITION. The status codes and the sticky flags (30_encoding.md R104; 60_exceptions.md R331). -/

namespace Sys2Proof.Machine

/-- The 8-bit code of a status (R104). -/
def Status.code : Status → Byte
  | .ok => 0x00
  | .illegal => 0x01
  | .range => 0x02
  | .align => 0x03
  | .arg => 0x04
  | .dataShort => 0x10
  | .dataWidth => 0x11
  | .alloc => 0x80
  | .faulted => 0x81

/-- The flag bits a command that ends with this status sets (10_state.md R24; `end_command` of R331): its own
`flagbit`, with `F_FAULTED` (bit 7) beside `F_ALLOC`; `FAULTED` sets bit 7 alone and `OK` none. -/
def Status.flagMask : Status → Byte
  | .ok => 0x00
  | .illegal => 0x01
  | .range => 0x02
  | .align => 0x04
  | .arg => 0x08
  | .dataShort => 0x10
  | .dataWidth => 0x20
  | .alloc => 0xC0
  | .faulted => 0x80

/-- Results survive only on `OK` and `DATA_SHORT` (30_encoding.md R103). -/
def Status.keepsResults : Status → Bool
  | .ok | .dataShort => true
  | .illegal | .range | .align | .arg | .dataWidth | .alloc | .faulted => false

/-- `ST` after a command that ends with status `s` (R331): the flag is set, none is cleared, `LASTST` is written and
`ALLOC` sets `FAULTED`. -/
def StatusUnit.record (st : StatusUnit) (s : Status) : StatusUnit :=
  { flags := st.flags ||| s.flagMask, lastst := s.code, faulted := st.faulted || s == .alloc }

/-- The word `S` of a response: the status in bits 7:0, zero above (R103). -/
def Response.s (r : Response) : Word := r.status.code.setWidth 64

/-- The value `RDREG 0x01` reads: `FLAGS` in bits 7:0, `LASTST` in bits 15:8 (10_state.md R60). -/
def StatusUnit.word (st : StatusUnit) : Word := (st.lastst ++ st.flags).setWidth 64

end Sys2Proof.Machine
end

