-- ==== Sys2Proof/Machine/Ops.lean ====
section
/-! DEFINITION. The shared operations: ending a command (the CORE's whole trap mechanism, 60_exceptions.md R331), the
refusal of commands while faulted, accepting a frame, and the exchange buffer primitives (20_memory.md R73 to R77). -/

namespace Sys2Proof.Machine

/-- The outcome of a step of this machine. -/
abbrev Result := Host.Outcome State Fault Refusal

/-- After a fatal fault every unit other than `ST` and `XB` holds unspecified values (60_exceptions.md R344): free
values, fresh ones each time (log 6). -/
def State.loseUnits (s : State) : State :=
  let u := Config.unitsAfterAlloc s.freeCount
  { s with bs := u.bs, mask := u.mask, lip := u.lip, cm := u.cm, wl := u.wl, oc := u.oc, freeCount := s.freeCount + 1 }

/-- The state after `end_command(status, r0, r1)` of R331: the results are zeroed unless the status keeps them, `ST`
is written, the response is given, and on `ALLOC` the units are lost. -/
def State.finish (s : State) (status : Status) (r0 r1 : Word) : State :=
  let s := if status = .alloc then s.loseUnits else s
  { s with
    st := s.st.record status
    rspPort := s.rspPort ++ [if status.keepsResults then ⟨status, r0, r1⟩ else ⟨status, 0, 0⟩] }

/-- `end_command` (R331): the one way every command ends, whatever its status. Control goes nowhere; there is no
return from it (R332). -/
def endCommand (status : Status) (r0 r1 : Word) (s : State) : Result := .next (s.finish status r0 r1)

/-- A command that ends with status `OK` and these results. -/
def finishOk (r0 r1 : Word) (s : State) : Result := endCommand .ok r0 r1 s

/-- A command that ends with a status other than `OK` and no results (`raise`, 00_scope.md R8). -/
def raise (status : Status) (s : State) : Result := endCommand status 0 0 s

/-- R102 step 1 and R345: while `ST.FAULTED = 1` a command other than `RESET` is refused and not executed. -/
def unlessFaulted (s : State) (body : State → Result) : Result :=
  if s.st.faulted then raise .faulted s else body s

/-- Accept the next frame of the command port, if there is one (R20, R100). -/
def State.accept (s : State) : Option (Frame × State) :=
  match s.cmdPort with
  | [] => none
  | f :: rest => some (f, { s with cmdPort := rest })

/-- The answer to a frame that spells no command (R102 steps 1 to 3): `FAULTED` while faulted unless the opcode is
`RESET`'s, else `ILLEGAL`. -/
def rejectFrame (f : Frame) (s : State) : Result :=
  if s.st.faulted && f.opcode != 0x01 then raise .faulted s else raise .illegal s

/-- The state in which `f` is the frame the CORE accepts next: it takes the place of the port's first frame. -/
def State.present (s : State) (f : Frame) : State := { s with cmdPort := f :: s.cmdPort.tail }

/-! ### Exchange buffer -/

/-- One byte of `XB`. -/
def Memory.readByte : Memory → Nat → Byte
  | [], _ => xbUnlisted
  | c :: rest, a => if c.1 = a then c.2 else Memory.readByte rest a

/-- `m` with the byte at `a` set to `v`, in canonical form. -/
def Memory.writeByte : Memory → Nat → Byte → Memory
  | [], a, v => if v = xbUnlisted then [] else [(a, v)]
  | c :: rest, a, v =>
    if a < c.1 then (if v = xbUnlisted then c :: rest else (a, v) :: c :: rest)
    else if a = c.1 then (if v = xbUnlisted then rest else (a, v) :: rest)
    else c :: Memory.writeByte rest a v

/-- Store bytes at consecutive addresses from `a`. -/
def Memory.writeBytes : Memory → Nat → List Byte → Memory
  | m, _, [] => m
  | m, a, v :: vs => Memory.writeBytes (m.writeByte a v) (a + 1) vs

/-- The byte `v[8j+7 : 8j]` of a word (20_memory.md R73). -/
def wordByte (v : Word) (j : Nat) : Byte := v.extractLsb' (8 * j) 8

/-- The eight bytes of a word, least significant first (R73). -/
def wordBytes (v : Word) : List Byte := (List.range 8).map (wordByte v)

/-- `XbRead(addr, 8)`: the little-endian word at `a` (R73, R76). -/
def Memory.readWord (m : Memory) (a : Nat) : Word :=
  (List.range 8).foldl (fun w j => w ||| ((m.readByte (a + j)).setWidth 64 <<< (8 * j))) 0

/-- `XbWrite(addr, 8, v)` (R73, R77). -/
def Memory.writeWord (m : Memory) (a : Nat) (v : Word) : Memory := m.writeBytes a (wordBytes v)

/-- Store words at consecutive 8-byte slots from `a`. -/
def Memory.writeWords (m : Memory) (a : Nat) (vs : List Word) : Memory := m.writeBytes a (vs.flatMap wordBytes)

/-- Read `k` words from consecutive 8-byte slots from `a`. -/
def Memory.readWords (m : Memory) (a k : Nat) : List Word := (List.range k).map fun j => m.readWord (a + 8 * j)

end Sys2Proof.Machine
end

