-- ==== Sys2Proof/Machine/Operands.lean ====
section
/-! DEFINITION. The operand checks that several commands share (20_memory.md R76 to R78; 30_encoding.md R108) and the
registers `RDREG` reads (10_state.md R60). -/

namespace Sys2Proof.Machine

/-- An `XB` address operand is a multiple of 8 (R78). -/
def aligned8 (addr : Word) : Bool := addr.toNat % 8 == 0

/-- `addr + len ≤ XB_BYTES`, a natural-number sum (00_scope.md R6; 20_memory.md R76). -/
def State.xbHolds (s : State) (addr : Word) (len : Nat) : Bool := addr.toNat + len ≤ s.cfg.xbBytes

/-- `CM.n`, the element count (10_state.md R35). -/
def CoefMem.n (cm : CoefMem) : Nat := cm.ext.x * cm.ext.y * cm.ext.z

/-- `width(WSEL) = 8 · 2^WSEL` (45_outlier_coder.md R295). -/
def selectedWidth (wsel : Nat) : Nat := 8 * 2 ^ wsel

/-- The constant of register `ID` (10_state.md R60). -/
def idValue : Word := 0x5350455200060001

/-- The value of the register `RDREG` reads under each listed number (R60); `none` for an unlisted number. -/
def State.regValue (s : State) (reg : Byte) : Option Word :=
  match reg.toNat with
  | 0x00 => some idValue
  | 0x01 => some s.st.word
  | 0x02 => some (BitVec.ofNat 64 (64 * s.bs.cap))
  | 0x03 => some (BitVec.ofNat 64 s.bs.wpos)
  | 0x04 => some (BitVec.ofNat 64 s.bs.rpos)
  | 0x05 => some (BitVec.ofNat 64 s.bs.blen)
  | 0x06 => some s.bs.wbuf
  | 0x07 => some (BitVec.ofNat 64 s.mask.n)
  | 0x08 => some (BitVec.ofNat 64 s.cm.d)
  | 0x09 => some (BitVec.ofNat 64 s.cm.ext.x)
  | 0x0A => some (BitVec.ofNat 64 s.cm.ext.y)
  | 0x0B => some (BitVec.ofNat 64 s.cm.ext.z)
  | 0x0C => some (BitVec.ofNat 64 s.cm.n)
  | 0x0D => some s.oc.tol
  | 0x0E => some (bitWord s.oc.tolv)
  | 0x10 => some (BitVec.ofNat 64 s.cfg.cap0Words)
  | 0x11 => some (BitVec.ofNat 64 s.cfg.maxWords)
  | 0x12 => some (BitVec.ofNat 64 s.cfg.mkMaxBits)
  | 0x13 => some (BitVec.ofNat 64 s.cfg.maxElems)
  | 0x14 => some (BitVec.ofNat 64 s.cfg.xbBytes)
  | _ => none

end Sys2Proof.Machine
end

