-- ==== Sys2Proof/Machine/ExchangeCommands.lean ====
section
/-! DEFINITION. The exchange buffer commands (46_exchange_buffer.md R320 to R323). -/

namespace Sys2Proof.Machine

/-- `XB_ST8` (R320). -/
def execXbSt8 (value : Byte) (addr : Word) (s : State) : Result :=
  unlessFaulted s fun s =>
    if s.xbHolds addr 1 then finishOk 0 0 { s with xb := s.xb.writeByte addr.toNat value } else raise .range s

/-- `XB_LD8` (R321). -/
def execXbLd8 (addr : Word) (s : State) : Result :=
  unlessFaulted s fun s =>
    if s.xbHolds addr 1 then finishOk ((s.xb.readByte addr.toNat).setWidth 64) 0 s else raise .range s

/-- `XB_ST64` (R322): alignment is checked before range. -/
def execXbSt64 (addr value : Word) (s : State) : Result :=
  unlessFaulted s fun s =>
    if !aligned8 addr then raise .align s
    else if s.xbHolds addr 8 then finishOk 0 0 { s with xb := s.xb.writeWord addr.toNat value }
    else raise .range s

/-- `XB_LD64` (R323): alignment is checked before range. -/
def execXbLd64 (addr : Word) (s : State) : Result :=
  unlessFaulted s fun s =>
    if !aligned8 addr then raise .align s
    else if s.xbHolds addr 8 then finishOk (s.xb.readWord addr.toNat) 0 s
    else raise .range s

end Sys2Proof.Machine
end

