-- ==== Sys2Proof/Machine/Mask.lean ====
section
/-! DEFINITION. The operations on a Bitmask value, shared by `MK` and `LIP` (42_bitmask.md R181, R183). -/

namespace Sys2Proof.Machine

/-- `nw(n) = ceil(n/64)`. -/
def maskWords (n : Nat) : Nat := ceilDiv n 64

/-- Clear `k` bits from index `i` on. -/
def clearBits (mw : List Word) (i : Nat) : Nat → List Word
  | 0 => mw
  | k + 1 => setBitAt (clearBits mw i k) (i + k) false

/-- `resize(m)` (R183): zero-extends on growth, clearing the old tail up to `m`; drops whole words on shrink. -/
def Bitmask.resize (x : Bitmask) (m : Nat) : Bitmask :=
  let ow := maskWords x.n
  if m > x.n then
    { n := m, mw := clearBits (x.mw ++ zeros (maskWords m - ow)) x.n (min m (64 * ow) - x.n) }
  else { n := m, mw := x.mw.take (maskWords m) }

/-- `reset()` (R181): every word, tail bits included, becomes 0. -/
def Bitmask.clear (x : Bitmask) : Bitmask := { x with mw := x.mw.map fun _ => 0 }

/-- `rbit(i)` (R181). -/
def Bitmask.rbit (x : Bitmask) (i : Nat) : Bool := getBitAt x.mw i

/-- `wbit(i, v)` (R181). -/
def Bitmask.wbit (x : Bitmask) (i : Nat) (v : Bool) : Bitmask := { x with mw := setBitAt x.mw i v }

/-- `count()` (R181): the number of `i < n` with `bit(i) = 1`. -/
def Bitmask.count (x : Bitmask) : Nat := ((List.range x.n).filter x.rbit).length

/-- `has(s, l)` (R181). -/
def Bitmask.has (x : Bitmask) (s l : Nat) : Bool := (List.range l).any fun i => x.rbit (s + i)

end Sys2Proof.Machine
end

