-- ==== Sys2Proof/Machine/MaskCommands.lean ====
section
/-! DEFINITION. The Bitmask commands on `MK` (42_bitmask.md R183 to R192). -/

namespace Sys2Proof.Machine

/-- `MK_RESIZE` (R183). -/
def execMkResize (size : Word) (s : State) : Result :=
  unlessFaulted s fun s =>
    if size.toNat ≤ s.cfg.mkMaxBits then finishOk 0 0 { s with mask := s.mask.resize size.toNat } else raise .alloc s

/-- `MK_RESET` (R184). -/
def execMkReset (s : State) : Result := unlessFaulted s fun s => finishOk 0 0 { s with mask := s.mask.clear }

/-- `MK_RBIT` (R185). -/
def execMkRbit (idx : Word) (s : State) : Result :=
  unlessFaulted s fun s =>
    if idx.toNat < s.mask.n then finishOk (bitWord (s.mask.rbit idx.toNat)) 0 s else raise .range s

/-- A single-bit write to `MK`, refused with `RANGE` at or above `MK.n` (R186 to R188). -/
def writeMaskBit (bit : Bool) (idx : Word) (s : State) : Result :=
  if idx.toNat < s.mask.n then finishOk 0 0 { s with mask := s.mask.wbit idx.toNat bit } else raise .range s

/-- `MK_WBIT` (R186). -/
def execMkWbit (bit : Bool) (idx : Word) (s : State) : Result := unlessFaulted s fun s => writeMaskBit bit idx s

/-- `MK_WTRUE` (R187). -/
def execMkWtrue (idx : Word) (s : State) : Result := unlessFaulted s fun s => writeMaskBit true idx s

/-- `MK_WFALSE` (R188). -/
def execMkWfalse (idx : Word) (s : State) : Result := unlessFaulted s fun s => writeMaskBit false idx s

/-- `MK_COUNT` (R189). -/
def execMkCount (s : State) : Result := unlessFaulted s fun s => finishOk (BitVec.ofNat 64 s.mask.count) 0 s

/-- `MK_HAS` (R190). -/
def execMkHas (start len : Word) (s : State) : Result :=
  unlessFaulted s fun s =>
    if start.toNat + len.toNat ≤ s.mask.n then finishOk (bitWord (s.mask.has start.toNat len.toNat)) 0 s else raise .range s

/-- `MK_VIEW` (R191): alignment is checked before range. -/
def execMkView (addr : Word) (s : State) : Result :=
  unlessFaulted s fun s =>
    let nw := maskWords s.mask.n
    if !aligned8 addr then raise .align s
    else if s.xbHolds addr (8 * nw) then
      finishOk (BitVec.ofNat 64 nw) 0 { s with xb := s.xb.writeWords addr.toNat (s.mask.mw.take nw) }
    else raise .range s

/-- `MK_USE` (R192): loads exactly `ceil(MK.n/64)` words and never resizes. -/
def execMkUse (addr : Word) (s : State) : Result :=
  unlessFaulted s fun s =>
    let nw := maskWords s.mask.n
    if !aligned8 addr then raise .align s
    else if s.xbHolds addr (8 * nw) then
      finishOk (BitVec.ofNat 64 nw) 0 { s with mask := { s.mask with mw := s.xb.readWords addr.toNat nw } }
    else raise .range s

end Sys2Proof.Machine
end

