-- ==== Sys2Proof/Machine/Geometry.lean ====
section
/-! DEFINITION. The partitioning geometry (43_coefficient_memory_and_sets.md R213, R216 to R222). -/

namespace Sys2Proof.Machine

/-- Component by component. -/
def Tri.map (f : Nat → Nat) (t : Tri) : Tri := ⟨f t.x, f t.y, f t.z⟩

/-- Number of elements of a box of this extent. -/
def Tri.volume (t : Tri) : Nat := t.x * t.y * t.z

/-- `ceil(e/2)`. -/
def halfUp (e : Nat) : Nat := ceilDiv e 2

/-- `idx(x,y,z) = x + N[0]·(y + N[1]·z)` (R213). -/
def elemIdx (ext t : Tri) : Nat := t.x + ext.x * (t.y + ext.y * t.z)

/-- The halving sequence `A_k` (R216): `A_0 = N`, `A_{k+1} = ceil(A_k / 2)`. -/
def halving (ext : Tri) : Nat → Tri
  | 0 => ext
  | k + 1 => (halving ext k).map halfUp

/-- The root depth `K = max_i clog2(N[i])` (R216). -/
def rootDepth (ext : Tri) : Nat := max (clog2 ext.x) (max (clog2 ext.y) (clog2 ext.z))

/-- `kind = Pixel`: all three extents are 1 (R51, R218). -/
def CoefSet.isPixel (s : CoefSet) : Bool := s.extent.x == 1 && s.extent.y == 1 && s.extent.z == 1

/-- All three extents are greater than 0: the offspring that are kept (R217, R221). -/
def CoefSet.nonEmpty (s : CoefSet) : Bool := s.extent.x != 0 && s.extent.y != 0 && s.extent.z != 0

/-- One dimension of the candidate offspring of R217 and R221: the first part `[o, o+h)` for bit 0, the rest
`[o+h, o+e)` for bit 1. Gives (origin, extent). -/
def partOf (bit : Bool) (o h e : Nat) : Nat × Nat := if bit then (o + h, e - h) else (o, h)

/-- Candidate offspring number `b` of a box whose first part in each dimension has extent `h`. -/
def candidate (o h e : Tri) (level b : Nat) : CoefSet :=
  let px := partOf (b.testBit 0) o.x h.x e.x
  let py := partOf (b.testBit 1) o.y h.y e.y
  let pz := partOf (b.testBit 2) o.z h.z e.z
  { origin := ⟨px.1, py.1, pz.1⟩, extent := ⟨px.2, py.2, pz.2⟩, level := level }

/-- `split_S(S)` (R217): the non-empty offspring `O_0 .. O_7` in increasing `b`, one level up. -/
def splitS (s : CoefSet) : List CoefSet :=
  ([0, 1, 2, 3, 4, 5, 6, 7].map (candidate s.origin (s.extent.map halfUp) s.extent (s.level + 1))).filter CoefSet.nonEmpty

/-- `split_I(k)` (R221): the non-empty offspring `J_1 .. J_7` in increasing `b`, at level `k`. -/
def splitI (ext : Tri) (k : Nat) : List CoefSet :=
  ([1, 2, 3, 4, 5, 6, 7].map (candidate ⟨0, 0, 0⟩ (halving ext k) (halving ext (k - 1)) k)).filter CoefSet.nonEmpty

/-- The point `(x, y, z)` lies in the box of the set. -/
def CoefSet.holds (s : CoefSet) (t : Tri) : Bool :=
  decide (s.origin.x ≤ t.x ∧ t.x < s.origin.x + s.extent.x) && decide (s.origin.y ≤ t.y ∧ t.y < s.origin.y + s.extent.y)
    && decide (s.origin.z ≤ t.z ∧ t.z < s.origin.z + s.extent.z)

/-- The point lies in TypeI at depth `k`: outside the addressed box `A_k` (R220). -/
def inTypeI (ext : Tri) (k : Nat) (t : Tri) : Bool :=
  let a := halving ext k
  decide (a.x ≤ t.x) || decide (a.y ≤ t.y) || decide (a.z ≤ t.z)

/-- The points of a box, dimension 0 fastest. -/
def boxPoints (o e : Tri) : List Tri :=
  (List.range e.z).flatMap fun z => (List.range e.y).flatMap fun y => (List.range e.x).map fun x =>
    ⟨o.x + x, o.y + y, o.z + z⟩

/-- The magnitude of the element at a point. -/
def CoefMem.magAt (cm : CoefMem) (t : Tri) : Word := cm.mag.getD (elemIdx cm.ext t) 0

/-- `significant(S)` (44_speck_engine.md R252): some element of the box has magnitude `≥ 2^p`. -/
def CoefMem.significant (cm : CoefMem) (p : Nat) (s : CoefSet) : Bool :=
  (boxPoints s.origin s.extent).any fun t => decide (2 ^ p ≤ (cm.magAt t).toNat)

/-- `significant_I(k)` (R252): some element of TypeI at depth `k` has magnitude `≥ 2^p`. -/
def CoefMem.significantI (cm : CoefMem) (p k : Nat) : Bool :=
  (boxPoints ⟨0, 0, 0⟩ cm.ext).any fun t => inTypeI cm.ext k t && decide (2 ^ p ≤ (cm.magAt t).toNat)

end Sys2Proof.Machine
end

