-- ==== Sys2Proof/Machine/Stream.lean ====
section
/-! DEFINITION. The BitStream's shared operations (41_bitstream.md R141 to R145). -/

namespace Sys2Proof.Machine

/-- `w = BS.wpos div 64`, the write cursor's word. -/
def BitStream.w (b : BitStream) : Nat := b.wpos / 64

/-- `k = BS.wpos mod 64`, how many bits are pending. -/
def BitStream.k (b : BitStream) : Nat := b.wpos % 64

/-- `commit()` (R141): merge the pending bits into `mem`. -/
def BitStream.commit (b : BitStream) : BitStream :=
  if b.k > 0 then { b with mem := b.mem.set b.w ((b.mem.getD b.w 0 &&& ~~~ lowmask b.k) ||| b.wbuf) } else b

/-- Logical content `L(p)` (R142): what `mem` would hold after a commit. -/
def BitStream.logical (b : BitStream) (p : Nat) : Bool :=
  if p / 64 = b.w ∧ p % 64 < b.k then b.wbuf.getLsbD (p % 64) else getBitAt b.mem p

/-- `getbit(p)` (R143): reads see `mem`, never the write buffer. -/
def BitStream.getbit (b : BitStream) (p : Nat) : Bool := getBitAt b.mem p

/-- The write buffer of a cursor at `pos`, loaded from `mem`: the bits of `pos`'s word below `pos`. -/
def bufferAt (mem : List Word) (pos : Nat) : Word :=
  if pos % 64 > 0 then mem.getD (pos / 64) 0 &&& lowmask (pos % 64) else 0

/-- `grow()` (R144): double the capacity; `none` where it raises `ALLOC`. -/
def BitStream.grow (maxWords : Nat) (b : BitStream) : Option BitStream :=
  let b := b.commit
  if 2 * b.cap > maxWords then none
  else
    let mem := b.mem ++ zeros b.cap
    some { b with mem := mem, cap := 2 * b.cap, wbuf := bufferAt mem b.wpos }

/-- `put(bit)` after the growth step (R145): the cursor is below the capacity. -/
def BitStream.putWithin (b : BitStream) (bit : Bool) : BitStream :=
  let wbuf := b.wbuf ||| (bitWord bit <<< b.k)
  let wpos := b.wpos + 1
  if wpos % 64 = 0 then { b with mem := b.mem.set (wpos / 64 - 1) wbuf, wpos := wpos, wbuf := 0 }
  else { b with wpos := wpos, wbuf := wbuf }

/-- `put(bit)` (R145): write one bit at the write cursor; `none` where the growth raises `ALLOC`. -/
def BitStream.put (maxWords : Nat) (b : BitStream) (bit : Bool) : Option BitStream :=
  if b.wpos = 64 * b.cap then (b.grow maxWords).map (·.putWithin bit) else some (b.putWithin bit)

/-- `put` for each bit of a list in turn. -/
def BitStream.putAll (maxWords : Nat) : List Bool → BitStream → Option BitStream
  | [], b => some b
  | v :: vs, b => (b.put maxWords v).bind (BitStream.putAll maxWords vs)

/-- The flush of R153: commit, and declare the write cursor as the length. -/
def BitStream.flush (b : BitStream) : BitStream := { b.commit with blen := b.wpos }

/-- Byte `j` of the first `n` bits packed (20_memory.md R74): bits at or above `n` are 0. -/
def packByte (m : List Word) (n j : Nat) : Byte :=
  BitVec.ofNat 8 (bitsToNat (fun i => decide (8 * j + i < n) && getBitAt m (8 * j + i)) 8)

/-- The first `n` bits packed into exactly `ceil(n/8)` bytes (R74). -/
def packBytes (m : List Word) (n : Nat) : List Byte := (List.range (ceilDiv n 8)).map (packByte m n)

end Sys2Proof.Machine
end

