-- ==== Sys2Proof/Machine/Engine.lean ====
section
/-! DEFINITION. The SPECK engine: `speck_run(mode, B, maxbits)` (44_speck_engine.md R241 to R257). One text serves both
modes, since only "decide+emit" against "read+apply" differs (R240). -/

namespace Sys2Proof.Machine

/-- `mode ∈ {ENC, DEC}`. -/
inductive Mode where
  | enc
  | dec
deriving DecidableEq, Repr

/-- The outcome of a piece of the engine: it is done, with a value and the state, or `stop(s)` ended the run. -/
inductive Run (α : Type) where
  | done (value : α) (s : State)
  | stop (status : Status) (s : State)

/-- Go on after a piece that is done; a `stop` passes through from however deep (R243). -/
def Run.andThen {α β : Type} (r : Run α) (next : α → State → Run β) : Run β :=
  match r with
  | .done v s => next v s
  | .stop status s => .stop status s

/-- Do `f` for each item in order. -/
def forEach {α : Type} (f : α → State → Run Unit) : List α → State → Run Unit
  | [], s => .done () s
  | x :: xs, s => (f x s).andThen fun _ s => forEach f xs s

/-! ### Bits and the budget (R243) -/

/-- `emit(bit)`. -/
def emit (bit : Bool) (s : State) : Run Unit :=
  if s.wl.nb = s.wl.b.toNat then .stop .ok s
  else
    match s.bs.put s.cfg.maxWords bit with
    | none => .stop .alloc s
    | some bs => .done () { s with bs := bs, wl := { s.wl with nb := s.wl.nb + 1 } }

/-- `take()`. -/
def take (s : State) : Run Bool :=
  if s.wl.nb = s.wl.b.toNat then .stop .ok s
  else if s.bs.rpos ≥ s.bs.blen then .stop .dataShort s
  else
    .done (s.bs.getbit s.bs.rpos)
      { s with bs := { s.bs with rpos := s.bs.rpos + 1 }, wl := { s.wl with nb := s.wl.nb + 1 } }

/-- One coded bit: the encoder emits the bit it decides, the decoder takes it; both go on with that bit. -/
def codeBit (m : Mode) (decideBit : State → Bool) (s : State) : Run Bool :=
  match m with
  | .enc => (emit (decideBit s) s).andThen fun _ s' => .done (decideBit s) s'
  | .dec => take s

/-! ### State updates of the engine -/

/-- `CM.mag[idx] <- v`. -/
def State.setMag (s : State) (idx : Nat) (v : Word) : State := { s with cm := { s.cm with mag := s.cm.mag.set idx v } }

/-- `CM.sgn[idx] <- v`. -/
def State.setSgn (s : State) (idx : Nat) (v : Bool) : State := { s with cm := { s.cm with sgn := s.cm.sgn.set idx v } }

/-- `LIP.wbit(idx, v)`. -/
def State.setLip (s : State) (idx : Nat) (v : Bool) : State := { s with lip := s.lip.wbit idx v }

/-- `WL.LSP <- WL.LSP ++ [idx]`. -/
def State.pushLsp (s : State) (idx : Nat) : State := { s with wl := { s.wl with lsp := s.wl.lsp ++ [idx] } }

/-- `WL.LIS[S.level] <- WL.LIS[S.level] ++ [S]`. -/
def State.pushLis (s : State) (set : CoefSet) : State :=
  { s with wl := { s.wl with lis := s.wl.lis.set set.level (s.wl.lis.getD set.level [] ++ [set]) } }

/-- `WL.LIS[ℓ] <- empty`. -/
def State.clearLis (s : State) (level : Nat) : State := { s with wl := { s.wl with lis := s.wl.lis.set level [] } }

/-- `WL.Idepth <- k`. -/
def State.setIdepth (s : State) (k : Nat) : State := { s with wl := { s.wl with idepth := k } }

/-- `WL.p <- p`. -/
def State.setPlane (s : State) (p : Nat) : State := { s with wl := { s.wl with p := p } }

/-! ### Passes -/

/-- One step of the refinement pass (R245): the next magnitude bit of an `LSP` entry. -/
def refineOne (m : Mode) (idx : Nat) (s : State) : Run Unit :=
  (codeBit m (fun s => (s.cm.mag.getD idx 0).getLsbD s.wl.p) s).andThen fun bit s =>
    match m with
    | .enc => .done () s
    | .dec => .done () (if bit then s.setMag idx (s.cm.mag.getD idx 0 ||| BitVec.twoPow 64 s.wl.p) else s)

/-- The refinement pass (R245): the entries in `LSP` before this bitplane, in order. -/
def refinementPass (m : Mode) (s : State) : Run Unit := forEach (refineOne m) s.wl.lsp s

/-- `process_pixel(idx, listed)` (R247). -/
def processPixel (m : Mode) (listed : Bool) (idx : Nat) (s : State) : Run Unit :=
  (codeBit m (fun s => decide (2 ^ s.wl.p ≤ (s.cm.mag.getD idx 0).toNat)) s).andThen fun sig s =>
    if sig then
      (codeBit m (fun s => s.cm.sgn.getD idx true) s).andThen fun sign s =>
        let s := match m with
          | .enc => s
          | .dec => (s.setMag idx (BitVec.twoPow 64 s.wl.p)).setSgn idx sign
        let s := if listed then s.setLip idx false else s
        .done () (s.pushLsp idx)
    else .done () (if listed then s else s.setLip idx true)

/-- The sorting pass over the LIP (R246): every flagged index, ascending. -/
def lipPass (m : Mode) (s : State) : Run Unit :=
  forEach (fun idx s => if s.lip.rbit idx then processPixel m true idx s else .done () s) (List.range s.cm.n) s

/-- `process_offspring(O)` (R249), `process` being `process_set`. -/
def processOffspring (m : Mode) (process : CoefSet → State → Run Bool) (o : CoefSet) (s : State) : Run Unit :=
  if o.isPixel then processPixel m false (elemIdx s.cm.ext o.origin) s
  else (process o s).andThen fun sig s => .done () (if sig then s else s.pushLis o)

/-- `process_set(S)` (R249): depth first. `depth` bounds the recursion, which R249 bounds by `K`; it is never
exhausted (log 11). -/
def processSet (m : Mode) : Nat → CoefSet → State → Run Bool
  | 0, _, s => .done false s
  | depth + 1, set, s =>
    (codeBit m (fun s => s.cm.significant s.wl.p set) s).andThen fun sig s =>
      if sig then
        (forEach (processOffspring m (processSet m depth)) (splitS set) s).andThen fun _ s => .done true s
      else .done false s

/-- One set of the list being drained (R248): an insignificant set stays in its list. -/
def lisOne (m : Mode) (level : Nat) (set : CoefSet) (s : State) : Run Unit :=
  (processSet m s.wl.k set s).andThen fun sig s =>
    .done () (if sig then s else { s with wl := { s.wl with lis := s.wl.lis.set level (s.wl.lis.getD level [] ++ [set]) } })

/-- Drain the list of one level (R248). -/
def lisLevel (m : Mode) (level : Nat) (s : State) : Run Unit :=
  forEach (lisOne m level) (s.wl.lis.getD level []) (s.clearLis level)

/-- The levels `n-1 .. 0`, from the most recently created to the coarsest (R248). -/
def lisLevels (m : Mode) : Nat → State → Run Unit
  | 0, s => .done () s
  | n + 1, s => (lisLevel m n s).andThen fun _ s => lisLevels m n s

/-- The sorting pass over the LIS (R248). -/
def lisPass (m : Mode) (s : State) : Run Unit := lisLevels m (s.wl.k + 1) s

/-- The drain loop of the TypeI pass (R250), at depth `k`. -/
def typeIPassAt (m : Mode) : Nat → State → Run Unit
  | 0, s => .done () s
  | k + 1, s =>
    (codeBit m (fun s => s.cm.significantI s.wl.p (k + 1)) s).andThen fun sig s =>
      if sig then
        (forEach (processOffspring m (processSet m s.wl.k)) (splitI s.cm.ext (k + 1)) (s.setIdepth k)).andThen fun _ s =>
          typeIPassAt m k s
      else .done () s

/-- The sorting pass over TypeI (R250). -/
def typeIPass (m : Mode) (s : State) : Run Unit := typeIPassAt m s.wl.idepth s

/-- One bitplane (R244). -/
def plane (m : Mode) (p : Nat) (s : State) : Run Unit :=
  (refinementPass m (s.setPlane p)).andThen fun _ s =>
    (lipPass m s).andThen fun _ s =>
      (lisPass m s).andThen fun _ s => typeIPass m s

/-- The bitplanes `n-1 .. 0` (R244). -/
def planes (m : Mode) : Nat → State → Run Unit
  | 0, s => .done () s
  | p + 1, s => (plane m p s).andThen fun _ s => planes m p s

/-! ### The whole run -/

/-- The contents `CM` has after `CM_SHAPE` and at the start of a decode: magnitude 0, sign 1 (R36). -/
def CoefMem.cleared (cm : CoefMem) : CoefMem :=
  { cm with mag := List.replicate cm.n 0, sgn := List.replicate cm.n true }

/-- Initialisation (R242). -/
def speckInit (m : Mode) (budget : Word) (s : State) : State :=
  let depth := rootDepth s.cm.ext
  { s with
    wl := { k := depth, lis := List.replicate (depth + 1) [], lsp := [], idepth := depth, p := 0, nb := 0, b := budget }
    lip := ((s.lip.resize 0).resize s.cm.n).wbit 0 true
    cm := match m with
      | .enc => s.cm
      | .dec => s.cm.cleared }

/-- The end of a run, on every `stop` but `ALLOC` (R257): the encoder flushes; the mask and the worklists are freed. -/
def speckEnd (m : Mode) (s : State) : State :=
  { s with
    bs := match m with
      | .enc => s.bs.flush
      | .dec => s.bs
    lip := s.lip.resize 0
    wl := .empty }

/-- `(s, nb) <- speck_run(mode, B, maxbits)` (R244, R257), with the state it leaves. -/
def speckRun (m : Mode) (budget : Word) (maxbits : Nat) (s : State) : Status × Nat × State :=
  match planes m (maxbits + 1) (speckInit m budget s) with
  | .done _ s' => (.ok, s'.wl.nb, speckEnd m s')
  | .stop status s' => if status = .alloc then (.alloc, s'.wl.nb, s') else (status, s'.wl.nb, speckEnd m s')

/-- `M`, the greatest magnitude in `CM` (R241). -/
def CoefMem.maxMag (cm : CoefMem) : Nat := cm.mag.foldl (fun m v => max m v.toNat) 0

/-- `maxbits`: `flog2(M)`, or 0 when every magnitude is 0 (R241). -/
def CoefMem.maxbits (cm : CoefMem) : Nat := if cm.maxMag = 0 then 0 else flog2 cm.maxMag

end Sys2Proof.Machine
end

