-- ==== Sys2Proof/Machine/CoefficientCommands.lean ====
section
/-! DEFINITION. The coefficient memory commands (43_coefficient_memory_and_sets.md R210, R214, R215). -/

namespace Sys2Proof.Machine

/-- `CM` freshly shaped: every magnitude 0, every sign 1 (R210, 10_state.md R36). -/
def CoefMem.shaped (d : Nat) (ext : Tri) : CoefMem := CoefMem.cleared { d := d, ext := ext, mag := [], sgn := [] }

/-- The extents of a `CM_SHAPE`: the operand of a used dimension, 1 for an unused one (R210). -/
def shapeExtents (d : Nat) (n0 n1 n2 : Word) : Tri :=
  ⟨n0.toNat, if d ≥ 2 then n1.toNat else 1, if d ≥ 3 then n2.toNat else 1⟩

/-- `CM_SHAPE` (R210). -/
def execCmShape (d : Byte) (n0 n1 n2 : Word) (s : State) : Result :=
  unlessFaulted s fun s =>
    let ext := shapeExtents d.toNat n0 n1 n2
    if !legalDim d then raise .illegal s
    else if !unusedExtentsZero d n1 n2 then raise .illegal s
    else if ext.x = 0 ∨ ext.y = 0 ∨ ext.z = 0 then raise .arg s
    else if ext.volume ≤ s.cfg.maxElems then
      finishOk (BitVec.ofNat 64 ext.volume) 0 { s with cm := .shaped d.toNat ext }
    else raise .alloc s

/-- `CM_ST` (R214). -/
def execCmSt (sign : Bool) (idx mag : Word) (s : State) : Result :=
  unlessFaulted s fun s =>
    if idx.toNat < s.cm.n then finishOk 0 0 ((s.setMag idx.toNat mag).setSgn idx.toNat sign) else raise .range s

/-- `CM_LD` (R215). -/
def execCmLd (idx : Word) (s : State) : Result :=
  unlessFaulted s fun s =>
    if idx.toNat < s.cm.n then finishOk (s.cm.mag.getD idx.toNat 0) (bitWord (s.cm.sgn.getD idx.toNat true)) s
    else raise .range s

end Sys2Proof.Machine
end

