-- ==== Sys2Proof/Machine/Real.lean ====
section
/-! DEFINITION. The binary64 operations of 45_outlier_coder.md R291, on bit patterns (00_scope.md R10), computed
exactly on naturals and rounded once, to nearest with ties to even. A finite value is `±m · 2^e · 2^-1074` with
naturals `m` and `e`, so every finite magnitude is a natural number of units `2^-1074`. -/

namespace Sys2Proof.Machine.Real

/-- Sign bit 63. -/
def neg (x : Word) : Bool := x.getLsbD 63

/-- Exponent bits 62:52. -/
def expField (x : Word) : Nat := (x.extractLsb' 52 11).toNat

/-- Fraction bits 51:0. -/
def fracField (x : Word) : Nat := (x.extractLsb' 0 52).toNat

/-- Neither an infinity nor a NaN. -/
def finite (x : Word) : Bool := expField x != 0x7FF

/-- A NaN: the greatest exponent with a non-zero fraction. -/
def isNaN (x : Word) : Bool := expField x == 0x7FF && fracField x != 0

/-- `x` with bit 63 cleared. -/
def fabs (x : Word) : Word := x &&& 0x7FFFFFFFFFFFFFFF

/-- `x` with bit 63 flipped. -/
def fnegate (x : Word) : Word := x ^^^ 0x8000000000000000

/-- The pattern of +infinity, as a number. -/
def infBits : Nat := 0x7FF0000000000000

/-- The magnitude of a finite `x` in units of `2^-1074`: subnormal `frac`, normal `(2^52 + frac) · 2^(exp-1)`. -/
def units (x : Word) : Nat := if expField x = 0 then fracField x else (2 ^ 52 + fracField x) * 2 ^ (expField x - 1)

/-- An ordering key: the reals are ordered as their sign-magnitude patterns, `-0` and `+0` being equal. -/
def key (x : Word) : Int := if neg x then -((fabs x).toNat : Int) else ((fabs x).toNat : Int)

/-- `x ≥ y` as reals; false if either is a NaN. -/
def fge (x y : Word) : Bool := !isNaN x && !isNaN y && decide (key y ≤ key x)

/-- `x < y` as reals; false if either is a NaN. -/
def flt (x y : Word) : Bool := !isNaN x && !isNaN y && decide (key x < key y)

/-- `num / den` rounded to the nearest natural number, ties to even. -/
def roundDiv (num den : Nat) : Nat :=
  let q := num / den
  let r := num % den
  if 2 * r > den ∨ (2 * r = den ∧ q % 2 = 1) then q + 1 else q

/-- The pattern (bits 62:0) of the binary64 nearest to the non-negative rational `num / den` units of `2^-1074`, ties to
even: 53 significant bits are kept, and a value beyond the greatest finite number gives infinity. -/
def roundUnits (num den : Nat) : Nat :=
  let u := Nat.log2 (num / den) - 52
  min (u * 2 ^ 52 + roundDiv num (den * 2 ^ u)) infBits

/-- A pattern with its sign. -/
def withSign (negative : Bool) (mag : Nat) : Word :=
  BitVec.ofNat 64 mag ||| (if negative then 0x8000000000000000 else 0)

/-- A quiet NaN; its payload is not stated (log 10). -/
def nanOf (x y : Word) : Word := 0x7FF8000000000000 ||| (Config.nanPayload x y &&& 0x8007FFFFFFFFFFFF)

/-- An infinity. -/
def isInf (x : Word) : Bool := expField x == 0x7FF && fracField x == 0

/-- A zero of either sign. -/
def isZero (x : Word) : Bool := fabs x == 0

/-- The IEEE 754 quotient; on finite non-zero operands the binary64 nearest to the exact quotient. -/
def fdiv (x y : Word) : Word :=
  let s := neg x != neg y
  if isNaN x || isNaN y || (isZero x && isZero y) || (isInf x && isInf y) then nanOf x y
  else if isInf x || isZero y then withSign s infBits
  else if isInf y || isZero x then withSign s 0
  else withSign s (roundUnits (units x * 2 ^ 1074) (units y))

/-- The IEEE 754 product; on finite operands the binary64 nearest to the exact product. -/
def fmul (x y : Word) : Word :=
  let s := neg x != neg y
  if isNaN x || isNaN y || (isInf x && isZero y) || (isZero x && isInf y) then nanOf x y
  else if isInf x || isInf y then withSign s infBits
  else withSign s (roundUnits (units x * units y) (2 ^ 1074))

/-- The binary64 nearest to an unsigned integer. -/
def ofNat (m : Nat) : Word := BitVec.ofNat 64 (roundUnits (m * 2 ^ 1074) 1)

/-- `u2f(m)`. -/
def u2f (m : Word) : Word := ofNat m.toNat

/-- `roundToIntegralTiesToEven`: exact; an infinity or a NaN is itself. -/
def rintEven (x : Word) : Word :=
  if finite x then withSign (neg x) (roundUnits (roundDiv (units x) (2 ^ 1074) * 2 ^ 1074) 1) else x

/-- `f2u(x)`: for an integral `x` with `0 ≤ x < 2^64`, that integer; for any other `x`, one that is no integer included,
R291 states no value: a free value (log 10). -/
def f2u (x : Word) : Word :=
  if finite x && (!neg x || isZero x) && units x % 2 ^ 1074 == 0 && decide (units x < 2 ^ (1074 + 64)) then
    BitVec.ofNat 64 (units x / 2 ^ 1074)
  else Config.f2uOutside x

/-- The binary64 `2^64`. -/
def two64 : Word := 0x43F0000000000000

end Sys2Proof.Machine.Real
end

