-- ==== Sys2Proof/Machine/OutlierCommands.lean ====
section
/-! DEFINITION. The Outlier Coder commands (45_outlier_coder.md R292 to R296). -/

namespace Sys2Proof.Machine

/-- `OUT_TOL` (R292): the tolerance is finite and greater than zero. -/
def execOutTol (tau : Word) (s : State) : Result :=
  unlessFaulted s fun s =>
    if Real.finite tau && Real.flt 0 tau then finishOk 0 0 { s with oc := { tol := tau, tolv := true } }
    else raise .arg s

/-- One outlier record of `XB` (R293): the position word and the error, a binary64 pattern. -/
structure OutlierRecord where
  pos : Nat
  error : Word
deriving DecidableEq, Repr

/-- Record `j` of the list at address `a` (R293). -/
def Memory.outlierRecord (m : Memory) (a j : Nat) : OutlierRecord :=
  { pos := (m.readWord (a + 16 * j)).toNat, error := m.readWord (a + 16 * j + 8) }

/-- The `c` records of the list at address `a`. -/
def Memory.outlierRecords (m : Memory) (a c : Nat) : List OutlierRecord := (List.range c).map (m.outlierRecord a)

/-- The quantized magnitude `q = rint_even(fdiv(|e|, τ))`, a binary64 pattern (R294 check 6(c)). -/
def quantize (tau error : Word) : Word := Real.rintEven (Real.fdiv (Real.fabs error) tau)

/-- Checks 6(a) to 6(d) of R294 on one record, `seen` being the earlier records' positions; `none` if it is sound. -/
def checkRecord (tau : Word) (n : Nat) (seen : List Nat) (r : OutlierRecord) : Option Status :=
  if ¬ r.pos < n then some .range
  else if !(Real.finite r.error && Real.fge (Real.fabs r.error) tau) then some .arg
  else if !Real.flt (quantize tau r.error) Real.two64 then some .arg
  else if r.pos ∈ seen then some .arg
  else none

/-- Check 6 of R294: record by record, the first failure decides. -/
def checkRecords (tau : Word) (n : Nat) : List Nat → List OutlierRecord → Option Status
  | _, [] => none
  | seen, r :: rs =>
    match checkRecord tau n seen r with
    | some status => some status
    | none => checkRecords tau n (r.pos :: seen) rs

/-- Store one record's magnitude and sign in the dense arrays (R294). -/
def CoefMem.placeOutlier (tau : Word) (cm : CoefMem) (r : OutlierRecord) : CoefMem :=
  { cm with
    mag := cm.mag.set r.pos (Real.f2u (quantize tau r.error))
    sgn := cm.sgn.set r.pos (!Real.neg r.error) }

/-- The dense arrays of size `n` that hold the records (R294). -/
def denseOutliers (tau : Word) (n : Nat) (records : List OutlierRecord) : CoefMem :=
  records.foldl (CoefMem.placeOutlier tau) (.shaped 1 ⟨n, 1, 1⟩)

/-- The width selector: the narrowest of 8, 16, 32, 64 bits that holds `M` (R294, R295). -/
def selectWidth (m : Nat) : Nat :=
  if m ≤ 2 ^ 8 - 1 then 0 else if m ≤ 2 ^ 16 - 1 then 1 else if m ≤ 2 ^ 32 - 1 then 2 else 3

/-- Checks 1 to 6 of `OUT_ENC` in order (R294); `none` if all pass. -/
def outEncCheck (addr count len : Word) (s : State) : Option Status :=
  if !aligned8 addr then some .align
  else if !s.xbHolds addr (16 * count.toNat) then some .range
  else if !s.oc.tolv then some .arg
  else if len.toNat = 0 then some .arg
  else if len.toNat > s.cfg.maxElems then some .alloc
  else checkRecords s.oc.tol len.toNat [] (s.xb.outlierRecords addr.toNat count.toNat)

/-- `OUT_ENC` (R294). -/
def execOutEnc (addr count len : Word) (s : State) : Result :=
  unlessFaulted s fun s =>
    match outEncCheck addr count len s with
    | some status => raise status s
    | none =>
      let cm := denseOutliers s.oc.tol len.toNat (s.xb.outlierRecords addr.toNat count.toNat)
      let (status, nb, s') := speckRun .enc all1 cm.maxbits { s with cm := cm }
      endCommand status (BitVec.ofNat 64 nb) (BitVec.ofNat 64 (selectWidth cm.maxMag * 2 ^ 8 + cm.maxbits)) s'

/-- Checks 1 to 7 of `OUT_DEC` in order (R296); `none` if all pass. -/
def outDecCheck (maxbits wsel : Byte) (addr len : Word) (s : State) : Option Status :=
  if maxbits.toNat > 63 || wsel.toNat > 3 then some .illegal
  else if !aligned8 addr then some .align
  else if !s.xbHolds addr 0 then some .range
  else if !s.oc.tolv then some .arg
  else if len.toNat = 0 then some .arg
  else if len.toNat > s.cfg.maxElems then some .alloc
  else if maxbits.toNat ≥ selectedWidth wsel.toNat then some .dataWidth
  else none

/-- The positions with a non-zero magnitude, ascending (R296). -/
def CoefMem.outlierPositions (cm : CoefMem) : List Nat := (List.range cm.n).filter fun idx => cm.mag.getD idx 0 != 0

/-- The reconstructed value `(sign ? +1 : -1) × τ × magnitude` of an element (R296). -/
def CoefMem.outlierValue (tau : Word) (cm : CoefMem) (idx : Nat) : Word :=
  let v := Real.fmul tau (Real.u2f (cm.mag.getD idx 0))
  if cm.sgn.getD idx true then v else Real.fnegate v

/-- The words of the output list, two for each outlier in ascending position order (R293, R296). -/
def CoefMem.outlierWords (tau : Word) (cm : CoefMem) : List Word :=
  cm.outlierPositions.flatMap fun idx => [BitVec.ofNat 64 idx, cm.outlierValue tau idx]

/-- The end of `OUT_DEC` after the decode (R296): on `DATA_SHORT` no list is written; a list that does not fit `XB` is
the late `RANGE`; else the records are written. -/
def endOutDec (addr : Word) (status : Status) (nb : Nat) (s : State) : Result :=
  if status = .dataShort then endCommand .dataShort 0 (BitVec.ofNat 64 nb) s
  else
    let c := s.cm.outlierPositions.length
    if s.xbHolds addr (16 * c) then
      finishOk (BitVec.ofNat 64 c) (BitVec.ofNat 64 nb)
        { s with xb := s.xb.writeWords addr.toNat (s.cm.outlierWords s.oc.tol) }
    else raise .range s

/-- `OUT_DEC` (R296). -/
def execOutDec (maxbits wsel : Byte) (addr len : Word) (s : State) : Result :=
  unlessFaulted s fun s =>
    match outDecCheck maxbits wsel addr len s with
    | some status => raise status s
    | none =>
      let (status, nb, s') := speckRun .dec all1 maxbits.toNat { s with cm := .shaped 1 ⟨len.toNat, 1, 1⟩ }
      endOutDec addr status nb s'

end Sys2Proof.Machine
end

