-- ==== Sys2Proof/Machine/SpeckCommands.lean ====
section
/-! DEFINITION. The SPECK engine commands (44_speck_engine.md R260 to R262). -/

namespace Sys2Proof.Machine

/-- `SPK_ENC` (R260). -/
def execSpkEnc (budget : Word) (s : State) : Result :=
  unlessFaulted s fun s =>
    if s.cm.n = 0 then raise .arg s
    else
      let maxbits := s.cm.maxbits
      let (status, nb, s') := speckRun .enc budget maxbits s
      endCommand status (BitVec.ofNat 64 nb) (BitVec.ofNat 64 maxbits) s'

/-- `SPK_DEC` (R261, R262). -/
def execSpkDec (maxbits : Byte) (budget : Word) (s : State) : Result :=
  unlessFaulted s fun s =>
    if maxbits.toNat > 63 then raise .illegal s
    else if s.cm.n = 0 then raise .arg s
    else
      let (status, nb, s') := speckRun .dec budget maxbits.toNat s
      endCommand status (BitVec.ofNat 64 nb) 0 s'

end Sys2Proof.Machine
end

