-- ==== Sys2Proof/Machine/StreamCommands.lean ====
section
/-! DEFINITION. The BitStream commands (41_bitstream.md R146 to R158). -/

namespace Sys2Proof.Machine

/-- `64 · BS.cap`, the capacity in bits (10_state.md R27). -/
def BitStream.capBits (b : BitStream) : Nat := 64 * b.cap

/-- A write through the cursor ends: `OK` with the new stream, or `ALLOC` where the growth failed. -/
def endWrite (written : Option BitStream) (s : State) : Result :=
  match written with
  | none => raise .alloc s
  | some bs => finishOk 0 0 { s with bs := bs }

/-- `BS_WBIT` (R146). -/
def execBsWbit (bit : Bool) (s : State) : Result :=
  unlessFaulted s fun s => endWrite (s.bs.put s.cfg.maxWords bit) s

/-- The first `n` bits of a word, bit 0 first (R147). -/
def lowBits (v : Word) (n : Nat) : List Bool := (List.range n).map v.getLsbD

/-- `BS_WBITS` (R147). -/
def execBsWbits (n : Byte) (value : Word) (s : State) : Result :=
  unlessFaulted s fun s =>
    if n.toNat > 64 then raise .illegal s
    else endWrite (s.bs.putAll s.cfg.maxWords (lowBits value n.toNat)) s

/-- `BS_RBIT` (R148). -/
def execBsRbit (s : State) : Result :=
  unlessFaulted s fun s =>
    if s.bs.rpos < s.bs.capBits then
      finishOk (bitWord (s.bs.getbit s.bs.rpos)) 0 { s with bs := { s.bs with rpos := s.bs.rpos + 1 } }
    else raise .range s

/-- `Σ_{i<n} getbit(rpos + i) · 2^i` (R149). -/
def BitStream.readBits (b : BitStream) (n : Nat) : Word := BitVec.ofNat 64 (bitsToNat (fun i => b.getbit (b.rpos + i)) n)

/-- `BS_RBITS` (R149). -/
def execBsRbits (n : Byte) (s : State) : Result :=
  unlessFaulted s fun s =>
    if n.toNat > 64 then raise .illegal s
    else if s.bs.rpos + n.toNat ≤ s.bs.capBits then
      finishOk (s.bs.readBits n.toNat) 0 { s with bs := { s.bs with rpos := s.bs.rpos + n.toNat } }
    else raise .range s

/-- `BS_REWIND` (R150). -/
def execBsRewind (s : State) : Result :=
  unlessFaulted s fun s => finishOk 0 0 { s with bs := { s.bs.commit with wpos := 0, rpos := 0, wbuf := 0 } }

/-- Move the write cursor: commit, then load the write buffer from the target word (R151). -/
def BitStream.seekWrite (b : BitStream) (pos : Nat) : BitStream :=
  let b := b.commit
  { b with wpos := pos, wbuf := bufferAt b.mem pos }

/-- `BS_WSEEK` (R151). -/
def execBsWseek (pos : Word) (s : State) : Result :=
  unlessFaulted s fun s =>
    if pos.toNat ≤ s.bs.capBits then finishOk 0 0 { s with bs := s.bs.seekWrite pos.toNat } else raise .range s

/-- `BS_RSEEK` (R152). -/
def execBsRseek (pos : Word) (s : State) : Result :=
  unlessFaulted s fun s =>
    if pos.toNat ≤ s.bs.capBits then finishOk 0 0 { s with bs := { s.bs with rpos := pos.toNat } } else raise .range s

/-- `BS_FLUSH` (R153). -/
def execBsFlush (s : State) : Result :=
  unlessFaulted s fun s => finishOk (BitVec.ofNat 64 s.bs.wpos) 0 { s with bs := s.bs.flush }

/-- `BS_RRBIT` (R154). -/
def execBsRrbit (pos : Word) (s : State) : Result :=
  unlessFaulted s fun s =>
    if pos.toNat < s.bs.capBits then finishOk (bitWord (s.bs.getbit pos.toNat)) 0 s else raise .range s

/-- A random write: commit, set the bit in `mem`, reload the write buffer (R155). -/
def BitStream.randomWrite (b : BitStream) (pos : Nat) (bit : Bool) : BitStream :=
  let b := b.commit
  let mem := setBitAt b.mem pos bit
  { b with mem := mem, wbuf := bufferAt mem b.wpos }

/-- `BS_RWBIT` (R155). -/
def execBsRwbit (bit : Bool) (pos : Word) (s : State) : Result :=
  unlessFaulted s fun s =>
    if pos.toNat < s.bs.capBits then finishOk 0 0 { s with bs := s.bs.randomWrite pos.toNat bit } else raise .range s

/-- Some bit of `[start, start+len)` is 1 (R156). -/
def BitStream.testRange (b : BitStream) (start len : Nat) : Bool := (List.range len).any fun i => b.getbit (start + i)

/-- `BS_TEST` (R156). -/
def execBsTest (start len : Word) (s : State) : Result :=
  unlessFaulted s fun s =>
    if start.toNat + len.toNat ≤ s.bs.capBits then finishOk (bitWord (s.bs.testRange start.toNat len.toNat)) 0 s
    else raise .range s

/-- `BS_GET` (R157). -/
def execBsGet (addr : Word) (s : State) : Result :=
  unlessFaulted s fun s =>
    let n := s.bs.wpos
    let nbytes := ceilDiv n 8
    if s.xbHolds addr nbytes then
      let bs := s.bs.flush
      finishOk (BitVec.ofNat 64 n) (BitVec.ofNat 64 nbytes)
        { s with bs := bs, xb := s.xb.writeBytes addr.toNat (packBytes bs.mem n) }
    else raise .range s

/-- The least `cap · 2^j` that is at least `nw` (R158). -/
def parseCap (cap nw : Nat) : Nat := cap * 2 ^ clog2 (ceilDiv nw cap)

/-- Stream bit `p` of the `n` bits packed in `XB` from address `a`, 0 at or above `n` (20_memory.md R74, R158). -/
def packedBit (m : Memory) (a n p : Nat) : Bool := decide (p < n) && (m.readByte (a + p / 8)).getLsbD (p % 8)

/-- Word `j` of the parsed stream. -/
def parsedWord (m : Memory) (a n j : Nat) : Word := BitVec.ofNat 64 (bitsToNat (fun i => packedBit m a n (64 * j + i)) 64)

/-- The stream after parsing `n` bits (R158), `cap` being the new capacity. -/
def BitStream.parse (b : BitStream) (cap : Nat) (m : Memory) (a n : Nat) : BitStream :=
  let nw := ceilDiv n 64
  let old := b.commit.mem ++ zeros (cap - b.cap)
  { cap := cap, mem := (List.range nw).map (parsedWord m a n) ++ old.drop nw, wpos := 0, rpos := 0, wbuf := 0, blen := n }

/-- `BS_PARSE` (R158). -/
def execBsParse (addr bits : Word) (s : State) : Result :=
  unlessFaulted s fun s =>
    let n := bits.toNat
    if s.xbHolds addr (ceilDiv n 8) then
      let cap := parseCap s.bs.cap (ceilDiv n 64)
      if cap ≤ s.cfg.maxWords then finishOk 0 0 { s with bs := s.bs.parse cap s.xb addr.toNat n } else raise .alloc s
    else raise .range s

end Sys2Proof.Machine
end

