-- ==== Sys2Proof/Machine/SystemCommands.lean ====
section
/-! DEFINITION. The system commands (40_system.md R130 to R132). -/

namespace Sys2Proof.Machine

/-- `NOP` (R130). -/
def execNop (s : State) : Result := unlessFaulted s fun s => finishOk 0 0 s

/-- Every unit at its reset value but `XB`, which is left unchanged (10_state.md R65, 70_reset_and_hazards.md R371). The
ports, the parameters and the model's own counter are not units and stay (log 12). -/
def State.resetUnits (s : State) : State :=
  { s with
    st := .reset, bs := .reset s.cfg.cap0Words, mask := .empty, lip := .empty, cm := .unshaped, wl := .empty, oc := .reset }

/-- `RESET` (R131): the one command that is accepted while faulted. -/
def execReset (s : State) : Result := finishOk 0 0 s.resetUnits

/-- `RDREG` (R132): the value is read before `LASTST` is written. -/
def execRdreg (reg : Byte) (s : State) : Result :=
  unlessFaulted s fun s =>
    match s.regValue reg with
    | none => raise .illegal s
    | some v => finishOk v 0 s

end Sys2Proof.Machine
end

