-- ==== Sys2Proof/Machine/Dispatch.lean ====
section
/-! DEFINITION. The dispatch of a decoded command to its meaning, one arm per constructor. -/

namespace Sys2Proof.Machine

def exec (i : Instr) (s : State) : Host.Outcome State Fault Refusal :=
  match i with
  | .nop => Sys2Proof.Machine.execNop s
  | .reset => Sys2Proof.Machine.execReset s
  | .rdreg reg => Sys2Proof.Machine.execRdreg reg s
  | .bsWbit bit => Sys2Proof.Machine.execBsWbit bit s
  | .bsWbits n value => Sys2Proof.Machine.execBsWbits n value s
  | .bsRbit => Sys2Proof.Machine.execBsRbit s
  | .bsRbits n => Sys2Proof.Machine.execBsRbits n s
  | .bsRewind => Sys2Proof.Machine.execBsRewind s
  | .bsWseek pos => Sys2Proof.Machine.execBsWseek pos s
  | .bsRseek pos => Sys2Proof.Machine.execBsRseek pos s
  | .bsFlush => Sys2Proof.Machine.execBsFlush s
  | .bsRrbit pos => Sys2Proof.Machine.execBsRrbit pos s
  | .bsRwbit bit pos => Sys2Proof.Machine.execBsRwbit bit pos s
  | .bsTest start len => Sys2Proof.Machine.execBsTest start len s
  | .bsGet addr => Sys2Proof.Machine.execBsGet addr s
  | .bsParse addr bits => Sys2Proof.Machine.execBsParse addr bits s
  | .mkResize size => Sys2Proof.Machine.execMkResize size s
  | .mkReset => Sys2Proof.Machine.execMkReset s
  | .mkRbit idx => Sys2Proof.Machine.execMkRbit idx s
  | .mkWbit bit idx => Sys2Proof.Machine.execMkWbit bit idx s
  | .mkWtrue idx => Sys2Proof.Machine.execMkWtrue idx s
  | .mkWfalse idx => Sys2Proof.Machine.execMkWfalse idx s
  | .mkCount => Sys2Proof.Machine.execMkCount s
  | .mkHas start len => Sys2Proof.Machine.execMkHas start len s
  | .mkView addr => Sys2Proof.Machine.execMkView addr s
  | .mkUse addr => Sys2Proof.Machine.execMkUse addr s
  | .cmShape d n0 n1 n2 => Sys2Proof.Machine.execCmShape d n0 n1 n2 s
  | .cmSt sign idx mag => Sys2Proof.Machine.execCmSt sign idx mag s
  | .cmLd idx => Sys2Proof.Machine.execCmLd idx s
  | .spkEnc budget => Sys2Proof.Machine.execSpkEnc budget s
  | .spkDec maxbits budget => Sys2Proof.Machine.execSpkDec maxbits budget s
  | .outTol tau => Sys2Proof.Machine.execOutTol tau s
  | .outEnc addr count len => Sys2Proof.Machine.execOutEnc addr count len s
  | .outDec maxbits wsel addr len => Sys2Proof.Machine.execOutDec maxbits wsel addr len s
  | .xbSt8 value addr => Sys2Proof.Machine.execXbSt8 value addr s
  | .xbLd8 addr => Sys2Proof.Machine.execXbLd8 addr s
  | .xbSt64 addr value => Sys2Proof.Machine.execXbSt64 addr value s
  | .xbLd64 addr => Sys2Proof.Machine.execXbLd64 addr s

end Sys2Proof.Machine
end

