-- ==== Sys2Proof/Machine/Step.lean ====
section
/-! DEFINITION. One step of the CORE: accept the next frame, decode it, execute it (10_state.md R20, R22; 30_encoding.md R102). -/

namespace Sys2Proof.Machine

/-- One step: the next frame of the command port is run to completion. With no frame presented the CORE waits and all
state survives (60_exceptions.md R351, 70_reset_and_hazards.md R370). -/
def step (s : State) : Host.Outcome State Fault Refusal :=
  match s.accept with
  | none => .next s
  | some (f, s') =>
    match decode f with
    | .ok i => exec i s'
    | .error _ => rejectFrame f s'

/-- `s` with the frame whose bits are `w` as the one the next step accepts (log 1). -/
def State.withFetchWord (s : State) (nbits w : Nat) : State := s.present (Frame.ofBits nbits w)

end Sys2Proof.Machine
end

