-- ==== Sys2Proof/Machine/Assembly.lean ====
section
/-! DEFINITION. The assembler's names and syntax (30_encoding.md R109, R110). Nothing of the machine reads them. -/

namespace Sys2Proof.Machine

/-- The mnemonic of a command (R106). -/
def mnemonicOf : Instr → String
  | .nop => "NOP"
  | .reset => "RESET"
  | .rdreg _ => "RDREG"
  | .bsWbit _ => "BS_WBIT"
  | .bsWbits _ _ => "BS_WBITS"
  | .bsRbit => "BS_RBIT"
  | .bsRbits _ => "BS_RBITS"
  | .bsRewind => "BS_REWIND"
  | .bsWseek _ => "BS_WSEEK"
  | .bsRseek _ => "BS_RSEEK"
  | .bsFlush => "BS_FLUSH"
  | .bsRrbit _ => "BS_RRBIT"
  | .bsRwbit _ _ => "BS_RWBIT"
  | .bsTest _ _ => "BS_TEST"
  | .bsGet _ => "BS_GET"
  | .bsParse _ _ => "BS_PARSE"
  | .mkResize _ => "MK_RESIZE"
  | .mkReset => "MK_RESET"
  | .mkRbit _ => "MK_RBIT"
  | .mkWbit _ _ => "MK_WBIT"
  | .mkWtrue _ => "MK_WTRUE"
  | .mkWfalse _ => "MK_WFALSE"
  | .mkCount => "MK_COUNT"
  | .mkHas _ _ => "MK_HAS"
  | .mkView _ => "MK_VIEW"
  | .mkUse _ => "MK_USE"
  | .cmShape _ _ _ _ => "CM_SHAPE"
  | .cmSt _ _ _ => "CM_ST"
  | .cmLd _ => "CM_LD"
  | .spkEnc _ => "SPK_ENC"
  | .spkDec _ _ => "SPK_DEC"
  | .outTol _ => "OUT_TOL"
  | .outEnc _ _ _ => "OUT_ENC"
  | .outDec _ _ _ _ => "OUT_DEC"
  | .xbSt8 _ _ => "XB_ST8"
  | .xbLd8 _ => "XB_LD8"
  | .xbSt64 _ _ => "XB_ST64"
  | .xbLd64 _ => "XB_LD64"

/-- The used fields in the order `a`, `b`, `P`, `Q`, `R` (R109). -/
def operandsOf : Instr → List Nat
  | .nop => []
  | .reset => []
  | .rdreg reg => [reg.toNat]
  | .bsWbit bit => [bit.toNat]
  | .bsWbits n value => [n.toNat, value.toNat]
  | .bsRbit => []
  | .bsRbits n => [n.toNat]
  | .bsRewind => []
  | .bsWseek pos => [pos.toNat]
  | .bsRseek pos => [pos.toNat]
  | .bsFlush => []
  | .bsRrbit pos => [pos.toNat]
  | .bsRwbit bit pos => [bit.toNat, pos.toNat]
  | .bsTest start len => [start.toNat, len.toNat]
  | .bsGet addr => [addr.toNat]
  | .bsParse addr bits => [addr.toNat, bits.toNat]
  | .mkResize size => [size.toNat]
  | .mkReset => []
  | .mkRbit idx => [idx.toNat]
  | .mkWbit bit idx => [bit.toNat, idx.toNat]
  | .mkWtrue idx => [idx.toNat]
  | .mkWfalse idx => [idx.toNat]
  | .mkCount => []
  | .mkHas start len => [start.toNat, len.toNat]
  | .mkView addr => [addr.toNat]
  | .mkUse addr => [addr.toNat]
  | .cmShape d n0 n1 n2 => [d.toNat, n0.toNat, n1.toNat, n2.toNat]
  | .cmSt sign idx mag => [sign.toNat, idx.toNat, mag.toNat]
  | .cmLd idx => [idx.toNat]
  | .spkEnc budget => [budget.toNat]
  | .spkDec maxbits budget => [maxbits.toNat, budget.toNat]
  | .outTol tau => [tau.toNat]
  | .outEnc addr count len => [addr.toNat, count.toNat, len.toNat]
  | .outDec maxbits wsel addr len => [maxbits.toNat, wsel.toNat, addr.toNat, len.toNat]
  | .xbSt8 value addr => [value.toNat, addr.toNat]
  | .xbLd8 addr => [addr.toNat]
  | .xbSt64 addr value => [addr.toNat, value.toNat]
  | .xbLd64 addr => [addr.toNat]

/-- A command written as R109 says: the mnemonic, then the used fields as decimal numbers separated by commas. -/
def asmText (i : Instr) : String :=
  match operandsOf i with
  | [] => mnemonicOf i
  | os => mnemonicOf i ++ " " ++ String.intercalate ", " (os.map toString)

/-- The name of a status (R104). -/
def statusName : Status → String
  | .ok => "OK"
  | .illegal => "ILLEGAL"
  | .range => "RANGE"
  | .align => "ALIGN"
  | .arg => "ARG"
  | .dataShort => "DATA_SHORT"
  | .dataWidth => "DATA_WIDTH"
  | .alloc => "ALLOC"
  | .faulted => "FAULTED"

/-! ### Pseudo-commands (R110) -/

/-- `BS_WTELL`. -/
def pseudoBsWtell : Instr := .rdreg 0x03

/-- `BS_RTELL`. -/
def pseudoBsRtell : Instr := .rdreg 0x04

/-- `BS_CAPACITY`. -/
def pseudoBsCapacity : Instr := .rdreg 0x02

/-- `BS_LENGTH`. -/
def pseudoBsLength : Instr := .rdreg 0x05

/-- `MK_SIZE`. -/
def pseudoMkSize : Instr := .rdreg 0x07

/-- `SPK_ENC_ALL`. -/
def pseudoSpkEncAll : Instr := .spkEnc all1

/-- `SPK_DEC_ALL m`. -/
def pseudoSpkDecAll (m : Byte) : Instr := .spkDec m all1

end Sys2Proof.Machine
end

