-- ==== Sys2Proof/Safety.lean ====
section
/-! DEFINITION. What holds of every state of the CORE (the invariants of 10_state.md), in the terms statements use. -/

namespace Sys2Proof

/-- The constraints of 00_scope.md R5, and the bounds under which every position and size fits the 64-bit registers of
10_state.md R29 and R60 (log 4). -/
structure Params.Wf (c : Params) : Prop where
  capPower : ∃ i, c.cap0Words = 2 ^ i
  maxPower : ∃ j, c.maxWords = c.cap0Words * 2 ^ j
  elemsPos : 1 ≤ c.maxElems
  elemsLe : c.maxElems ≤ c.mkMaxBits
  xbAligned : c.xbBytes % 8 = 0
  xbMin : 16 ≤ c.xbBytes
  streamFits : 64 * c.maxWords < 2 ^ 64
  maskFits : c.mkMaxBits < 2 ^ 64
  xbFits : c.xbBytes < 2 ^ 64

namespace Machine

/-- The exchange buffer lists canonical bytes inside its address space only (20_memory.md R70). -/
def Memory.Within (m : Memory) (size : Nat) : Prop := Memory.wf m = true ∧ ∀ c ∈ m, c.1 < size

/-- The invariants of 10_state.md R27 to R31; `pendingLow` is `INV_WBUF`. -/
structure BitStream.Wf (cfg : Params) (b : BitStream) : Prop where
  capPos : 1 ≤ b.cap
  capPower : ∃ j, b.cap = cfg.cap0Words * 2 ^ j
  capLe : b.cap ≤ cfg.maxWords
  memLen : b.mem.length = b.cap
  wposLe : b.wpos ≤ 64 * b.cap
  rposLe : b.rpos ≤ 64 * b.cap
  pendingLow : ∀ i, b.wpos % 64 ≤ i → b.wbuf.getLsbD i = false
  blenLe : b.blen ≤ 64 * b.cap

/-- A Bitmask has `ceil(n/64)` words and at most `max` bits (R32). -/
structure Bitmask.Wf (max : Nat) (x : Bitmask) : Prop where
  sizeLe : x.n ≤ max
  wordsLen : x.mw.length = maskWords x.n

/-- `CM` is unshaped, or shaped with every used extent at least 1 and every unused one 1; its arrays have `CM.n`
elements, at most `MAX_ELEMS` (R35, R36). -/
structure CoefMem.Wf (cfg : Params) (cm : CoefMem) : Prop where
  shape : (cm.d = 0 ∧ cm.ext = ⟨0, 0, 0⟩) ∨
    (1 ≤ cm.d ∧ cm.d ≤ 3 ∧ 1 ≤ cm.ext.x ∧ 1 ≤ cm.ext.y ∧ 1 ≤ cm.ext.z ∧
      (cm.d < 2 → cm.ext.y = 1) ∧ (cm.d < 3 → cm.ext.z = 1))
  magLen : cm.mag.length = cm.n
  sgnLen : cm.sgn.length = cm.n
  sizeLe : cm.n ≤ cfg.maxElems

/-- A valid tolerance is finite and greater than zero (R55, 45_outlier_coder.md R292). -/
def OutlierRegs.Wf (oc : OutlierRegs) : Prop := oc.tolv = true → Real.finite oc.tol = true ∧ Real.flt 0 oc.tol = true

/-- The units of a CORE that is not faulted, between commands (R27 to R36, R50, R55). -/
structure State.UnitsWf (s : State) : Prop where
  stream : s.bs.Wf s.cfg
  mask : s.mask.Wf s.cfg.mkMaxBits
  lipEmpty : s.lip = .empty
  worklistsEmpty : s.wl = .empty
  coefs : s.cm.Wf s.cfg
  tolerance : s.oc.Wf

/-- The invariant of the machine. After a fatal fault the units hold unspecified values (R26), so it says nothing of
them then. -/
structure State.Inv (s : State) : Prop where
  params : s.cfg.Wf
  mirror : s.st.flags.getLsbD 7 = s.st.faulted
  lastIsStatus : ∃ status : Status, s.st.lastst = status.code
  exchange : s.xb.Within s.cfg.xbBytes
  live : s.st.faulted = false → s.UnitsWf

/-- The command ended with this status: `LASTST` holds its code (R25). -/
def State.endedWith (t : State) (status : Status) : Prop := t.st.lastst = status.code

/-- The commands of a list run one after the other (10_state.md R22). -/
def runCommands : List Instr → State → Host.Outcome State Fault Refusal
  | [], s => .next s
  | i :: is, s =>
    match exec i s with
    | .next t => runCommands is t
    | .fault r => .fault r
    | .refused r => .refused r

/-- Every piece of state has the value that 10_state.md R65 lists; `XB` is not in that list. -/
def State.AtReset (s : State) : Prop :=
  (s.st.flags = 0 ∧ s.st.lastst = 0 ∧ s.st.faulted = false) ∧
  (s.bs.cap = s.cfg.cap0Words ∧ s.bs.mem = List.replicate s.cfg.cap0Words 0 ∧ s.bs.wpos = 0 ∧ s.bs.rpos = 0 ∧
    s.bs.wbuf = 0 ∧ s.bs.blen = 0) ∧
  (s.mask.n = 0 ∧ s.mask.mw = []) ∧ (s.lip.n = 0 ∧ s.lip.mw = []) ∧
  (s.cm.d = 0 ∧ s.cm.ext = ⟨0, 0, 0⟩ ∧ s.cm.n = 0 ∧ s.cm.mag = [] ∧ s.cm.sgn = []) ∧
  (s.wl.lis = [] ∧ s.wl.lsp = [] ∧ s.wl.idepth = 0 ∧ s.wl.k = 0 ∧ s.wl.p = 0 ∧ s.wl.nb = 0 ∧ s.wl.b = 0) ∧
  (s.oc.tol = 0 ∧ s.oc.tolv = false)

/-- The command writes bits at the write cursor: `BS_WBIT`, or `BS_WBITS` with a legal count (41_bitstream.md R146,
R147). -/
def isCursorWrite : Instr → Bool
  | .bsWbit _ => true
  | .bsWbits n _ => n.toNat ≤ 64
  | _ => false

/-- The bits a cursor write writes, in order (R146, R147). -/
def writtenBits : Instr → List Bool
  | .bsWbit bit => [bit]
  | .bsWbits n value => (List.range n.toNat).map value.getLsbD
  | _ => []

/-- A bound on the bits one coding run over `n` elements from bitplane `maxbits` can code: at most `3n + 1` in each
bitplane, since the worklists hold each element once (43_coefficient_memory_and_sets.md R223). -/
def codedAtMost (n maxbits : Nat) : Nat := (maxbits + 1) * (3 * n + 1)

/-- Checks 6(a) to 6(d) of 45_outlier_coder.md R294 on record `j` of the list at address `addr`. -/
def State.SoundRecord (s : State) (addr len j : Nat) : Prop :=
  let r := s.xb.outlierRecord addr
  (r j).pos < len ∧ Real.finite (r j).error = true ∧ Real.fge (Real.fabs (r j).error) s.oc.tol = true ∧
    Real.flt (quantize s.oc.tol (r j).error) Real.two64 = true ∧ ∀ i < j, (r i).pos ≠ (r j).pos

/-- The least magnitude, in units of `2^-1074`, that the rounding of 45_outlier_coder.md R291 takes to infinity: half a last
place above the greatest finite one, `(2^53 - 1) · 2^2045` (the layout is IEEE 754's, log 10). -/
def Real.overflowUnits : Nat := (2 ^ 54 - 1) * 2 ^ 2044

end Machine

end Sys2Proof
end

