-- ==== Sys2Proof/Certificates/Slice0/Obligations.lean ====
section
/-! DEFINITION. The statements about the model, for the provers. Each docstring names the rules of spec/ it formalises, or
says that it is the model's choice. -/

open Sys2Proof Sys2Proof.Machine

/-! ### Encoding -/

/-- Decoding the frame of any command gives that command back, with every operand (30_encoding.md R100, R101, R106). -/
def Obligations.DecodeInvertsEncode : Prop := ∀ i : Instr, decode (encode i) = .ok i

/-- A frame that spells a command is the one frame that does (R101, R106). -/
def Obligations.EncodeInvertsDecode : Prop := ∀ (f : Frame) (i : Instr), decode f = .ok i → encode i = f

/-- The decoder accepts a frame exactly where a row of the opcode table selects it, under that row's mnemonic, and no two
rows match one `H` (R107). -/
def Obligations.DecodeFollowsOpcodeTable : Prop :=
  (∀ f : Frame, ∀ row ∈ opcodeTable,
    row.selects f = true ↔ ∃ i, decode f = .ok i ∧ mnemonicOf i = row.mnemonic) ∧
  (∀ (f : Frame) (i : Instr), decode f = .ok i → ∃ row ∈ opcodeTable, row.mnemonic = mnemonicOf i) ∧
  ∀ h : Word, ∀ r1 ∈ opcodeTable, ∀ r2 ∈ opcodeTable,
    h &&& r1.mask = r1.pattern → h &&& r2.mask = r2.pattern → r1 = r2

/-- The decoder knows every opcode but those that R108 lists as illegal. -/
def Obligations.UnlistedOpcodesAreUnknown : Prop :=
  ∀ f : Frame, decode f = .error .unknownOpcode ↔
    (0x03 ≤ f.opcode.toNat ∧ f.opcode.toNat ≤ 0x0F) ∨ (0x1D ≤ f.opcode.toNat ∧ f.opcode.toNat ≤ 0x1F) ∨
    (0x2A ≤ f.opcode.toNat ∧ f.opcode.toNat ≤ 0x2F) ∨ (0x33 ≤ f.opcode.toNat ∧ f.opcode.toNat ≤ 0x3F) ∨
    (0x42 ≤ f.opcode.toNat ∧ f.opcode.toNat ≤ 0x4F) ∨ (0x53 ≤ f.opcode.toNat ∧ f.opcode.toNat ≤ 0x5F) ∨
    0x64 ≤ f.opcode.toNat

/-- The encoding examples of 30_encoding.md section 6 and five more words, each with the decoder's answer. Of the example that
section 6 answers `ILLEGAL` for its count 65, this decoder gives `BS_WBITS` with that count, ill-formed: that the command's
meaning and not the decoder refuses a reserved value is the model's choice (log 7, DEDUCED). -/
def Obligations.SampleFramesDecode : Prop :=
  decode ⟨0x1108000000000000, 0xA5, 0, 0⟩ = .ok (.bsWbits 8 0xA5) ∧
  decode ⟨0x5202000000000000, 0x100, 0x10, 0⟩ = .ok (.outDec 2 0 0x100 16) ∧
  decode ⟨0x1100000000000001, 0, 0, 0⟩ = .error .mustBeZero ∧
  decode ⟨0x1141000000000000, 0, 0, 0⟩ = .ok (.bsWbits 65 0) ∧ (Instr.bsWbits 65 0).wellFormed = false ∧
  decode ⟨0x0000000000000000, 0, 0, 0⟩ = .ok .nop ∧
  decode ⟨0x2301000000000000, 0x40, 0, 0⟩ = .ok (.mkWbit true 64) ∧
  decode ⟨0x3002000000000000, 4, 4, 0⟩ = .ok (.cmShape 2 4 4 0) ∧
  decode ⟨0x4106000000000000, 0xFFFFFFFFFFFFFFFF, 0, 0⟩ = .ok (.spkDec 6 all1) ∧
  decode ⟨0x60BC000000000000, 0, 0, 0⟩ = .ok (.xbSt8 0xBC 0)

/-! ### Steps, frames and statuses -/

/-- A step takes the first frame of the command port and runs the command it spells; with an empty port the CORE waits.
That the port is a list of frames is the model's choice (log 1). -/
def Obligations.StepTakesNextFrame : Prop :=
  (∀ s : State, s.cmdPort = [] → step s = .next s) ∧
  ∀ (s : State) (f : Frame) (rest : List Frame) (i : Instr), s.cmdPort = f :: rest → decode f = .ok i →
    step s = exec i { s with cmdPort := rest }

/-- In a CORE that is not faulted, a frame with an unknown opcode, a non-zero must-be-zero field or a reserved field value
is answered with `ILLEGAL` and changes nothing but `ST` (R102 steps 2 to 4, R108; 60_exceptions.md R334). -/
def Obligations.IllegalFramesAnswered : Prop :=
  ∀ (s : State) (f : Frame) (rest : List Frame), s.st.faulted = false → s.cmdPort = f :: rest →
    ((∃ e, decode f = .error e) ∨ ∃ i, decode f = .ok i ∧ i.wellFormed = false) →
    step s = .next ({ s with cmdPort := rest }.finish .illegal 0 0)

/-- A decoded command ends with `ILLEGAL` exactly where one of its fields holds a reserved value (R108; R334). -/
def Obligations.IllegalMeansReservedValue : Prop :=
  ∀ (i : Instr) (s t : State), s.st.faulted = false → exec i s = .next t →
    (t.endedWith .illegal ↔ i.wellFormed = false)

/-- While faulted, with the flag that mirrors it: every frame but one with `RESET`'s opcode is answered with `FAULTED` and
changes `LASTST` alone; a malformed `RESET` is answered with `ILLEGAL`; `RESET` resets (10_state.md R26; R102 step 1;
40_system.md R131; 60_exceptions.md R345). -/
def Obligations.FaultedCoreAcceptsOnlyReset : Prop :=
  ∀ (s : State) (f : Frame) (rest : List Frame), s.st.faulted = true → s.st.flags.getLsbD 7 = true →
    s.cmdPort = f :: rest →
    (f.opcode ≠ 0x01 → step s = .next
      { s with
        cmdPort := rest, st := { s.st with lastst := 0x81 }, rspPort := s.rspPort ++ [⟨.faulted, 0, 0⟩] }) ∧
    (f.opcode = 0x01 → f ≠ encode .reset → step s = .next ({ s with cmdPort := rest }.finish .illegal 0 0)) ∧
    (f = encode .reset → step s = exec .reset { s with cmdPort := rest })

/-- Every frame gets exactly one response, in order; its status is the new `LASTST`, and its results are 0 unless the status
is `OK` or `DATA_SHORT` (30_encoding.md R103). -/
def Obligations.EveryFrameGetsOneResponse : Prop :=
  ∀ (s : State) (f : Frame) (rest : List Frame), s.cmdPort = f :: rest →
    ∃ (t : State) (r : Response), step s = .next t ∧ t.cmdPort = rest ∧ t.rspPort = s.rspPort ++ [r] ∧
      t.endedWith r.status ∧ t.cfg = s.cfg ∧
      (r.status ≠ .ok → r.status ≠ .dataShort → r.res0 = 0 ∧ r.res1 = 0)

/-- Ending a command is the whole of a trap: which flag is set, what `LASTST` and `FAULTED` become, what is answered, and
that nothing else changes but the units lost with `ALLOC` (60_exceptions.md R331). -/
def Obligations.EndCommandEffect : Prop :=
  ∀ (status : Status) (r0 r1 : Word) (s : State), ∃ t, endCommand status r0 r1 s = .next t ∧
    (t.st.flags = match status with
      | .ok => s.st.flags
      | .illegal => s.st.flags ||| 0b00000001
      | .range => s.st.flags ||| 0b00000010
      | .align => s.st.flags ||| 0b00000100
      | .arg => s.st.flags ||| 0b00001000
      | .dataShort => s.st.flags ||| 0b00010000
      | .dataWidth => s.st.flags ||| 0b00100000
      | .alloc => s.st.flags ||| 0b11000000
      | .faulted => s.st.flags ||| 0b10000000) ∧
    (t.st.lastst = match status with
      | .ok => 0x00
      | .illegal => 0x01
      | .range => 0x02
      | .align => 0x03
      | .arg => 0x04
      | .dataShort => 0x10
      | .dataWidth => 0x11
      | .alloc => 0x80
      | .faulted => 0x81) ∧
    (t.st.faulted = true ↔ s.st.faulted = true ∨ status = .alloc) ∧
    (t.rspPort = s.rspPort ++
      [if status = .ok ∨ status = .dataShort then ⟨status, r0, r1⟩ else ⟨status, 0, 0⟩]) ∧
    t.xb = s.xb ∧ t.cmdPort = s.cmdPort ∧ t.cfg = s.cfg ∧
    (status ≠ .alloc → t = { s with st := t.st, rspPort := t.rspPort })

/-- No command but `RESET` clears a flag, and a flag is set exactly by a command that ends with the matching status,
and reset clears all (10_state.md R24). -/
def Obligations.FlagsAreSticky : Prop :=
  (∀ s t : State, exec .reset s = .next t → t.st.flags = 0) ∧
  ∀ (i : Instr) (s t : State), i ≠ .reset → exec i s = .next t →
    (∀ b < 7, t.st.flags.getLsbD b = true ↔ s.st.flags.getLsbD b = true ∨
      ([0x01, 0x02, 0x03, 0x04, 0x10, 0x11, 0x80] : List Byte)[b]? = some t.st.lastst) ∧
    (t.st.flags.getLsbD 7 = true ↔ s.st.flags.getLsbD 7 = true ∨ t.st.lastst = 0x80 ∨ t.st.lastst = 0x81)

/-- The CORE is faulted after a command exactly when it ended with `ALLOC`, or was refused with `FAULTED` (10_state.md R26;
60_exceptions.md R344, R345). -/
def Obligations.FaultedMeansAlloc : Prop :=
  ∀ (i : Instr) (s t : State), exec i s = .next t →
    (t.st.faulted = true ↔ t.endedWith .alloc ∨ t.endedWith .faulted)

/-- A command that ends with a contract fault or `DATA_WIDTH` changes nothing but `ST`; the one exception is the late
`RANGE` of `OUT_DEC`, where `CM` and the read cursor hold the decode's effects (60_exceptions.md R333). The engine's own
units are empty between commands (10_state.md R34, R50). -/
def Obligations.ContractFaultChangesOnlyStatus : Prop :=
  ∀ (i : Instr) (s t : State) (status : Status), s.lip = .empty → s.wl = .empty →
    status ∈ [Status.illegal, .range, .align, .arg, .dataWidth] → exec i s = .next t → t.endedWith status →
    t = { s with st := t.st, rspPort := t.rspPort } ∨
    ∃ maxbits wsel addr len, i = .outDec maxbits wsel addr len ∧ status = .range ∧
      t = { s with st := t.st, rspPort := t.rspPort, cm := t.cm, bs := { s.bs with rpos := t.bs.rpos } } ∧
      s.cfg.xbBytes < addr.toNat + 16 * t.cm.outlierPositions.length

/-- A command that ends with `ALLOC` ran in a CORE that was not faulted, sets both fatal flags and `FAULTED`, and leaves
`XB` as it was (60_exceptions.md R344). -/
def Obligations.AllocKeepsExchangeBuffer : Prop :=
  ∀ (i : Instr) (s t : State), exec i s = .next t → t.endedWith .alloc →
    s.st.faulted = false ∧ t.st.faulted = true ∧ t.st.flags = s.st.flags ||| 0xC0 ∧ t.xb = s.xb

/-- Requests beyond a fixed capacity end with `ALLOC`: a write at a full stream, a parse, a mask, an array or an addressed
length that is too long (60_exceptions.md R344). -/
def Obligations.AllocRaised : Prop :=
  ∀ s : State, s.st.faulted = false →
    (∀ bit, s.bs.wpos = 64 * s.bs.cap → s.cfg.maxWords < 2 * s.bs.cap →
      exec (.bsWbit bit) s = .next (s.finish .alloc 0 0)) ∧
    (∀ n value, n.toNat ≤ 64 → s.bs.wpos ≤ 64 * s.bs.cap → 64 * s.bs.cap < s.bs.wpos + n.toNat →
      s.cfg.maxWords < 2 * s.bs.cap → exec (.bsWbits n value) s = .next (s.finish .alloc 0 0)) ∧
    (∀ budget, s.bs.wpos = 64 * s.bs.cap → s.cfg.maxWords < 2 * s.bs.cap → 1 ≤ s.cm.n → budget ≠ 0 →
      ∃ t, exec (.spkEnc budget) s = .next t ∧ t.endedWith .alloc) ∧
    (∀ addr bits, addr.toNat + ceilDiv bits.toNat 8 ≤ s.cfg.xbBytes → 1 ≤ s.bs.cap →
      (∀ j, ceilDiv bits.toNat 64 ≤ s.bs.cap * 2 ^ j → s.cfg.maxWords < s.bs.cap * 2 ^ j) →
      exec (.bsParse addr bits) s = .next (s.finish .alloc 0 0)) ∧
    (∀ size, s.cfg.mkMaxBits < size.toNat → exec (.mkResize size) s = .next (s.finish .alloc 0 0)) ∧
    (∀ n0 n1 n2, n0 ≠ 0 → n1 ≠ 0 → n2 ≠ 0 → s.cfg.maxElems < n0.toNat * n1.toNat * n2.toNat →
      exec (.cmShape 3 n0 n1 n2) s = .next (s.finish .alloc 0 0)) ∧
    (∀ addr count len, addr.toNat % 8 = 0 → addr.toNat + 16 * count.toNat ≤ s.cfg.xbBytes → s.oc.tolv = true →
      s.cfg.maxElems < len.toNat → exec (.outEnc addr count len) s = .next (s.finish .alloc 0 0)) ∧
    ∀ maxbits wsel addr len, maxbits.toNat ≤ 63 → wsel.toNat ≤ 3 → addr.toNat % 8 = 0 → addr.toNat ≤ s.cfg.xbBytes →
      s.oc.tolv = true → s.cfg.maxElems < len.toNat →
      exec (.outDec maxbits wsel addr len) s = .next (s.finish .alloc 0 0)

/-! ### Reset and the invariant -/

/-- After hardware reset, whatever `XB` came up holding, and after the `RESET` command in any state, every piece of state has
the value R65 lists, and `RESET` leaves `XB` (10_state.md R65). -/
def Obligations.ResetLeavesListedValues : Prop :=
  (∀ (cfg : Params) (xb : Memory), (State.hardwareReset cfg xb).AtReset ∧ (State.hardwareReset cfg xb).xb = xb) ∧
  State.reset.AtReset ∧ ∀ s : State, ∃ t, exec .reset s = .next t ∧ t.AtReset ∧ t.xb = s.xb

/-- `RESET` is accepted in every state, faulted or not, ends `OK`, and leaves `XB`; that it also leaves the ports, the
parameters and the model's counter is the model's choice (40_system.md R131; 70_reset_and_hazards.md R371; log 12). -/
def Obligations.ResetCommandRestores : Prop :=
  ∀ s : State, exec .reset s = .next
    { st := { flags := 0, lastst := 0, faulted := false }
      bs := { cap := s.cfg.cap0Words, mem := List.replicate s.cfg.cap0Words 0, wpos := 0, rpos := 0, wbuf := 0, blen := 0 }
      mask := { n := 0, mw := [] }
      lip := { n := 0, mw := [] }
      cm := { d := 0, ext := ⟨0, 0, 0⟩, mag := [], sgn := [] }
      wl := { k := 0, lis := [], lsp := [], idepth := 0, p := 0, nb := 0, b := 0 }
      oc := { tol := 0, tolv := false }
      xb := s.xb
      cmdPort := s.cmdPort
      rspPort := s.rspPort ++ [⟨.ok, 0, 0⟩]
      cfg := s.cfg
      freeCount := s.freeCount }

/-- The state after reset satisfies the invariant, with the default parameters and with any legal ones. The bounds on the
parameters are the model's (log 4). -/
def Obligations.ResetMeetsInvariant : Prop :=
  State.reset.Inv ∧ ∀ (cfg : Params) (xb : Memory), cfg.Wf → xb.Within cfg.xbBytes → (State.hardwareReset cfg xb).Inv

/-- Every step keeps the invariants of 10_state.md: the cursors and the declared length stay within the capacity, which is a
doubling of the first one and at most `MAX_WORDS`; `INV_WBUF`; the masks and arrays have the lengths their sizes say; the
engine's units are empty between commands; a valid tolerance is finite and positive; `XB` stays canonical and within its
bounds; flag 7 mirrors `FAULTED` (R24 to R36, R50, R55). -/
def Obligations.StepKeepsInvariant : Prop := ∀ s t : State, s.Inv → step s = .next t → t.Inv

/-- The capacity only ever doubles: no command but `RESET` shrinks it (10_state.md R27). -/
def Obligations.CapacityOnlyGrows : Prop :=
  ∀ (i : Instr) (s t : State), i ≠ .reset → exec i s = .next t → t.st.faulted = false →
    ∃ j, t.bs.cap = s.bs.cap * 2 ^ j

/-! ### System commands -/

/-- `NOP` ends `OK` and changes nothing but `LASTST`; while faulted it is refused (40_system.md R130). -/
def Obligations.NopChangesNothing : Prop :=
  ∀ s : State,
    (s.st.faulted = false → exec .nop s = .next
      { s with st := { s.st with lastst := 0 }, rspPort := s.rspPort ++ [⟨.ok, 0, 0⟩] }) ∧
    (s.st.faulted = true → exec .nop s = .next (s.finish .faulted 0 0))

/-- `RDREG` answers the value R60 lists for the register, as it was before the command, and refuses a number not listed
(40_system.md R132; 10_state.md R60). -/
def Obligations.RdregReads : Prop :=
  ∀ s : State, s.st.faulted = false →
    (∀ p ∈ ([(0x00, 0x5350455200060001),
        (0x01, BitVec.ofNat 64 (s.st.lastst.toNat * 256 + s.st.flags.toNat)),
        (0x02, BitVec.ofNat 64 (64 * s.bs.cap)), (0x03, BitVec.ofNat 64 s.bs.wpos),
        (0x04, BitVec.ofNat 64 s.bs.rpos), (0x05, BitVec.ofNat 64 s.bs.blen), (0x06, s.bs.wbuf),
        (0x07, BitVec.ofNat 64 s.mask.n), (0x08, BitVec.ofNat 64 s.cm.d), (0x09, BitVec.ofNat 64 s.cm.ext.x),
        (0x0A, BitVec.ofNat 64 s.cm.ext.y), (0x0B, BitVec.ofNat 64 s.cm.ext.z), (0x0C, BitVec.ofNat 64 s.cm.n),
        (0x0D, s.oc.tol), (0x0E, if s.oc.tolv then 1 else 0), (0x10, BitVec.ofNat 64 s.cfg.cap0Words),
        (0x11, BitVec.ofNat 64 s.cfg.maxWords), (0x12, BitVec.ofNat 64 s.cfg.mkMaxBits),
        (0x13, BitVec.ofNat 64 s.cfg.maxElems), (0x14, BitVec.ofNat 64 s.cfg.xbBytes)] : List (Byte × Word)),
      exec (.rdreg p.1) s = .next (s.finish .ok p.2 0)) ∧
    ∀ reg : Byte, reg = 0x0F ∨ 0x15 ≤ reg.toNat → exec (.rdreg reg) s = .next (s.finish .illegal 0 0)

/-! ### BitStream commands -/

/-- `BS_WBIT` writes its bit at the write cursor of the logical content and moves that cursor by one; the capacity doubles
first where the cursor stands at it. The bit is visible to reads once its word is complete, and not before (41_bitstream.md
R143 to R146). -/
def Obligations.WriteBitAppends : Prop :=
  ∀ (bit : Bool) (s : State), s.st.faulted = false → s.cfg.Wf → s.bs.Wf s.cfg → s.bs.wpos < 64 * s.cfg.maxWords →
    ∃ b : BitStream, exec (.bsWbit bit) s = .next ({ s with bs := b }.finish .ok 0 0) ∧ b.Wf s.cfg ∧
      b.cap = (if s.bs.wpos = 64 * s.bs.cap then 2 * s.bs.cap else s.bs.cap) ∧
      b.wpos = s.bs.wpos + 1 ∧ b.rpos = s.bs.rpos ∧ b.blen = s.bs.blen ∧
      (∀ p, b.logical p = if p = s.bs.wpos then bit else s.bs.logical p) ∧
      ((s.bs.wpos + 1) % 64 = 0 → b.wbuf = 0 ∧ ∀ p, b.getbit p = b.logical p) ∧
      ((s.bs.wpos + 1) % 64 ≠ 0 → ∀ p, b.getbit p = s.bs.getbit p)

/-- `BS_WBITS` writes bits `0 .. n-1` of its value at consecutive positions from the write cursor, bit 0 first, doubling the
capacity at most once; more than 64 bits are refused (41_bitstream.md R147). -/
def Obligations.WriteBitsAppends : Prop :=
  ∀ (n : Byte) (value : Word) (s : State), s.st.faulted = false →
    (64 < n.toNat → exec (.bsWbits n value) s = .next (s.finish .illegal 0 0)) ∧
    (n.toNat ≤ 64 → s.cfg.Wf → s.bs.Wf s.cfg → s.bs.wpos + n.toNat ≤ 64 * s.cfg.maxWords →
      ∃ b : BitStream, exec (.bsWbits n value) s = .next ({ s with bs := b }.finish .ok 0 0) ∧ b.Wf s.cfg ∧
        b.cap = (if s.bs.wpos + n.toNat ≤ 64 * s.bs.cap then s.bs.cap else 2 * s.bs.cap) ∧
        b.wpos = s.bs.wpos + n.toNat ∧ b.rpos = s.bs.rpos ∧ b.blen = s.bs.blen ∧
        ∀ p, b.logical p =
          if s.bs.wpos ≤ p ∧ p < s.bs.wpos + n.toNat then value.getLsbD (p - s.bs.wpos) else s.bs.logical p)

/-- `BS_RBIT` and `BS_RBITS` answer the bits of `mem` from the read cursor, the lowest position as bit 0, and move that
cursor past them; beyond the capacity they read nothing (41_bitstream.md R148, R149). -/
def Obligations.CursorReads : Prop :=
  ∀ s : State, s.st.faulted = false →
    (s.bs.rpos < 64 * s.bs.cap → exec .bsRbit s = .next
      ({ s with bs := { s.bs with rpos := s.bs.rpos + 1 } }.finish .ok (if s.bs.getbit s.bs.rpos then 1 else 0) 0)) ∧
    (64 * s.bs.cap ≤ s.bs.rpos → exec .bsRbit s = .next (s.finish .range 0 0)) ∧
    ∀ n : Byte,
      (64 < n.toNat → exec (.bsRbits n) s = .next (s.finish .illegal 0 0)) ∧
      (n.toNat ≤ 64 → 64 * s.bs.cap < s.bs.rpos + n.toNat → exec (.bsRbits n) s = .next (s.finish .range 0 0)) ∧
      (n.toNat ≤ 64 → s.bs.rpos + n.toNat ≤ 64 * s.bs.cap → ∃ v : Word,
        exec (.bsRbits n) s = .next ({ s with bs := { s.bs with rpos := s.bs.rpos + n.toNat } }.finish .ok v 0) ∧
        ∀ i < 64, v.getLsbD i = (decide (i < n.toNat) && s.bs.getbit (s.bs.rpos + i)))

/-- `BS_REWIND` sets both cursors to 0, commits the pending bits and changes no content (41_bitstream.md R150). -/
def Obligations.RewindCommits : Prop :=
  ∀ s : State, s.st.faulted = false → s.bs.Wf s.cfg →
    ∃ b : BitStream, exec .bsRewind s = .next ({ s with bs := b }.finish .ok 0 0) ∧ b.wpos = 0 ∧ b.rpos = 0 ∧
      b.wbuf = 0 ∧ b.cap = s.bs.cap ∧ b.blen = s.bs.blen ∧ b.mem.length = s.bs.mem.length ∧
      ∀ p, b.getbit p = s.bs.logical p

/-- `BS_WSEEK` moves the write cursor, commits, makes the bits of the target word below the cursor pending again, and
changes no content; a position above the capacity is refused (41_bitstream.md R151). -/
def Obligations.WriteSeekKeepsContent : Prop :=
  ∀ (pos : Word) (s : State), s.st.faulted = false → s.bs.Wf s.cfg →
    (64 * s.bs.cap < pos.toNat → exec (.bsWseek pos) s = .next (s.finish .range 0 0)) ∧
    (pos.toNat ≤ 64 * s.bs.cap →
      ∃ b : BitStream, exec (.bsWseek pos) s = .next ({ s with bs := b }.finish .ok 0 0) ∧ b.wpos = pos.toNat ∧
        b.rpos = s.bs.rpos ∧ b.cap = s.bs.cap ∧ b.blen = s.bs.blen ∧ b.mem.length = s.bs.mem.length ∧
        (∀ p, b.getbit p = s.bs.logical p) ∧ (∀ p, b.logical p = s.bs.logical p) ∧
        ∀ i < 64, b.wbuf.getLsbD i =
          (decide (i < pos.toNat % 64) && s.bs.logical (64 * (pos.toNat / 64) + i)))

/-- `BS_FLUSH` commits, declares the write cursor as the length and answers it; no cursor moves and the pending bits stay in
the buffer (41_bitstream.md R153). -/
def Obligations.FlushDeclaresLength : Prop :=
  ∀ s : State, s.st.faulted = false → s.bs.Wf s.cfg →
    ∃ b : BitStream, exec .bsFlush s = .next ({ s with bs := b }.finish .ok (BitVec.ofNat 64 s.bs.wpos) 0) ∧
      b.blen = s.bs.wpos ∧ b.wpos = s.bs.wpos ∧ b.rpos = s.bs.rpos ∧ b.wbuf = s.bs.wbuf ∧ b.cap = s.bs.cap ∧
      b.mem.length = s.bs.mem.length ∧ ∀ p, b.getbit p = s.bs.logical p

/-- `BS_RSEEK` moves the read cursor alone; `BS_RRBIT` and `BS_TEST` read `mem` and change nothing; each refuses what lies
outside the capacity (41_bitstream.md R152, R154, R156). -/
def Obligations.StreamReadsInPlace : Prop :=
  ∀ s : State, s.st.faulted = false →
    (∀ pos : Word,
      (pos.toNat ≤ 64 * s.bs.cap →
        exec (.bsRseek pos) s = .next ({ s with bs := { s.bs with rpos := pos.toNat } }.finish .ok 0 0)) ∧
      (64 * s.bs.cap < pos.toNat → exec (.bsRseek pos) s = .next (s.finish .range 0 0)) ∧
      (pos.toNat < 64 * s.bs.cap →
        exec (.bsRrbit pos) s = .next (s.finish .ok (if s.bs.getbit pos.toNat then 1 else 0) 0)) ∧
      (64 * s.bs.cap ≤ pos.toNat → exec (.bsRrbit pos) s = .next (s.finish .range 0 0))) ∧
    ∀ start len : Word,
      (start.toNat + len.toNat ≤ 64 * s.bs.cap → ∃ v : Bool,
        exec (.bsTest start len) s = .next (s.finish .ok (if v then 1 else 0) 0) ∧
        (v = true ↔ ∃ p, start.toNat ≤ p ∧ p < start.toNat + len.toNat ∧ s.bs.getbit p = true)) ∧
      (64 * s.bs.cap < start.toNat + len.toNat → exec (.bsTest start len) s = .next (s.finish .range 0 0))

/-- `BS_RWBIT` commits and sets one bit, visible at once and kept by a later commit; no cursor moves; a position at or above
the capacity is refused (41_bitstream.md R155). -/
def Obligations.RandomWriteVisible : Prop :=
  ∀ (bit : Bool) (pos : Word) (s : State), s.st.faulted = false → s.bs.Wf s.cfg →
    (64 * s.bs.cap ≤ pos.toNat → exec (.bsRwbit bit pos) s = .next (s.finish .range 0 0)) ∧
    (pos.toNat < 64 * s.bs.cap →
      ∃ b : BitStream, exec (.bsRwbit bit pos) s = .next ({ s with bs := b }.finish .ok 0 0) ∧ b.Wf s.cfg ∧
        b.wpos = s.bs.wpos ∧ b.rpos = s.bs.rpos ∧ b.cap = s.bs.cap ∧ b.blen = s.bs.blen ∧
        (∀ p, b.getbit p = if p = pos.toNat then bit else s.bs.logical p) ∧ ∀ p, b.logical p = b.getbit p)

/-- `BS_GET` flushes and packs the bits below the write cursor into exactly `ceil(n/8)` bytes of `XB`, the last byte's unused
bits 0; no other byte changes; a buffer outside `XB` is refused (41_bitstream.md R157; 20_memory.md R74). -/
def Obligations.GetPacksBytes : Prop :=
  ∀ (addr : Word) (s : State), s.st.faulted = false → s.bs.Wf s.cfg → s.xb.Within s.cfg.xbBytes →
    (s.cfg.xbBytes < addr.toNat + ceilDiv s.bs.wpos 8 → exec (.bsGet addr) s = .next (s.finish .range 0 0)) ∧
    (addr.toNat + ceilDiv s.bs.wpos 8 ≤ s.cfg.xbBytes →
      ∃ (b : BitStream) (m : Memory),
        exec (.bsGet addr) s = .next ({ s with bs := b, xb := m }.finish .ok (BitVec.ofNat 64 s.bs.wpos)
          (BitVec.ofNat 64 (ceilDiv s.bs.wpos 8))) ∧
        b.blen = s.bs.wpos ∧ b.wpos = s.bs.wpos ∧ b.rpos = s.bs.rpos ∧ b.wbuf = s.bs.wbuf ∧ b.cap = s.bs.cap ∧
        b.mem.length = s.bs.mem.length ∧ (∀ p, b.getbit p = s.bs.logical p) ∧
        (∀ p, p < 8 * ceilDiv s.bs.wpos 8 → (m.readByte (addr.toNat + p / 8)).getLsbD (p % 8) =
          (decide (p < s.bs.wpos) && s.bs.logical p)) ∧
        ∀ a, a < addr.toNat ∨ addr.toNat + ceilDiv s.bs.wpos 8 ≤ a → m.readByte a = s.xb.readByte a)

/-- `BS_PARSE` loads `n` bits from `XB`, clears the rest of the words it loads, keeps the content of the others, rewinds and
declares the length; the capacity becomes the least doubling that holds them, and one above the limit is the fatal fault. A
buffer outside `XB` is refused first (41_bitstream.md R158). -/
def Obligations.ParseUnpacksBytes : Prop :=
  ∀ (addr bits : Word) (s : State), s.st.faulted = false → s.bs.Wf s.cfg →
    (s.cfg.xbBytes < addr.toNat + ceilDiv bits.toNat 8 → exec (.bsParse addr bits) s = .next (s.finish .range 0 0)) ∧
    ∀ j : Nat, addr.toNat + ceilDiv bits.toNat 8 ≤ s.cfg.xbBytes → ceilDiv bits.toNat 64 ≤ s.bs.cap * 2 ^ j →
      (∀ i < j, s.bs.cap * 2 ^ i < ceilDiv bits.toNat 64) →
      (s.cfg.maxWords < s.bs.cap * 2 ^ j → exec (.bsParse addr bits) s = .next (s.finish .alloc 0 0)) ∧
      (s.bs.cap * 2 ^ j ≤ s.cfg.maxWords →
        ∃ b : BitStream, exec (.bsParse addr bits) s = .next ({ s with bs := b }.finish .ok 0 0) ∧
          b.cap = s.bs.cap * 2 ^ j ∧ b.mem.length = b.cap ∧ b.wpos = 0 ∧ b.rpos = 0 ∧ b.wbuf = 0 ∧
          b.blen = bits.toNat ∧
          (∀ p, p < bits.toNat → b.getbit p = (s.xb.readByte (addr.toNat + p / 8)).getLsbD (p % 8)) ∧
          (∀ p, bits.toNat ≤ p → p < 64 * ceilDiv bits.toNat 64 → b.getbit p = false) ∧
          ∀ p, 64 * ceilDiv bits.toNat 64 ≤ p → b.getbit p = s.bs.logical p)

/-- Any sequence of cursor writes from position 0, then a flush, leaves exactly the bits written, readable in order; the
capacity is the old one times a power of two and the read cursor has not moved (41_bitstream.md R160). -/
def Obligations.StreamRoundTrip : Prop :=
  ∀ (writes : List Instr) (s : State), s.st.faulted = false → s.cfg.Wf → s.bs.Wf s.cfg → s.bs.wpos = 0 →
    (∀ i ∈ writes, isCursorWrite i = true) → (writes.flatMap writtenBits).length ≤ 64 * s.cfg.maxWords →
    ∃ t, runCommands (writes ++ [.bsFlush]) s = .next t ∧ t.st.faulted = false ∧
      t.bs.blen = (writes.flatMap writtenBits).length ∧ t.bs.wpos = (writes.flatMap writtenBits).length ∧
      t.bs.rpos = s.bs.rpos ∧ (∃ j, t.bs.cap = s.bs.cap * 2 ^ j) ∧
      ∀ i < (writes.flatMap writtenBits).length, t.bs.getbit i = (writes.flatMap writtenBits).getD i false

/-- Packing the stream into `XB` and parsing it back restores its content up to the write cursor (20_memory.md R74;
41_bitstream.md R157, R158). -/
def Obligations.ParseInvertsGet : Prop :=
  ∀ (addr : Word) (s : State), s.st.faulted = false → s.cfg.Wf → s.bs.Wf s.cfg → s.xb.Within s.cfg.xbBytes →
    addr.toNat + ceilDiv s.bs.wpos 8 ≤ s.cfg.xbBytes →
    ∃ t, runCommands [.bsGet addr, .bsParse addr (BitVec.ofNat 64 s.bs.wpos)] s = .next t ∧ t.st.faulted = false ∧
      t.bs.cap = s.bs.cap ∧ t.bs.blen = s.bs.wpos ∧ t.bs.wpos = 0 ∧ t.bs.rpos = 0 ∧
      ∀ p < s.bs.wpos, t.bs.getbit p = s.bs.logical p

/-- With exactly one bit set, a range test answers 1 exactly where the range contains that bit, on the stream and on the mask
(41_bitstream.md R161). -/
def Obligations.OneBitRangeTest : Prop :=
  ∀ (start len : Word) (one : Nat) (s : State), s.st.faulted = false →
    (start.toNat + len.toNat ≤ 64 * s.bs.cap → (∀ p < 64 * s.bs.cap, s.bs.getbit p = true ↔ p = one) →
      exec (.bsTest start len) s = .next
        (s.finish .ok (if start.toNat ≤ one ∧ one < start.toNat + len.toNat then 1 else 0) 0)) ∧
    (start.toNat + len.toNat ≤ s.mask.n → (∀ i < s.mask.n, s.mask.rbit i = true ↔ i = one) →
      exec (.mkHas start len) s = .next
        (s.finish .ok (if start.toNat ≤ one ∧ one < start.toNat + len.toNat then 1 else 0) 0))

/-! ### Bitmask commands -/

/-- `MK_RESIZE` gives the mask its new size: every bit newly brought inside is 0, every other bit of the words that remain
keeps its value, tail bits included; a size above the limit is the fatal fault (42_bitmask.md R183). -/
def Obligations.ResizeZeroExtends : Prop :=
  ∀ (size : Word) (s : State), s.st.faulted = false → s.mask.Wf s.cfg.mkMaxBits →
    (s.cfg.mkMaxBits < size.toNat → exec (.mkResize size) s = .next (s.finish .alloc 0 0)) ∧
    (size.toNat ≤ s.cfg.mkMaxBits →
      ∃ x : Bitmask, exec (.mkResize size) s = .next ({ s with mask := x }.finish .ok 0 0) ∧ x.n = size.toNat ∧
        x.mw.length = ceilDiv size.toNat 64 ∧
        ∀ i < 64 * ceilDiv size.toNat 64,
          x.rbit i = if s.mask.n ≤ i ∧ i < size.toNat then false else s.mask.rbit i)

/-- `MK_WBIT`, `MK_WTRUE` and `MK_WFALSE` write one bit of the mask and change no other; an index at or above the size is
refused (42_bitmask.md R186 to R188). -/
def Obligations.MaskBitWrites : Prop :=
  ∀ (i : Instr) (v : Bool) (idx : Word) (s : State), s.st.faulted = false → s.mask.Wf s.cfg.mkMaxBits →
    (i = .mkWbit v idx ∨ (i = .mkWtrue idx ∧ v = true) ∨ (i = .mkWfalse idx ∧ v = false)) →
    (s.mask.n ≤ idx.toNat → exec i s = .next (s.finish .range 0 0)) ∧
    (idx.toNat < s.mask.n →
      ∃ x : Bitmask, exec i s = .next ({ s with mask := x }.finish .ok 0 0) ∧ x.n = s.mask.n ∧
        x.mw.length = s.mask.mw.length ∧ ∀ j, x.rbit j = if j = idx.toNat then v else s.mask.rbit j)

/-- `MK_RBIT`, `MK_COUNT` and `MK_HAS` answer from the bits below the size and change nothing; an index or a range outside
it is refused (42_bitmask.md R185, R189, R190). -/
def Obligations.MaskReads : Prop :=
  ∀ s : State, s.st.faulted = false →
    (∀ idx : Word,
      (idx.toNat < s.mask.n →
        exec (.mkRbit idx) s = .next (s.finish .ok (if s.mask.rbit idx.toNat then 1 else 0) 0)) ∧
      (s.mask.n ≤ idx.toNat → exec (.mkRbit idx) s = .next (s.finish .range 0 0))) ∧
    exec .mkCount s = .next (s.finish .ok
      (BitVec.ofNat 64 ((Finset.range s.mask.n).filter fun i => s.mask.rbit i = true).card) 0) ∧
    ∀ start len : Word,
      (start.toNat + len.toNat ≤ s.mask.n → ∃ v : Bool,
        exec (.mkHas start len) s = .next (s.finish .ok (if v then 1 else 0) 0) ∧
        (v = true ↔ ∃ i, start.toNat ≤ i ∧ i < start.toNat + len.toNat ∧ s.mask.rbit i = true)) ∧
      (s.mask.n < start.toNat + len.toNat → exec (.mkHas start len) s = .next (s.finish .range 0 0))

/-- `MK_RESET` zeroes every bit of the mask, tail bits included, and keeps its size (42_bitmask.md R184). -/
def Obligations.MaskResetClears : Prop :=
  ∀ s : State, s.st.faulted = false →
    ∃ x : Bitmask, exec .mkReset s = .next ({ s with mask := x }.finish .ok 0 0) ∧ x.n = s.mask.n ∧
      x.mw.length = s.mask.mw.length ∧ ∀ i, x.rbit i = false

/-- `MK_VIEW` copies the mask's words, tail bits included, to `XB` and changes no other byte; a misaligned address is refused
before one out of range (42_bitmask.md R191; 20_memory.md R75). -/
def Obligations.MaskViewCopiesOut : Prop :=
  ∀ (addr : Word) (s : State), s.st.faulted = false → s.mask.Wf s.cfg.mkMaxBits → s.xb.Within s.cfg.xbBytes →
    (addr.toNat % 8 ≠ 0 → exec (.mkView addr) s = .next (s.finish .align 0 0)) ∧
    (addr.toNat % 8 = 0 → s.cfg.xbBytes < addr.toNat + 8 * ceilDiv s.mask.n 64 →
      exec (.mkView addr) s = .next (s.finish .range 0 0)) ∧
    (addr.toNat % 8 = 0 → addr.toNat + 8 * ceilDiv s.mask.n 64 ≤ s.cfg.xbBytes →
      ∃ m : Memory,
        exec (.mkView addr) s = .next ({ s with xb := m }.finish .ok (BitVec.ofNat 64 (ceilDiv s.mask.n 64)) 0) ∧
        (∀ i < 64 * ceilDiv s.mask.n 64, (m.readByte (addr.toNat + i / 8)).getLsbD (i % 8) = s.mask.rbit i) ∧
        ∀ a, a < addr.toNat ∨ addr.toNat + 8 * ceilDiv s.mask.n 64 ≤ a → m.readByte a = s.xb.readByte a)

/-- `MK_USE` loads exactly the mask's words from `XB`, tail bits as given, and keeps its size; a misaligned address is refused
before one out of range. `MK_VIEW`, any change of the bits (here `MK_RESET`), then `MK_USE` of the same address restores the
mask exactly (42_bitmask.md R192; 20_memory.md R75). -/
def Obligations.MaskUseCopiesIn : Prop :=
  ∀ (addr : Word) (s : State), s.st.faulted = false →
    (addr.toNat % 8 ≠ 0 → exec (.mkUse addr) s = .next (s.finish .align 0 0)) ∧
    (addr.toNat % 8 = 0 → s.cfg.xbBytes < addr.toNat + 8 * ceilDiv s.mask.n 64 →
      exec (.mkUse addr) s = .next (s.finish .range 0 0)) ∧
    (addr.toNat % 8 = 0 → addr.toNat + 8 * ceilDiv s.mask.n 64 ≤ s.cfg.xbBytes →
      (∃ x : Bitmask,
        exec (.mkUse addr) s = .next ({ s with mask := x }.finish .ok (BitVec.ofNat 64 (ceilDiv s.mask.n 64)) 0) ∧
        x.n = s.mask.n ∧ x.mw.length = ceilDiv s.mask.n 64 ∧
        ∀ i < 64 * ceilDiv s.mask.n 64, x.rbit i = (s.xb.readByte (addr.toNat + i / 8)).getLsbD (i % 8)) ∧
      (s.mask.Wf s.cfg.mkMaxBits → s.xb.Within s.cfg.xbBytes →
        ∃ t, runCommands [.mkView addr, .mkReset, .mkUse addr] s = .next t ∧ t.st.faulted = false ∧ t.mask = s.mask))

/-! ### Coefficient memory and geometry -/

/-- `CM_SHAPE`, its checks in order, and the cleared array of the shape it asks for (43_coefficient_memory_and_sets.md
R210). -/
def Obligations.ShapeClearsArray : Prop :=
  ∀ (d : Byte) (n0 n1 n2 : Word) (s : State), s.st.faulted = false →
    let e1 := if 2 ≤ d.toNat then n1.toNat else 1
    let e2 := if 3 ≤ d.toNat then n2.toNat else 1
    let legal := (1 ≤ d.toNat ∧ d.toNat ≤ 3) ∧ (d.toNat < 2 → n1 = 0) ∧ (d.toNat < 3 → n2 = 0)
    (¬ legal → exec (.cmShape d n0 n1 n2) s = .next (s.finish .illegal 0 0)) ∧
    (legal → n0.toNat = 0 ∨ e1 = 0 ∨ e2 = 0 → exec (.cmShape d n0 n1 n2) s = .next (s.finish .arg 0 0)) ∧
    (legal → 1 ≤ n0.toNat → 1 ≤ e1 → 1 ≤ e2 → s.cfg.maxElems < n0.toNat * e1 * e2 →
      exec (.cmShape d n0 n1 n2) s = .next (s.finish .alloc 0 0)) ∧
    (legal → 1 ≤ n0.toNat → 1 ≤ e1 → 1 ≤ e2 → n0.toNat * e1 * e2 ≤ s.cfg.maxElems →
      ∃ cm : CoefMem,
        exec (.cmShape d n0 n1 n2) s =
          .next ({ s with cm := cm }.finish .ok (BitVec.ofNat 64 (n0.toNat * e1 * e2)) 0) ∧
        cm.d = d.toNat ∧ cm.ext = ⟨n0.toNat, e1, e2⟩ ∧ cm.n = n0.toNat * e1 * e2 ∧ cm.mag.length = cm.n ∧
        cm.sgn.length = cm.n ∧ ∀ idx < cm.n, cm.mag[idx]? = some 0 ∧ cm.sgn[idx]? = some true)

/-- `CM_ST` stores one magnitude and its sign and changes no other element; `CM_LD` answers them; an index outside the array is
refused (43_coefficient_memory_and_sets.md R214, R215). -/
def Obligations.CoefficientStoreLoad : Prop :=
  ∀ (idx : Word) (s : State), s.st.faulted = false → s.cm.Wf s.cfg →
    (s.cm.n ≤ idx.toNat → exec (.cmLd idx) s = .next (s.finish .range 0 0) ∧
      ∀ sign mag, exec (.cmSt sign idx mag) s = .next (s.finish .range 0 0)) ∧
    (idx.toNat < s.cm.n →
      (∃ mag sign, s.cm.mag[idx.toNat]? = some mag ∧ s.cm.sgn[idx.toNat]? = some sign ∧
        exec (.cmLd idx) s = .next (s.finish .ok mag (if sign then 1 else 0))) ∧
      ∀ sign mag, ∃ cm : CoefMem, exec (.cmSt sign idx mag) s = .next ({ s with cm := cm }.finish .ok 0 0) ∧
        cm.d = s.cm.d ∧ cm.ext = s.cm.ext ∧ cm.mag.length = s.cm.mag.length ∧ cm.sgn.length = s.cm.sgn.length ∧
        cm.mag[idx.toNat]? = some mag ∧ cm.sgn[idx.toNat]? = some sign ∧
        ∀ j, j ≠ idx.toNat → cm.mag[j]? = s.cm.mag[j]? ∧ cm.sgn[j]? = s.cm.sgn[j]?)

/-- The offspring of a split partition the set: each point of the set lies in exactly one of them, and no other point does;
each is non-empty, one level up, and there are `2^k` of them, `k` being the number of dimensions longer than 1
(43_coefficient_memory_and_sets.md R217). -/
def Obligations.SplitSPartitions : Prop :=
  ∀ set : CoefSet, 1 ≤ set.extent.x → 1 ≤ set.extent.y → 1 ≤ set.extent.z →
    (∀ t : Tri, ((splitS set).filter fun o => o.holds t).length = if set.holds t then 1 else 0) ∧
    (∀ o ∈ splitS set, o.level = set.level + 1 ∧ 1 ≤ o.extent.x ∧ 1 ≤ o.extent.y ∧ 1 ≤ o.extent.z) ∧
    (splitS set).length = (if 1 < set.extent.x then 2 else 1) * (if 1 < set.extent.y then 2 else 1) *
      (if 1 < set.extent.z then 2 else 1)

/-- The offspring of TypeI at depth `k` partition what the addressed box gains when it grows from `A_k` to `A_(k-1)`; each is
non-empty, of level `k` and no larger than `A_k` (43_coefficient_memory_and_sets.md R221, R222). -/
def Obligations.SplitITiles : Prop :=
  ∀ (ext : Tri) (k : Nat), 1 ≤ k →
    (∀ t : Tri, ((splitI ext k).filter fun o => o.holds t).length =
      if inTypeI ext k t && !inTypeI ext (k - 1) t then 1 else 0) ∧
    ∀ o ∈ splitI ext k, o.level = k ∧ 1 ≤ o.extent.x ∧ 1 ≤ o.extent.y ∧ 1 ≤ o.extent.z ∧
      o.extent.x ≤ (halving ext k).x ∧ o.extent.y ≤ (halving ext k).y ∧ o.extent.z ≤ (halving ext k).z

/-- The root depth `K` is the least `k` with `A_k = (1,1,1)` (43_coefficient_memory_and_sets.md R216). -/
def Obligations.RootDepthLeast : Prop :=
  ∀ ext : Tri, 1 ≤ ext.x → 1 ≤ ext.y → 1 ≤ ext.z → ∀ k, halving ext k = ⟨1, 1, 1⟩ ↔ rootDepth ext ≤ k

/-! ### SPECK engine -/

/-- `SPK_ENC` on a shaped array, with room in the stream for the bits the budget or the array allows, ends `OK`: it appends at
most the budget at the write cursor, flushes, keeps the bits before it and the array, and answers the bits emitted and
`maxbits`. An unshaped memory is refused (44_speck_engine.md R241 to R257, R260). -/
def Obligations.EncodeCompletes : Prop :=
  ∀ (budget : Word) (s : State), s.st.faulted = false →
    (s.cm.n = 0 → exec (.spkEnc budget) s = .next (s.finish .arg 0 0)) ∧
    (s.cfg.Wf → s.bs.Wf s.cfg → s.cm.Wf s.cfg → 1 ≤ s.cm.n →
      s.bs.wpos + min budget.toNat (codedAtMost s.cm.n s.cm.maxbits) ≤ 64 * s.cfg.maxWords →
      ∃ (nb : Nat) (b : BitStream),
        exec (.spkEnc budget) s = .next ({ s with bs := b, lip := .empty, wl := .empty }.finish .ok
          (BitVec.ofNat 64 nb) (BitVec.ofNat 64 s.cm.maxbits)) ∧
        nb ≤ budget.toNat ∧ nb ≤ codedAtMost s.cm.n s.cm.maxbits ∧ b.Wf s.cfg ∧ b.wpos = s.bs.wpos + nb ∧
        b.blen = b.wpos ∧ b.rpos = s.bs.rpos ∧ (∀ p, b.getbit p = b.logical p) ∧
        ∀ p, p < s.bs.wpos ∨ b.wpos ≤ p → b.getbit p = s.bs.logical p)

/-- `SPK_DEC` on a shaped array ends `OK`, or `DATA_SHORT` where the declared stream ends before the budget and bitplane 0:
it consumes the bits it answers from the read cursor on, keeps the array's shape, and touches no other unit; it ends `OK`
where the stream holds as many bits as the budget or the array allows. Reserved values and an unshaped memory are refused
(44_speck_engine.md R242 to R257, R261, R262). -/
def Obligations.DecodeCompletes : Prop :=
  ∀ (maxbits : Byte) (budget : Word) (s : State), s.st.faulted = false →
    (63 < maxbits.toNat → exec (.spkDec maxbits budget) s = .next (s.finish .illegal 0 0)) ∧
    (maxbits.toNat ≤ 63 → s.cm.n = 0 → exec (.spkDec maxbits budget) s = .next (s.finish .arg 0 0)) ∧
    (maxbits.toNat ≤ 63 → 1 ≤ s.cm.n →
      ∃ (status : Status) (nb : Nat) (cm : CoefMem),
        exec (.spkDec maxbits budget) s = .next
          ({ s with
              bs := { s.bs with rpos := s.bs.rpos + nb }, cm := cm, lip := .empty, wl := .empty }.finish status
            (BitVec.ofNat 64 nb) 0) ∧
        cm.d = s.cm.d ∧ cm.ext = s.cm.ext ∧ cm.mag.length = cm.n ∧ cm.sgn.length = cm.n ∧ nb ≤ budget.toNat ∧
        (status = .ok ∨ status = .dataShort ∧ nb < budget.toNat ∧ nb = s.bs.blen - s.bs.rpos) ∧
        (s.bs.rpos + min budget.toNat (codedAtMost s.cm.n maxbits.toNat) ≤ s.bs.blen → status = .ok) ∧
        (s.bs.blen ≤ s.bs.rpos → budget ≠ 0 → status = .dataShort ∧
          ∀ idx < cm.n, cm.mag[idx]? = some 0 ∧ cm.sgn[idx]? = some true))

/-- Embedded property, encoder: with the smaller of two budgets the encoder writes the first bits of what it writes with the
larger one (44_speck_engine.md R255). -/
def Obligations.EncodePrefix : Prop :=
  ∀ (b1 b2 : Word) (s t1 t2 : State), s.st.faulted = false → s.cfg.Wf → s.bs.Wf s.cfg → b1.toNat ≤ b2.toNat →
    1 ≤ s.cm.n → exec (.spkEnc b1) s = .next t1 → exec (.spkEnc b2) s = .next t2 → t2.endedWith .ok →
    t1.endedWith .ok ∧ t1.bs.wpos = min (s.bs.wpos + b1.toNat) t2.bs.wpos ∧
      ∀ p < t1.bs.wpos, t1.bs.getbit p = t2.bs.getbit p

/-- Embedded property, decoder: a decode that ends `OK` depends on no bit of the stream beyond those it consumed
(44_speck_engine.md R255). -/
def Obligations.DecodeReadsOnlyConsumedBits : Prop :=
  ∀ (maxbits : Byte) (budget : Word) (s t : State) (b : BitStream), s.st.faulted = false →
    exec (.spkDec maxbits budget) s = .next t → t.endedWith .ok → b.rpos + (t.bs.rpos - s.bs.rpos) ≤ b.blen →
    (∀ i < t.bs.rpos - s.bs.rpos, b.getbit (b.rpos + i) = s.bs.getbit (s.bs.rpos + i)) →
    ∃ u, exec (.spkDec maxbits budget) { s with bs := b } = .next u ∧ u.endedWith .ok ∧ u.cm = t.cm ∧
      u.bs.rpos = b.rpos + (t.bs.rpos - s.bs.rpos)

/-- Lossless round trip: encoding an array with the unlimited budget and decoding the stream from where it began gives every
magnitude back, and the sign wherever the magnitude is not 0; elsewhere the sign is 1 (44_speck_engine.md R256). -/
def Obligations.SpeckRoundTrip : Prop :=
  ∀ s t : State, s.st.faulted = false → s.cfg.Wf → s.bs.Wf s.cfg → s.cm.Wf s.cfg → 1 ≤ s.cm.n →
    exec (.spkEnc all1) s = .next t → t.endedWith .ok →
    ∃ u, runCommands [.bsRseek (BitVec.ofNat 64 s.bs.wpos), .spkDec (BitVec.ofNat 8 s.cm.maxbits) all1] t = .next u ∧
      u.endedWith .ok ∧ u.cm.mag = s.cm.mag ∧ u.bs.rpos = t.bs.wpos ∧
      ∀ idx < s.cm.n, u.cm.sgn[idx]? = if s.cm.mag[idx]? = some 0 then some true else s.cm.sgn[idx]?

/-! ### Outlier coder -/

/-- `OUT_TOL` accepts the patterns `1 .. 0x7FEF...F` and refuses any other, the tolerance then staying: these are the finite
values greater than zero that 45_outlier_coder.md R292 asks for, by the layout of IEEE 754, which R10 and R291 take from
general knowledge (log 10, PRESUMED). -/
def Obligations.OutTolSets : Prop :=
  ∀ (tau : Word) (s : State), s.st.faulted = false →
    (1 ≤ tau.toNat ∧ tau.toNat < 0x7FF0000000000000 →
      exec (.outTol tau) s = .next ({ s with oc := { tol := tau, tolv := true } }.finish .ok 0 0)) ∧
    (tau.toNat = 0 ∨ 0x7FF0000000000000 ≤ tau.toNat → exec (.outTol tau) s = .next (s.finish .arg 0 0))

/-- `OUT_ENC` on sound records, with room in the stream, ends `OK`: the array holds the quantized magnitudes and signs at the
records' positions and zeros elsewhere; the bits are appended at the write cursor, committed and declared, and no other
stream bit changes; the results carry the bits emitted, the narrowest width that holds the greatest magnitude, and `maxbits`
(45_outlier_coder.md R293 to R295; 44_speck_engine.md R257). -/
def Obligations.OutEncCompletes : Prop :=
  ∀ (addr count len : Word) (s : State), s.st.faulted = false → s.cfg.Wf → s.bs.Wf s.cfg → addr.toNat % 8 = 0 →
    addr.toNat + 16 * count.toNat ≤ s.cfg.xbBytes → s.oc.tolv = true → 1 ≤ len.toNat → len.toNat ≤ s.cfg.maxElems →
    (∀ j < count.toNat, s.SoundRecord addr.toNat len.toNat j) →
    s.bs.wpos + codedAtMost len.toNat 63 ≤ 64 * s.cfg.maxWords →
    ∃ (cm : CoefMem) (b : BitStream) (nb w : Nat),
      exec (.outEnc addr count len) s = .next ({ s with cm := cm, bs := b, lip := .empty, wl := .empty }.finish .ok
        (BitVec.ofNat 64 nb) (BitVec.ofNat 64 (w * 2 ^ 8 + cm.maxbits))) ∧
      cm.Wf s.cfg ∧ cm.d = 1 ∧ cm.ext = ⟨len.toNat, 1, 1⟩ ∧
      (∀ j < count.toNat, cm.mag[(s.xb.outlierRecord addr.toNat j).pos]? =
          some (Real.f2u (quantize s.oc.tol (s.xb.outlierRecord addr.toNat j).error)) ∧
        cm.sgn[(s.xb.outlierRecord addr.toNat j).pos]? = some (!Real.neg (s.xb.outlierRecord addr.toNat j).error)) ∧
      (∀ idx < len.toNat, (∀ j < count.toNat, (s.xb.outlierRecord addr.toNat j).pos ≠ idx) →
        cm.mag[idx]? = some 0 ∧ cm.sgn[idx]? = some true) ∧
      w ≤ 3 ∧ cm.maxMag < 2 ^ (8 * 2 ^ w) ∧ (∀ v < w, 2 ^ (8 * 2 ^ v) ≤ cm.maxMag) ∧
      nb ≤ codedAtMost len.toNat cm.maxbits ∧ b.Wf s.cfg ∧ b.wpos = s.bs.wpos + nb ∧ b.blen = b.wpos ∧
      b.rpos = s.bs.rpos ∧ (∀ p, b.getbit p = b.logical p) ∧
      ∀ p, p < s.bs.wpos ∨ b.wpos ≤ p → b.getbit p = s.bs.logical p

/-- `OUT_DEC` with all its checks passed decodes as `SPK_DEC` does on a fresh 1-D array and keeps that array and read cursor
whatever comes after. A stream that ends early gives `DATA_SHORT` with the bits consumed and no list; a list that does not fit
gives the late `RANGE` and no list; else the records of the non-zero magnitudes are written in ascending position order, and
no other byte. It ends `OK` where the stream and the buffer hold all that the array can need (45_outlier_coder.md R293, R296;
60_exceptions.md R333, R340). -/
def Obligations.OutDecCompletes : Prop :=
  ∀ (maxbits wsel : Byte) (addr len : Word) (s : State), s.st.faulted = false → s.xb.Within s.cfg.xbBytes →
    maxbits.toNat ≤ 63 → wsel.toNat ≤ 3 → maxbits.toNat < 8 * 2 ^ wsel.toNat → addr.toNat % 8 = 0 →
    addr.toNat ≤ s.cfg.xbBytes → s.oc.tolv = true → 1 ≤ len.toNat → len.toNat ≤ s.cfg.maxElems →
    ∃ (status : Status) (nb : Nat) (cm : CoefMem) (found : List Nat),
      let decoded : State :=
        { s with bs := { s.bs with rpos := s.bs.rpos + nb }, cm := cm, lip := .empty, wl := .empty }
      exec (.spkDec maxbits all1) { s with cm := .shaped 1 ⟨len.toNat, 1, 1⟩ } =
        .next (decoded.finish status (BitVec.ofNat 64 nb) 0) ∧
      cm.d = 1 ∧ cm.ext = ⟨len.toNat, 1, 1⟩ ∧ cm.mag.length = len.toNat ∧ cm.sgn.length = len.toNat ∧
      found.Pairwise (· < ·) ∧ (∀ idx, idx ∈ found ↔ idx < len.toNat ∧ cm.mag[idx]? ≠ some 0) ∧
      (status = .ok ∨ status = .dataShort) ∧
      (s.bs.rpos + codedAtMost len.toNat maxbits.toNat ≤ s.bs.blen → status = .ok) ∧
      (s.bs.blen ≤ s.bs.rpos → status = .dataShort) ∧
      (status = .dataShort → nb = s.bs.blen - s.bs.rpos ∧
        exec (.outDec maxbits wsel addr len) s = .next (decoded.finish .dataShort 0 (BitVec.ofNat 64 nb))) ∧
      (status = .ok → s.cfg.xbBytes < addr.toNat + 16 * found.length →
        exec (.outDec maxbits wsel addr len) s = .next (decoded.finish .range 0 0)) ∧
      (status = .ok → addr.toNat + 16 * found.length ≤ s.cfg.xbBytes →
        ∃ m : Memory,
          exec (.outDec maxbits wsel addr len) s = .next
            ({ decoded with xb := m }.finish .ok (BitVec.ofNat 64 found.length) (BitVec.ofNat 64 nb)) ∧
          m.Within s.cfg.xbBytes ∧
          (∀ j idx, found[j]? = some idx → ∃ mag sign, cm.mag[idx]? = some mag ∧ cm.sgn[idx]? = some sign ∧
            m.readWord (addr.toNat + 16 * j) = BitVec.ofNat 64 idx ∧
            m.readWord (addr.toNat + 16 * j + 8) =
              (if sign then Real.fmul s.oc.tol (Real.u2f mag) else Real.fnegate (Real.fmul s.oc.tol (Real.u2f mag)))) ∧
          ∀ a, a < addr.toNat ∨ addr.toNat + 16 * found.length ≤ a → m.readByte a = s.xb.readByte a) ∧
      (s.bs.rpos + codedAtMost len.toNat maxbits.toNat ≤ s.bs.blen → addr.toNat + 16 * len.toNat ≤ s.cfg.xbBytes →
        ∃ t, exec (.outDec maxbits wsel addr len) s = .next t ∧ t.endedWith .ok)

/-- The checks of `OUT_ENC` in order, each with the status it gives and nothing changed but `ST`; the first unsound record
decides (45_outlier_coder.md R294; 60_exceptions.md R346). -/
def Obligations.OutEncRefusals : Prop :=
  ∀ (addr count len : Word) (s : State), s.st.faulted = false →
    let answers := fun status => exec (.outEnc addr count len) s = .next (s.finish status 0 0)
    let r := s.xb.outlierRecord addr.toNat
    (addr.toNat % 8 ≠ 0 → answers .align) ∧
    (addr.toNat % 8 = 0 →
      (s.cfg.xbBytes < addr.toNat + 16 * count.toNat → answers .range) ∧
      (addr.toNat + 16 * count.toNat ≤ s.cfg.xbBytes →
        (s.oc.tolv = false ∨ len.toNat = 0 → answers .arg) ∧
        (s.oc.tolv = true → s.cfg.maxElems < len.toNat → answers .alloc) ∧
        (s.oc.tolv = true → 1 ≤ len.toNat → len.toNat ≤ s.cfg.maxElems → ∀ j < count.toNat,
          (∀ i < j, s.SoundRecord addr.toNat len.toNat i) →
          (len.toNat ≤ (r j).pos → answers .range) ∧
          ((r j).pos < len.toNat →
            (Real.finite (r j).error = false ∨ Real.fge (Real.fabs (r j).error) s.oc.tol = false ∨
              Real.flt (quantize s.oc.tol (r j).error) Real.two64 = false ∨ ∃ i < j, (r i).pos = (r j).pos) →
            answers .arg))))

/-- The checks of `OUT_DEC` in order, each with the status it gives and nothing changed but `ST` (45_outlier_coder.md R296;
60_exceptions.md R341, R346). -/
def Obligations.OutDecRefusals : Prop :=
  ∀ (maxbits wsel : Byte) (addr len : Word) (s : State), s.st.faulted = false →
    let answers := fun status => exec (.outDec maxbits wsel addr len) s = .next (s.finish status 0 0)
    (63 < maxbits.toNat ∨ 3 < wsel.toNat → answers .illegal) ∧
    (maxbits.toNat ≤ 63 → wsel.toNat ≤ 3 →
      (addr.toNat % 8 ≠ 0 → answers .align) ∧
      (addr.toNat % 8 = 0 →
        (s.cfg.xbBytes < addr.toNat → answers .range) ∧
        (addr.toNat ≤ s.cfg.xbBytes →
          (s.oc.tolv = false ∨ len.toNat = 0 → answers .arg) ∧
          (s.oc.tolv = true → s.cfg.maxElems < len.toNat → answers .alloc) ∧
          (s.oc.tolv = true → 1 ≤ len.toNat → len.toNat ≤ s.cfg.maxElems → 8 * 2 ^ wsel.toNat ≤ maxbits.toNat →
            answers .dataWidth))))

/-- Encoding outliers and decoding the stream from where it began, with the `maxbits` and width selector read from the second
result that `OUT_ENC` answered and room for as many records, ends `OK` with the stream consumed: the array comes back, a sign
wherever the magnitude is not 0, each record's quantized magnitude and sign at its position, and 0 at every position that is
no record's (45_outlier_coder.md R295, R297, second half; 44_speck_engine.md R256). -/
def Obligations.OutlierRoundTrip : Prop :=
  ∀ (addr count len out : Word) (s t : State), s.st.faulted = false → s.cfg.Wf → s.bs.Wf s.cfg →
    exec (.outEnc addr count len) s = .next t → t.endedWith .ok →
    out.toNat % 8 = 0 → out.toNat + 16 * count.toNat ≤ s.cfg.xbBytes →
    ∃ (r : Response) (u : State), t.rspPort = s.rspPort ++ [r] ∧
      runCommands [.bsRseek (BitVec.ofNat 64 s.bs.wpos),
        .outDec (r.res1.setWidth 8) ((r.res1 >>> 8).setWidth 8) out len] t = .next u ∧
      u.endedWith .ok ∧ u.cm.mag = t.cm.mag ∧ u.bs.rpos = t.bs.wpos ∧
      (∀ idx < len.toNat, u.cm.sgn[idx]? = if t.cm.mag[idx]? = some 0 then some true else t.cm.sgn[idx]?) ∧
      (∀ j < count.toNat,
        u.cm.mag[(s.xb.outlierRecord addr.toNat j).pos]? =
          some (Real.f2u (quantize s.oc.tol (s.xb.outlierRecord addr.toNat j).error)) ∧
        (u.cm.mag[(s.xb.outlierRecord addr.toNat j).pos]? ≠ some 0 →
          u.cm.sgn[(s.xb.outlierRecord addr.toNat j).pos]? =
            some (!Real.neg (s.xb.outlierRecord addr.toNat j).error))) ∧
      ∀ idx < len.toNat, (∀ j < count.toNat, (s.xb.outlierRecord addr.toNat j).pos ≠ idx) →
        u.cm.mag[idx]? = some 0 ∧ u.cm.sgn[idx]? = some true

/-- The quotient and the product of finite binary64 values: finite exactly where the exact result is below half a last place
above the greatest finite value, else infinite; when finite, nearest to the exact result among all finite values, a tie going
to the even pattern (45_outlier_coder.md R291). The layout of the format is IEEE 754's (log 10). -/
def Obligations.RealRoundingIsNearest : Prop :=
  ∀ x y : Word, Real.finite x = true → Real.finite y = true →
    (Real.units y ≠ 0 →
      Real.neg (Real.fdiv x y) = (Real.neg x != Real.neg y) ∧
      (Real.finite (Real.fdiv x y) = true ↔ Real.units x * 2 ^ 1074 < Real.overflowUnits * Real.units y) ∧
      (Real.finite (Real.fdiv x y) = false → Real.isInf (Real.fdiv x y) = true) ∧
      (Real.finite (Real.fdiv x y) = true → ∀ z : Word, Real.finite z = true →
        Int.natAbs (Real.units (Real.fdiv x y) * Real.units y - Real.units x * 2 ^ 1074 : Int) ≤
          Int.natAbs (Real.units z * Real.units y - Real.units x * 2 ^ 1074 : Int) ∧
        (Int.natAbs (Real.units (Real.fdiv x y) * Real.units y - Real.units x * 2 ^ 1074 : Int) =
            Int.natAbs (Real.units z * Real.units y - Real.units x * 2 ^ 1074 : Int) →
          Real.units z ≠ Real.units (Real.fdiv x y) → (Real.fdiv x y).getLsbD 0 = false))) ∧
    (Real.neg (Real.fmul x y) = (Real.neg x != Real.neg y) ∧
      (Real.finite (Real.fmul x y) = true ↔ Real.units x * Real.units y < Real.overflowUnits * 2 ^ 1074) ∧
      (Real.finite (Real.fmul x y) = false → Real.isInf (Real.fmul x y) = true) ∧
      (Real.finite (Real.fmul x y) = true → ∀ z : Word, Real.finite z = true →
        Int.natAbs (Real.units (Real.fmul x y) * 2 ^ 1074 - Real.units x * Real.units y : Int) ≤
          Int.natAbs (Real.units z * 2 ^ 1074 - Real.units x * Real.units y : Int) ∧
        (Int.natAbs (Real.units (Real.fmul x y) * 2 ^ 1074 - Real.units x * Real.units y : Int) =
            Int.natAbs (Real.units z * 2 ^ 1074 - Real.units x * Real.units y : Int) →
          Real.units z ≠ Real.units (Real.fmul x y) → (Real.fmul x y).getLsbD 0 = false)))

/-! ### Exchange buffer -/

/-- `XB_ST8` and `XB_ST64` store their byte, or the eight bytes of their word least significant first, and change no other
byte; `XB_LD8` and `XB_LD64` answer them and change nothing. A misaligned 8-byte access is refused before one out of range
(46_exchange_buffer.md R320 to R323; 20_memory.md R73, R76, R77). -/
def Obligations.ExchangeAccess : Prop :=
  ∀ (addr : Word) (s : State), s.st.faulted = false → s.xb.Within s.cfg.xbBytes →
    (s.cfg.xbBytes < addr.toNat + 1 → exec (.xbLd8 addr) s = .next (s.finish .range 0 0) ∧
      ∀ value, exec (.xbSt8 value addr) s = .next (s.finish .range 0 0)) ∧
    (addr.toNat + 1 ≤ s.cfg.xbBytes →
      exec (.xbLd8 addr) s = .next (s.finish .ok (BitVec.ofNat 64 (s.xb.readByte addr.toNat).toNat) 0) ∧
      ∀ value, ∃ m : Memory, exec (.xbSt8 value addr) s = .next ({ s with xb := m }.finish .ok 0 0) ∧
        m.Within s.cfg.xbBytes ∧ ∀ a, m.readByte a = if a = addr.toNat then value else s.xb.readByte a) ∧
    (addr.toNat % 8 ≠ 0 → exec (.xbLd64 addr) s = .next (s.finish .align 0 0) ∧
      ∀ value, exec (.xbSt64 addr value) s = .next (s.finish .align 0 0)) ∧
    (addr.toNat % 8 = 0 → s.cfg.xbBytes < addr.toNat + 8 →
      exec (.xbLd64 addr) s = .next (s.finish .range 0 0) ∧
      ∀ value, exec (.xbSt64 addr value) s = .next (s.finish .range 0 0)) ∧
    (addr.toNat % 8 = 0 → addr.toNat + 8 ≤ s.cfg.xbBytes →
      (∃ v : Word, exec (.xbLd64 addr) s = .next (s.finish .ok v 0) ∧
        ∀ i < 64, v.getLsbD i = (s.xb.readByte (addr.toNat + i / 8)).getLsbD (i % 8)) ∧
      ∀ value, ∃ m : Memory, exec (.xbSt64 addr value) s = .next ({ s with xb := m }.finish .ok 0 0) ∧
        m.Within s.cfg.xbBytes ∧
        ∀ a, m.readByte a = if addr.toNat ≤ a ∧ a < addr.toNat + 8 then
          BitVec.ofNat 8 (value.toNat / 2 ^ (8 * (a - addr.toNat))) else s.xb.readByte a)
end

