-- ==== Sys2Proof/Laws/Bits.lean ====
section
/-! SUPPORT. What the bit and integer functions of Machine/Bits.lean compute. -/

namespace Sys2Proof.Machine

theorem testBit_one_of_ne {i : Nat} (h : i ≠ 0) : Nat.testBit 1 i = false := by
  have : (1 : Nat) < 2 ^ i := Nat.one_lt_two_pow h
  exact Nat.testBit_lt_two_pow this

theorem lowmask_getLsbD (k i : Nat) : (lowmask k).getLsbD i = (decide (i < 64) && decide (i < k)) := by
  simp [lowmask, BitVec.getLsbD_ofNat, Nat.testBit_two_pow_sub_one]

theorem setBit_getLsbD {j : Nat} (hj : j < 64) (w : Word) (v : Bool) (i : Nat) :
    (setBit w j v).getLsbD i = if i = j then v else w.getLsbD i := by
  unfold setBit
  by_cases h : i = j
  · subst h; cases v <;> simp [hj]
  · have h' : ¬ j = i := fun e => h e.symm
    by_cases hi : i < 64
    · cases v <;> simp [h, hi]
    · cases v <;> simp [h, h', BitVec.getLsbD_of_ge w i (by omega)]

theorem getBitAt_of_length_le {m : List Word} {p : Nat} (h : 64 * m.length ≤ p) : getBitAt m p = false := by
  have : m.length ≤ p / 64 := by omega
  rw [getBitAt, List.getD_eq_default _ _ this]; simp

theorem setBitAt_length (m : List Word) (p : Nat) (v : Bool) : (setBitAt m p v).length = m.length := by
  simp [setBitAt]

/-- One word of a store is replaced: every bit outside that word is kept. -/
theorem getBitAt_set {m : List Word} {j : Nat} (hj : j < m.length) (w : Word) (p : Nat) :
    getBitAt (m.set j w) p = if p / 64 = j then w.getLsbD (p % 64) else getBitAt m p := by
  unfold getBitAt
  by_cases h : p / 64 = j
  · subst h; simp [List.getD_eq_getElem?_getD, hj]
  · have h' : ¬ j = p / 64 := fun e => h e.symm
    simp [h, List.getD_eq_getElem?_getD, List.getElem?_set_ne h']

/-- Setting bit `p` of a store changes that bit alone. -/
theorem getBitAt_setBitAt {m : List Word} {p : Nat} (hp : p < 64 * m.length) (v : Bool) (q : Nat) :
    getBitAt (setBitAt m p v) q = if q = p then v else getBitAt m q := by
  have hj : p / 64 < m.length := by omega
  rw [setBitAt, getBitAt_set hj]
  by_cases hw : q / 64 = p / 64
  · rw [if_pos hw, setBit_getLsbD (Nat.mod_lt _ (by omega))]
    by_cases hq : q = p
    · simp [hq]
    · have : ¬ q % 64 = p % 64 := by omega
      simp [hq, this, getBitAt, hw]
  · have : ¬ q = p := fun e => hw (by rw [e])
    simp [hw, this]

theorem getBitAt_append_zeros (m : List Word) (k p : Nat) : getBitAt (m ++ zeros k) p = getBitAt m p := by
  unfold getBitAt zeros
  by_cases h : p / 64 < m.length
  · simp [List.getD_eq_getElem?_getD, List.getElem?_append_left h]
  · have h' : m.length ≤ p / 64 := by omega
    rw [List.getD_eq_getElem?_getD, List.getElem?_append_right h', List.getD_eq_default _ _ h']
    simp [List.getElem?_replicate]
    split <;> simp

theorem getBitAt_take (m : List Word) (k p : Nat) :
    getBitAt (m.take k) p = if p < 64 * k then getBitAt m p else false := by
  unfold getBitAt
  by_cases h : p < 64 * k
  · have : p / 64 < k := by omega
    simp [h, List.getD_eq_getElem?_getD, this]
  · have : ¬ p / 64 < k := by omega
    simp [h, List.getD_eq_getElem?_getD, this]

theorem getBitAt_zeros (k p : Nat) : getBitAt (zeros k) p = false := by
  unfold getBitAt zeros
  simp only [List.getD_eq_getElem?_getD, List.getElem?_replicate]
  split <;> simp

theorem bitsToNat_lt (bit : Nat → Bool) (n : Nat) : bitsToNat bit n < 2 ^ n := by
  induction n with
  | zero => simp [bitsToNat]
  | succ n ih =>
    have : (bit n).toNat ≤ 1 := Bool.toNat_le (bit n)
    have h2 : (bit n).toNat * 2 ^ n ≤ 1 * 2 ^ n := Nat.mul_le_mul_right _ this
    rw [bitsToNat, Nat.pow_succ]
    omega

/-- `Σ_{i<n} bit(i) · 2^i` has exactly those bits. -/
theorem bitsToNat_testBit (bit : Nat → Bool) (n i : Nat) :
    (bitsToNat bit n).testBit i = (decide (i < n) && bit i) := by
  induction n with
  | zero => simp [bitsToNat]
  | succ n ih =>
    have hlt := bitsToNat_lt bit n
    rw [bitsToNat, Nat.add_comm, Nat.mul_comm, Nat.testBit_two_pow_mul_add _ hlt]
    by_cases h : i < n
    · have : i < n + 1 := by omega
      simp [h, this, ih]
    · by_cases he : i = n
      · subst he; cases hb : bit i <;> simp
      · have h1 : ¬ i < n + 1 := by omega
        have h2 : i - n ≠ 0 := by omega
        cases hb : bit n
        · simp [h, h1]
        · simp [h, h1, testBit_one_of_ne h2]

theorem bitWord_getLsbD (v : Bool) (i : Nat) : (bitWord v).getLsbD i = (decide (i = 0) && v) := by
  cases v
  · simp [bitWord]
  · by_cases h : i = 0
    · simp [bitWord, h]
    · simp [bitWord, h]

theorem ceilDiv_mul_ge {b : Nat} (hb : 0 < b) (a : Nat) : a ≤ ceilDiv a b * b := by
  unfold ceilDiv
  have := Nat.div_add_mod (a + b - 1) b
  have h2 := Nat.mod_lt (a + b - 1) hb
  rw [Nat.mul_comm] at this
  omega

theorem ceilDiv_le_iff {b : Nat} (hb : 0 < b) (a c : Nat) : ceilDiv a b ≤ c ↔ a ≤ c * b := by
  unfold ceilDiv
  rw [Nat.div_le_iff_le_mul_add_pred hb, Nat.mul_comm b c]
  omega

/-- `clog2(n)` is the least `k` with `2^k ≥ n` (00_scope.md R7). -/
theorem clog2_le_iff (n k : Nat) : clog2 n ≤ k ↔ n ≤ 2 ^ k := by
  unfold clog2
  split
  · rename_i h
    have := Nat.one_le_two_pow (n := k)
    constructor <;> intro <;> omega
  · rename_i h
    have hn : n - 1 ≠ 0 := by omega
    rw [Nat.succ_le_iff, Nat.log2_lt hn]
    omega

/-- `flog2(n)` is the greatest `k` with `2^k ≤ n` (R7). -/
theorem le_flog2_iff {n : Nat} (hn : n ≠ 0) (k : Nat) : k ≤ flog2 n ↔ 2 ^ k ≤ n := Nat.le_log2 hn

end Sys2Proof.Machine
end

