-- ==== Sys2Proof/Laws/State.lean ====
section
/-! SUPPORT. One lemma per field per update of `State`, each true by `rfl`, so that no proof unfolds a record update. -/

namespace Sys2Proof.Machine

variable (s : State)

@[simp] theorem State.loseUnits_st : (s.loseUnits).st = s.st := rfl
@[simp] theorem State.loseUnits_bs : (s.loseUnits).bs = (Config.unitsAfterAlloc s.freeCount).bs := rfl
@[simp] theorem State.loseUnits_mask : (s.loseUnits).mask = (Config.unitsAfterAlloc s.freeCount).mask := rfl
@[simp] theorem State.loseUnits_lip : (s.loseUnits).lip = (Config.unitsAfterAlloc s.freeCount).lip := rfl
@[simp] theorem State.loseUnits_cm : (s.loseUnits).cm = (Config.unitsAfterAlloc s.freeCount).cm := rfl
@[simp] theorem State.loseUnits_wl : (s.loseUnits).wl = (Config.unitsAfterAlloc s.freeCount).wl := rfl
@[simp] theorem State.loseUnits_oc : (s.loseUnits).oc = (Config.unitsAfterAlloc s.freeCount).oc := rfl
@[simp] theorem State.loseUnits_xb : (s.loseUnits).xb = s.xb := rfl
@[simp] theorem State.loseUnits_cmdPort : (s.loseUnits).cmdPort = s.cmdPort := rfl
@[simp] theorem State.loseUnits_rspPort : (s.loseUnits).rspPort = s.rspPort := rfl
@[simp] theorem State.loseUnits_cfg : (s.loseUnits).cfg = s.cfg := rfl
@[simp] theorem State.loseUnits_freeCount : (s.loseUnits).freeCount = s.freeCount + 1 := rfl

@[simp] theorem State.resetUnits_st : (s.resetUnits).st = .reset := rfl
@[simp] theorem State.resetUnits_bs : (s.resetUnits).bs = .reset s.cfg.cap0Words := rfl
@[simp] theorem State.resetUnits_mask : (s.resetUnits).mask = .empty := rfl
@[simp] theorem State.resetUnits_lip : (s.resetUnits).lip = .empty := rfl
@[simp] theorem State.resetUnits_cm : (s.resetUnits).cm = .unshaped := rfl
@[simp] theorem State.resetUnits_wl : (s.resetUnits).wl = .empty := rfl
@[simp] theorem State.resetUnits_oc : (s.resetUnits).oc = .reset := rfl
@[simp] theorem State.resetUnits_xb : (s.resetUnits).xb = s.xb := rfl
@[simp] theorem State.resetUnits_cmdPort : (s.resetUnits).cmdPort = s.cmdPort := rfl
@[simp] theorem State.resetUnits_rspPort : (s.resetUnits).rspPort = s.rspPort := rfl
@[simp] theorem State.resetUnits_cfg : (s.resetUnits).cfg = s.cfg := rfl
@[simp] theorem State.resetUnits_freeCount : (s.resetUnits).freeCount = s.freeCount := rfl

@[simp] theorem State.present_st (f : Frame) : (s.present f).st = s.st := rfl
@[simp] theorem State.present_bs (f : Frame) : (s.present f).bs = s.bs := rfl
@[simp] theorem State.present_mask (f : Frame) : (s.present f).mask = s.mask := rfl
@[simp] theorem State.present_lip (f : Frame) : (s.present f).lip = s.lip := rfl
@[simp] theorem State.present_cm (f : Frame) : (s.present f).cm = s.cm := rfl
@[simp] theorem State.present_wl (f : Frame) : (s.present f).wl = s.wl := rfl
@[simp] theorem State.present_oc (f : Frame) : (s.present f).oc = s.oc := rfl
@[simp] theorem State.present_xb (f : Frame) : (s.present f).xb = s.xb := rfl
@[simp] theorem State.present_cmdPort (f : Frame) : (s.present f).cmdPort = f :: s.cmdPort.tail := rfl
@[simp] theorem State.present_rspPort (f : Frame) : (s.present f).rspPort = s.rspPort := rfl
@[simp] theorem State.present_cfg (f : Frame) : (s.present f).cfg = s.cfg := rfl
@[simp] theorem State.present_freeCount (f : Frame) : (s.present f).freeCount = s.freeCount := rfl

@[simp] theorem State.setMag_st (i : Nat) (v : Word) : (s.setMag i v).st = s.st := rfl
@[simp] theorem State.setMag_bs (i : Nat) (v : Word) : (s.setMag i v).bs = s.bs := rfl
@[simp] theorem State.setMag_mask (i : Nat) (v : Word) : (s.setMag i v).mask = s.mask := rfl
@[simp] theorem State.setMag_lip (i : Nat) (v : Word) : (s.setMag i v).lip = s.lip := rfl
@[simp] theorem State.setMag_cm (i : Nat) (v : Word) : (s.setMag i v).cm = { s.cm with mag := s.cm.mag.set i v } := rfl
@[simp] theorem State.setMag_wl (i : Nat) (v : Word) : (s.setMag i v).wl = s.wl := rfl
@[simp] theorem State.setMag_oc (i : Nat) (v : Word) : (s.setMag i v).oc = s.oc := rfl
@[simp] theorem State.setMag_xb (i : Nat) (v : Word) : (s.setMag i v).xb = s.xb := rfl
@[simp] theorem State.setMag_cmdPort (i : Nat) (v : Word) : (s.setMag i v).cmdPort = s.cmdPort := rfl
@[simp] theorem State.setMag_rspPort (i : Nat) (v : Word) : (s.setMag i v).rspPort = s.rspPort := rfl
@[simp] theorem State.setMag_cfg (i : Nat) (v : Word) : (s.setMag i v).cfg = s.cfg := rfl
@[simp] theorem State.setMag_freeCount (i : Nat) (v : Word) : (s.setMag i v).freeCount = s.freeCount := rfl

@[simp] theorem State.setSgn_st (i : Nat) (v : Bool) : (s.setSgn i v).st = s.st := rfl
@[simp] theorem State.setSgn_bs (i : Nat) (v : Bool) : (s.setSgn i v).bs = s.bs := rfl
@[simp] theorem State.setSgn_mask (i : Nat) (v : Bool) : (s.setSgn i v).mask = s.mask := rfl
@[simp] theorem State.setSgn_lip (i : Nat) (v : Bool) : (s.setSgn i v).lip = s.lip := rfl
@[simp] theorem State.setSgn_cm (i : Nat) (v : Bool) : (s.setSgn i v).cm = { s.cm with sgn := s.cm.sgn.set i v } := rfl
@[simp] theorem State.setSgn_wl (i : Nat) (v : Bool) : (s.setSgn i v).wl = s.wl := rfl
@[simp] theorem State.setSgn_oc (i : Nat) (v : Bool) : (s.setSgn i v).oc = s.oc := rfl
@[simp] theorem State.setSgn_xb (i : Nat) (v : Bool) : (s.setSgn i v).xb = s.xb := rfl
@[simp] theorem State.setSgn_cmdPort (i : Nat) (v : Bool) : (s.setSgn i v).cmdPort = s.cmdPort := rfl
@[simp] theorem State.setSgn_rspPort (i : Nat) (v : Bool) : (s.setSgn i v).rspPort = s.rspPort := rfl
@[simp] theorem State.setSgn_cfg (i : Nat) (v : Bool) : (s.setSgn i v).cfg = s.cfg := rfl
@[simp] theorem State.setSgn_freeCount (i : Nat) (v : Bool) : (s.setSgn i v).freeCount = s.freeCount := rfl

@[simp] theorem State.setLip_st (i : Nat) (v : Bool) : (s.setLip i v).st = s.st := rfl
@[simp] theorem State.setLip_bs (i : Nat) (v : Bool) : (s.setLip i v).bs = s.bs := rfl
@[simp] theorem State.setLip_mask (i : Nat) (v : Bool) : (s.setLip i v).mask = s.mask := rfl
@[simp] theorem State.setLip_lip (i : Nat) (v : Bool) : (s.setLip i v).lip = s.lip.wbit i v := rfl
@[simp] theorem State.setLip_cm (i : Nat) (v : Bool) : (s.setLip i v).cm = s.cm := rfl
@[simp] theorem State.setLip_wl (i : Nat) (v : Bool) : (s.setLip i v).wl = s.wl := rfl
@[simp] theorem State.setLip_oc (i : Nat) (v : Bool) : (s.setLip i v).oc = s.oc := rfl
@[simp] theorem State.setLip_xb (i : Nat) (v : Bool) : (s.setLip i v).xb = s.xb := rfl
@[simp] theorem State.setLip_cmdPort (i : Nat) (v : Bool) : (s.setLip i v).cmdPort = s.cmdPort := rfl
@[simp] theorem State.setLip_rspPort (i : Nat) (v : Bool) : (s.setLip i v).rspPort = s.rspPort := rfl
@[simp] theorem State.setLip_cfg (i : Nat) (v : Bool) : (s.setLip i v).cfg = s.cfg := rfl
@[simp] theorem State.setLip_freeCount (i : Nat) (v : Bool) : (s.setLip i v).freeCount = s.freeCount := rfl

@[simp] theorem State.pushLsp_st (i : Nat) : (s.pushLsp i).st = s.st := rfl
@[simp] theorem State.pushLsp_bs (i : Nat) : (s.pushLsp i).bs = s.bs := rfl
@[simp] theorem State.pushLsp_mask (i : Nat) : (s.pushLsp i).mask = s.mask := rfl
@[simp] theorem State.pushLsp_lip (i : Nat) : (s.pushLsp i).lip = s.lip := rfl
@[simp] theorem State.pushLsp_cm (i : Nat) : (s.pushLsp i).cm = s.cm := rfl
@[simp] theorem State.pushLsp_wl (i : Nat) : (s.pushLsp i).wl = { s.wl with lsp := s.wl.lsp ++ [i] } := rfl
@[simp] theorem State.pushLsp_oc (i : Nat) : (s.pushLsp i).oc = s.oc := rfl
@[simp] theorem State.pushLsp_xb (i : Nat) : (s.pushLsp i).xb = s.xb := rfl
@[simp] theorem State.pushLsp_cmdPort (i : Nat) : (s.pushLsp i).cmdPort = s.cmdPort := rfl
@[simp] theorem State.pushLsp_rspPort (i : Nat) : (s.pushLsp i).rspPort = s.rspPort := rfl
@[simp] theorem State.pushLsp_cfg (i : Nat) : (s.pushLsp i).cfg = s.cfg := rfl
@[simp] theorem State.pushLsp_freeCount (i : Nat) : (s.pushLsp i).freeCount = s.freeCount := rfl

@[simp] theorem State.pushLis_st (x : CoefSet) : (s.pushLis x).st = s.st := rfl
@[simp] theorem State.pushLis_bs (x : CoefSet) : (s.pushLis x).bs = s.bs := rfl
@[simp] theorem State.pushLis_mask (x : CoefSet) : (s.pushLis x).mask = s.mask := rfl
@[simp] theorem State.pushLis_lip (x : CoefSet) : (s.pushLis x).lip = s.lip := rfl
@[simp] theorem State.pushLis_cm (x : CoefSet) : (s.pushLis x).cm = s.cm := rfl
@[simp] theorem State.pushLis_wl (x : CoefSet) : (s.pushLis x).wl = { s.wl with lis := s.wl.lis.set x.level (s.wl.lis.getD x.level [] ++ [x]) } := rfl
@[simp] theorem State.pushLis_oc (x : CoefSet) : (s.pushLis x).oc = s.oc := rfl
@[simp] theorem State.pushLis_xb (x : CoefSet) : (s.pushLis x).xb = s.xb := rfl
@[simp] theorem State.pushLis_cmdPort (x : CoefSet) : (s.pushLis x).cmdPort = s.cmdPort := rfl
@[simp] theorem State.pushLis_rspPort (x : CoefSet) : (s.pushLis x).rspPort = s.rspPort := rfl
@[simp] theorem State.pushLis_cfg (x : CoefSet) : (s.pushLis x).cfg = s.cfg := rfl
@[simp] theorem State.pushLis_freeCount (x : CoefSet) : (s.pushLis x).freeCount = s.freeCount := rfl

@[simp] theorem State.clearLis_st (l : Nat) : (s.clearLis l).st = s.st := rfl
@[simp] theorem State.clearLis_bs (l : Nat) : (s.clearLis l).bs = s.bs := rfl
@[simp] theorem State.clearLis_mask (l : Nat) : (s.clearLis l).mask = s.mask := rfl
@[simp] theorem State.clearLis_lip (l : Nat) : (s.clearLis l).lip = s.lip := rfl
@[simp] theorem State.clearLis_cm (l : Nat) : (s.clearLis l).cm = s.cm := rfl
@[simp] theorem State.clearLis_wl (l : Nat) : (s.clearLis l).wl = { s.wl with lis := s.wl.lis.set l [] } := rfl
@[simp] theorem State.clearLis_oc (l : Nat) : (s.clearLis l).oc = s.oc := rfl
@[simp] theorem State.clearLis_xb (l : Nat) : (s.clearLis l).xb = s.xb := rfl
@[simp] theorem State.clearLis_cmdPort (l : Nat) : (s.clearLis l).cmdPort = s.cmdPort := rfl
@[simp] theorem State.clearLis_rspPort (l : Nat) : (s.clearLis l).rspPort = s.rspPort := rfl
@[simp] theorem State.clearLis_cfg (l : Nat) : (s.clearLis l).cfg = s.cfg := rfl
@[simp] theorem State.clearLis_freeCount (l : Nat) : (s.clearLis l).freeCount = s.freeCount := rfl

@[simp] theorem State.setIdepth_st (k : Nat) : (s.setIdepth k).st = s.st := rfl
@[simp] theorem State.setIdepth_bs (k : Nat) : (s.setIdepth k).bs = s.bs := rfl
@[simp] theorem State.setIdepth_mask (k : Nat) : (s.setIdepth k).mask = s.mask := rfl
@[simp] theorem State.setIdepth_lip (k : Nat) : (s.setIdepth k).lip = s.lip := rfl
@[simp] theorem State.setIdepth_cm (k : Nat) : (s.setIdepth k).cm = s.cm := rfl
@[simp] theorem State.setIdepth_wl (k : Nat) : (s.setIdepth k).wl = { s.wl with idepth := k } := rfl
@[simp] theorem State.setIdepth_oc (k : Nat) : (s.setIdepth k).oc = s.oc := rfl
@[simp] theorem State.setIdepth_xb (k : Nat) : (s.setIdepth k).xb = s.xb := rfl
@[simp] theorem State.setIdepth_cmdPort (k : Nat) : (s.setIdepth k).cmdPort = s.cmdPort := rfl
@[simp] theorem State.setIdepth_rspPort (k : Nat) : (s.setIdepth k).rspPort = s.rspPort := rfl
@[simp] theorem State.setIdepth_cfg (k : Nat) : (s.setIdepth k).cfg = s.cfg := rfl
@[simp] theorem State.setIdepth_freeCount (k : Nat) : (s.setIdepth k).freeCount = s.freeCount := rfl

@[simp] theorem State.setPlane_st (p : Nat) : (s.setPlane p).st = s.st := rfl
@[simp] theorem State.setPlane_bs (p : Nat) : (s.setPlane p).bs = s.bs := rfl
@[simp] theorem State.setPlane_mask (p : Nat) : (s.setPlane p).mask = s.mask := rfl
@[simp] theorem State.setPlane_lip (p : Nat) : (s.setPlane p).lip = s.lip := rfl
@[simp] theorem State.setPlane_cm (p : Nat) : (s.setPlane p).cm = s.cm := rfl
@[simp] theorem State.setPlane_wl (p : Nat) : (s.setPlane p).wl = { s.wl with p := p } := rfl
@[simp] theorem State.setPlane_oc (p : Nat) : (s.setPlane p).oc = s.oc := rfl
@[simp] theorem State.setPlane_xb (p : Nat) : (s.setPlane p).xb = s.xb := rfl
@[simp] theorem State.setPlane_cmdPort (p : Nat) : (s.setPlane p).cmdPort = s.cmdPort := rfl
@[simp] theorem State.setPlane_rspPort (p : Nat) : (s.setPlane p).rspPort = s.rspPort := rfl
@[simp] theorem State.setPlane_cfg (p : Nat) : (s.setPlane p).cfg = s.cfg := rfl
@[simp] theorem State.setPlane_freeCount (p : Nat) : (s.setPlane p).freeCount = s.freeCount := rfl

/-! ### `end_command` -/

variable (status : Status) (r0 r1 : Word)

@[simp] theorem State.finish_st : (s.finish status r0 r1).st = s.st.record status := by
  unfold State.finish; split <;> rfl

@[simp] theorem State.finish_xb : (s.finish status r0 r1).xb = s.xb := by
  unfold State.finish; split <;> rfl

@[simp] theorem State.finish_cmdPort : (s.finish status r0 r1).cmdPort = s.cmdPort := by
  unfold State.finish; split <;> rfl

@[simp] theorem State.finish_cfg : (s.finish status r0 r1).cfg = s.cfg := by
  unfold State.finish; split <;> rfl

@[simp] theorem State.finish_rspPort : (s.finish status r0 r1).rspPort =
    s.rspPort ++ [if status.keepsResults then ⟨status, r0, r1⟩ else ⟨status, 0, 0⟩] := by
  unfold State.finish; split <;> rfl

theorem State.finish_bs (h : status ≠ .alloc) : (s.finish status r0 r1).bs = s.bs := by
  unfold State.finish; rw [if_neg h]

theorem State.finish_mask (h : status ≠ .alloc) : (s.finish status r0 r1).mask = s.mask := by
  unfold State.finish; rw [if_neg h]

theorem State.finish_lip (h : status ≠ .alloc) : (s.finish status r0 r1).lip = s.lip := by
  unfold State.finish; rw [if_neg h]

theorem State.finish_cm (h : status ≠ .alloc) : (s.finish status r0 r1).cm = s.cm := by
  unfold State.finish; rw [if_neg h]

theorem State.finish_wl (h : status ≠ .alloc) : (s.finish status r0 r1).wl = s.wl := by
  unfold State.finish; rw [if_neg h]

theorem State.finish_oc (h : status ≠ .alloc) : (s.finish status r0 r1).oc = s.oc := by
  unfold State.finish; rw [if_neg h]

theorem State.finish_freeCount (h : status ≠ .alloc) : (s.finish status r0 r1).freeCount = s.freeCount := by
  unfold State.finish; rw [if_neg h]

/-- A command that does not end with `ALLOC` leaves the units as its body left them; only `ST` and the response port
are written. -/
theorem State.finish_of_ne_alloc (h : status ≠ .alloc) : s.finish status r0 r1 =
    { s with
      st := s.st.record status
      rspPort := s.rspPort ++ [if status.keepsResults then ⟨status, r0, r1⟩ else ⟨status, 0, 0⟩] } := by
  unfold State.finish; rw [if_neg h]

@[simp] theorem StatusUnit.record_lastst (st : StatusUnit) : (st.record status).lastst = status.code := rfl

@[simp] theorem StatusUnit.record_flags (st : StatusUnit) : (st.record status).flags = st.flags ||| status.flagMask := rfl

@[simp] theorem StatusUnit.record_faulted (st : StatusUnit) :
    (st.record status).faulted = (st.faulted || status == .alloc) := rfl

end Sys2Proof.Machine
end

