-- ==== Sys2Proof/Laws/Ops.lean ====
section
/-! SUPPORT. The shared operations of Machine/Ops.lean, each once: ending a command (60_exceptions.md R331), refusing one
while faulted (R345), accepting a frame (30_encoding.md R102). -/

namespace Sys2Proof.Machine

variable (s : State) (status : Status) (r0 r1 : Word)

/-- A command that ends with `ALLOC` loses every unit but `ST` and `XB` (R344). -/
theorem State.finish_alloc : s.finish .alloc r0 r1 =
    { s.loseUnits with st := s.st.record .alloc, rspPort := s.rspPort ++ [⟨.alloc, 0, 0⟩] } := rfl

/-- A status is known by its code (30_encoding.md R104). -/
theorem Status.code_injective {a b : Status} (h : a.code = b.code) : a = b := by
  cases a <;> cases b <;> first | rfl | exact absurd h (by decide)

theorem State.endedWith_finish {status' : Status} :
    (s.finish status r0 r1).endedWith status' ↔ status = status' := by
  unfold State.endedWith
  rw [State.finish_st, StatusUnit.record_lastst]
  exact ⟨Status.code_injective, fun h => by rw [h]⟩

theorem endCommand_eq : endCommand status r0 r1 s = .next (s.finish status r0 r1) := rfl

theorem finishOk_eq : finishOk r0 r1 s = .next (s.finish .ok r0 r1) := rfl

theorem raise_eq : raise status s = .next (s.finish status 0 0) := rfl

variable {s}

/-- A command of a CORE that is not faulted runs (R102 step 1). -/
theorem unlessFaulted_of_live (h : s.st.faulted = false) (body : State → Result) : unlessFaulted s body = body s := by
  unfold unlessFaulted; rw [h]; rfl

/-- A command of a faulted CORE is refused (R345). -/
theorem unlessFaulted_of_faulted (h : s.st.faulted = true) (body : State → Result) :
    unlessFaulted s body = .next (s.finish .faulted 0 0) := by
  unfold unlessFaulted; rw [h]; rfl

/-- Recording a status that sets no new flag, in a CORE that is not faulted, writes `LASTST` alone (R330). -/
theorem StatusUnit.record_ok (st : StatusUnit) : st.record .ok = { st with lastst := 0 } := by
  unfold StatusUnit.record Status.flagMask Status.code
  cases st; simp

/-- A faulted CORE whose flag mirrors it changes `LASTST` alone when it refuses a command (10_state.md R26). -/
theorem StatusUnit.record_faulted_status {st : StatusUnit} (h : st.flags.getLsbD 7 = true) :
    st.record .faulted = { st with lastst := 0x81 } := by
  have hf : st.flags ||| 0x80 = st.flags := by
    apply BitVec.eq_of_getLsbD_eq
    intro i hi
    rw [BitVec.getLsbD_or]
    by_cases h7 : i = 7
    · subst h7; rw [h]; rfl
    · have : (0x80 : Byte).getLsbD i = false := by
        have : i < 7 := by omega
        interval_cases i <;> rfl
      rw [this, Bool.or_false]
  unfold StatusUnit.record Status.flagMask Status.code
  cases st; simp_all

theorem accept_nil (h : s.cmdPort = []) : s.accept = none := by unfold State.accept; rw [h]

theorem accept_cons {f : Frame} {rest : List Frame} (h : s.cmdPort = f :: rest) :
    s.accept = some (f, { s with cmdPort := rest }) := by unfold State.accept; rw [h]

/-- What one step can do: wait, run a command, or refuse a frame (R102). -/
theorem step_cases (s : State) :
    (s.cmdPort = [] ∧ step s = .next s) ∨
    ∃ f rest, s.cmdPort = f :: rest ∧
      ((∃ i, decode f = .ok i ∧ step s = exec i { s with cmdPort := rest }) ∨
       ((∃ e, decode f = .error e) ∧ step s = rejectFrame f { s with cmdPort := rest })) := by
  cases hp : s.cmdPort with
  | nil => left; exact ⟨rfl, by unfold step; rw [accept_nil hp]⟩
  | cons f rest =>
    right
    refine ⟨f, rest, rfl, ?_⟩
    unfold step
    rw [accept_cons hp]
    cases hd : decode f with
    | ok i => left; exact ⟨i, rfl, by simp [hd]⟩
    | error e => right; exact ⟨⟨e, rfl⟩, by simp [hd]⟩

end Sys2Proof.Machine
end

