-- ==== Sys2Proof/Laws/Stream.lean ====
section
/-! SUPPORT. The BitStream's operations, each once: what logical content it leaves, and that it keeps the invariants of
10_state.md R27 to R31 (41_bitstream.md R141 to R145, R153). -/

namespace Sys2Proof.Machine

variable {cfg : Params} {b : BitStream}

theorem BitStream.pendingWord_lt (h : b.Wf cfg) (hk : 0 < b.wpos % 64) : b.wpos / 64 < b.mem.length := by
  have := h.wposLe; have := h.memLen; omega

@[simp] theorem BitStream.commit_cap : b.commit.cap = b.cap := by unfold BitStream.commit; split <;> rfl
@[simp] theorem BitStream.commit_wpos : b.commit.wpos = b.wpos := by unfold BitStream.commit; split <;> rfl
@[simp] theorem BitStream.commit_rpos : b.commit.rpos = b.rpos := by unfold BitStream.commit; split <;> rfl
@[simp] theorem BitStream.commit_wbuf : b.commit.wbuf = b.wbuf := by unfold BitStream.commit; split <;> rfl
@[simp] theorem BitStream.commit_blen : b.commit.blen = b.blen := by unfold BitStream.commit; split <;> rfl
@[simp] theorem BitStream.commit_mem_length : b.commit.mem.length = b.mem.length := by
  unfold BitStream.commit; split <;> simp

/-- Logical content in terms of the cursor (R142). -/
theorem BitStream.logical_eq (b : BitStream) (p : Nat) : b.logical p =
    if p / 64 = b.wpos / 64 ∧ p % 64 < b.wpos % 64 then b.wbuf.getLsbD (p % 64) else getBitAt b.mem p := rfl

/-- After a commit, `mem` holds the logical content (R141, R142). -/
theorem BitStream.getBitAt_commit (h : b.Wf cfg) (p : Nat) : getBitAt b.commit.mem p = b.logical p := by
  unfold BitStream.commit BitStream.logical
  by_cases hk : b.k > 0
  · have hw : b.w < b.mem.length := BitStream.pendingWord_lt h hk
    rw [if_pos hk, getBitAt_set hw]
    by_cases hp : p / 64 = b.w
    · have hlt : p % 64 < 64 := Nat.mod_lt _ (by omega)
      rw [if_pos hp]
      by_cases hpk : p % 64 < b.k
      · simp [hp, hpk, hlt, lowmask_getLsbD]
      · have hz := h.pendingLow (p % 64) (by simpa [BitStream.k] using hpk)
        rw [BitVec.getLsbD_or, hz, BitVec.getLsbD_and, BitVec.getLsbD_not, lowmask_getLsbD, if_neg (by tauto), getBitAt, hp]
        simp [hpk, hlt]
    · rw [if_neg hp, if_neg (by tauto)]
  · have : ¬ (p / 64 = b.w ∧ p % 64 < b.k) := by omega
    rw [if_neg hk, if_neg this]

theorem BitStream.getbit_commit (h : b.Wf cfg) (p : Nat) : b.commit.getbit p = b.logical p :=
  BitStream.getBitAt_commit h p

/-- A commit changes no logical content (it is idempotent, R141). -/
theorem BitStream.logical_commit (h : b.Wf cfg) (p : Nat) : b.commit.logical p = b.logical p := by
  have hg := BitStream.getBitAt_commit h p
  rw [BitStream.logical_eq] at hg
  rw [BitStream.logical_eq, BitStream.logical_eq, BitStream.commit_wpos, BitStream.commit_wbuf, hg]
  split <;> rfl

theorem BitStream.wf_commit (h : b.Wf cfg) : b.commit.Wf cfg where
  capPos := by simpa using h.capPos
  capPower := by simpa using h.capPower
  capLe := by simpa using h.capLe
  memLen := by simpa using h.memLen
  wposLe := by simpa using h.wposLe
  rposLe := by simpa using h.rposLe
  pendingLow := by simpa using h.pendingLow
  blenLe := by simpa using h.blenLe

/-- The write buffer of a cursor at `pos` holds exactly the bits of its word below it. -/
theorem bufferAt_getLsbD (mem : List Word) (pos i : Nat) :
    (bufferAt mem pos).getLsbD i =
      (decide (i < 64) && decide (i < pos % 64) && getBitAt mem (64 * (pos / 64) + i)) := by
  unfold bufferAt getBitAt
  by_cases hk : pos % 64 > 0
  · rw [if_pos hk, BitVec.getLsbD_and, lowmask_getLsbD]
    by_cases hi : i < 64
    · have h1 : (64 * (pos / 64) + i) / 64 = pos / 64 := by omega
      have h2 : (64 * (pos / 64) + i) % 64 = i := by omega
      rw [h1, h2]; simp [Bool.and_comm]
    · simp [hi]
  · have : ¬ i < pos % 64 := by omega
    rw [if_neg hk]; simp [this]

/-- A cursor whose write buffer was loaded from `mem` sees the logical content that `mem` holds. -/
theorem BitStream.logical_of_loaded {b : BitStream} (h : b.wbuf = bufferAt b.mem b.wpos) (p : Nat) :
    b.logical p = getBitAt b.mem p := by
  unfold BitStream.logical
  split
  · rename_i hc
    have hw : p / 64 = b.wpos / 64 := hc.1
    have hk : p % 64 < b.wpos % 64 := hc.2
    have h1 : p % 64 < 64 := Nat.mod_lt _ (by omega)
    have h2 : 64 * (b.wpos / 64) + p % 64 = p := by omega
    rw [h, bufferAt_getLsbD, h2]; simp [h1, hk]
  · rfl

theorem bufferAt_pendingLow (mem : List Word) (pos i : Nat) (h : pos % 64 ≤ i) : (bufferAt mem pos).getLsbD i = false := by
  rw [bufferAt_getLsbD]; simp; intro _ h'; omega

theorem zeros_length (k : Nat) : (zeros k).length = k := by simp [zeros]

/-- `grow()` (R144): it fails exactly where the doubled capacity exceeds `MAX_WORDS`; else the capacity doubles, both
cursors and the logical content are kept, and the new words are zero. -/
theorem BitStream.grow_cases (h : b.Wf cfg) :
    (2 * b.cap > cfg.maxWords ∧ b.grow cfg.maxWords = none) ∨
    (2 * b.cap ≤ cfg.maxWords ∧ ∃ g, b.grow cfg.maxWords = some g ∧ g.Wf cfg ∧ g.cap = 2 * b.cap ∧ g.wpos = b.wpos ∧
      g.rpos = b.rpos ∧ g.blen = b.blen ∧ ∀ p, g.logical p = b.logical p) := by
  unfold BitStream.grow
  by_cases hc : 2 * b.cap > cfg.maxWords
  · left; exact ⟨hc, by simp [hc]⟩
  · right
    refine ⟨by omega, ?_⟩
    simp only [BitStream.commit_cap, BitStream.commit_wpos]
    rw [if_neg hc]
    refine ⟨_, rfl, ⟨?_, ?_, ?_, ?_, ?_, ?_, ?_, ?_⟩, rfl, by simp, by simp, by simp, fun p => ?_⟩
    · have := h.capPos
      show 1 ≤ 2 * b.cap; omega
    · obtain ⟨j, hj⟩ := h.capPower
      exact ⟨j + 1, by rw [Nat.pow_succ, ← Nat.mul_assoc, ← hj]; exact Nat.mul_comm _ _⟩
    · show 2 * b.cap ≤ cfg.maxWords; omega
    · have := h.memLen
      simp [zeros_length]; omega
    · have := h.wposLe; simp; omega
    · have := h.rposLe; simp; omega
    · intro i hi; exact bufferAt_pendingLow _ _ _ (by simpa using hi)
    · have := h.blenLe; simp; omega
    · have hl := BitStream.logical_of_loaded
        (b := { b.commit with mem := b.commit.mem ++ zeros b.cap, cap := 2 * b.cap,
                              wbuf := bufferAt (b.commit.mem ++ zeros b.cap) b.wpos }) (by simp) p
      simp only [BitStream.commit_wpos] at hl
      rw [hl, getBitAt_append_zeros, BitStream.getBitAt_commit h]

/-- `put(bit)` below the capacity (R145): the cursor moves on by one and the bit stands at its old position in the
logical content; nothing else of the content changes. -/
theorem BitStream.putWithin_spec (h : b.Wf cfg) (hp : b.wpos < 64 * b.cap) (v : Bool) :
    (b.putWithin v).Wf cfg ∧ (b.putWithin v).cap = b.cap ∧ (b.putWithin v).wpos = b.wpos + 1 ∧
      (b.putWithin v).rpos = b.rpos ∧ (b.putWithin v).blen = b.blen ∧
      ∀ p, (b.putWithin v).logical p = if p = b.wpos then v else b.logical p := by
  have hml := h.memLen
  have hw : b.wpos / 64 < b.mem.length := by omega
  have hk64 : b.wpos % 64 < 64 := Nat.mod_lt _ (by omega)
  have hnew : ∀ i, (b.wbuf ||| (bitWord v <<< b.k)).getLsbD i =
      if i = b.wpos % 64 then (decide (i < 64) && v) else b.wbuf.getLsbD i := by
    intro i
    rw [BitVec.getLsbD_or, BitVec.getLsbD_shiftLeft, bitWord_getLsbD]
    by_cases hi : i = b.wpos % 64
    · have hz := h.pendingLow i (by omega)
      rw [hz, if_pos hi, hi]; simp [BitStream.k, hk64]
    · by_cases hlt : i < b.wpos % 64
      · simp [hi, BitStream.k, hlt]
      · have : ¬ i - b.wpos % 64 = 0 := by omega
        simp [hi, BitStream.k, hlt, this]
  unfold BitStream.putWithin
  by_cases hf : (b.wpos + 1) % 64 = 0
  · have hdiv : (b.wpos + 1) / 64 - 1 = b.wpos / 64 := by omega
    rw [if_pos hf, hdiv]
    refine ⟨⟨h.capPos, h.capPower, h.capLe, ?_, ?_, h.rposLe, ?_, h.blenLe⟩, rfl, rfl, rfl, rfl, fun p => ?_⟩
    · simpa using h.memLen
    · show b.wpos + 1 ≤ 64 * b.cap; omega
    · intro i _; simp
    · rw [BitStream.logical_eq, BitStream.logical_eq]
      show (if p / 64 = (b.wpos + 1) / 64 ∧ p % 64 < (b.wpos + 1) % 64 then _ else
        getBitAt (b.mem.set (b.wpos / 64) (b.wbuf ||| (bitWord v <<< b.k))) p) = _
      have hno : ¬ (p / 64 = (b.wpos + 1) / 64 ∧ p % 64 < (b.wpos + 1) % 64) := by omega
      rw [if_neg hno, getBitAt_set hw]
      by_cases hpw : p / 64 = b.wpos / 64
      · rw [if_pos hpw, hnew]
        by_cases he : p = b.wpos
        · simp [he, hk64]
        · have h1 : ¬ p % 64 = b.wpos % 64 := by omega
          have h2 : p % 64 < b.wpos % 64 := by omega
          rw [if_neg h1, if_neg he, if_pos ⟨hpw, h2⟩]
      · have he : ¬ p = b.wpos := fun e => hpw (by rw [e])
        rw [if_neg hpw, if_neg he, if_neg (by tauto)]
  · rw [if_neg hf]
    refine ⟨⟨h.capPos, h.capPower, h.capLe, h.memLen, ?_, h.rposLe, ?_, h.blenLe⟩, rfl, rfl, rfl, rfl, fun p => ?_⟩
    · show b.wpos + 1 ≤ 64 * b.cap; omega
    · intro i hi
      have hi' : (b.wpos + 1) % 64 ≤ i := hi
      rw [hnew, if_neg (by omega)]
      exact h.pendingLow i (by omega)
    · rw [BitStream.logical_eq, BitStream.logical_eq]
      show (if p / 64 = (b.wpos + 1) / 64 ∧ p % 64 < (b.wpos + 1) % 64 then
        (b.wbuf ||| (bitWord v <<< b.k)).getLsbD (p % 64) else getBitAt b.mem p) = _
      by_cases hpw : p / 64 = b.wpos / 64
      · have hpw' : p / 64 = (b.wpos + 1) / 64 := by omega
        by_cases he : p = b.wpos
        · have : p % 64 < (b.wpos + 1) % 64 := by omega
          rw [if_pos ⟨hpw', this⟩, hnew]; simp [he, hk64]
        · by_cases hlt : p % 64 < b.wpos % 64
          · have : p % 64 < (b.wpos + 1) % 64 := by omega
            have h1 : ¬ p % 64 = b.wpos % 64 := by omega
            rw [if_pos ⟨hpw', this⟩, hnew, if_neg h1, if_neg he, if_pos ⟨hpw, hlt⟩]
          · have : ¬ (p / 64 = (b.wpos + 1) / 64 ∧ p % 64 < (b.wpos + 1) % 64) := by omega
            have h1 : ¬ (p / 64 = b.wpos / 64 ∧ p % 64 < b.wpos % 64) := by omega
            rw [if_neg this, if_neg he, if_neg h1]
      · have he : ¬ p = b.wpos := fun e => hpw (by rw [e])
        have h1 : ¬ (p / 64 = (b.wpos + 1) / 64 ∧ p % 64 < (b.wpos + 1) % 64) := by omega
        have h2 : ¬ (p / 64 = b.wpos / 64 ∧ p % 64 < b.wpos % 64) := by omega
        rw [if_neg h1, if_neg he, if_neg h2]

/-- `put(bit)` (R145), all it can do: it fails only at the end of a capacity that cannot double. -/
theorem BitStream.put_cases (h : b.Wf cfg) (v : Bool) :
    (b.wpos = 64 * b.cap ∧ 2 * b.cap > cfg.maxWords ∧ b.put cfg.maxWords v = none) ∨
    ((b.wpos < 64 * b.cap ∨ 2 * b.cap ≤ cfg.maxWords) ∧ ∃ g, b.put cfg.maxWords v = some g ∧ g.Wf cfg ∧
      g.cap = (if b.wpos = 64 * b.cap then 2 * b.cap else b.cap) ∧ g.wpos = b.wpos + 1 ∧ g.rpos = b.rpos ∧
      g.blen = b.blen ∧ ∀ p, g.logical p = if p = b.wpos then v else b.logical p) := by
  have hw := h.wposLe
  unfold BitStream.put
  by_cases hfull : b.wpos = 64 * b.cap
  · rcases BitStream.grow_cases h with ⟨hc, hg⟩ | ⟨hc, g, hg, hgw, hcap, hgp, hgr, hgb, hgl⟩
    · left; exact ⟨hfull, hc, by simp [hfull, hg]⟩
    · right
      have hpos := h.capPos
      have hlt : g.wpos < 64 * g.cap := by rw [hgp, hcap]; omega
      obtain ⟨w1, w2, w3, w4, w5, w6⟩ := BitStream.putWithin_spec hgw hlt v
      refine ⟨.inr hc, g.putWithin v, by simp [hfull, hg], w1, by rw [w2, hcap, if_pos hfull], by rw [w3, hgp],
        by rw [w4, hgr], by rw [w5, hgb], fun p => ?_⟩
      rw [w6, hgp, hgl]
  · right
    have hlt : b.wpos < 64 * b.cap := by omega
    obtain ⟨w1, w2, w3, w4, w5, w6⟩ := BitStream.putWithin_spec h hlt v
    exact ⟨.inl hlt, b.putWithin v, by simp [hfull], w1, by rw [w2, if_neg hfull], w3, w4, w5, w6⟩

/-- Below the limit of the stream a write has room: the capacity is reached or can double (R27, R144). -/
theorem BitStream.has_room (hc : cfg.Wf) (h : b.Wf cfg) (hr : b.wpos < 64 * cfg.maxWords) :
    b.wpos < 64 * b.cap ∨ 2 * b.cap ≤ cfg.maxWords := by
  obtain ⟨j, hj⟩ := h.capPower
  obtain ⟨m, hm⟩ := hc.maxPower
  by_cases hlt : b.wpos < 64 * b.cap
  · exact .inl hlt
  · right
    have hcap : b.cap < cfg.maxWords := by omega
    have hc0 : 0 < cfg.cap0Words := by
      rcases Nat.eq_zero_or_pos cfg.cap0Words with h0 | h0
      · rw [h0] at hj hm; simp at hj hm; omega
      · exact h0
    rw [hj, hm] at hcap
    have hjm : j < m := (Nat.pow_lt_pow_iff_right (by omega)).1 (Nat.lt_of_mul_lt_mul_left hcap)
    rw [hj, hm, Nat.mul_comm 2, Nat.mul_assoc, ← Nat.pow_succ]
    exact Nat.mul_le_mul_left _ (Nat.pow_le_pow_right (by omega) hjm)

/-- Writing a list of bits that fits below the stream's limit succeeds; the bits stand at consecutive positions of the
logical content from the old cursor on, and the capacity doubles only as often as it must (R144, R145, R147). -/
theorem BitStream.putAll_spec (hc : cfg.Wf) (vs : List Bool) (h : b.Wf cfg)
    (hr : b.wpos + vs.length ≤ 64 * cfg.maxWords) :
    ∃ g, BitStream.putAll cfg.maxWords vs b = some g ∧ g.Wf cfg ∧ g.wpos = b.wpos + vs.length ∧ g.rpos = b.rpos ∧
      g.blen = b.blen ∧
      (∃ j, g.cap = b.cap * 2 ^ j ∧ (0 < j → 64 * (b.cap * 2 ^ (j - 1)) < b.wpos + vs.length)) ∧
      ∀ p, g.logical p =
        if b.wpos ≤ p ∧ p < b.wpos + vs.length then vs.getD (p - b.wpos) false else b.logical p := by
  induction vs generalizing b with
  | nil =>
    refine ⟨b, rfl, h, rfl, rfl, rfl, ⟨0, by simp, by simp⟩, fun p => ?_⟩
    rw [if_neg (by simp)]
  | cons v vs ih =>
    rw [List.length_cons] at hr ⊢
    rcases BitStream.put_cases h v with ⟨hw, hcap, -⟩ | ⟨-, g, hg, hgw, hgc, hgp, hgr, hgb, hgl⟩
    · exfalso
      rcases BitStream.has_room hc h (by omega) with hlt | hle <;> omega
    · obtain ⟨e, he, hew, hep, her, heb, ⟨j, hj, hjlt⟩, hel⟩ := ih hgw (by omega)
      refine ⟨e, by rw [BitStream.putAll, hg]; exact he, hew, by omega, by rw [her, hgr], by rw [heb, hgb], ?_, ?_⟩
      · by_cases hfull : b.wpos = 64 * b.cap
        · rw [if_pos hfull] at hgc
          refine ⟨j + 1, by rw [hj, hgc, Nat.pow_succ]; ring, fun _ => ?_⟩
          rcases Nat.eq_zero_or_pos j with h0 | h0
          · subst h0; simp; omega
          · have hjl := hjlt h0
            have : 2 * b.cap * 2 ^ (j - 1) = b.cap * 2 ^ j := by
              obtain ⟨k, rfl⟩ : ∃ k, j = k + 1 := ⟨j - 1, by omega⟩
              simp [Nat.pow_succ]; ring
            rw [hgc, this] at hjl
            simp only [Nat.add_sub_cancel]
            omega
        · rw [if_neg hfull] at hgc
          rw [hgc] at hj hjlt
          exact ⟨j, hj, fun h0 => by have := hjlt h0; omega⟩
      · intro p
        rw [hel, hgl, hgp]
        by_cases h1 : p = b.wpos
        · subst h1
          rw [if_neg (by omega), if_pos rfl, if_pos (by omega)]; simp
        · by_cases h2 : b.wpos + 1 ≤ p ∧ p < b.wpos + 1 + vs.length
          · have h3 : p - b.wpos = (p - (b.wpos + 1)) + 1 := by omega
            rw [if_pos h2, if_pos (by omega), h3, List.getD_cons_succ]
          · rw [if_neg h2, if_neg h1, if_neg (by omega)]

/-- The flush of R153: the content is committed, the length declared, nothing moves. -/
theorem BitStream.flush_spec (h : b.Wf cfg) :
    b.flush.Wf cfg ∧ b.flush.cap = b.cap ∧ b.flush.wpos = b.wpos ∧ b.flush.rpos = b.rpos ∧ b.flush.wbuf = b.wbuf ∧
      b.flush.blen = b.wpos ∧ ∀ p, b.flush.getbit p = b.logical p := by
  have hw := BitStream.wf_commit h
  refine ⟨⟨hw.capPos, hw.capPower, hw.capLe, hw.memLen, hw.wposLe, hw.rposLe, hw.pendingLow, ?_⟩,
    ?_, ?_, ?_, ?_, rfl, fun p => BitStream.getBitAt_commit h p⟩
  · have := h.wposLe; simpa [BitStream.flush] using this
  all_goals simp [BitStream.flush]

/-- Moving the write cursor keeps the logical content and commits it (R151). -/
theorem BitStream.seekWrite_spec (h : b.Wf cfg) {pos : Nat} (hp : pos ≤ 64 * b.cap) :
    (b.seekWrite pos).Wf cfg ∧ (b.seekWrite pos).cap = b.cap ∧ (b.seekWrite pos).wpos = pos ∧
      (b.seekWrite pos).rpos = b.rpos ∧ (b.seekWrite pos).blen = b.blen ∧
      (∀ p, (b.seekWrite pos).getbit p = b.logical p) ∧ ∀ p, (b.seekWrite pos).logical p = b.logical p := by
  have hw := BitStream.wf_commit h
  refine ⟨⟨hw.capPos, hw.capPower, hw.capLe, hw.memLen, ?_, hw.rposLe, ?_, hw.blenLe⟩, ?_, rfl, ?_, ?_,
    fun p => BitStream.getBitAt_commit h p, fun p => ?_⟩
  · simpa [BitStream.seekWrite] using hp
  · intro i hi; exact bufferAt_pendingLow _ _ _ hi
  · simp [BitStream.seekWrite]
  · simp [BitStream.seekWrite]
  · simp [BitStream.seekWrite]
  · rw [BitStream.logical_of_loaded rfl]; exact BitStream.getBitAt_commit h p

/-- A random write is visible at once, is not undone by a later commit, and changes one bit of the content (R155). -/
theorem BitStream.randomWrite_spec (h : b.Wf cfg) {pos : Nat} (hp : pos < 64 * b.cap) (v : Bool) :
    (b.randomWrite pos v).Wf cfg ∧ (b.randomWrite pos v).cap = b.cap ∧ (b.randomWrite pos v).wpos = b.wpos ∧
      (b.randomWrite pos v).rpos = b.rpos ∧ (b.randomWrite pos v).blen = b.blen ∧
      (∀ p, (b.randomWrite pos v).getbit p = if p = pos then v else b.logical p) ∧
      ∀ p, (b.randomWrite pos v).logical p = (b.randomWrite pos v).getbit p := by
  have hw := BitStream.wf_commit h
  have hlen := hw.memLen
  simp only [BitStream.commit_cap] at hlen
  refine ⟨⟨hw.capPos, hw.capPower, hw.capLe, ?_, hw.wposLe, hw.rposLe, ?_, hw.blenLe⟩, ?_, ?_, ?_, ?_, ?_, ?_⟩
  · simpa [BitStream.randomWrite, setBitAt_length] using h.memLen
  · intro i hi; exact bufferAt_pendingLow _ _ _ hi
  · simp [BitStream.randomWrite]
  · simp [BitStream.randomWrite]
  · simp [BitStream.randomWrite]
  · simp [BitStream.randomWrite]
  · intro p
    show getBitAt (setBitAt b.commit.mem pos v) p = _
    rw [getBitAt_setBitAt (by rw [hlen]; exact hp), BitStream.getBitAt_commit h]
  · intro p
    exact BitStream.logical_of_loaded rfl p

/-- The capacity `BS_PARSE` needs is the least doubling of the present one that holds `nw` words (R158). -/
theorem parseCap_spec {cap : Nat} (hcap : 1 ≤ cap) (nw : Nat) :
    ∃ j, parseCap cap nw = cap * 2 ^ j ∧ nw ≤ cap * 2 ^ j ∧ ∀ i < j, cap * 2 ^ i < nw := by
  refine ⟨clog2 (ceilDiv nw cap), rfl, ?_, fun i hi => ?_⟩
  · have h1 := (clog2_le_iff (ceilDiv nw cap) _).1 (le_refl _)
    rw [Nat.mul_comm]
    exact (ceilDiv_le_iff hcap nw _).1 h1
  · by_contra hge
    have h1 : ceilDiv nw cap ≤ 2 ^ i := (ceilDiv_le_iff hcap nw _).2 (by rw [Nat.mul_comm]; omega)
    have := (clog2_le_iff _ _).2 h1
    omega

theorem parsedWord_getLsbD (m : Memory) (a n j i : Nat) :
    (parsedWord m a n j).getLsbD i = (decide (i < 64) && packedBit m a n (64 * j + i)) := by
  rw [parsedWord, BitVec.getLsbD_ofNat, bitsToNat_testBit]; cases decide (i < 64) <;> simp

/-- `BS_PARSE`'s stream (R158): the first `n` bits come from `XB`, the rest of the loaded words is 0, and the words
after them keep their committed content. -/
theorem BitStream.parse_spec (h : b.Wf cfg) {cap : Nat} (hj : ∃ j, cap = b.cap * 2 ^ j) (hle : cap ≤ cfg.maxWords)
    (m : Memory) (a : Nat) {n : Nat} (hn : ceilDiv n 64 ≤ cap) :
    (b.parse cap m a n).Wf cfg ∧ ∀ p, (b.parse cap m a n).getbit p =
      if p < 64 * ceilDiv n 64 then packedBit m a n p else b.logical p := by
  have hw := BitStream.wf_commit h
  have hcl : b.cap ≤ cap := by
    obtain ⟨j, rfl⟩ := hj
    exact Nat.le_mul_of_pos_right _ (by positivity)
  have hml := h.memLen
  have hge := ceilDiv_mul_ge (show 0 < 64 by omega) n
  refine ⟨⟨?_, ?_, hle, ?_, ?_, ?_, ?_, ?_⟩, fun p => ?_⟩
  · have := h.capPos; show 1 ≤ cap; omega
  · obtain ⟨i, hi⟩ := h.capPower
    obtain ⟨j, rfl⟩ := hj
    exact ⟨i + j, by show b.cap * 2 ^ j = _; rw [hi, Nat.pow_add, Nat.mul_assoc]⟩
  · simp [BitStream.parse, zeros_length]; omega
  · simp [BitStream.parse]
  · simp [BitStream.parse]
  · intro i _; simp [BitStream.parse]
  · show n ≤ 64 * cap; omega
  · show getBitAt ((List.range (ceilDiv n 64)).map (parsedWord m a n) ++
      (b.commit.mem ++ zeros (cap - b.cap)).drop (ceilDiv n 64)) p = _
    by_cases hp : p < 64 * ceilDiv n 64
    · have h1 : p / 64 < ceilDiv n 64 := by omega
      have h2 : 64 * (p / 64) + p % 64 = p := by omega
      have h3 : p % 64 < 64 := by omega
      rw [if_pos hp, getBitAt, List.getD_eq_getElem?_getD, List.getElem?_append_left (by simpa using h1)]
      simp only [List.getElem?_map, List.getElem?_range h1, Option.map_some, Option.getD_some]
      rw [parsedWord_getLsbD, h2]; simp [h3]
    · have h1 : ceilDiv n 64 ≤ p / 64 := by omega
      have h2 : ceilDiv n 64 + (p / 64 - ceilDiv n 64) = p / 64 := by omega
      rw [if_neg hp, ← BitStream.getBitAt_commit h, ← getBitAt_append_zeros b.commit.mem (cap - b.cap)]
      generalize b.commit.mem ++ zeros (cap - b.cap) = old
      unfold getBitAt
      rw [List.getD_eq_getElem?_getD, List.getElem?_append_right (by simpa using h1), List.getElem?_drop,
        List.getD_eq_getElem?_getD]
      simp [h2]

/-- Byte `j` of a packed stream holds bits `8j .. 8j+7`, 0 at or above `n` (20_memory.md R74). -/
theorem packByte_getLsbD (m : List Word) (n j i : Nat) :
    (packByte m n j).getLsbD i = (decide (i < 8) && (decide (8 * j + i < n) && getBitAt m (8 * j + i))) := by
  rw [packByte, BitVec.getLsbD_ofNat, bitsToNat_testBit]; cases decide (i < 8) <;> simp

theorem packBytes_length (m : List Word) (n : Nat) : (packBytes m n).length = ceilDiv n 8 := by simp [packBytes]

theorem packBytes_getD (m : List Word) (n : Nat) {j : Nat} (hj : j < ceilDiv n 8) :
    (packBytes m n).getD j 0 = packByte m n j := by
  simp [packBytes, List.getD_eq_getElem?_getD, hj]

end Sys2Proof.Machine
end

