-- ==== Sys2Proof/Laws/Engine.lean ====
section
/-! SUPPORT. What a piece of the SPECK engine can do to the state, once for all its pieces (44_speck_engine.md R242 to
R257): a property that every primitive keeps is kept by the whole run. -/

namespace Sys2Proof.Machine

/-- The outcome of a piece: `P` of the state where it is done, `Q` of the status and the state where it stopped. -/
def Run.Ends {α : Type} (P : State → Prop) (Q : Status → State → Prop) : Run α → Prop
  | .done _ s => P s
  | .stop a s => Q a s

/-- Every primitive of the engine keeps `P`, and where one stops the run, `Q` holds (R243, R245 to R250). -/
structure EngineKeeps (m : Mode) (P : State → Prop) (Q : Status → State → Prop) : Prop where
  budget : ∀ s, P s → s.wl.nb = s.wl.b.toNat → Q .ok s
  put : m = .enc → ∀ s bit bs, P s → s.wl.nb ≠ s.wl.b.toNat → s.bs.put s.cfg.maxWords bit = some bs →
    P { s with bs := bs, wl := { s.wl with nb := s.wl.nb + 1 } }
  full : m = .enc → ∀ s bit, P s → s.wl.nb ≠ s.wl.b.toNat → s.bs.put s.cfg.maxWords bit = none → Q .alloc s
  take : m = .dec → ∀ s, P s → s.wl.nb ≠ s.wl.b.toNat → s.bs.rpos < s.bs.blen →
    P { s with bs := { s.bs with rpos := s.bs.rpos + 1 }, wl := { s.wl with nb := s.wl.nb + 1 } }
  short : m = .dec → ∀ s, P s → s.wl.nb ≠ s.wl.b.toNat → s.bs.blen ≤ s.bs.rpos → Q .dataShort s
  setMag : m = .dec → ∀ s i v, P s → P (s.setMag i v)
  setSgn : m = .dec → ∀ s i v, P s → P (s.setSgn i v)
  setLip : ∀ s i v, P s → P (s.setLip i v)
  pushLsp : ∀ s i, P s → P (s.pushLsp i)
  setLis : ∀ s lis, P s → P { s with wl := { s.wl with lis := lis } }
  setIdepth : ∀ s k, P s → P (s.setIdepth k)
  setPlane : ∀ s p, P s → P (s.setPlane p)

theorem Run.ends_andThen {α β : Type} {P : State → Prop} {Q : Status → State → Prop} {r : Run α}
    {next : α → State → Run β} (hr : r.Ends P Q) (hn : ∀ v s, P s → (next v s).Ends P Q) : (r.andThen next).Ends P Q := by
  cases r with
  | done v s => exact hn v s hr
  | stop a s => exact hr

theorem ends_forEach {α : Type} {P : State → Prop} {Q : Status → State → Prop} {f : α → State → Run Unit}
    (hf : ∀ x s, P s → (f x s).Ends P Q) (xs : List α) (s : State) (h : P s) : (forEach f xs s).Ends P Q := by
  induction xs generalizing s with
  | nil => exact h
  | cons x xs ih => exact Run.ends_andThen (hf x s h) fun _ s hs => ih s hs

variable {m : Mode} {P : State → Prop} {Q : Status → State → Prop}

theorem ends_codeBit (k : EngineKeeps m P Q) (d : State → Bool) (s : State) (h : P s) : (codeBit m d s).Ends P Q := by
  cases m with
  | enc =>
    refine Run.ends_andThen ?_ fun _ _ hs => hs
    unfold emit
    by_cases hb : s.wl.nb = s.wl.b.toNat
    · rw [if_pos hb]; exact k.budget s h hb
    · rw [if_neg hb]
      cases hp : s.bs.put s.cfg.maxWords (d s) with
      | none => exact k.full rfl s _ h hb hp
      | some bs => exact k.put rfl s _ bs h hb hp
  | dec =>
    show (Sys2Proof.Machine.take s).Ends P Q
    unfold Sys2Proof.Machine.take
    by_cases hb : s.wl.nb = s.wl.b.toNat
    · rw [if_pos hb]; exact k.budget s h hb
    · rw [if_neg hb]
      by_cases hr : s.bs.rpos ≥ s.bs.blen
      · rw [if_pos hr]; exact k.short rfl s h hb hr
      · rw [if_neg hr]; exact k.take rfl s h hb (by omega)

theorem ends_refineOne (k : EngineKeeps m P Q) (idx : Nat) (s : State) (h : P s) : (refineOne m idx s).Ends P Q := by
  refine Run.ends_andThen (ends_codeBit k _ s h) fun bit s hs => ?_
  cases m with
  | enc => exact hs
  | dec =>
    show P (if bit then s.setMag idx (s.cm.mag.getD idx 0 ||| BitVec.twoPow 64 s.wl.p) else s)
    split
    · exact k.setMag rfl s _ _ hs
    · exact hs

theorem ends_processPixel (k : EngineKeeps m P Q) (listed : Bool) (idx : Nat) (s : State) (h : P s) :
    (processPixel m listed idx s).Ends P Q := by
  refine Run.ends_andThen (ends_codeBit k _ s h) fun sig s hs => ?_
  cases sig with
  | false =>
    show P (if listed then s else s.setLip idx true)
    cases listed
    · exact k.setLip s _ _ hs
    · exact hs
  | true =>
    refine Run.ends_andThen (ends_codeBit k _ s hs) fun sign s hs => ?_
    refine k.pushLsp _ _ ?_
    cases m with
    | enc =>
      cases listed
      · exact hs
      · exact k.setLip _ _ _ hs
    | dec =>
      have hd := k.setSgn rfl _ idx sign (k.setMag rfl _ idx (BitVec.twoPow 64 s.wl.p) hs)
      cases listed
      · exact hd
      · exact k.setLip _ _ _ hd

theorem ends_processOffspring (k : EngineKeeps m P Q) {process : CoefSet → State → Run Bool}
    (hp : ∀ o s, P s → (process o s).Ends P Q) (o : CoefSet) (s : State) (h : P s) :
    (processOffspring m process o s).Ends P Q := by
  unfold processOffspring
  split
  · exact ends_processPixel k _ _ s h
  · refine Run.ends_andThen (hp o s h) fun sig s hs => ?_
    cases sig
    · exact k.setLis s _ hs
    · exact hs

theorem ends_processSet (k : EngineKeeps m P Q) (depth : Nat) (set : CoefSet) (s : State) (h : P s) :
    (processSet m depth set s).Ends P Q := by
  induction depth generalizing set s with
  | zero => exact h
  | succ depth ih =>
    refine Run.ends_andThen (ends_codeBit k _ s h) fun sig s hs => ?_
    cases sig
    · exact hs
    · exact Run.ends_andThen (ends_forEach (fun o s hs => ends_processOffspring k ih o s hs) _ s hs) fun _ _ hs => hs

theorem ends_lisLevel (k : EngineKeeps m P Q) (level : Nat) (s : State) (h : P s) : (lisLevel m level s).Ends P Q := by
  refine ends_forEach (fun set s hs => ?_) _ _ (k.setLis s _ h)
  refine Run.ends_andThen (ends_processSet k _ set s hs) fun sig s hs => ?_
  cases sig
  · exact k.setLis s _ hs
  · exact hs

theorem ends_lisLevels (k : EngineKeeps m P Q) (n : Nat) (s : State) (h : P s) : (lisLevels m n s).Ends P Q := by
  induction n generalizing s with
  | zero => exact h
  | succ n ih => exact Run.ends_andThen (ends_lisLevel k n s h) fun _ s hs => ih s hs

theorem ends_typeIPassAt (k : EngineKeeps m P Q) (n : Nat) (s : State) (h : P s) : (typeIPassAt m n s).Ends P Q := by
  induction n generalizing s with
  | zero => exact h
  | succ n ih =>
    refine Run.ends_andThen (ends_codeBit k _ s h) fun sig s hs => ?_
    cases sig
    · exact hs
    · refine Run.ends_andThen (ends_forEach (fun o s hs => ?_) _ _ (k.setIdepth s n hs)) fun _ s hs => ih s hs
      exact ends_processOffspring k (fun o s hs => ends_processSet k _ o s hs) o s hs

theorem ends_lipPass (k : EngineKeeps m P Q) (s : State) (h : P s) : (lipPass m s).Ends P Q := by
  refine ends_forEach (fun idx s hs => ?_) _ s h
  show (if s.lip.rbit idx then processPixel m true idx s else .done () s).Ends P Q
  split
  · exact ends_processPixel k true idx s hs
  · exact hs

theorem ends_plane (k : EngineKeeps m P Q) (p : Nat) (s : State) (h : P s) : (plane m p s).Ends P Q := by
  refine Run.ends_andThen (ends_forEach (fun idx s hs => ends_refineOne k idx s hs) _ _ (k.setPlane s p h)) fun _ s hs => ?_
  refine Run.ends_andThen (ends_lipPass k s hs) fun _ s hs => ?_
  exact Run.ends_andThen (ends_lisLevels k _ s hs) fun _ s hs => ends_typeIPassAt k _ s hs

/-- A property that every primitive keeps is kept by all bitplanes (R244). -/
theorem ends_planes (k : EngineKeeps m P Q) (n : Nat) (s : State) (h : P s) : (planes m n s).Ends P Q := by
  induction n generalizing s with
  | zero => exact h
  | succ n ih => exact Run.ends_andThen (ends_plane k n s h) fun _ s hs => ih s hs

end Sys2Proof.Machine
end

