-- ==== Sys2Proof/Laws/Mask.lean ====
section
/-! SUPPORT. The Bitmask's operations, each once (42_bitmask.md R181, R183). -/

namespace Sys2Proof.Machine

theorem clearBits_length (mw : List Word) (i k : Nat) : (clearBits mw i k).length = mw.length := by
  induction k with
  | zero => rfl
  | succ k ih => rw [clearBits, setBitAt_length, ih]

theorem getBitAt_clearBits (mw : List Word) (i : Nat) {k : Nat} (h : i + k ≤ 64 * mw.length) (p : Nat) :
    getBitAt (clearBits mw i k) p = if i ≤ p ∧ p < i + k then false else getBitAt mw p := by
  induction k with
  | zero => rw [if_neg (by omega)]; rfl
  | succ k ih =>
    rw [clearBits, getBitAt_setBitAt (by rw [clearBits_length]; omega), ih (by omega)]
    by_cases h1 : p = i + k
    · rw [if_pos h1, if_pos (by omega)]
    · rw [if_neg h1]
      by_cases h2 : i ≤ p ∧ p < i + k
      · rw [if_pos h2, if_pos (by omega)]
      · rw [if_neg h2, if_neg (by omega)]

theorem maskWords_ge (n : Nat) : n ≤ 64 * maskWords n := by
  have := ceilDiv_mul_ge (show 0 < 64 by omega) n
  unfold maskWords; omega

theorem maskWords_lt (n : Nat) : 64 * maskWords n < n + 64 := by
  unfold maskWords ceilDiv; omega

theorem maskWords_mono {m n : Nat} (h : m ≤ n) : maskWords m ≤ maskWords n := by
  unfold maskWords ceilDiv; omega

/-- `resize(m)` (R183): every bit newly brought inside the size is 0; every other bit of the words that remain keeps its
value, tail bits included, and new words are 0. -/
theorem Bitmask.resize_spec {x : Bitmask} {max : Nat} (h : x.Wf max) (m : Nat) :
    (x.resize m).n = m ∧ (x.resize m).mw.length = maskWords m ∧
      ∀ i, i < 64 * maskWords m → (x.resize m).rbit i = if x.n ≤ i ∧ i < m then false else x.rbit i := by
  have hlen := h.wordsLen
  unfold Bitmask.resize Bitmask.rbit
  by_cases hm : m > x.n
  · simp only [if_pos hm]
    have hmono := maskWords_mono (show x.n ≤ m by omega)
    have hle : (x.mw ++ zeros (maskWords m - maskWords x.n)).length = maskWords m := by
      simp [zeros]; omega
    have hg := maskWords_ge m
    have hx := maskWords_ge x.n
    refine ⟨trivial, by rw [clearBits_length, hle], fun i hi => ?_⟩
    rw [getBitAt_clearBits _ _ (by rw [hle]; omega), getBitAt_append_zeros]
    by_cases h1 : x.n ≤ i ∧ i < m
    · rw [if_pos h1]
      split
      · rfl
      · exact getBitAt_of_length_le (by rw [hlen]; omega)
    · rw [if_neg h1, if_neg (by omega)]
  · simp only [if_neg hm]
    have hmono := maskWords_mono (show m ≤ x.n by omega)
    refine ⟨trivial, by simp; omega, fun i hi => ?_⟩
    rw [getBitAt_take, if_pos hi, if_neg (by omega)]

theorem Bitmask.resize_zero (x : Bitmask) : x.resize 0 = .empty := by
  unfold Bitmask.resize Bitmask.empty
  simp [maskWords, ceilDiv]

theorem Bitmask.wf_resize {x : Bitmask} {max m : Nat} (h : x.Wf max) (hm : m ≤ max) : (x.resize m).Wf max := by
  obtain ⟨h1, h2, -⟩ := Bitmask.resize_spec h m
  exact ⟨by rw [h1]; exact hm, by rw [h1, h2]⟩

/-- `wbit(i, v)` (R181): exactly one bit changes. -/
theorem Bitmask.rbit_wbit {x : Bitmask} {max i : Nat} (h : x.Wf max) (hi : i < x.n) (v : Bool) (j : Nat) :
    (x.wbit i v).rbit j = if j = i then v else x.rbit j := by
  have := maskWords_ge x.n
  exact getBitAt_setBitAt (by rw [h.wordsLen]; omega) v j

@[simp] theorem Bitmask.wbit_n (x : Bitmask) (i : Nat) (v : Bool) : (x.wbit i v).n = x.n := rfl

theorem Bitmask.wf_wbit {x : Bitmask} {max : Nat} (h : x.Wf max) (i : Nat) (v : Bool) : (x.wbit i v).Wf max :=
  ⟨h.sizeLe, by rw [Bitmask.wbit, setBitAt_length]; exact h.wordsLen⟩

@[simp] theorem Bitmask.clear_n (x : Bitmask) : x.clear.n = x.n := rfl

theorem Bitmask.rbit_clear (x : Bitmask) (i : Nat) : x.clear.rbit i = false := by
  unfold Bitmask.clear Bitmask.rbit getBitAt
  simp only [List.getD_eq_getElem?_getD, List.getElem?_map]
  cases x.mw[i / 64]? <;> simp

theorem Bitmask.wf_clear {x : Bitmask} {max : Nat} (h : x.Wf max) : x.clear.Wf max :=
  ⟨h.sizeLe, by simpa [Bitmask.clear] using h.wordsLen⟩

/-- `has(s, l)` (R181). -/
theorem Bitmask.has_iff (x : Bitmask) (s l : Nat) :
    x.has s l = true ↔ ∃ i, s ≤ i ∧ i < s + l ∧ x.rbit i = true := by
  unfold Bitmask.has
  rw [List.any_eq_true]
  constructor
  · rintro ⟨i, hi, hb⟩
    exact ⟨s + i, by omega, by have := List.mem_range.1 hi; omega, hb⟩
  · rintro ⟨i, h1, h2, hb⟩
    exact ⟨i - s, List.mem_range.2 (by omega), by rw [Nat.add_sub_cancel' h1]; exact hb⟩

theorem Bitmask.wf_empty (max : Nat) : Bitmask.Wf max .empty := ⟨Nat.zero_le _, rfl⟩

end Sys2Proof.Machine
end

