-- ==== Sys2Proof/Laws/EngineFrame.lean ====
section
/-! SUPPORT. What a whole run of the SPECK engine changes and what it leaves (44_speck_engine.md R242, R243, R257, R260,
R261). -/

namespace Sys2Proof.Machine

/-- The units and ports that no coding run touches (10_state.md R33, R50; 44_speck_engine.md R257). -/
structure SameOutside (s u : State) : Prop where
  st : u.st = s.st
  mask : u.mask = s.mask
  oc : u.oc = s.oc
  xb : u.xb = s.xb
  cmdPort : u.cmdPort = s.cmdPort
  rspPort : u.rspPort = s.rspPort
  cfg : u.cfg = s.cfg
  freeCount : u.freeCount = s.freeCount

theorem SameOutside.refl (s : State) : SameOutside s s := ⟨rfl, rfl, rfl, rfl, rfl, rfl, rfl, rfl⟩

/-- A successful write at the cursor keeps the read cursor and the declared length, and at most doubles the capacity (R144,
R145). -/
theorem BitStream.put_some {maxWords : Nat} {b g : BitStream} {v : Bool} (h : b.put maxWords v = some g) :
    g.rpos = b.rpos ∧ g.blen = b.blen ∧ (g.cap = b.cap ∨ g.cap = b.cap * 2) ∧ g.wpos = b.wpos + 1 := by
  have hw : ∀ c : BitStream, (c.putWithin v).rpos = c.rpos ∧ (c.putWithin v).blen = c.blen ∧
      (c.putWithin v).cap = c.cap ∧ (c.putWithin v).wpos = c.wpos + 1 := by
    intro c; unfold BitStream.putWithin; simp only; split <;> exact ⟨rfl, rfl, rfl, rfl⟩
  unfold BitStream.put at h
  split at h
  · cases hg : b.grow maxWords with
    | none => rw [hg] at h; cases h
    | some c =>
      rw [hg] at h
      cases h
      unfold BitStream.grow at hg
      simp only [BitStream.commit_cap, BitStream.commit_wpos] at hg
      split at hg
      · cases hg
      · cases hg
        exact ⟨(hw _).1.trans BitStream.commit_rpos, (hw _).2.1.trans BitStream.commit_blen,
          .inr ((hw _).2.2.1.trans (Nat.mul_comm _ _)), (hw _).2.2.2⟩
  · cases h
    obtain ⟨h1, h2, h3, h4⟩ := hw b
    exact ⟨h1, h2, .inl h3, h4⟩

/-- A write at the cursor fails only where the stream is full and cannot double (R144, R145). -/
theorem BitStream.put_none {maxWords : Nat} {b : BitStream} {v : Bool} (h : b.put maxWords v = none) :
    b.wpos = 64 * b.cap ∧ 2 * b.cap > maxWords := by
  unfold BitStream.put at h
  split at h
  · rename_i hf
    refine ⟨hf, ?_⟩
    by_contra hc
    unfold BitStream.grow at h
    simp only [BitStream.commit_cap] at h
    rw [if_neg hc] at h
    cases h
  · cases h

/-- Where an encoder that began in `s` stands: it has appended `nb` bits to the stream, and changed the engine's own units
besides. -/
structure EncodedFrom (s u : State) : Prop where
  outside : SameOutside s u
  cm : u.cm = s.cm
  budget : u.wl.b = s.wl.b
  nbLe : u.wl.nb ≤ s.wl.b.toNat
  rpos : u.bs.rpos = s.bs.rpos
  blen : u.bs.blen = s.bs.blen
  cap : ∃ j, u.bs.cap = s.bs.cap * 2 ^ j
  wpos : u.bs.wpos = s.bs.wpos + u.wl.nb
  stream : s.bs.Wf s.cfg → u.bs.Wf s.cfg ∧ ∀ p, p < s.bs.wpos ∨ u.bs.wpos ≤ p → u.bs.logical p = s.bs.logical p

/-- The encoder's primitives keep `EncodedFrom` (R243, R245 to R250). -/
theorem encodedFrom_keeps (s : State) : EngineKeeps .enc (EncodedFrom s) fun a u =>
    EncodedFrom s u ∧ (a = .ok ∧ u.wl.nb = u.wl.b.toNat ∨
      a = .alloc ∧ u.wl.nb ≠ u.wl.b.toNat ∧ u.bs.wpos = 64 * u.bs.cap ∧ 2 * u.bs.cap > u.cfg.maxWords) where
  budget u h hb := ⟨h, .inl ⟨rfl, hb⟩⟩
  put _ u bit g h hb hp := by
    obtain ⟨h1, h2, h3, h4⟩ := BitStream.put_some hp
    refine ⟨⟨h.outside.st, h.outside.mask, h.outside.oc, h.outside.xb, h.outside.cmdPort, h.outside.rspPort,
      h.outside.cfg, h.outside.freeCount⟩, h.cm, h.budget, ?_, h1.trans h.rpos, h2.trans h.blen, ?_, ?_, fun hw => ?_⟩
    · have := h.nbLe; rw [h.budget] at hb; show u.wl.nb + 1 ≤ _; omega
    · obtain ⟨j, hj⟩ := h.cap
      rcases h3 with h3 | h3
      · exact ⟨j, h3.trans hj⟩
      · exact ⟨j + 1, h3.trans (by rw [hj, Nat.mul_assoc, Nat.pow_succ])⟩
    · have := h.wpos; show g.wpos = s.bs.wpos + (u.wl.nb + 1); omega
    · obtain ⟨hu, hl⟩ := h.stream hw
      have hc : u.cfg = s.cfg := h.outside.cfg
      rw [hc] at hp
      rcases BitStream.put_cases hu bit with ⟨-, -, hn⟩ | ⟨-, g', hg', hgw, -, hgp, -, -, hgl⟩
      · rw [hp] at hn; cases hn
      · rw [hp] at hg'; cases hg'
        refine ⟨hgw, fun p hpp => ?_⟩
        have hwp := h.wpos
        have hpp' : p < s.bs.wpos ∨ g.wpos ≤ p := hpp
        show g.logical p = _
        rw [hgl, if_neg (by omega), hl p (by omega)]
  full _ u bit h hb hp := by
    obtain ⟨h1, h2⟩ := BitStream.put_none hp
    exact ⟨h, .inr ⟨rfl, hb, h1, h2⟩⟩
  take hm := by cases hm
  short hm := by cases hm
  setMag hm := by cases hm
  setSgn hm := by cases hm
  setLip _ _ _ h := ⟨⟨h.outside.st, h.outside.mask, h.outside.oc, h.outside.xb, h.outside.cmdPort, h.outside.rspPort,
      h.outside.cfg, h.outside.freeCount⟩, h.cm, h.budget, h.nbLe, h.rpos, h.blen, h.cap, h.wpos, h.stream⟩
  pushLsp _ _ h := ⟨⟨h.outside.st, h.outside.mask, h.outside.oc, h.outside.xb, h.outside.cmdPort, h.outside.rspPort,
      h.outside.cfg, h.outside.freeCount⟩, h.cm, h.budget, h.nbLe, h.rpos, h.blen, h.cap, h.wpos, h.stream⟩
  setLis _ _ h := ⟨⟨h.outside.st, h.outside.mask, h.outside.oc, h.outside.xb, h.outside.cmdPort, h.outside.rspPort,
      h.outside.cfg, h.outside.freeCount⟩, h.cm, h.budget, h.nbLe, h.rpos, h.blen, h.cap, h.wpos, h.stream⟩
  setIdepth _ _ h := ⟨⟨h.outside.st, h.outside.mask, h.outside.oc, h.outside.xb, h.outside.cmdPort, h.outside.rspPort,
      h.outside.cfg, h.outside.freeCount⟩, h.cm, h.budget, h.nbLe, h.rpos, h.blen, h.cap, h.wpos, h.stream⟩
  setPlane _ _ h := ⟨⟨h.outside.st, h.outside.mask, h.outside.oc, h.outside.xb, h.outside.cmdPort, h.outside.rspPort,
      h.outside.cfg, h.outside.freeCount⟩, h.cm, h.budget, h.nbLe, h.rpos, h.blen, h.cap, h.wpos, h.stream⟩

/-- Where a decoder that began in `s` stands: it has consumed `nb` bits and filled the array, whose shape it keeps. -/
structure DecodedFrom (s u : State) : Prop where
  outside : SameOutside s u
  dims : u.cm.d = s.cm.d
  ext : u.cm.ext = s.cm.ext
  magLen : u.cm.mag.length = s.cm.mag.length
  sgnLen : u.cm.sgn.length = s.cm.sgn.length
  budget : u.wl.b = s.wl.b
  nbLe : u.wl.nb ≤ s.wl.b.toNat
  stream : u.bs = { s.bs with rpos := s.bs.rpos + u.wl.nb }
  within : u.wl.nb = 0 ∨ s.bs.rpos + u.wl.nb ≤ s.bs.blen

/-- The decoder's primitives keep `DecodedFrom` (R243, R245 to R250). -/
theorem decodedFrom_keeps (s : State) : EngineKeeps .dec (DecodedFrom s) fun a u =>
    DecodedFrom s u ∧ (a = .ok ∧ u.wl.nb = u.wl.b.toNat ∨
      a = .dataShort ∧ u.wl.nb ≠ u.wl.b.toNat ∧ u.bs.blen ≤ u.bs.rpos) where
  budget u h hb := ⟨h, .inl ⟨rfl, hb⟩⟩
  put hm := by cases hm
  full hm := by cases hm
  take _ u h hb hr := by
    refine ⟨⟨h.outside.st, h.outside.mask, h.outside.oc, h.outside.xb, h.outside.cmdPort, h.outside.rspPort,
      h.outside.cfg, h.outside.freeCount⟩, h.dims, h.ext, h.magLen, h.sgnLen, h.budget, ?_, ?_, ?_⟩
    · have := h.nbLe; rw [h.budget] at hb; show u.wl.nb + 1 ≤ _; omega
    · have hs := h.stream
      show ({ u.bs with rpos := u.bs.rpos + 1 } : BitStream) = { s.bs with rpos := s.bs.rpos + (u.wl.nb + 1) }
      rw [hs]; rfl
    · right
      rw [h.stream] at hr
      exact hr
  short _ u h hb hr := ⟨h, .inr ⟨rfl, hb, hr⟩⟩
  setMag _ _ _ _ h := ⟨⟨h.outside.st, h.outside.mask, h.outside.oc, h.outside.xb, h.outside.cmdPort, h.outside.rspPort,
      h.outside.cfg, h.outside.freeCount⟩, h.dims, h.ext, by simpa using h.magLen, h.sgnLen, h.budget, h.nbLe, h.stream,
      h.within⟩
  setSgn _ _ _ _ h := ⟨⟨h.outside.st, h.outside.mask, h.outside.oc, h.outside.xb, h.outside.cmdPort, h.outside.rspPort,
      h.outside.cfg, h.outside.freeCount⟩, h.dims, h.ext, h.magLen, by simpa using h.sgnLen, h.budget, h.nbLe, h.stream,
      h.within⟩
  setLip _ _ _ h := ⟨⟨h.outside.st, h.outside.mask, h.outside.oc, h.outside.xb, h.outside.cmdPort, h.outside.rspPort,
      h.outside.cfg, h.outside.freeCount⟩, h.dims, h.ext, h.magLen, h.sgnLen, h.budget, h.nbLe, h.stream, h.within⟩
  pushLsp _ _ h := ⟨⟨h.outside.st, h.outside.mask, h.outside.oc, h.outside.xb, h.outside.cmdPort, h.outside.rspPort,
      h.outside.cfg, h.outside.freeCount⟩, h.dims, h.ext, h.magLen, h.sgnLen, h.budget, h.nbLe, h.stream, h.within⟩
  setLis _ _ h := ⟨⟨h.outside.st, h.outside.mask, h.outside.oc, h.outside.xb, h.outside.cmdPort, h.outside.rspPort,
      h.outside.cfg, h.outside.freeCount⟩, h.dims, h.ext, h.magLen, h.sgnLen, h.budget, h.nbLe, h.stream, h.within⟩
  setIdepth _ _ h := ⟨⟨h.outside.st, h.outside.mask, h.outside.oc, h.outside.xb, h.outside.cmdPort, h.outside.rspPort,
      h.outside.cfg, h.outside.freeCount⟩, h.dims, h.ext, h.magLen, h.sgnLen, h.budget, h.nbLe, h.stream, h.within⟩
  setPlane _ _ h := ⟨⟨h.outside.st, h.outside.mask, h.outside.oc, h.outside.xb, h.outside.cmdPort, h.outside.rspPort,
      h.outside.cfg, h.outside.freeCount⟩, h.dims, h.ext, h.magLen, h.sgnLen, h.budget, h.nbLe, h.stream, h.within⟩

/-- What a run answers and leaves, from the outcome of its bitplanes (R244, R257). -/
theorem speckRun_cases (m : Mode) (budget : Word) (maxbits : Nat) (s : State) :
    (∃ u, planes m (maxbits + 1) (speckInit m budget s) = .done () u ∧
      speckRun m budget maxbits s = (.ok, u.wl.nb, speckEnd m u)) ∨
    ∃ a u, planes m (maxbits + 1) (speckInit m budget s) = .stop a u ∧
      speckRun m budget maxbits s = (a, u.wl.nb, if a = .alloc then u else speckEnd m u) := by
  unfold speckRun
  cases hp : planes m (maxbits + 1) (speckInit m budget s) with
  | done v u => left; exact ⟨u, rfl, rfl⟩
  | stop a u =>
    right
    refine ⟨a, u, rfl, ?_⟩
    by_cases ha : a = .alloc <;> simp [ha]

/-- A run of the encoder (R243, R244, R257, R260): it ends `OK` with the stream appended to, flushed, and everything outside
the engine as it was; or with `ALLOC` where the stream is full and cannot double. -/
theorem speckRun_enc (budget : Word) (maxbits : Nat) (s : State) :
    (∃ (nb : Nat) (b : BitStream),
      speckRun .enc budget maxbits s = (.ok, nb, { s with bs := b, lip := .empty, wl := .empty }) ∧
      nb ≤ budget.toNat ∧ b.wpos = s.bs.wpos + nb ∧ b.blen = b.wpos ∧ b.rpos = s.bs.rpos ∧
      (∃ j, b.cap = s.bs.cap * 2 ^ j) ∧
      (s.bs.Wf s.cfg → b.Wf s.cfg ∧ (∀ p, b.getbit p = b.logical p) ∧
        ∀ p, p < s.bs.wpos ∨ b.wpos ≤ p → b.getbit p = s.bs.logical p)) ∨
    ∃ (nb : Nat) (u : State), speckRun .enc budget maxbits s = (.alloc, nb, u) ∧ SameOutside s u ∧ nb < budget.toNat ∧
      u.bs.wpos = s.bs.wpos + nb ∧ u.bs.wpos = 64 * u.bs.cap ∧ 2 * u.bs.cap > s.cfg.maxWords ∧
      (s.bs.Wf s.cfg → u.bs.Wf s.cfg) := by
  have hi : EncodedFrom (speckInit .enc budget s) (speckInit .enc budget s) :=
    ⟨SameOutside.refl _, rfl, rfl, Nat.zero_le _, rfl, rfl, ⟨0, (Nat.mul_one _).symm⟩, rfl, fun h => ⟨h, fun _ _ => rfl⟩⟩
  have hk := ends_planes (encodedFrom_keeps (speckInit .enc budget s)) (maxbits + 1) _ hi
  have key : ∀ u, EncodedFrom (speckInit .enc budget s) u → ∃ b : BitStream,
      speckEnd .enc u = { s with bs := b, lip := .empty, wl := .empty } ∧ u.wl.nb ≤ budget.toNat ∧
      b.wpos = s.bs.wpos + u.wl.nb ∧ b.blen = b.wpos ∧ b.rpos = s.bs.rpos ∧ (∃ j, b.cap = s.bs.cap * 2 ^ j) ∧
      (s.bs.Wf s.cfg → b.Wf s.cfg ∧ (∀ p, b.getbit p = b.logical p) ∧
        ∀ p, p < s.bs.wpos ∨ b.wpos ≤ p → b.getbit p = s.bs.logical p) := by
    intro u h
    refine ⟨u.bs.flush, ?_, h.nbLe, ?_, ?_, ?_, ?_, fun hw => ?_⟩
    · have e1 := h.outside.st; have e2 := h.outside.mask; have e3 := h.outside.oc; have e4 := h.outside.xb
      have e5 := h.outside.cmdPort; have e6 := h.outside.rspPort; have e7 := h.outside.cfg
      have e8 := h.outside.freeCount; have e9 := h.cm
      unfold speckEnd
      rw [Bitmask.resize_zero]
      cases u; cases s
      simp_all [speckInit]
    · exact (BitStream.commit_wpos (b := u.bs)).trans h.wpos
    · exact (BitStream.commit_wpos (b := u.bs)).symm
    · exact (BitStream.commit_rpos (b := u.bs)).trans h.rpos
    · obtain ⟨j, hj⟩ := h.cap
      exact ⟨j, (BitStream.commit_cap (b := u.bs)).trans hj⟩
    · obtain ⟨hu, hl⟩ := h.stream hw
      have hu' : u.bs.Wf s.cfg := hu
      obtain ⟨f1, f2, f3, f4, f5, f6, f7⟩ := BitStream.flush_spec hu'
      refine ⟨f1, fun p => ?_, fun p hp => ?_⟩
      · rw [f7]
        show u.bs.logical p = ({ u.bs.commit with blen := u.bs.wpos } : BitStream).logical p
        have := BitStream.logical_commit hu' p
        rw [← this]; rfl
      · rw [f7, hl p (by rw [f3] at hp; exact hp)]; rfl
  rcases speckRun_cases .enc budget maxbits s with ⟨u, hp, hr⟩ | ⟨a, u, hp, hr⟩
  · rw [hp] at hk
    left
    obtain ⟨b, hb⟩ := key u hk
    exact ⟨u.wl.nb, b, by rw [hr, hb.1], hb.2⟩
  · rw [hp] at hk
    obtain ⟨h, hq⟩ := hk
    rcases hq with ⟨rfl, -⟩ | ⟨rfl, hb, hf, hc⟩
    · left
      obtain ⟨b, hb⟩ := key u h
      exact ⟨u.wl.nb, b, by rw [hr, if_neg (by decide), hb.1], hb.2⟩
    · right
      have hcfg : u.cfg = s.cfg := h.outside.cfg
      refine ⟨u.wl.nb, u, by rw [hr, if_pos rfl], ⟨h.outside.st, h.outside.mask, h.outside.oc, h.outside.xb,
        h.outside.cmdPort, h.outside.rspPort, h.outside.cfg, h.outside.freeCount⟩, ?_, h.wpos, hf, hcfg ▸ hc,
        fun hw => (h.stream hw).1⟩
      have h1 := h.nbLe
      rw [h.budget] at hb
      exact lt_of_le_of_ne h1 hb

/-- A run of the decoder (R243, R244, R257, R261, R262): it ends `OK`, or `DATA_SHORT` where the declared stream ended with
budget left; it moves the read cursor past the bits it consumed, fills the array and keeps its shape. -/
theorem speckRun_dec (budget : Word) (maxbits : Nat) (s : State) :
    ∃ (a : Status) (nb : Nat) (cm : CoefMem),
      speckRun .dec budget maxbits s =
        (a, nb, { s with bs := { s.bs with rpos := s.bs.rpos + nb }, cm := cm, lip := .empty, wl := .empty }) ∧
      cm.d = s.cm.d ∧ cm.ext = s.cm.ext ∧ cm.mag.length = cm.n ∧ cm.sgn.length = cm.n ∧ nb ≤ budget.toNat ∧
      (a = .ok ∨ a = .dataShort ∧ nb < budget.toNat ∧ nb = s.bs.blen - s.bs.rpos) := by
  have hi : DecodedFrom (speckInit .dec budget s) (speckInit .dec budget s) :=
    ⟨SameOutside.refl _, rfl, rfl, rfl, rfl, rfl, Nat.zero_le _, rfl, .inl rfl⟩
  have hk := ends_planes (decodedFrom_keeps (speckInit .dec budget s)) (maxbits + 1) _ hi
  have key : ∀ u, DecodedFrom (speckInit .dec budget s) u →
      speckEnd .dec u =
        { s with bs := { s.bs with rpos := s.bs.rpos + u.wl.nb }, cm := u.cm, lip := .empty, wl := .empty } ∧
      u.cm.d = s.cm.d ∧ u.cm.ext = s.cm.ext ∧ u.cm.mag.length = u.cm.n ∧ u.cm.sgn.length = u.cm.n ∧
      u.wl.nb ≤ budget.toNat := by
    intro u h
    have hn : u.cm.n = s.cm.n := by
      have := h.ext
      unfold CoefMem.n; rw [this]; rfl
    refine ⟨?_, h.dims, h.ext, ?_, ?_, h.nbLe⟩
    · have e1 := h.outside.st; have e2 := h.outside.mask; have e3 := h.outside.oc; have e4 := h.outside.xb
      have e5 := h.outside.cmdPort; have e6 := h.outside.rspPort; have e7 := h.outside.cfg
      have e8 := h.outside.freeCount; have e9 := h.stream
      unfold speckEnd
      rw [Bitmask.resize_zero]
      cases u; cases s
      simp_all [speckInit]
    · rw [h.magLen, hn]; simp [speckInit, CoefMem.cleared]
    · rw [h.sgnLen, hn]; simp [speckInit, CoefMem.cleared]
  rcases speckRun_cases .dec budget maxbits s with ⟨u, hp, hr⟩ | ⟨a, u, hp, hr⟩
  · rw [hp] at hk
    obtain ⟨h1, h2⟩ := key u hk
    exact ⟨.ok, u.wl.nb, u.cm, by rw [hr, h1], h2.1, h2.2.1, h2.2.2.1, h2.2.2.2.1, h2.2.2.2.2, .inl rfl⟩
  · rw [hp] at hk
    obtain ⟨h, hq⟩ := hk
    obtain ⟨h1, h2⟩ := key u h
    rcases hq with ⟨rfl, -⟩ | ⟨rfl, hb, hs⟩
    · exact ⟨.ok, u.wl.nb, u.cm, by rw [hr, if_neg (by decide), h1], h2.1, h2.2.1, h2.2.2.1, h2.2.2.2.1, h2.2.2.2.2,
        .inl rfl⟩
    · refine ⟨.dataShort, u.wl.nb, u.cm, by rw [hr, if_neg (by decide), h1], h2.1, h2.2.1, h2.2.2.1, h2.2.2.2.1,
        h2.2.2.2.2, .inr ⟨rfl, ?_, ?_⟩⟩
      · have h3 := h.nbLe
        rw [h.budget] at hb
        exact lt_of_le_of_ne h3 hb
      · have h4 := h.within
        rw [h.stream] at hs
        have hs' : s.bs.blen ≤ s.bs.rpos + u.wl.nb := hs
        have h4' : u.wl.nb = 0 ∨ s.bs.rpos + u.wl.nb ≤ s.bs.blen := h4
        omega

end Sys2Proof.Machine
end

