-- ==== Sys2Proof/Laws/Commands.lean ====
section
/-! SUPPORT. What every command answers: it ends through `end_command`, and its body leaves the ports, the parameters and, but
for `RESET`, the status unit as it found them (60_exceptions.md R331; 30_encoding.md R103). -/

namespace Sys2Proof.Machine

/-- The outcome is the end of a command whose body, from `s`, left the ports, the parameters and `ST` alone. -/
def Answers (s : State) (r : Result) : Prop :=
  ∃ (u : State) (status : Status) (r0 r1 : Word), r = .next (u.finish status r0 r1) ∧ u.st = s.st ∧
    u.cmdPort = s.cmdPort ∧ u.rspPort = s.rspPort ∧ u.cfg = s.cfg

variable {s : State}

theorem answers_end {u : State} (status : Status) (r0 r1 : Word) (h1 : u.st = s.st) (h2 : u.cmdPort = s.cmdPort)
    (h3 : u.rspPort = s.rspPort) (h4 : u.cfg = s.cfg) : Answers s (endCommand status r0 r1 u) :=
  ⟨u, status, r0, r1, rfl, h1, h2, h3, h4⟩

theorem answers_raise (status : Status) : Answers s (raise status s) := answers_end status 0 0 rfl rfl rfl rfl

theorem answers_unlessFaulted {body : State → Result} (h : Answers s (body s)) : Answers s (unlessFaulted s body) := by
  unfold unlessFaulted
  split
  · exact answers_raise _
  · exact h

theorem answers_ite {p : Prop} [Decidable p] {a b : Result} (ha : Answers s a) (hb : Answers s b) :
    Answers s (if p then a else b) := by
  split
  · exact ha
  · exact hb

theorem answers_ok {u : State} (r0 r1 : Word) (h1 : u.st = s.st) (h2 : u.cmdPort = s.cmdPort)
    (h3 : u.rspPort = s.rspPort) (h4 : u.cfg = s.cfg) : Answers s (finishOk r0 r1 u) := answers_end .ok r0 r1 h1 h2 h3 h4

theorem answers_endWrite (b : Option BitStream) : Answers s (endWrite b s) := by
  cases b with
  | none => exact answers_raise _
  | some b => exact answers_ok 0 0 rfl rfl rfl rfl

/-- A run of the engine from a state whose outside agrees with `s` leaves that outside (R257). -/
theorem sameOutside_speckRun (m : Mode) (budget : Word) (maxbits : Nat) (s : State) :
    SameOutside s (speckRun m budget maxbits s).2.2 := by
  cases m with
  | enc =>
    rcases speckRun_enc budget maxbits s with ⟨nb, b, h, -⟩ | ⟨nb, u, h, hu, -⟩
    · rw [h]; exact ⟨rfl, rfl, rfl, rfl, rfl, rfl, rfl, rfl⟩
    · rw [h]; exact hu
  | dec =>
    obtain ⟨a, nb, cm, h, -⟩ := speckRun_dec budget maxbits s
    rw [h]; exact ⟨rfl, rfl, rfl, rfl, rfl, rfl, rfl, rfl⟩

theorem answers_writeMaskBit (bit : Bool) (idx : Word) : Answers s (writeMaskBit bit idx s) :=
  answers_ite (answers_ok 0 0 rfl rfl rfl rfl) (answers_raise _)

theorem answers_endOutDec {u : State} (addr : Word) (status : Status) (nb : Nat) (h1 : u.st = s.st)
    (h2 : u.cmdPort = s.cmdPort) (h3 : u.rspPort = s.rspPort) (h4 : u.cfg = s.cfg) :
    Answers s (endOutDec addr status nb u) :=
  answers_ite (answers_end _ _ _ h1 h2 h3 h4)
    (answers_ite (answers_ok _ _ h1 h2 h3 h4) (answers_end .range 0 0 h1 h2 h3 h4))

/-- Every command but `RESET` answers, once, and its body leaves the ports, the parameters and `ST` alone. -/
theorem exec_answers (i : Instr) (s : State) (h : i ≠ .reset) : Answers s (exec i s) := by
  cases i with
  | reset => exact absurd rfl h
  | nop =>
    rw [exec, execNop]
    refine answers_unlessFaulted ?_
    exact answers_ok 0 0 rfl rfl rfl rfl
  | rdreg reg =>
    rw [exec, execRdreg]
    refine answers_unlessFaulted ?_
    cases s.regValue reg with
    | none => exact answers_raise _
    | some v => exact answers_ok v 0 rfl rfl rfl rfl
  | bsWbit bit =>
    rw [exec, execBsWbit]
    refine answers_unlessFaulted ?_
    exact answers_endWrite _
  | bsWbits n value =>
    rw [exec, execBsWbits]
    refine answers_unlessFaulted ?_
    exact answers_ite (answers_raise _) (answers_endWrite _)
  | bsRbit =>
    rw [exec, execBsRbit]
    refine answers_unlessFaulted ?_
    exact answers_ite (answers_ok _ 0 rfl rfl rfl rfl) (answers_raise _)
  | bsRbits n =>
    rw [exec, execBsRbits]
    refine answers_unlessFaulted ?_
    exact answers_ite (answers_raise _) (answers_ite (answers_ok _ 0 rfl rfl rfl rfl) (answers_raise _))
  | bsRewind =>
    rw [exec, execBsRewind]
    refine answers_unlessFaulted ?_
    exact answers_ok 0 0 rfl rfl rfl rfl
  | bsWseek pos =>
    rw [exec, execBsWseek]
    refine answers_unlessFaulted ?_
    exact answers_ite (answers_ok 0 0 rfl rfl rfl rfl) (answers_raise _)
  | bsRseek pos =>
    rw [exec, execBsRseek]
    refine answers_unlessFaulted ?_
    exact answers_ite (answers_ok 0 0 rfl rfl rfl rfl) (answers_raise _)
  | bsFlush =>
    rw [exec, execBsFlush]
    refine answers_unlessFaulted ?_
    exact answers_ok _ 0 rfl rfl rfl rfl
  | bsRrbit pos =>
    rw [exec, execBsRrbit]
    refine answers_unlessFaulted ?_
    exact answers_ite (answers_ok _ 0 rfl rfl rfl rfl) (answers_raise _)
  | bsRwbit bit pos =>
    rw [exec, execBsRwbit]
    refine answers_unlessFaulted ?_
    exact answers_ite (answers_ok 0 0 rfl rfl rfl rfl) (answers_raise _)
  | bsTest start len =>
    rw [exec, execBsTest]
    refine answers_unlessFaulted ?_
    exact answers_ite (answers_ok _ 0 rfl rfl rfl rfl) (answers_raise _)
  | bsGet addr =>
    rw [exec, execBsGet]
    refine answers_unlessFaulted ?_
    exact answers_ite (answers_ok _ _ rfl rfl rfl rfl) (answers_raise _)
  | bsParse addr bits =>
    rw [exec, execBsParse]
    refine answers_unlessFaulted ?_
    exact answers_ite (answers_ite (answers_ok 0 0 rfl rfl rfl rfl) (answers_raise _)) (answers_raise _)
  | mkResize size =>
    rw [exec, execMkResize]
    refine answers_unlessFaulted ?_
    exact answers_ite (answers_ok 0 0 rfl rfl rfl rfl) (answers_raise _)
  | mkReset =>
    rw [exec, execMkReset]
    refine answers_unlessFaulted ?_
    exact answers_ok 0 0 rfl rfl rfl rfl
  | mkRbit idx =>
    rw [exec, execMkRbit]
    refine answers_unlessFaulted ?_
    exact answers_ite (answers_ok _ 0 rfl rfl rfl rfl) (answers_raise _)
  | mkWbit bit idx =>
    rw [exec, execMkWbit]
    refine answers_unlessFaulted ?_
    exact answers_writeMaskBit _ _
  | mkWtrue idx =>
    rw [exec, execMkWtrue]
    refine answers_unlessFaulted ?_
    exact answers_writeMaskBit _ _
  | mkWfalse idx =>
    rw [exec, execMkWfalse]
    refine answers_unlessFaulted ?_
    exact answers_writeMaskBit _ _
  | mkCount =>
    rw [exec, execMkCount]
    refine answers_unlessFaulted ?_
    exact answers_ok _ 0 rfl rfl rfl rfl
  | mkHas start len =>
    rw [exec, execMkHas]
    refine answers_unlessFaulted ?_
    exact answers_ite (answers_ok _ 0 rfl rfl rfl rfl) (answers_raise _)
  | mkView addr =>
    rw [exec, execMkView]
    refine answers_unlessFaulted ?_
    exact answers_ite (answers_raise _) (answers_ite (answers_ok _ 0 rfl rfl rfl rfl) (answers_raise _))
  | mkUse addr =>
    rw [exec, execMkUse]
    refine answers_unlessFaulted ?_
    exact answers_ite (answers_raise _) (answers_ite (answers_ok _ 0 rfl rfl rfl rfl) (answers_raise _))
  | cmShape d n0 n1 n2 =>
    rw [exec, execCmShape]
    refine answers_unlessFaulted ?_
    exact answers_ite (answers_raise _) (answers_ite (answers_raise _) (answers_ite (answers_raise _) (answers_ite (answers_ok _ 0 rfl rfl rfl rfl) (answers_raise _))))
  | cmSt sign idx mag =>
    rw [exec, execCmSt]
    refine answers_unlessFaulted ?_
    exact answers_ite (answers_ok 0 0 rfl rfl rfl rfl) (answers_raise _)
  | cmLd idx =>
    rw [exec, execCmLd]
    refine answers_unlessFaulted ?_
    exact answers_ite (answers_ok _ _ rfl rfl rfl rfl) (answers_raise _)
  | spkEnc budget =>
    have h := sameOutside_speckRun .enc budget s.cm.maxbits s
    rw [exec, execSpkEnc]
    refine answers_unlessFaulted ?_
    exact answers_ite (answers_raise _) (answers_end _ _ _ h.st h.cmdPort h.rspPort h.cfg)
  | spkDec maxbits budget =>
    have h := sameOutside_speckRun .dec budget maxbits.toNat s
    rw [exec, execSpkDec]
    refine answers_unlessFaulted ?_
    exact answers_ite (answers_raise _) (answers_ite (answers_raise _) (answers_end _ _ _ h.st h.cmdPort h.rspPort h.cfg))
  | outTol tau =>
    rw [exec, execOutTol]
    refine answers_unlessFaulted ?_
    exact answers_ite (answers_ok 0 0 rfl rfl rfl rfl) (answers_raise _)
  | outEnc addr count len =>
    rw [exec, execOutEnc]
    refine answers_unlessFaulted ?_
    cases outEncCheck addr count len s with
    | some status => exact answers_raise _
    | none =>
      have h := sameOutside_speckRun .enc all1
        (denseOutliers s.oc.tol len.toNat (s.xb.outlierRecords addr.toNat count.toNat)).maxbits
        { s with cm := denseOutliers s.oc.tol len.toNat (s.xb.outlierRecords addr.toNat count.toNat) }
      exact answers_end _ _ _ h.st h.cmdPort h.rspPort h.cfg
  | outDec maxbits wsel addr len =>
    rw [exec, execOutDec]
    refine answers_unlessFaulted ?_
    cases outDecCheck maxbits wsel addr len s with
    | some status => exact answers_raise _
    | none =>
      have h := sameOutside_speckRun .dec all1 maxbits.toNat { s with cm := .shaped 1 ⟨len.toNat, 1, 1⟩ }
      exact answers_endOutDec _ _ _ h.st h.cmdPort h.rspPort h.cfg
  | xbSt8 value addr =>
    rw [exec, execXbSt8]
    refine answers_unlessFaulted ?_
    exact answers_ite (answers_ok 0 0 rfl rfl rfl rfl) (answers_raise _)
  | xbLd8 addr =>
    rw [exec, execXbLd8]
    refine answers_unlessFaulted ?_
    exact answers_ite (answers_ok _ 0 rfl rfl rfl rfl) (answers_raise _)
  | xbSt64 addr value =>
    rw [exec, execXbSt64]
    refine answers_unlessFaulted ?_
    exact answers_ite (answers_raise _) (answers_ite (answers_ok 0 0 rfl rfl rfl rfl) (answers_raise _))
  | xbLd64 addr =>
    rw [exec, execXbLd64]
    refine answers_unlessFaulted ?_
    exact answers_ite (answers_raise _) (answers_ite (answers_ok _ 0 rfl rfl rfl rfl) (answers_raise _))

/-- Every command answers a next state: nothing stops the machine. -/
theorem exec_next (i : Instr) (s : State) : ∃ t, exec i s = .next t := by
  by_cases h : i = .reset
  · subst h; exact ⟨_, rfl⟩
  · obtain ⟨u, status, r0, r1, hu, -⟩ := exec_answers i s h
    exact ⟨_, hu⟩

end Sys2Proof.Machine
end

