-- ==== Sys2Proof/Laws/Decode.lean ====
section
/-! SUPPORT. The fields of the word `H` that the encoder builds, each once (30_encoding.md R100). -/

namespace Sys2Proof

/-- Bit `i` of `H`: the field it lies in decides (R100). -/
theorem headWord_getLsbD (op a b : Byte) (i : Nat) : (headWord op a b).getLsbD i =
    if i < 40 then false else if i < 48 then b.getLsbD (i - 40) else if i < 56 then a.getLsbD (i - 48)
    else op.getLsbD (i - 56) := by
  have h : (headWord op a b).getLsbD i = (op ++ a ++ b ++ (0 : BitVec 40) : BitVec (8 + 8 + 8 + 40)).getLsbD i := rfl
  rw [h]
  simp only [BitVec.getLsbD_append]
  by_cases h1 : i < 40
  · simp [h1]
  · by_cases h2 : i < 48
    · have : i - 40 < 8 := by omega
      simp [h1, h2, this]
    · by_cases h3 : i < 56
      · have e1 : ¬ i - 40 < 8 := by omega
        have e2 : i - 40 - 8 < 8 := by omega
        have e3 : i - 40 - 8 = i - 48 := by omega
        have e4 : i - 48 < 8 := by omega
        simp [h1, h2, h3, e1, e3, e4]
      · have e1 : ¬ i - 40 < 8 := by omega
        have e2 : ¬ i - 40 - 8 < 8 := by omega
        have e3 : i - 40 - 8 - 8 = i - 56 := by omega
        simp [h1, h2, h3, e1, e2, e3]

@[simp] theorem opcode_headWord (op a b : Byte) (p q r : Word) : (Frame.mk (headWord op a b) p q r).opcode = op := by
  ext i hi
  have h1 : ¬ 56 + i < 40 := by omega
  have h2 : ¬ 56 + i < 48 := by omega
  have h3 : ¬ 56 + i < 56 := by omega
  simp [Frame.opcode, headWord_getLsbD, h1, h2, h3, hi]

@[simp] theorem a_headWord (op a b : Byte) (p q r : Word) : (Frame.mk (headWord op a b) p q r).a = a := by
  ext i hi
  have h1 : ¬ 48 + i < 40 := by omega
  have h2 : ¬ 48 + i < 48 := by omega
  have h3 : 48 + i < 56 := by omega
  simp [Frame.a, headWord_getLsbD, h1, h2, h3, hi]

@[simp] theorem b_headWord (op a b : Byte) (p q r : Word) : (Frame.mk (headWord op a b) p q r).b = b := by
  ext i hi
  have h1 : ¬ 40 + i < 40 := by omega
  have h2 : 40 + i < 48 := by omega
  simp [Frame.b, headWord_getLsbD, h1, h2, hi]

@[simp] theorem zero_headWord (op a b : Byte) (p q r : Word) : (Frame.mk (headWord op a b) p q r).zero = 0 := by
  ext i hi
  simp [Frame.zero, headWord_getLsbD, hi]

/-- The word `H` of a frame is its four fields side by side (R100). -/
theorem headWord_eta (f : Frame) (h : f.zero = 0) : headWord f.opcode f.a f.b = f.h := by
  apply BitVec.eq_of_getLsbD_eq
  intro i hi
  rw [headWord_getLsbD]
  by_cases h1 : i < 40
  · have := congrArg (fun z : BitVec 40 => z.getLsbD i) h
    simp [Frame.zero, h1] at this
    simp [h1, this]
  · by_cases h2 : i < 48
    · have e : 40 + (i - 40) = i := by omega
      have e2 : i - 40 < 8 := by omega
      simp [h1, h2, Frame.b, e, e2]
    · by_cases h3 : i < 56
      · have e : 48 + (i - 48) = i := by omega
        have e2 : i - 48 < 8 := by omega
        simp [h1, h2, h3, Frame.a, e, e2]
      · have e : 56 + (i - 56) = i := by omega
        have e2 : i - 56 < 8 := by omega
        simp [h1, h2, h3, Frame.opcode, e, e2]

/-- A masked head word: the mask acts on each field. -/
theorem headWord_and (op a b mop ma mb : Byte) (mz : BitVec 40) :
    headWord op a b &&& (mop ++ ma ++ mb ++ mz : BitVec (8 + 8 + 8 + 40)) =
      headWord (op &&& mop) (a &&& ma) (b &&& mb) := by
  have h : headWord op a b = (op ++ a ++ b ++ (0 : BitVec 40) : BitVec (8 + 8 + 8 + 40)) := rfl
  rw [h]
  have hz : (0 : BitVec 40) &&& mz = 0 := by simp
  rw [BitVec.and_append, BitVec.and_append, BitVec.and_append, hz]
  rfl

@[simp] theorem bitField_bit (v : Bool) : (bitField v).getLsbD 0 = v := by cases v <;> rfl

@[simp] theorem bitField_high (v : Bool) : (bitField v).extractLsb' 1 7 = 0 := by cases v <;> rfl

/-- A byte whose bits 7:1 are 0 is the field of its bit 0. -/
theorem bitField_eta (x : Byte) (h : x.extractLsb' 1 7 = 0) : bitField (x.getLsbD 0) = x := by
  revert x; decide

end Sys2Proof
end

