-- ==== Sys2Proof/Laws/Geometry.lean ====
section
/-! SUPPORT. The partitioning geometry, each function once: element numbers, the points of a box, significance, the halving
sequence and the candidate offspring (43_coefficient_memory_and_sets.md R213, R216 to R221; 44_speck_engine.md R252). -/

namespace Sys2Proof.Machine

theorem Tri.ext_iff' (a b : Tri) : a = b ↔ a.x = b.x ∧ a.y = b.y ∧ a.z = b.z := by
  cases a; cases b; simp

/-! ### Boxes and element numbers -/

theorem CoefSet.holds_iff (s : CoefSet) (t : Tri) :
    s.holds t = true ↔ (s.origin.x ≤ t.x ∧ t.x < s.origin.x + s.extent.x) ∧
      (s.origin.y ≤ t.y ∧ t.y < s.origin.y + s.extent.y) ∧ (s.origin.z ≤ t.z ∧ t.z < s.origin.z + s.extent.z) := by
  simp only [CoefSet.holds, Bool.and_eq_true, decide_eq_true_eq, and_assoc]

theorem mem_boxPoints (o e t : Tri) :
    t ∈ boxPoints o e ↔ (o.x ≤ t.x ∧ t.x < o.x + e.x) ∧ (o.y ≤ t.y ∧ t.y < o.y + e.y) ∧
      (o.z ≤ t.z ∧ t.z < o.z + e.z) := by
  simp only [boxPoints, List.mem_flatMap, List.mem_map, List.mem_range]
  constructor
  · rintro ⟨z, hz, y, hy, x, hx, rfl⟩
    exact ⟨⟨by simp, by simpa using hx⟩, ⟨by simp, by simpa using hy⟩, by simp, by simpa using hz⟩
  · rintro ⟨⟨h1, h2⟩, ⟨h3, h4⟩, h5, h6⟩
    refine ⟨t.z - o.z, by omega, t.y - o.y, by omega, t.x - o.x, by omega, ?_⟩
    rw [Tri.ext_iff']
    refine ⟨?_, ?_, ?_⟩ <;> simp <;> omega

/-- The points of a set's box are those it holds. -/
theorem mem_boxPoints_iff_holds (s : CoefSet) (t : Tri) : t ∈ boxPoints s.origin s.extent ↔ s.holds t = true := by
  rw [mem_boxPoints, CoefSet.holds_iff]

theorem elemIdx_lt {ext t : Tri} (hx : t.x < ext.x) (hy : t.y < ext.y) (hz : t.z < ext.z) :
    elemIdx ext t < ext.x * ext.y * ext.z := by
  have h1 : t.y + ext.y * t.z + 1 ≤ ext.y * ext.z := by
    have : ext.y * (t.z + 1) ≤ ext.y * ext.z := Nat.mul_le_mul_left _ hz
    rw [Nat.mul_add] at this; omega
  have h2 : ext.x * (t.y + ext.y * t.z + 1) ≤ ext.x * (ext.y * ext.z) := Nat.mul_le_mul_left _ h1
  rw [Nat.mul_add] at h2
  rw [elemIdx, Nat.mul_assoc]
  omega

/-- Distinct points of the array have distinct element numbers. -/
theorem elemIdx_inj {ext t u : Tri} (ht : t.x < ext.x ∧ t.y < ext.y) (hu : u.x < ext.x ∧ u.y < ext.y)
    (h : elemIdx ext t = elemIdx ext u) : t = u := by
  unfold elemIdx at h
  have key : ∀ (a b c d n : Nat), a < n → b < n → a + n * c = b + n * d → a = b ∧ c = d := by
    intro a b c d n ha hb hab
    have hm : (a + n * c) % n = (b + n * d) % n := by rw [hab]
    rw [Nat.add_mul_mod_self_left, Nat.add_mul_mod_self_left, Nat.mod_eq_of_lt ha, Nat.mod_eq_of_lt hb] at hm
    subst hm
    exact ⟨rfl, Nat.eq_of_mul_eq_mul_left (by omega) (Nat.add_left_cancel hab)⟩
  obtain ⟨hx, h'⟩ := key _ _ _ _ _ ht.1 hu.1 h
  obtain ⟨hy, hz⟩ := key _ _ _ _ _ ht.2 hu.2 h'
  rw [Tri.ext_iff']
  exact ⟨hx, hy, hz⟩

/-- Every element number is that of a point of the array. -/
theorem exists_elemIdx {ext : Tri} {idx : Nat} (h : idx < ext.x * ext.y * ext.z) :
    ∃ t : Tri, (t.x < ext.x ∧ t.y < ext.y ∧ t.z < ext.z) ∧ elemIdx ext t = idx := by
  have hx : 0 < ext.x := by
    rcases Nat.eq_zero_or_pos ext.x with h0 | h0
    · rw [h0] at h; simp at h
    · exact h0
  have hy : 0 < ext.y := by
    rcases Nat.eq_zero_or_pos ext.y with h0 | h0
    · rw [h0] at h; simp at h
    · exact h0
  refine ⟨⟨idx % ext.x, idx / ext.x % ext.y, idx / ext.x / ext.y⟩, ⟨Nat.mod_lt _ hx, Nat.mod_lt _ hy, ?_⟩, ?_⟩
  · show idx / ext.x / ext.y < ext.z
    rw [Nat.div_div_eq_div_mul, Nat.div_lt_iff_lt_mul (Nat.mul_pos hx hy), Nat.mul_comm]
    exact h
  · show idx % ext.x + ext.x * (idx / ext.x % ext.y + ext.y * (idx / ext.x / ext.y)) = idx
    rw [Nat.mod_add_div, Nat.mod_add_div]

/-! ### Significance -/

theorem CoefMem.significant_iff (cm : CoefMem) (p : Nat) (s : CoefSet) :
    cm.significant p s = true ↔ ∃ t, s.holds t = true ∧ 2 ^ p ≤ (cm.magAt t).toNat := by
  simp only [CoefMem.significant, List.any_eq_true, mem_boxPoints_iff_holds, decide_eq_true_eq]

theorem inTypeI_iff (ext : Tri) (k : Nat) (t : Tri) :
    inTypeI ext k t = true ↔ (halving ext k).x ≤ t.x ∨ (halving ext k).y ≤ t.y ∨ (halving ext k).z ≤ t.z := by
  simp only [inTypeI, Bool.or_eq_true, decide_eq_true_eq, or_assoc]

theorem CoefMem.significantI_iff (cm : CoefMem) (p k : Nat) :
    cm.significantI p k = true ↔ ∃ t : Tri, (t.x < cm.ext.x ∧ t.y < cm.ext.y ∧ t.z < cm.ext.z) ∧
      inTypeI cm.ext k t = true ∧ 2 ^ p ≤ (cm.magAt t).toNat := by
  simp only [CoefMem.significantI, List.any_eq_true, mem_boxPoints, Bool.and_eq_true, decide_eq_true_eq]
  simp

/-! ### Halving -/

theorem halfUp_le (e : Nat) : halfUp e ≤ e := by unfold halfUp ceilDiv; omega

theorem halfUp_pos {e : Nat} (h : 1 ≤ e) : 1 ≤ halfUp e := by unfold halfUp ceilDiv; omega

theorem halfUp_lt {e : Nat} (h : 2 ≤ e) : halfUp e < e := by unfold halfUp ceilDiv; omega

theorem sub_halfUp_le (e : Nat) : e - halfUp e ≤ halfUp e := by unfold halfUp ceilDiv; omega

/-- The rest after the first half is empty only for an extent of at most 1. -/
theorem sub_halfUp_eq_zero_iff (e : Nat) : e - halfUp e = 0 ↔ e ≤ 1 := by unfold halfUp ceilDiv; omega

theorem halfUp_ceilDiv (e k : Nat) : halfUp (ceilDiv e (2 ^ k)) = ceilDiv e (2 ^ (k + 1)) := by
  have hk : 0 < 2 ^ k := Nat.two_pow_pos k
  apply Nat.le_antisymm
  · rw [halfUp, ceilDiv_le_iff (by omega), ceilDiv_le_iff hk, Nat.mul_assoc, ← Nat.pow_succ']
    exact ceilDiv_mul_ge (Nat.two_pow_pos _) e
  · rw [ceilDiv_le_iff (Nat.two_pow_pos _), Nat.pow_succ', ← Nat.mul_assoc]
    calc e ≤ ceilDiv e (2 ^ k) * 2 ^ k := ceilDiv_mul_ge hk e
      _ ≤ halfUp (ceilDiv e (2 ^ k)) * 2 * 2 ^ k := Nat.mul_le_mul_right _ (ceilDiv_mul_ge (by omega) _)

/-- `A_k` in closed form: each component is `ceil(N / 2^k)`. -/
theorem halving_eq (ext : Tri) (k : Nat) : halving ext k = ext.map fun n => ceilDiv n (2 ^ k) := by
  induction k with
  | zero => simp [halving, Tri.map, ceilDiv]
  | succ k ih => simp only [halving, ih, Tri.map, halfUp_ceilDiv]

@[simp] theorem halving_x (ext : Tri) (k : Nat) : (halving ext k).x = ceilDiv ext.x (2 ^ k) := by
  rw [halving_eq]; rfl

@[simp] theorem halving_y (ext : Tri) (k : Nat) : (halving ext k).y = ceilDiv ext.y (2 ^ k) := by
  rw [halving_eq]; rfl

@[simp] theorem halving_z (ext : Tri) (k : Nat) : (halving ext k).z = ceilDiv ext.z (2 ^ k) := by
  rw [halving_eq]; rfl

/-! ### Offspring -/

theorem CoefSet.nonEmpty_iff (s : CoefSet) :
    s.nonEmpty = true ↔ 1 ≤ s.extent.x ∧ 1 ≤ s.extent.y ∧ 1 ≤ s.extent.z := by
  simp only [CoefSet.nonEmpty, Bool.and_eq_true, bne_iff_ne, ne_eq, and_assoc, Nat.one_le_iff_ne_zero]

theorem CoefSet.isPixel_iff (s : CoefSet) :
    s.isPixel = true ↔ s.extent.x = 1 ∧ s.extent.y = 1 ∧ s.extent.z = 1 := by
  simp only [CoefSet.isPixel, Bool.and_eq_true, beq_iff_eq, and_assoc]

@[simp] theorem candidate_level (o h e : Tri) (level b : Nat) : (candidate o h e level b).level = level := rfl

/-- Offspring number `b` holds a point exactly where, in each dimension, the point lies in the first part or the rest, as
that dimension's bit of `b` says. -/
theorem candidate_holds_iff (o h e : Tri) (level b : Nat) (hx : h.x ≤ e.x) (hy : h.y ≤ e.y) (hz : h.z ≤ e.z) (t : Tri) :
    (candidate o h e level b).holds t = true ↔
      ((o.x ≤ t.x ∧ t.x < o.x + e.x) ∧ b.testBit 0 = decide (o.x + h.x ≤ t.x)) ∧
      ((o.y ≤ t.y ∧ t.y < o.y + e.y) ∧ b.testBit 1 = decide (o.y + h.y ≤ t.y)) ∧
      ((o.z ≤ t.z ∧ t.z < o.z + e.z) ∧ b.testBit 2 = decide (o.z + h.z ≤ t.z)) := by
  rw [CoefSet.holds_iff]
  have one : ∀ (bit : Bool) (o h e t : Nat), h ≤ e →
      (((partOf bit o h e).1 ≤ t ∧ t < (partOf bit o h e).1 + (partOf bit o h e).2) ↔
        (o ≤ t ∧ t < o + e) ∧ bit = decide (o + h ≤ t)) := by
    intro bit o h e t hh
    cases bit <;> simp [partOf] <;> omega
  show (((partOf (b.testBit 0) o.x h.x e.x).1 ≤ t.x ∧ _) ∧ ((partOf (b.testBit 1) o.y h.y e.y).1 ≤ t.y ∧ _) ∧
    ((partOf (b.testBit 2) o.z h.z e.z).1 ≤ t.z ∧ _)) ↔ _
  exact and_congr (one _ _ _ _ _ hx) (and_congr (one _ _ _ _ _ hy) (one _ _ _ _ _ hz))

theorem mem_splitS (s o : CoefSet) :
    o ∈ splitS s ↔ o.nonEmpty = true ∧ ∃ b < 8, o = candidate s.origin (s.extent.map halfUp) s.extent (s.level + 1) b := by
  have hr : [0, 1, 2, 3, 4, 5, 6, 7] = List.range 8 := rfl
  simp only [splitS, hr, List.mem_filter, List.mem_map, List.mem_range]
  constructor
  · rintro ⟨⟨b, hb, rfl⟩, hn⟩; exact ⟨hn, b, hb, rfl⟩
  · rintro ⟨hn, b, hb, rfl⟩; exact ⟨⟨b, hb, rfl⟩, hn⟩

theorem mem_splitI (ext : Tri) (k : Nat) (o : CoefSet) :
    o ∈ splitI ext k ↔ o.nonEmpty = true ∧
      ∃ b, 1 ≤ b ∧ b < 8 ∧ o = candidate ⟨0, 0, 0⟩ (halving ext k) (halving ext (k - 1)) k b := by
  simp only [splitI, List.mem_filter, List.mem_map]
  constructor
  · rintro ⟨⟨b, hb, rfl⟩, hn⟩
    have : 1 ≤ b ∧ b < 8 := by simp at hb; omega
    exact ⟨hn, b, this.1, this.2, rfl⟩
  · rintro ⟨hn, b, h1, h8, rfl⟩
    exact ⟨⟨b, by simp; omega, rfl⟩, hn⟩

/-! ### Volumes -/

/-- The elements of a list of sets, counted. -/
def setsVolume (l : List CoefSet) : Nat := (l.map fun o => o.extent.volume).sum

@[simp] theorem setsVolume_nil : setsVolume [] = 0 := rfl

@[simp] theorem setsVolume_cons (o : CoefSet) (l : List CoefSet) :
    setsVolume (o :: l) = o.extent.volume + setsVolume l := by simp [setsVolume]

@[simp] theorem setsVolume_append (l l' : List CoefSet) : setsVolume (l ++ l') = setsVolume l + setsVolume l' := by
  simp [setsVolume]

theorem CoefSet.volume_pos {o : CoefSet} (h : o.nonEmpty = true) : 1 ≤ o.extent.volume := by
  rw [CoefSet.nonEmpty_iff] at h
  exact Nat.mul_pos (Nat.mul_pos h.1 h.2.1) h.2.2

/-- The empty candidates that a split drops hold no element. -/
theorem setsVolume_filter_nonEmpty (l : List CoefSet) : setsVolume (l.filter CoefSet.nonEmpty) = setsVolume l := by
  induction l with
  | nil => rfl
  | cons o l ih =>
    by_cases h : o.nonEmpty = true
    · rw [List.filter_cons_of_pos h, setsVolume_cons, ih, setsVolume_cons]
    · rw [List.filter_cons_of_neg h, ih, setsVolume_cons]
      have h0 : o.extent.x = 0 ∨ o.extent.y = 0 ∨ o.extent.z = 0 := by
        rw [CoefSet.nonEmpty_iff] at h; omega
      have : o.extent.volume = 0 := by
        unfold Tri.volume
        rcases h0 with h0 | h0 | h0 <;> simp [h0]
      omega

/-- A split keeps the elements (R217). -/
theorem setsVolume_splitS (s : CoefSet) : setsVolume (splitS s) = s.extent.volume := by
  have hx := Nat.add_sub_of_le (halfUp_le s.extent.x)
  have hy := Nat.add_sub_of_le (halfUp_le s.extent.y)
  have hz := Nat.add_sub_of_le (halfUp_le s.extent.z)
  rw [splitS, setsVolume_filter_nonEmpty]
  simp only [List.map_cons, List.map_nil, setsVolume_cons, setsVolume_nil, candidate, partOf, Tri.volume, Tri.map]
  simp only [show Nat.testBit 0 0 = false from rfl, show Nat.testBit 0 1 = false from rfl,
    show Nat.testBit 0 2 = false from rfl, show Nat.testBit 1 0 = true from rfl, show Nat.testBit 1 1 = false from rfl,
    show Nat.testBit 1 2 = false from rfl, show Nat.testBit 2 0 = false from rfl, show Nat.testBit 2 1 = true from rfl,
    show Nat.testBit 2 2 = false from rfl, show Nat.testBit 3 0 = true from rfl, show Nat.testBit 3 1 = true from rfl,
    show Nat.testBit 3 2 = false from rfl, show Nat.testBit 4 0 = false from rfl, show Nat.testBit 4 1 = false from rfl,
    show Nat.testBit 4 2 = true from rfl, show Nat.testBit 5 0 = true from rfl, show Nat.testBit 5 1 = false from rfl,
    show Nat.testBit 5 2 = true from rfl, show Nat.testBit 6 0 = false from rfl, show Nat.testBit 6 1 = true from rfl,
    show Nat.testBit 6 2 = true from rfl, show Nat.testBit 7 0 = true from rfl, show Nat.testBit 7 1 = true from rfl,
    show Nat.testBit 7 2 = true from rfl, if_true, Bool.false_eq_true, if_false]
  generalize halfUp s.extent.x = a at *
  generalize halfUp s.extent.y = b at *
  generalize halfUp s.extent.z = c at *
  generalize s.extent.x - a = a' at *
  generalize s.extent.y - b = b' at *
  generalize s.extent.z - c = c' at *
  rw [← hx, ← hy, ← hz]
  ring

/-- The offspring of TypeI hold what the addressed box gains (R221, R222). -/
theorem setsVolume_splitI (ext : Tri) (k : Nat) :
    setsVolume (splitI ext (k + 1)) + (halving ext (k + 1)).volume = (halving ext k).volume := by
  have hx := Nat.add_sub_of_le (halfUp_le (halving ext k).x)
  have hy := Nat.add_sub_of_le (halfUp_le (halving ext k).y)
  have hz := Nat.add_sub_of_le (halfUp_le (halving ext k).z)
  rw [splitI, setsVolume_filter_nonEmpty]
  simp only [List.map_cons, List.map_nil, setsVolume_cons, setsVolume_nil, candidate, partOf, Tri.volume,
    show halving ext (k + 1) = (halving ext k).map halfUp from rfl, Nat.add_sub_cancel, Tri.map]
  simp only [show Nat.testBit 1 0 = true from rfl, show Nat.testBit 1 1 = false from rfl,
    show Nat.testBit 1 2 = false from rfl, show Nat.testBit 2 0 = false from rfl, show Nat.testBit 2 1 = true from rfl,
    show Nat.testBit 2 2 = false from rfl, show Nat.testBit 3 0 = true from rfl, show Nat.testBit 3 1 = true from rfl,
    show Nat.testBit 3 2 = false from rfl, show Nat.testBit 4 0 = false from rfl, show Nat.testBit 4 1 = false from rfl,
    show Nat.testBit 4 2 = true from rfl, show Nat.testBit 5 0 = true from rfl, show Nat.testBit 5 1 = false from rfl,
    show Nat.testBit 5 2 = true from rfl, show Nat.testBit 6 0 = false from rfl, show Nat.testBit 6 1 = true from rfl,
    show Nat.testBit 6 2 = true from rfl, show Nat.testBit 7 0 = true from rfl, show Nat.testBit 7 1 = true from rfl,
    show Nat.testBit 7 2 = true from rfl, if_true, Bool.false_eq_true, if_false]
  generalize (halving ext k).x = x at *
  generalize (halving ext k).y = y at *
  generalize (halving ext k).z = z at *
  generalize halfUp x = a at *
  generalize halfUp y = b at *
  generalize halfUp z = c at *
  generalize x - a = a' at *
  generalize y - b = b' at *
  generalize z - c = c' at *
  rw [← hx, ← hy, ← hz]
  ring

/-- Every offspring of a set that is no pixel is smaller than the set. -/
theorem volume_lt_of_mem_splitS {s o : CoefSet} (hs : s.nonEmpty = true) (hp : s.isPixel = false) (ho : o ∈ splitS s) :
    o.extent.volume < s.extent.volume := by
  obtain ⟨hn, b, -, rfl⟩ := (mem_splitS s o).1 ho
  rw [CoefSet.nonEmpty_iff] at hs
  have hp' : ¬ (s.extent.x = 1 ∧ s.extent.y = 1 ∧ s.extent.z = 1) := by
    rw [← CoefSet.isPixel_iff, hp]; simp
  have part : ∀ (bit : Bool) (o e : Nat), 1 ≤ e → (partOf bit o (halfUp e) e).2 ≤ e ∧
      (2 ≤ e → (partOf bit o (halfUp e) e).2 < e) := by
    intro bit o e he
    have h1 := halfUp_le e
    have h2 := halfUp_pos he
    refine ⟨?_, fun h => ?_⟩
    · cases bit <;> simp [partOf, h1]
    · have := halfUp_lt h
      cases bit <;> simp [partOf] <;> omega
  have px := part (b.testBit 0) s.origin.x s.extent.x hs.1
  have py := part (b.testBit 1) s.origin.y s.extent.y hs.2.1
  have pz := part (b.testBit 2) s.origin.z s.extent.z hs.2.2
  rw [CoefSet.nonEmpty_iff] at hn
  change 1 ≤ (partOf (b.testBit 0) s.origin.x (halfUp s.extent.x) s.extent.x).2 ∧
    1 ≤ (partOf (b.testBit 1) s.origin.y (halfUp s.extent.y) s.extent.y).2 ∧
    1 ≤ (partOf (b.testBit 2) s.origin.z (halfUp s.extent.z) s.extent.z).2 at hn
  change (partOf (b.testBit 0) s.origin.x (halfUp s.extent.x) s.extent.x).2 *
    (partOf (b.testBit 1) s.origin.y (halfUp s.extent.y) s.extent.y).2 *
    (partOf (b.testBit 2) s.origin.z (halfUp s.extent.z) s.extent.z).2 < s.extent.x * s.extent.y * s.extent.z
  generalize (partOf (b.testBit 0) s.origin.x (halfUp s.extent.x) s.extent.x).2 = x at *
  generalize (partOf (b.testBit 1) s.origin.y (halfUp s.extent.y) s.extent.y).2 = y at *
  generalize (partOf (b.testBit 2) s.origin.z (halfUp s.extent.z) s.extent.z).2 = z at *
  by_cases h2 : 2 ≤ s.extent.x
  · exact Nat.mul_lt_mul_of_lt_of_le (Nat.mul_lt_mul_of_lt_of_le (px.2 h2) py.1 (by omega)) pz.1 (by omega)
  · by_cases h3 : 2 ≤ s.extent.y
    · exact Nat.mul_lt_mul_of_lt_of_le (Nat.mul_lt_mul_of_le_of_lt px.1 (py.2 h3) (by omega)) pz.1 (by omega)
    · exact Nat.mul_lt_mul_of_le_of_lt (Nat.mul_le_mul px.1 py.1) (pz.2 (by omega)) (Nat.mul_pos (by omega) (by omega))

/-- A set that is no pixel has at least two offspring. -/
theorem two_le_length_splitS {s : CoefSet} (hs : s.nonEmpty = true) (hp : s.isPixel = false) :
    2 ≤ (splitS s).length := by
  have hv := setsVolume_splitS s
  have hpos := CoefSet.volume_pos hs
  cases hl : splitS s with
  | nil => rw [hl] at hv; simp at hv; omega
  | cons o l =>
    cases l with
    | nil =>
      have := volume_lt_of_mem_splitS hs hp (o := o) (by rw [hl]; exact List.mem_cons_self)
      rw [hl] at hv; simp at hv; omega
    | cons o' l => simp

theorem volume_halving_le (ext : Tri) (k : Nat) : (halving ext (k + 1)).volume ≤ (halving ext k).volume := by
  have := setsVolume_splitI ext k; omega

/-- The addressed box gains something in every step from the root depth down to 0 (R216, R222). -/
theorem volume_halving_lt {ext : Tri} (hx : 1 ≤ ext.x) (hy : 1 ≤ ext.y) (hz : 1 ≤ ext.z) {k : Nat}
    (hk : k < rootDepth ext) : (halving ext (k + 1)).volume < (halving ext k).volume := by
  have pos : ∀ n, 1 ≤ n → 1 ≤ ceilDiv n (2 ^ k) := by
    intro n hn
    have := ceilDiv_mul_ge (Nat.two_pow_pos k) n
    rcases Nat.eq_zero_or_pos (ceilDiv n (2 ^ k)) with h | h
    · rw [h] at this; omega
    · exact h
  have big : ∀ n, k < clog2 n → 2 ≤ ceilDiv n (2 ^ k) := by
    intro n hn
    have h1 : ¬ clog2 n ≤ k := by omega
    rw [clog2_le_iff] at h1
    have h2 : ¬ ceilDiv n (2 ^ k) ≤ 1 := by rw [ceilDiv_le_iff (Nat.two_pow_pos k)]; omega
    omega
  have h1 := pos _ hx
  have h2 := pos _ hy
  have h3 := pos _ hz
  have hb : 2 ≤ ceilDiv ext.x (2 ^ k) ∨ 2 ≤ ceilDiv ext.y (2 ^ k) ∨ 2 ≤ ceilDiv ext.z (2 ^ k) := by
    have : k < clog2 ext.x ∨ k < clog2 ext.y ∨ k < clog2 ext.z := by unfold rootDepth at hk; omega
    rcases this with h | h | h
    · exact .inl (big _ h)
    · exact .inr (.inl (big _ h))
    · exact .inr (.inr (big _ h))
  show halfUp (halving ext k).x * halfUp (halving ext k).y * halfUp (halving ext k).z <
    (halving ext k).x * (halving ext k).y * (halving ext k).z
  rw [halving_x, halving_y, halving_z]
  generalize ceilDiv ext.x (2 ^ k) = x at *
  generalize ceilDiv ext.y (2 ^ k) = y at *
  generalize ceilDiv ext.z (2 ^ k) = z at *
  have lx := halfUp_le x
  have ly := halfUp_le y
  have lz := halfUp_le z
  have px := halfUp_pos h1
  have py := halfUp_pos h2
  have pz := halfUp_pos h3
  rcases hb with h | h | h
  · exact Nat.mul_lt_mul_of_lt_of_le (Nat.mul_lt_mul_of_lt_of_le (halfUp_lt h) ly (by omega)) lz (by omega)
  · exact Nat.mul_lt_mul_of_lt_of_le (Nat.mul_lt_mul_of_le_of_lt lx (halfUp_lt h) (by omega)) lz (by omega)
  · exact Nat.mul_lt_mul_of_le_of_lt (Nat.mul_le_mul lx ly) (halfUp_lt h) (Nat.mul_pos (by omega) (by omega))

/-- TypeI at the root depth, and the root pixel, hold the whole array (R216, R220). -/
theorem volume_halving_rootDepth {ext : Tri} (hx : 1 ≤ ext.x) (hy : 1 ≤ ext.y) (hz : 1 ≤ ext.z) :
    (halving ext (rootDepth ext)).volume = 1 := by
  have one : ∀ n, 1 ≤ n → clog2 n ≤ rootDepth ext → ceilDiv n (2 ^ rootDepth ext) = 1 := by
    intro n hn hc
    rw [clog2_le_iff] at hc
    have h1 : ceilDiv n (2 ^ rootDepth ext) ≤ 1 := by rw [ceilDiv_le_iff (Nat.two_pow_pos _)]; omega
    have := ceilDiv_mul_ge (Nat.two_pow_pos (rootDepth ext)) n
    rcases Nat.eq_zero_or_pos (ceilDiv n (2 ^ rootDepth ext)) with h | h
    · rw [h] at this; omega
    · omega
  unfold Tri.volume
  rw [halving_x, halving_y, halving_z, one _ hx (by unfold rootDepth; omega), one _ hy (by unfold rootDepth; omega),
    one _ hz (by unfold rootDepth; omega)]

end Sys2Proof.Machine
end

