-- ==== Sys2Proof/Laws/EngineBits.lean ====
section
/-! SUPPORT. How many bits a run of the SPECK engine can code: at most `3n + 1` in each bitplane of an array of `n` elements,
since the worklists together hold each element at most once (43_coefficient_memory_and_sets.md R223; 44_speck_engine.md R243
to R250). -/

namespace Sys2Proof.Machine

/-- The outcome of a piece: `P` of its value and the state where it is done, `Q` of the state where it stopped. -/
def Run.Gives {α : Type} (P : α → State → Prop) (Q : State → Prop) : Run α → Prop
  | .done v s => P v s
  | .stop _ s => Q s

theorem Run.gives_andThen {α β : Type} {P : α → State → Prop} {P' : β → State → Prop} {Q : State → Prop} {r : Run α}
    {next : α → State → Run β} (hr : r.Gives P Q) (hn : ∀ v s, P v s → (next v s).Gives P' Q) :
    (r.andThen next).Gives P' Q := by
  cases r with
  | done v s => exact hn v s hr
  | stop a s => exact hr

theorem Run.gives_mono {α : Type} {P P' : α → State → Prop} {Q : State → Prop} {r : Run α} (hr : r.Gives P Q)
    (h : ∀ v s, P v s → P' v s) : r.Gives P' Q := by
  cases r with
  | done v s => exact h v s hr
  | stop a s => exact hr

/-- One coded bit counts one, and changes nothing but the stream (R243). -/
theorem codeBit_gives (m : Mode) (d : State → Bool) (s : State) :
    (codeBit m d s).Gives (fun _ u => ∃ bs, u = { s with bs := bs, wl := { s.wl with nb := s.wl.nb + 1 } })
      (fun u => u = s) := by
  cases m with
  | enc =>
    refine Run.gives_andThen (P := fun _ u => ∃ bs, u = { s with bs := bs, wl := { s.wl with nb := s.wl.nb + 1 } }) ?_
      fun _ _ h => h
    unfold emit
    split
    · exact rfl
    · split
      · exact rfl
      · exact ⟨_, rfl⟩
  | dec =>
    show (Sys2Proof.Machine.take s).Gives _ _
    unfold Sys2Proof.Machine.take
    split
    · exact rfl
    · split
      · exact rfl
      · exact ⟨_, rfl⟩

/-! ### What the worklists hold -/

/-- The elements in the sets of level `i`. -/
def volAt (lis : List (List CoefSet)) (i : Nat) : Nat := setsVolume (lis.getD i [])

/-- The elements in the sets of all levels. -/
def lisVolume (lis : List (List CoefSet)) : Nat := (lis.map setsVolume).sum

/-- The elements in the sets of the levels below `n`. -/
def volBelow (lis : List (List CoefSet)) : Nat → Nat
  | 0 => 0
  | n + 1 => volBelow lis n + volAt lis n

theorem lisVolume_set {lis : List (List CoefSet)} {i : Nat} (l : List CoefSet) (h : i < lis.length) :
    lisVolume (lis.set i l) + volAt lis i = lisVolume lis + setsVolume l := by
  unfold lisVolume volAt
  induction lis generalizing i with
  | nil => simp at h
  | cons a lis ih =>
    cases i with
    | zero => simp; omega
    | succ i =>
      have := ih (i := i) (by simpa using h)
      simp only [List.set_cons_succ, List.map_cons, List.sum_cons, List.getD_cons_succ] at this ⊢
      omega

theorem getD_set_self {lis : List (List CoefSet)} {i : Nat} (l : List CoefSet) (h : i < lis.length) :
    (lis.set i l).getD i [] = l := by
  simp [List.getD_eq_getElem?_getD, h]

theorem getD_set_ne {lis : List (List CoefSet)} {i j : Nat} (l : List CoefSet) (h : j ≠ i) :
    (lis.set i l).getD j [] = lis.getD j [] := by
  simp [List.getD_eq_getElem?_getD, List.getElem?_set_ne (Ne.symm h)]

theorem set_of_length_le {lis : List (List CoefSet)} {i : Nat} (l : List CoefSet) (h : lis.length ≤ i) :
    lis.set i l = lis := List.set_eq_of_length_le h

theorem volBelow_le (lis : List (List CoefSet)) (n : Nat) : volBelow lis n ≤ lisVolume lis := by
  have key : ∀ (lis : List (List CoefSet)) (n : Nat), volBelow lis n = lisVolume (lis.take n) := by
    intro lis n
    induction n with
    | zero => rfl
    | succ n ih =>
      rw [volBelow, ih, List.take_add_one]
      unfold lisVolume volAt
      rw [List.map_append, List.sum_append, List.getD_eq_getElem?_getD]
      cases lis[n]? <;> simp
  rw [key]
  unfold lisVolume
  conv => rhs; rw [← List.take_append_drop n lis]
  rw [List.map_append, List.sum_append]
  omega

theorem volBelow_congr {lis lis' : List (List CoefSet)} {n : Nat} (h : ∀ i < n, lis.getD i [] = lis'.getD i []) :
    volBelow lis n = volBelow lis' n := by
  induction n with
  | zero => rfl
  | succ n ih =>
    rw [volBelow, volBelow, ih fun i hi => h i (by omega), volAt, volAt, h n (by omega)]

/-! ### The mask's count -/

theorem Bitmask.rbit_wbit_ne {x : Bitmask} {i j : Nat} (v : Bool) (h : j ≠ i) : (x.wbit i v).rbit j = x.rbit j := by
  unfold Bitmask.wbit Bitmask.rbit
  by_cases hi : i < 64 * x.mw.length
  · rw [getBitAt_setBitAt hi, if_neg h]
  · rw [setBitAt, List.set_eq_of_length_le (by omega)]

theorem Bitmask.rbit_wbit_false (x : Bitmask) (i : Nat) : (x.wbit i false).rbit i = false := by
  unfold Bitmask.wbit Bitmask.rbit
  by_cases hi : i < 64 * x.mw.length
  · rw [getBitAt_setBitAt hi, if_pos rfl]
  · have hl : x.mw.length ≤ i / 64 := by omega
    rw [setBitAt, List.set_eq_of_length_le hl]
    exact getBitAt_of_length_le (Nat.not_lt.1 hi)

theorem filter_length_le_add_one {f g : Nat → Bool} {i : Nat} (h : ∀ j, j ≠ i → g j = f j) :
    ∀ xs : List Nat, xs.Nodup → (xs.filter g).length ≤ (xs.filter f).length + 1 ∧
      (i ∉ xs → (xs.filter g).length = (xs.filter f).length) ∧
      (i ∈ xs → f i = true → g i = false → (xs.filter g).length + 1 = (xs.filter f).length) := by
  intro xs
  induction xs with
  | nil => simp
  | cons x xs ih =>
    intro hn
    rw [List.nodup_cons] at hn
    obtain ⟨h1, h2, h3⟩ := ih hn.2
    by_cases hx : x = i
    · subst hx
      have h2' := h2 hn.1
      refine ⟨?_, fun hc => absurd List.mem_cons_self hc, fun _ hf hg => ?_⟩
      · rw [List.filter_cons, List.filter_cons]
        split <;> split <;> (try simp only [List.length_cons]) <;> omega
      · rw [List.filter_cons, List.filter_cons, hf, hg]
        simp; omega
    · have hgf := h x hx
      refine ⟨?_, fun hc => ?_, fun hi hf hg => ?_⟩
      · rw [List.filter_cons, List.filter_cons, hgf]
        split <;> (try simp only [List.length_cons]) <;> omega
      · have := h2 fun hc' => hc (List.mem_cons_of_mem _ hc')
        rw [List.filter_cons, List.filter_cons, hgf]
        split <;> (try simp only [List.length_cons]) <;> omega
      · have hi' : i ∈ xs := by
          rcases List.mem_cons.1 hi with h | h
          · exact absurd h.symm hx
          · exact h
        have := h3 hi' hf hg
        rw [List.filter_cons, List.filter_cons, hgf]
        split <;> (try simp only [List.length_cons]) <;> omega

theorem Bitmask.count_wbit_le (x : Bitmask) (i : Nat) (v : Bool) : (x.wbit i v).count ≤ x.count + 1 :=
  (filter_length_le_add_one (fun _ h => Bitmask.rbit_wbit_ne v h) (List.range x.n) List.nodup_range).1

theorem Bitmask.count_wbit_false {x : Bitmask} {i : Nat} (hi : i < x.n) (h : x.rbit i = true) :
    (x.wbit i false).count + 1 = x.count :=
  (filter_length_le_add_one (fun _ h => Bitmask.rbit_wbit_ne false h) (List.range x.n) List.nodup_range).2.2
    (List.mem_range.2 hi) h (Bitmask.rbit_wbit_false x i)

/-! ### The invariant within a sorting pass -/

/-- A set the engine makes: no extent is 0. -/
def CoefSet.Sound (n : Nat) (o : CoefSet) : Prop := o.nonEmpty = true ∧ n ≤ o.level

/-- Every set in a list is of the list's level, holds an element and is no pixel. -/
def SoundLis (lis : List (List CoefSet)) : Prop :=
  ∀ i, ∀ o ∈ lis.getD i [], o.level = i ∧ o.nonEmpty = true ∧ o.isPixel = false

/-- The elements that the lists hold. -/
def State.listed (s : State) : Nat := s.lip.count + s.wl.lsp.length + lisVolume s.wl.lis

/-- Inside a sorting pass: at most `c` bits are coded, at most `w` elements are listed, the lists below level `n` are as `low`
says, and TypeI stands at depth `k`. -/
structure Sorting (ext : Tri) (n : Nat) (low : Nat → List CoefSet) (k c w : Nat) (s : State) : Prop where
  bits : s.wl.nb ≤ c
  listed : s.listed ≤ w
  sound : SoundLis s.wl.lis
  shape : s.cm.ext = ext ∧ s.lip.n = ext.volume
  low : ∀ i < n, s.wl.lis.getD i [] = low i
  depth : s.wl.idepth = k

variable {ext : Tri} {n : Nat} {low : Nat → List CoefSet} {k c w T : Nat} {m : Mode}

theorem Sorting.mono {s : State} {c' w' : Nat} (h : Sorting ext n low k c w s) (hc : c ≤ c') (hw : w ≤ w') :
    Sorting ext n low k c' w' s :=
  ⟨Nat.le_trans h.bits hc, Nat.le_trans h.listed hw, h.sound, h.shape, h.low, h.depth⟩

theorem sorting_codeBit (d : State → Bool) {s : State} (h : Sorting ext n low k c w s) (ht : c ≤ T) :
    (codeBit m d s).Gives (fun _ => Sorting ext n low k (c + 1) w) (fun u => u.wl.nb ≤ T) := by
  have hg := codeBit_gives m d s
  cases hr : codeBit m d s with
  | done v u =>
    rw [hr] at hg
    obtain ⟨bs, rfl⟩ := hg
    exact ⟨Nat.succ_le_succ h.bits, h.listed, h.sound, h.shape, h.low, h.depth⟩
  | stop a u =>
    rw [hr] at hg
    obtain rfl := hg
    exact Nat.le_trans h.bits ht

theorem sorting_setMag {s : State} (h : Sorting ext n low k c w s) (i : Nat) (v : Word) :
    Sorting ext n low k c w (s.setMag i v) := ⟨h.bits, h.listed, h.sound, h.shape, h.low, h.depth⟩

theorem sorting_setSgn {s : State} (h : Sorting ext n low k c w s) (i : Nat) (v : Bool) :
    Sorting ext n low k c w (s.setSgn i v) := ⟨h.bits, h.listed, h.sound, h.shape, h.low, h.depth⟩

theorem sorting_setLip {s : State} (h : Sorting ext n low k c w s) (i : Nat) (v : Bool) :
    Sorting ext n low k c (w + 1) (s.setLip i v) := by
  refine ⟨h.bits, ?_, h.sound, h.shape, h.low, h.depth⟩
  have h1 := Bitmask.count_wbit_le s.lip i v
  have h2 := h.listed
  unfold State.listed at *
  show (s.lip.wbit i v).count + s.wl.lsp.length + lisVolume s.wl.lis ≤ w + 1
  omega

theorem sorting_pushLsp {s : State} (h : Sorting ext n low k c w s) (i : Nat) :
    Sorting ext n low k c (w + 1) (s.pushLsp i) := by
  refine ⟨h.bits, ?_, h.sound, h.shape, h.low, h.depth⟩
  have h2 := h.listed
  unfold State.listed at *
  show s.lip.count + (s.wl.lsp ++ [i]).length + lisVolume s.wl.lis ≤ w + 1
  rw [List.length_append, List.length_singleton]
  omega

/-- A set is appended to its own level's list. -/
theorem sorting_pushLis {s : State} (h : Sorting ext n low k c w s) {o : CoefSet} (ho : o.Sound n)
    (hp : o.isPixel = false) : Sorting ext n low k c (w + o.extent.volume) (s.pushLis o) := by
  by_cases hl : o.level < s.wl.lis.length
  · refine ⟨h.bits, ?_, fun i q hq => ?_, h.shape, fun i hi => ?_, h.depth⟩
    · have h1 := lisVolume_set (s.wl.lis.getD o.level [] ++ [o]) hl
      have h2 := h.listed
      unfold State.listed at *
      show s.lip.count + s.wl.lsp.length + lisVolume (s.wl.lis.set o.level (s.wl.lis.getD o.level [] ++ [o])) ≤ _
      rw [setsVolume_append, setsVolume_cons, setsVolume_nil] at h1
      unfold volAt at h1
      omega
    · change q ∈ (s.wl.lis.set o.level (s.wl.lis.getD o.level [] ++ [o])).getD i [] at hq
      by_cases hi : i = o.level
      · subst hi
        rw [getD_set_self _ hl, List.mem_append] at hq
        rcases hq with hq | hq
        · exact h.sound _ q hq
        · rw [List.mem_singleton] at hq; subst hq; exact ⟨rfl, ho.1, hp⟩
      · rw [getD_set_ne _ hi] at hq; exact h.sound i q hq
    · have := ho.2
      show (s.wl.lis.set o.level (s.wl.lis.getD o.level [] ++ [o])).getD i [] = low i
      rw [getD_set_ne _ (by omega)]; exact h.low i hi
  · have : s.pushLis o = s := by
      unfold State.pushLis; rw [set_of_length_le _ (by omega)]
    rw [this]
    exact h.mono (Nat.le_refl _) (Nat.le_add_right _ _)

/-- A pixel that is no listed one: at most two bits, and it becomes listed (R247). -/
theorem sorting_newPixel (idx : Nat) {s : State} (h : Sorting ext n low k c w s) (ht : c + 2 ≤ T) :
    (processPixel m false idx s).Gives (fun _ => Sorting ext n low k (c + 2) (w + 1)) (fun u => u.wl.nb ≤ T) := by
  refine Run.gives_andThen (sorting_codeBit _ h (by omega)) fun sig u hu => ?_
  cases sig with
  | true =>
    refine Run.gives_andThen (sorting_codeBit _ hu (by omega)) fun sign v hv => ?_
    cases m with
    | enc => exact sorting_pushLsp hv idx
    | dec => exact sorting_pushLsp (sorting_setSgn (sorting_setMag hv _ _) _ _) idx
  | false => exact (sorting_setLip hu idx true).mono (by omega) (by omega)

/-- The most bits that one offspring can take. -/
def setCost (o : CoefSet) : Nat := 3 * o.extent.volume - 1

/-- The most bits that a list of offspring can take. -/
def setsCost (l : List CoefSet) : Nat := (l.map setCost).sum

@[simp] theorem setsCost_cons (o : CoefSet) (l : List CoefSet) : setsCost (o :: l) = setCost o + setsCost l := by
  simp [setsCost]

theorem setsCost_add_length {l : List CoefSet} (h : ∀ o ∈ l, o.nonEmpty = true) :
    setsCost l + l.length = 3 * setsVolume l := by
  induction l with
  | nil => rfl
  | cons o l ih =>
    have h1 := ih fun q hq => h q (List.mem_cons_of_mem _ hq)
    have h2 := CoefSet.volume_pos (h o List.mem_cons_self)
    rw [setsCost_cons, setsVolume_cons, List.length_cons]
    unfold setCost
    omega

/-- What `process_set` may cost, whatever its depth bound (R249). -/
def SetBound (T : Nat) (process : CoefSet → State → Run Bool) : Prop :=
  ∀ (ext : Tri) (n : Nat) (low : Nat → List CoefSet) (k c w : Nat) (o : CoefSet) (s : State),
    o.nonEmpty = true → o.isPixel = false → n ≤ o.level + 1 → Sorting ext n low k c w s → c + setCost o ≤ T →
    (process o s).Gives
      (fun sig => Sorting ext n low k (c + setCost o) (if sig then w + o.extent.volume else w)) (fun u => u.wl.nb ≤ T)

theorem sorting_offspring {process : CoefSet → State → Run Bool} (hp : SetBound T process) {o : CoefSet}
    (ho : o.Sound n) {s : State} (h : Sorting ext n low k c w s) (ht : c + setCost o ≤ T) :
    (processOffspring m process o s).Gives (fun _ => Sorting ext n low k (c + setCost o) (w + o.extent.volume))
      (fun u => u.wl.nb ≤ T) := by
  unfold processOffspring
  by_cases hpx : o.isPixel = true
  · rw [if_pos hpx]
    obtain ⟨h1, h2, h3⟩ := (CoefSet.isPixel_iff o).1 hpx
    have hv : o.extent.volume = 1 := by unfold Tri.volume; rw [h1, h2, h3]
    have hcost : setCost o = 2 := by unfold setCost; rw [hv]
    rw [hcost] at ht ⊢
    rw [hv]
    exact sorting_newPixel _ h ht
  · rw [if_neg hpx]
    have hpx' : o.isPixel = false := by simpa using hpx
    refine Run.gives_andThen (hp ext n low k c w o s ho.1 hpx' (by have := ho.2; omega) h ht) fun sig u hu => ?_
    cases sig with
    | true => exact hu
    | false => exact sorting_pushLis hu ho hpx'

theorem sorting_offsprings {process : CoefSet → State → Run Bool} (hp : SetBound T process) {l : List CoefSet}
    (hl : ∀ o ∈ l, o.Sound n) {s : State} (h : Sorting ext n low k c w s) (ht : c + setsCost l ≤ T) :
    (forEach (processOffspring m process) l s).Gives
      (fun _ => Sorting ext n low k (c + setsCost l) (w + setsVolume l)) (fun u => u.wl.nb ≤ T) := by
  induction l generalizing s c w with
  | nil => exact h
  | cons o l ih =>
    rw [setsCost_cons] at ht
    refine Run.gives_andThen (sorting_offspring hp (hl o List.mem_cons_self) h (by omega)) fun _ u hu => ?_
    refine Run.gives_mono (ih (fun q hq => hl q (List.mem_cons_of_mem _ hq)) hu (by omega)) fun _ v hv => ?_
    exact hv.mono (by rw [setsCost_cons]; omega) (by rw [setsVolume_cons]; omega)

theorem setBound_processSet (depth : Nat) : SetBound T (processSet m depth) := by
  induction depth with
  | zero =>
    intro ext n low k c w o s _ _ _ h _
    exact h.mono (Nat.le_add_right _ _) (Nat.le_refl _)
  | succ depth ih =>
    intro ext n low k c w o s hne hpx hlev h ht
    have hsound : ∀ q ∈ splitS o, q.Sound n := fun q hq => by
      obtain ⟨h1, b, -, rfl⟩ := (mem_splitS o q).1 hq
      exact ⟨h1, hlev⟩
    have h1 := setsCost_add_length fun q hq => (hsound q hq).1
    rw [setsVolume_splitS] at h1
    have h2 := two_le_length_splitS hne hpx
    have h3 : 1 + setsCost (splitS o) ≤ setCost o := by unfold setCost; omega
    refine Run.gives_andThen (sorting_codeBit _ h (by omega)) fun sig u hu => ?_
    cases sig with
    | false => exact hu.mono (by omega) (Nat.le_refl _)
    | true =>
      refine Run.gives_andThen (sorting_offsprings ih hsound hu (by omega)) fun _ v hv => ?_
      exact hv.mono (by omega) (by rw [setsVolume_splitS]; exact Nat.le_refl _)

/-! ### The pass over the lists of sets (R248) -/

theorem sorting_lisOne (level : Nat) {o : CoefSet} (ho : o.level = level ∧ o.nonEmpty = true ∧ o.isPixel = false)
    {s : State} (h : Sorting ext level low k c w s) (ht : c + setCost o ≤ T) :
    (lisOne m level o s).Gives (fun _ => Sorting ext level low k (c + setCost o) (w + o.extent.volume))
      (fun u => u.wl.nb ≤ T) := by
  obtain ⟨hl, hne, hpx⟩ := ho
  refine Run.gives_andThen (setBound_processSet _ ext level low k c w o s hne hpx (by omega) h ht) fun sig u hu => ?_
  cases sig with
  | true => exact hu
  | false =>
    have := sorting_pushLis (o := o) hu ⟨hne, by omega⟩ hpx
    unfold State.pushLis at this
    rw [hl] at this
    exact this

theorem sorting_lisItems (level : Nat) {l : List CoefSet}
    (hl : ∀ o ∈ l, o.level = level ∧ o.nonEmpty = true ∧ o.isPixel = false) {s : State}
    (h : Sorting ext level low k c w s) (ht : c + setsCost l ≤ T) :
    (forEach (lisOne m level) l s).Gives (fun _ => Sorting ext level low k (c + setsCost l) (w + setsVolume l))
      (fun u => u.wl.nb ≤ T) := by
  induction l generalizing s c w with
  | nil => exact h
  | cons o l ih =>
    rw [setsCost_cons] at ht
    refine Run.gives_andThen (sorting_lisOne level (hl o List.mem_cons_self) h (by omega)) fun _ u hu => ?_
    refine Run.gives_mono (ih (fun q hq => hl q (List.mem_cons_of_mem _ hq)) hu (by omega)) fun _ v hv => ?_
    exact hv.mono (by rw [setsCost_cons]; omega) (by rw [setsVolume_cons]; omega)

theorem sorting_lisLevel (level : Nat) {s : State} (h : Sorting ext level low k c w s)
    (ht : c + 3 * volAt s.wl.lis level ≤ T) :
    (lisLevel m level s).Gives (fun _ => Sorting ext level low k (c + 3 * volAt s.wl.lis level) w)
      (fun u => u.wl.nb ≤ T) := by
  have hs := h.sound level
  have hcost := setsCost_add_length fun o ho => (hs o ho).2.1
  have hle : volAt s.wl.lis level ≤ w := by
    have h1 := volBelow_le s.wl.lis (level + 1)
    have h2 := h.listed
    rw [volBelow] at h1
    unfold State.listed at h2
    omega
  have hc : Sorting ext level low k c (w - volAt s.wl.lis level) (s.clearLis level) := by
    by_cases hl : level < s.wl.lis.length
    · refine ⟨h.bits, ?_, fun i q hq => ?_, h.shape, fun i hi => ?_, h.depth⟩
      · have h1 := lisVolume_set [] hl
        have h2 := h.listed
        unfold State.listed at *
        show s.lip.count + s.wl.lsp.length + lisVolume (s.wl.lis.set level []) ≤ _
        rw [setsVolume_nil] at h1
        omega
      · change q ∈ (s.wl.lis.set level []).getD i [] at hq
        by_cases hi : i = level
        · subst hi; rw [getD_set_self _ hl] at hq; cases hq
        · rw [getD_set_ne _ hi] at hq; exact h.sound i q hq
      · show (s.wl.lis.set level []).getD i [] = low i
        rw [getD_set_ne _ (by omega)]; exact h.low i hi
    · have e1 : s.clearLis level = s := by unfold State.clearLis; rw [set_of_length_le _ (by omega)]
      have e2 : volAt s.wl.lis level = 0 := by
        unfold volAt; rw [List.getD_eq_default _ _ (by omega)]; rfl
      rw [e1, e2]; exact h
  unfold volAt at *
  refine Run.gives_mono (sorting_lisItems level hs hc (by omega)) fun _ u hu => hu.mono (by omega) (by omega)

theorem sorting_lisLevels (levels : Nat) {s : State} (h : Sorting ext 0 low k c w s)
    (ht : c + 3 * volBelow s.wl.lis levels ≤ T) :
    (lisLevels m levels s).Gives (fun _ => Sorting ext 0 low k (c + 3 * volBelow s.wl.lis levels) w)
      (fun u => u.wl.nb ≤ T) := by
  induction levels generalizing s c with
  | zero => exact h
  | succ levels ih =>
    rw [volBelow] at ht ⊢
    have h' : Sorting ext levels (fun i => s.wl.lis.getD i []) k c w s :=
      ⟨h.bits, h.listed, h.sound, h.shape, fun _ _ => rfl, h.depth⟩
    refine Run.gives_andThen (sorting_lisLevel levels h' (by omega)) fun _ u hu => ?_
    have hv := volBelow_congr hu.low
    have hu' : Sorting ext 0 low k (c + 3 * volAt s.wl.lis levels) w u :=
      ⟨hu.bits, hu.listed, hu.sound, hu.shape, fun i hi => absurd hi (Nat.not_lt_zero i), hu.depth⟩
    refine Run.gives_mono (ih hu' (by omega)) fun _ v hv' => hv'.mono (by omega) (Nat.le_refl _)

/-! ### The pass over TypeI (R250) -/

/-- The elements TypeI holds at depth `k`. -/
def typeIVolume (ext : Tri) (k : Nat) : Nat := ext.volume - (halving ext k).volume

theorem typeIVolume_succ (ext : Tri) (k : Nat) :
    typeIVolume ext (k + 1) = typeIVolume ext k + setsVolume (splitI ext (k + 1)) := by
  have h1 := setsVolume_splitI ext k
  have h2 : ∀ k, (halving ext k).volume ≤ ext.volume := by
    intro k
    induction k with
    | zero => exact Nat.le_refl _
    | succ k ih => exact Nat.le_trans (volume_halving_le ext k) ih
  have := h2 k
  unfold typeIVolume
  omega

theorem sorting_typeIPassAt (hpos : 1 ≤ ext.x ∧ 1 ≤ ext.y ∧ 1 ≤ ext.z) (k : Nat) (hk : k ≤ rootDepth ext) {s : State}
    (h : Sorting ext 0 low k c w s) (ht : c + 3 * typeIVolume ext k + 1 ≤ T) :
    (typeIPassAt m k s).Gives (fun _ u => ∃ k' w', k' ≤ k ∧ w' + typeIVolume ext k' = w + typeIVolume ext k ∧
      Sorting ext 0 low k' (c + 3 * typeIVolume ext k + 1) w' u) (fun u => u.wl.nb ≤ T) := by
  induction k generalizing s c w with
  | zero => exact ⟨0, w, Nat.le_refl _, rfl, h.mono (by omega) (Nat.le_refl _)⟩
  | succ k ih =>
    have hsound : ∀ q ∈ splitI ext (k + 1), q.Sound 0 := fun q hq => by
      obtain ⟨h1, b, -, -, rfl⟩ := (mem_splitI ext (k + 1) q).1 hq
      exact ⟨h1, Nat.zero_le _⟩
    have h1 := setsCost_add_length fun q hq => (hsound q hq).1
    have hgain := volume_halving_lt hpos.1 hpos.2.1 hpos.2.2 (k := k) (by omega)
    have hsum := setsVolume_splitI ext k
    have hlen : 1 ≤ (splitI ext (k + 1)).length := by
      cases hl : splitI ext (k + 1) with
      | nil => rw [hl] at hsum; simp at hsum; omega
      | cons => simp
    have hv := typeIVolume_succ ext k
    refine Run.gives_andThen (sorting_codeBit _ h (by omega)) fun sig u hu => ?_
    cases sig with
    | false => exact ⟨k + 1, w, Nat.le_refl _, rfl, hu.mono (by omega) (Nat.le_refl _)⟩
    | true =>
      have hu' : Sorting ext 0 low k (c + 1) w (u.setIdepth k) :=
        ⟨hu.bits, hu.listed, hu.sound, hu.shape, hu.low, rfl⟩
      show ((forEach (processOffspring m (processSet m u.wl.k)) (splitI u.cm.ext (k + 1)) (u.setIdepth k)).andThen
        fun _ s => typeIPassAt m k s).Gives _ _
      rw [hu.shape.1]
      refine Run.gives_andThen (sorting_offsprings (setBound_processSet u.wl.k) hsound hu' (by omega)) fun _ v hv' => ?_
      refine Run.gives_mono (ih (by omega) hv' (by omega)) fun _ x hx => ?_
      obtain ⟨k', w', hk', hw', hx⟩ := hx
      exact ⟨k', w', by omega, by omega, hx.mono (by omega) (Nat.le_refl _)⟩

/-! ### The refinement pass and the pass over the LIP (R245, R246) -/

/-- At most `c` bits are coded, and the lists are those of `s`. -/
structure SameLists (c : Nat) (s u : State) : Prop where
  bits : u.wl.nb ≤ c
  lip : u.lip = s.lip
  lsp : u.wl.lsp = s.wl.lsp
  lis : u.wl.lis = s.wl.lis
  depth : u.wl.idepth = s.wl.idepth
  ext : u.cm.ext = s.cm.ext

theorem sameLists_refine (s : State) (l : List Nat) {u : State} (h : SameLists c s u) (ht : c + l.length ≤ T) :
    (forEach (refineOne m) l u).Gives (fun _ => SameLists (c + l.length) s) (fun u => u.wl.nb ≤ T) := by
  induction l generalizing u c with
  | nil => exact h
  | cons x l ih =>
    rw [List.length_cons] at ht
    have step : (refineOne m x u).Gives (fun _ => SameLists (c + 1) s) (fun u => u.wl.nb ≤ T) := by
      unfold refineOne
      refine Run.gives_andThen (P := fun _ => SameLists (c + 1) s) ?_ fun bit v hv => ?_
      · have hg := codeBit_gives m (fun s => (s.cm.mag.getD x 0).getLsbD s.wl.p) u
        cases hr : codeBit m (fun s => (s.cm.mag.getD x 0).getLsbD s.wl.p) u with
        | done v g =>
          rw [hr] at hg
          obtain ⟨bs, rfl⟩ := hg
          exact ⟨Nat.succ_le_succ h.bits, h.lip, h.lsp, h.lis, h.depth, h.ext⟩
        | stop a g =>
          rw [hr] at hg
          obtain rfl := hg
          exact Nat.le_trans h.bits (by omega)
      · cases m with
        | enc => exact hv
        | dec =>
          cases bit with
          | false => exact hv
          | true => exact ⟨hv.bits, hv.lip, hv.lsp, hv.lis, hv.depth, hv.ext⟩
    refine Run.gives_andThen step fun _ v hv => ?_
    have := ih hv (by omega)
    rw [List.length_cons]
    rw [show c + (l.length + 1) = c + 1 + l.length by omega]
    exact this

/-- The pass over the LIP: at most two bits for each element flagged at its start, and no element is listed twice for it. -/
theorem flagging_pass (s : State) (xs : List Nat) (hn : xs.Nodup) (hx : ∀ i ∈ xs, i < s.lip.n) {u : State}
    (hb : u.wl.nb + 2 * (xs.filter u.lip.rbit).length ≤ c) (hc : u.lip.count + u.wl.lsp.length ≤ w)
    (hs : u.lip.n = s.lip.n) (hl : u.wl.lis = s.wl.lis) (hd : u.wl.idepth = s.wl.idepth) (he : u.cm.ext = s.cm.ext)
    (ht : c ≤ T) :
    (forEach (fun idx s => if s.lip.rbit idx then processPixel m true idx s else .done () s) xs u).Gives
      (fun _ v => v.wl.nb ≤ c ∧ v.lip.count + v.wl.lsp.length ≤ w ∧ v.lip.n = s.lip.n ∧ v.wl.lis = s.wl.lis ∧
        v.wl.idepth = s.wl.idepth ∧ v.cm.ext = s.cm.ext) (fun v => v.wl.nb ≤ T) := by
  induction xs generalizing u with
  | nil => exact ⟨by simpa using hb, hc, hs, hl, hd, he⟩
  | cons x xs ih =>
    rw [List.nodup_cons] at hn
    have hx' : ∀ i ∈ xs, i < s.lip.n := fun i hi => hx i (List.mem_cons_of_mem _ hi)
    refine Run.gives_andThen (P := fun _ v => v.wl.nb + 2 * (xs.filter v.lip.rbit).length ≤ c ∧
      v.lip.count + v.wl.lsp.length ≤ w ∧ v.lip.n = s.lip.n ∧ v.wl.lis = s.wl.lis ∧ v.wl.idepth = s.wl.idepth ∧
      v.cm.ext = s.cm.ext) ?_ fun _ v hv => ih hn.2 hx' hv.1 hv.2.1 hv.2.2.1 hv.2.2.2.1 hv.2.2.2.2.1 hv.2.2.2.2.2
    show (if u.lip.rbit x then processPixel m true x u else .done () u).Gives _ _
    by_cases hbit : u.lip.rbit x = true
    · rw [if_pos hbit]
      rw [List.filter_cons_of_pos hbit, List.length_cons] at hb
      have hg := codeBit_gives m (fun s => decide (2 ^ s.wl.p ≤ (s.cm.mag.getD x 0).toNat)) u
      unfold processPixel
      cases hr : codeBit m (fun s => decide (2 ^ s.wl.p ≤ (s.cm.mag.getD x 0).toNat)) u with
      | stop a g =>
        rw [hr] at hg
        obtain rfl := hg
        show g.wl.nb ≤ T
        omega
      | done sig g =>
        rw [hr] at hg
        obtain ⟨bs, rfl⟩ := hg
        cases sig with
        | false =>
          show u.wl.nb + 1 + 2 * (xs.filter u.lip.rbit).length ≤ c ∧ _
          exact ⟨by omega, hc, hs, hl, hd, he⟩
        | true =>
          simp only [Run.andThen, if_true]
          have hg2 := codeBit_gives m (fun s => s.cm.sgn.getD x true)
            { u with bs := bs, wl := { u.wl with nb := u.wl.nb + 1 } }
          cases hr2 : codeBit m (fun s => s.cm.sgn.getD x true) { u with bs := bs, wl := { u.wl with nb := u.wl.nb + 1 } } with
          | stop a g =>
            rw [hr2] at hg2
            obtain rfl := hg2
            show u.wl.nb + 1 ≤ T
            omega
          | done sign g =>
            rw [hr2] at hg2
            obtain ⟨bs', rfl⟩ := hg2
            have h1 := Bitmask.count_wbit_false (x := u.lip) (i := x) (by rw [hs]; exact hx x List.mem_cons_self) hbit
            have h2 : (xs.filter (u.lip.wbit x false).rbit).length = (xs.filter u.lip.rbit).length :=
              (filter_length_le_add_one (fun _ h => Bitmask.rbit_wbit_ne false h) xs hn.2).2.1 hn.1
            have fin : u.wl.nb + 1 + 1 + 2 * (xs.filter (u.lip.wbit x false).rbit).length ≤ c ∧
                (u.lip.wbit x false).count + (u.wl.lsp ++ [x]).length ≤ w ∧ (u.lip.wbit x false).n = s.lip.n ∧
                u.wl.lis = s.wl.lis ∧ u.wl.idepth = s.wl.idepth ∧ u.cm.ext = s.cm.ext :=
              ⟨by rw [h2]; omega, by rw [List.length_append, List.length_singleton]; omega, hs, hl, hd, he⟩
            cases m with
            | enc => exact fin
            | dec => exact fin
    · rw [if_neg hbit]
      rw [List.filter_cons_of_neg hbit] at hb
      exact ⟨hb, hc, hs, hl, hd, he⟩

/-! ### Bitplanes -/

/-- Between bitplanes: at most `c` bits are coded, and the worklists hold each of the `ext.volume` elements at most once. -/
structure BetweenPlanes (ext : Tri) (c : Nat) (s : State) : Prop where
  bits : s.wl.nb ≤ c
  depth : s.wl.idepth ≤ rootDepth ext
  held : s.listed + typeIVolume ext s.wl.idepth ≤ ext.volume
  sound : SoundLis s.wl.lis
  shape : s.cm.ext = ext ∧ s.lip.n = ext.volume

theorem betweenPlanes_plane (hpos : 1 ≤ ext.x ∧ 1 ≤ ext.y ∧ 1 ≤ ext.z) (p : Nat) {s : State}
    (h : BetweenPlanes ext c s) (ht : c + (3 * ext.volume + 1) ≤ T) :
    (plane m p s).Gives (fun _ => BetweenPlanes ext (c + (3 * ext.volume + 1))) (fun u => u.wl.nb ≤ T) := by
  have hheld := h.held
  unfold State.listed at hheld
  have href : SameLists c s (s.setPlane p) := ⟨h.bits, rfl, rfl, rfl, rfl, rfl⟩
  refine Run.gives_andThen (sameLists_refine s (s.setPlane p).wl.lsp href ?_) fun _ u hu => ?_
  · show c + s.wl.lsp.length ≤ T
    omega
  have hlsp : (s.setPlane p).wl.lsp.length = s.wl.lsp.length := rfl
  rw [hlsp] at hu
  have hn : u.cm.n = s.lip.n := by
    rw [h.shape.2, ← h.shape.1, ← hu.ext]; rfl
  have hcount : ((List.range u.cm.n).filter u.lip.rbit).length = s.lip.count := by
    rw [hn, hu.lip]; rfl
  refine Run.gives_andThen (flagging_pass (c := c + s.wl.lsp.length + 2 * s.lip.count)
    (w := s.lip.count + s.wl.lsp.length) s (List.range u.cm.n) List.nodup_range
    (fun i hi => by rw [← hn]; exact List.mem_range.1 hi) (by have := hu.bits; omega)
    (by rw [hu.lip, hu.lsp]) (by rw [hu.lip]) hu.lis hu.depth hu.ext (by omega)) fun _ v hv => ?_
  obtain ⟨v1, v2, v3, v4, v5, v6⟩ := hv
  have hs : Sorting ext 0 (fun _ => []) s.wl.idepth (c + s.wl.lsp.length + 2 * s.lip.count)
      (s.lip.count + s.wl.lsp.length + lisVolume s.wl.lis) v :=
    ⟨v1, by unfold State.listed; rw [v4]; omega, by rw [v4]; exact h.sound, ⟨v6.trans h.shape.1, v3.trans h.shape.2⟩,
      fun i hi => absurd hi (Nat.not_lt_zero i), v5⟩
  have hb := volBelow_le v.wl.lis (v.wl.k + 1)
  rw [v4] at hb
  refine Run.gives_andThen (sorting_lisLevels (v.wl.k + 1) hs (by rw [v4]; omega)) fun _ x hx => ?_
  rw [v4] at hx
  show (typeIPassAt m x.wl.idepth x).Gives _ _
  rw [hx.depth]
  refine Run.gives_mono (sorting_typeIPassAt hpos s.wl.idepth h.depth hx (by omega)) fun _ y hy => ?_
  obtain ⟨k', w', hk', hw', hy⟩ := hy
  refine ⟨Nat.le_trans hy.bits (by omega), ?_, ?_, hy.sound, hy.shape⟩
  · rw [hy.depth]; have := h.depth; omega
  · rw [hy.depth]; have := hy.listed; omega

theorem betweenPlanes_planes (hpos : 1 ≤ ext.x ∧ 1 ≤ ext.y ∧ 1 ≤ ext.z) (planes' : Nat) {s : State}
    (h : BetweenPlanes ext c s) (ht : c + planes' * (3 * ext.volume + 1) ≤ T) :
    (planes m planes' s).Gives (fun _ => BetweenPlanes ext (c + planes' * (3 * ext.volume + 1)))
      (fun u => u.wl.nb ≤ T) := by
  induction planes' generalizing s c with
  | zero => rw [Nat.zero_mul]; exact h
  | succ p ih =>
    rw [Nat.add_mul, Nat.one_mul] at ht ⊢
    refine Run.gives_andThen (betweenPlanes_plane hpos p h (by omega)) fun _ u hu => ?_
    rw [show c + (p * (3 * ext.volume + 1) + (3 * ext.volume + 1)) =
      c + (3 * ext.volume + 1) + p * (3 * ext.volume + 1) by omega]
    exact ih hu (by omega)

/-- The worklists at the start of a run hold the root pixel, and TypeI the rest (R242). -/
theorem betweenPlanes_init (m : Mode) (budget : Word) {s : State} (hn : 1 ≤ s.cm.n) :
    BetweenPlanes s.cm.ext 0 (speckInit m budget s) := by
  have hvol : s.cm.n = s.cm.ext.volume := rfl
  have hx : 1 ≤ s.cm.ext.x ∧ 1 ≤ s.cm.ext.y ∧ 1 ≤ s.cm.ext.z := by
    have h : 0 < s.cm.ext.x * s.cm.ext.y * s.cm.ext.z := hn
    exact ⟨Nat.pos_of_mul_pos_right (Nat.pos_of_mul_pos_right h), Nat.pos_of_mul_pos_left (Nat.pos_of_mul_pos_right h),
      Nat.pos_of_mul_pos_left h⟩
  have hlis : ∀ d i, (List.replicate (d + 1) ([] : List CoefSet)).getD i [] = [] := by
    intro d i
    rw [List.getD_eq_getElem?_getD, List.getElem?_replicate]
    split <;> rfl
  have hempty : lisVolume (List.replicate (rootDepth s.cm.ext + 1) []) = 0 := by
    simp [lisVolume]
  have hres := Bitmask.resize_spec (Bitmask.wf_empty 0) s.cm.n
  have hz : ((s.lip.resize 0).resize s.cm.n).count = 0 := by
    rw [Bitmask.resize_zero]
    unfold Bitmask.count
    rw [List.length_eq_zero_iff, List.filter_eq_nil_iff]
    intro i hi
    rw [List.mem_range, hres.1] at hi
    have := maskWords_ge s.cm.n
    rw [hres.2.2 i (by omega), if_pos ⟨Nat.zero_le _, hi⟩]
    simp
  have hcount : (speckInit m budget s).lip.count ≤ 1 := by
    have := Bitmask.count_wbit_le ((s.lip.resize 0).resize s.cm.n) 0 true
    rw [hz] at this
    exact this
  have hext : (speckInit m budget s).cm.ext = s.cm.ext := by cases m <;> rfl
  refine ⟨Nat.le_refl _, Nat.le_refl _, ?_, fun i o ho => ?_, hext, ?_⟩
  · have h1 := volume_halving_rootDepth hx.1 hx.2.1 hx.2.2
    have h2 : (speckInit m budget s).listed ≤ 1 := by
      unfold State.listed
      show (speckInit m budget s).lip.count + 0 + lisVolume (List.replicate (rootDepth s.cm.ext + 1) []) ≤ 1
      omega
    show (speckInit m budget s).listed + typeIVolume s.cm.ext (rootDepth s.cm.ext) ≤ _
    unfold typeIVolume
    rw [h1]
    omega
  · change o ∈ (List.replicate (rootDepth s.cm.ext + 1) ([] : List CoefSet)).getD i [] at ho
    rw [hlis] at ho
    cases ho
  · show ((s.lip.resize 0).resize s.cm.n).n = _
    rw [Bitmask.resize_zero]
    exact hres.1

/-- A run codes at most `3n + 1` bits in each bitplane, on whatever outcome (R243, R244; 43 R223). -/
theorem speckRun_bits_le (m : Mode) (budget : Word) (maxbits : Nat) {s : State} (hn : 1 ≤ s.cm.n) :
    (speckRun m budget maxbits s).2.1 ≤ codedAtMost s.cm.n maxbits := by
  have hx : 1 ≤ s.cm.ext.x ∧ 1 ≤ s.cm.ext.y ∧ 1 ≤ s.cm.ext.z := by
    have h : 0 < s.cm.ext.x * s.cm.ext.y * s.cm.ext.z := hn
    exact ⟨Nat.pos_of_mul_pos_right (Nat.pos_of_mul_pos_right h), Nat.pos_of_mul_pos_left (Nat.pos_of_mul_pos_right h),
      Nat.pos_of_mul_pos_left h⟩
  have hp := betweenPlanes_planes (m := m) (T := codedAtMost s.cm.n maxbits) hx (maxbits + 1)
    (betweenPlanes_init m budget hn) (by rw [Nat.zero_add]; exact Nat.le_refl _)
  rw [Nat.zero_add] at hp
  rcases speckRun_cases m budget maxbits s with ⟨u, h1, h2⟩ | ⟨a, u, h1, h2⟩
  · rw [h1] at hp; rw [h2]; exact hp.bits
  · rw [h1] at hp; rw [h2]; exact hp

end Sys2Proof.Machine
end

