-- ==== Sys2Proof/Laws/EngineLock.lean ====
section
/-! SUPPORT. Two runs of the SPECK engine in one mode, side by side: they differ in the stream and the budget only, since
nothing else decides what is coded (44_speck_engine.md R243 to R250, R255). A relation that each coded bit keeps is kept by
the whole run. -/

namespace Sys2Proof.Machine

/-- What coding a bit reads and writes: the stream, the bits coded so far, the budget and the parameters (R243). -/
structure Coding where
  bs : BitStream
  nb : Nat
  b : Word
  cfg : Params

/-- The coding part of a state. -/
def State.coding (s : State) : Coding := ⟨s.bs, s.wl.nb, s.wl.b, s.cfg⟩

/-- A state with another stream and another count of coded bits. -/
def State.withCoding (s : State) (c : Coding) : State := { s with bs := c.bs, wl := { s.wl with nb := c.nb } }

/-- What coding one bit answers: the status of a stop, or the bit and what follows (R243). -/
inductive Coded where
  | bit (v : Bool) (c : Coding)
  | stop (a : Status)

/-- Code one bit; the decoder does not read `v`. -/
def Coding.code (m : Mode) (v : Bool) (c : Coding) : Coded :=
  if c.nb = c.b.toNat then .stop .ok
  else
    match m with
    | .enc =>
      match c.bs.put c.cfg.maxWords v with
      | none => .stop .alloc
      | some bs => .bit v { c with bs := bs, nb := c.nb + 1 }
    | .dec =>
      if c.bs.rpos ≥ c.bs.blen then .stop .dataShort
      else .bit (c.bs.getbit c.bs.rpos) { c with bs := { c.bs with rpos := c.bs.rpos + 1 }, nb := c.nb + 1 }

/-- `codeBit` is `Coding.code` on the coding part of the state. -/
theorem codeBit_eq (m : Mode) (d : State → Bool) (s : State) :
    codeBit m d s = match s.coding.code m (d s) with
      | .bit v c => .done v (s.withCoding c)
      | .stop a => .stop a s := by
  cases m with
  | enc =>
    unfold codeBit emit Coding.code State.coding
    dsimp only
    by_cases hb : s.wl.nb = s.wl.b.toNat
    · rw [if_pos hb, if_pos hb]; rfl
    · rw [if_neg hb, if_neg hb]
      cases s.bs.put s.cfg.maxWords (d s) <;> rfl
  | dec =>
    unfold codeBit Sys2Proof.Machine.take Coding.code State.coding
    dsimp only
    by_cases hb : s.wl.nb = s.wl.b.toNat
    · rw [if_pos hb, if_pos hb]
    · rw [if_neg hb, if_neg hb]
      by_cases hr : s.bs.rpos ≥ s.bs.blen
      · rw [if_pos hr, if_pos hr]
      · rw [if_neg hr, if_neg hr]; rfl

/-- Two states that differ at most in their coding part and outside the engine. -/
structure SameEngine (s u : State) : Prop where
  lip : u.lip = s.lip
  cm : u.cm = s.cm
  k : u.wl.k = s.wl.k
  lis : u.wl.lis = s.wl.lis
  lsp : u.wl.lsp = s.wl.lsp
  idepth : u.wl.idepth = s.wl.idepth
  p : u.wl.p = s.wl.p

/-- How two runs, a first and a second, may stand to each other. -/
structure LockRel where
  /-- Both go on, alike. -/
  both : Coding → Coding → Prop
  /-- Both stopped at the same bit, the first and the second with these statuses. -/
  stopped : Status → Coding → Status → Coding → Prop
  /-- The second has stopped, and the first goes on. -/
  ahead : Status → Coding → Coding → Prop
  /-- The second stopped earlier than the first. -/
  later : Status → Coding → Status → Coding → Prop
  /-- The first goes on, and the second no longer matters. -/
  free : Coding → Prop
  /-- The first has stopped, where the second no longer matters. -/
  freeStop : Status → Coding → Prop

/-- Each coded bit keeps the relation. -/
structure LockRel.Kept (L : LockRel) (m : Mode) : Prop where
  both : ∀ c d v, L.both c d →
    match c.code m v, d.code m v with
    | .bit x c', .bit y d' => (x = y ∧ L.both c' d') ∨ L.free c'
    | .bit _ c', .stop a => L.ahead a d c' ∨ L.free c'
    | .stop a, .stop a' => L.stopped a c a' d ∨ L.freeStop a c
    | .stop a, .bit _ _ => L.freeStop a c
  ahead : ∀ a d c v, L.ahead a d c →
    match c.code m v with
    | .bit _ c' => L.ahead a d c'
    | .stop a' => L.later a' c a d
  free : ∀ c v, L.free c →
    match c.code m v with
    | .bit _ c' => L.free c'
    | .stop a => L.freeStop a c

/-- Two states side by side, both going on. -/
def LockRel.Lock (L : LockRel) (s u : State) : Prop := SameEngine s u ∧ L.both s.coding u.coding

/-- The outcomes of two pieces side by side. -/
def LockRel.Locked (L : LockRel) {α : Type} : Run α → Run α → Prop
  | .done v s, .done v' u => (v = v' ∧ L.Lock s u) ∨ L.free s.coding
  | .done _ s, .stop a u => L.ahead a u.coding s.coding ∨ L.free s.coding
  | .stop a s, .stop a' u => (SameEngine s u ∧ L.stopped a s.coding a' u.coding) ∨
      L.later a s.coding a' u.coding ∨ L.freeStop a s.coding
  | .stop a s, .done _ _ => L.freeStop a s.coding

variable {L : LockRel} {m : Mode}

theorem free_keeps (h : L.Kept m) :
    EngineKeeps m (fun s => L.free s.coding) fun a s => L.freeStop a s.coding where
  budget s hs hb := by
    have := h.free s.coding false hs
    unfold Coding.code at this
    rw [if_pos (show s.coding.nb = s.coding.b.toNat from hb)] at this
    exact this
  put hm s bit bs hs hb hp := by
    subst hm
    have := h.free s.coding bit hs
    unfold Coding.code at this
    rw [if_neg (show ¬ s.coding.nb = s.coding.b.toNat from hb)] at this
    simp only [show s.coding.bs.put s.coding.cfg.maxWords bit = some bs from hp] at this
    exact this
  full hm s bit hs hb hp := by
    subst hm
    have := h.free s.coding bit hs
    unfold Coding.code at this
    rw [if_neg (show ¬ s.coding.nb = s.coding.b.toNat from hb)] at this
    simp only [show s.coding.bs.put s.coding.cfg.maxWords bit = none from hp] at this
    exact this
  take hm s hs hb hr := by
    subst hm
    have := h.free s.coding false hs
    unfold Coding.code at this
    rw [if_neg (show ¬ s.coding.nb = s.coding.b.toNat from hb)] at this
    simp only [if_neg (show ¬ s.coding.bs.rpos ≥ s.coding.bs.blen from Nat.not_le.2 hr)] at this
    exact this
  short hm s hs hb hr := by
    subst hm
    have := h.free s.coding false hs
    unfold Coding.code at this
    rw [if_neg (show ¬ s.coding.nb = s.coding.b.toNat from hb)] at this
    simp only [if_pos (show s.coding.bs.rpos ≥ s.coding.bs.blen from hr)] at this
    exact this
  setMag _ _ _ _ hs := hs
  setSgn _ _ _ _ hs := hs
  setLip _ _ _ hs := hs
  pushLsp _ _ hs := hs
  setLis _ _ hs := hs
  setIdepth _ _ hs := hs
  setPlane _ _ hs := hs

theorem ahead_keeps (h : L.Kept m) (a : Status) (d : Coding) :
    EngineKeeps m (fun s => L.ahead a d s.coding) fun a' s => L.later a' s.coding a d :=
  free_keeps (L := { L with free := L.ahead a d, freeStop := fun a' c => L.later a' c a d, both := fun _ _ => False })
    { both := fun _ _ _ h => h.elim
      ahead := h.ahead
      free := fun c v hc => h.ahead a d c v hc }

theorem locked_andThen {α β : Type} (h : L.Kept m) {r r' : Run α} {next next' : α → State → Run β}
    (hr : L.Locked r r') (hn : ∀ v s u, L.Lock s u → L.Locked (next v s) (next' v u))
    (hk : ∀ (P : State → Prop) (Q : Status → State → Prop), EngineKeeps m P Q → ∀ v s, P s → (next v s).Ends P Q) :
    L.Locked (r.andThen next) (r'.andThen next') := by
  cases r with
  | done v s =>
    have hfree : L.free s.coding → L.Locked (next v s) (r'.andThen next') := by
      intro hf
      have he := hk _ _ (free_keeps h) v s hf
      cases hx : next v s with
      | done w x =>
        rw [hx] at he
        cases r'.andThen next' with
        | done w' x' => exact .inr he
        | stop a x' => exact .inr he
      | stop b x =>
        rw [hx] at he
        cases r'.andThen next' with
        | done w' x' => exact he
        | stop a x' => exact .inr (.inr he)
    cases r' with
    | done v' u =>
      rcases hr with ⟨rfl, hl⟩ | hf
      · exact hn v s u hl
      · exact hfree hf
    | stop a u =>
      rcases hr with ha | hf
      · have he := hk _ _ (ahead_keeps h a u.coding) v s ha
        show L.Locked (next v s) (.stop a u)
        cases hx : next v s with
        | done w x => rw [hx] at he; exact .inl he
        | stop b x => rw [hx] at he; exact .inr (.inl he)
      · exact hfree hf
  | stop a s =>
    cases r' with
    | done v' u =>
      show L.Locked (.stop a s) (next' v' u)
      cases next' v' u with
      | done w x => exact hr
      | stop b x => exact .inr (.inr hr)
    | stop a' u => exact hr

theorem lock_update {s u s' u' : State} (h : L.Lock s u) (hs : s'.coding = s.coding) (hu : u'.coding = u.coding)
    (he : SameEngine s' u') : L.Lock s' u' := ⟨he, by rw [hs, hu]; exact h.2⟩

theorem locked_codeBit (h : L.Kept m) (d : State → Bool) {s u : State} (hl : L.Lock s u) (hd : d u = d s) :
    L.Locked (codeBit m d s) (codeBit m d u) := by
  obtain ⟨he, hb⟩ := hl
  have hk := h.both s.coding u.coding (d s) hb
  rw [codeBit_eq, codeBit_eq, hd]
  have same : ∀ c c' : Coding, SameEngine (s.withCoding c) (u.withCoding c') := fun _ _ =>
    ⟨he.lip, he.cm, he.k, he.lis, he.lsp, he.idepth, he.p⟩
  have coding : ∀ (s : State) (c c' : Coding) (v x : Bool), s.coding = c → c.code m v = .bit x c' →
      (s.withCoding c').coding = c' := by
    intro s c c' v x hc hcode
    subst hc
    unfold Coding.code at hcode
    split at hcode
    · cases hcode
    · cases m with
      | enc =>
        dsimp only at hcode
        split at hcode
        · cases hcode
        · cases hcode; rfl
      | dec =>
        dsimp only at hcode
        split at hcode
        · cases hcode
        · cases hcode; rfl
  cases h1 : s.coding.code m (d s) with
  | bit x c =>
    rw [h1] at hk
    cases h2 : u.coding.code m (d s) with
    | bit y c' =>
      rw [h2] at hk
      rcases hk with ⟨hxy, hk⟩ | hk
      · exact .inl ⟨hxy, same c c', by rw [coding s _ c _ _ rfl h1, coding u _ c' _ _ rfl h2]; exact hk⟩
      · refine .inr ?_
        rw [coding s _ c _ _ rfl h1]; exact hk
    | stop a =>
      rw [h2] at hk
      rcases hk with hk | hk
      · refine .inl ?_
        rw [coding s _ c _ _ rfl h1]; exact hk
      · refine .inr ?_
        rw [coding s _ c _ _ rfl h1]; exact hk
  | stop a =>
    rw [h1] at hk
    cases h2 : u.coding.code m (d s) with
    | bit y c' => rw [h2] at hk; exact hk
    | stop a' =>
      rw [h2] at hk
      rcases hk with hk | hk
      · exact .inl ⟨he, hk⟩
      · exact .inr (.inr hk)

theorem locked_done {α : Type} (v : α) {s u : State} (h : L.Lock s u) : L.Locked (.done v s) (.done v u) :=
  .inl ⟨rfl, h⟩

theorem locked_forEach {α : Type} (h : L.Kept m) {f : α → State → Run Unit}
    (hf : ∀ x s u, L.Lock s u → L.Locked (f x s) (f x u))
    (hk : ∀ (P : State → Prop) (Q : Status → State → Prop), EngineKeeps m P Q → ∀ x s, P s → (f x s).Ends P Q)
    (xs : List α) {s u : State} (hl : L.Lock s u) : L.Locked (forEach f xs s) (forEach f xs u) := by
  induction xs generalizing s u with
  | nil => exact locked_done () hl
  | cons x xs ih =>
    exact locked_andThen h (hf x s u hl) (fun _ _ _ hl => ih hl) fun P Q k _ s hs =>
      ends_forEach (fun x s hs => hk P Q k x s hs) xs s hs

/-! ### The pieces of the engine -/

theorem locked_refineOne (h : L.Kept m) (idx : Nat) {s u : State} (hl : L.Lock s u) :
    L.Locked (refineOne m idx s) (refineOne m idx u) := by
  refine locked_andThen h (locked_codeBit h _ hl (by rw [hl.1.cm, hl.1.p])) (fun bit s u hl => ?_) fun P Q k bit s hs => ?_
  · cases m with
    | enc => exact locked_done () hl
    | dec =>
      cases bit with
      | false => exact locked_done () hl
      | true =>
        refine locked_done () (lock_update hl rfl rfl ?_)
        refine ⟨hl.1.lip, ?_, hl.1.k, hl.1.lis, hl.1.lsp, hl.1.idepth, hl.1.p⟩
        show (u.setMag idx (u.cm.mag.getD idx 0 ||| BitVec.twoPow 64 u.wl.p)).cm =
          (s.setMag idx (s.cm.mag.getD idx 0 ||| BitVec.twoPow 64 s.wl.p)).cm
        rw [State.setMag_cm, State.setMag_cm, hl.1.cm, hl.1.p]
  · cases m with
    | enc => exact hs
    | dec =>
      cases bit with
      | false => exact hs
      | true => exact k.setMag rfl s _ _ hs

theorem locked_processPixel (h : L.Kept m) (listed : Bool) (idx : Nat) {s u : State} (hl : L.Lock s u) :
    L.Locked (processPixel m listed idx s) (processPixel m listed idx u) := by
  have lip : ∀ {s u : State} (i : Nat) (v : Bool), L.Lock s u → L.Lock (s.setLip i v) (u.setLip i v) := by
    intro s u i v hl
    refine lock_update hl rfl rfl ⟨?_, hl.1.cm, hl.1.k, hl.1.lis, hl.1.lsp, hl.1.idepth, hl.1.p⟩
    show u.lip.wbit i v = s.lip.wbit i v
    rw [hl.1.lip]
  have lsp : ∀ {s u : State} (i : Nat), L.Lock s u → L.Lock (s.pushLsp i) (u.pushLsp i) := by
    intro s u i hl
    refine lock_update hl rfl rfl ⟨hl.1.lip, hl.1.cm, hl.1.k, hl.1.lis, ?_, hl.1.idepth, hl.1.p⟩
    show u.wl.lsp ++ [i] = s.wl.lsp ++ [i]
    rw [hl.1.lsp]
  refine locked_andThen h (locked_codeBit h _ hl (by rw [hl.1.cm, hl.1.p])) (fun sig s u hl => ?_) fun P Q k sig s hs => ?_
  · cases sig with
    | false =>
      cases listed with
      | true => exact locked_done () hl
      | false => exact locked_done () (lip idx true hl)
    | true =>
      refine locked_andThen h (locked_codeBit h _ hl (by rw [hl.1.cm])) (fun sign s u hl => ?_) fun P Q k sign s hs => ?_
      · have hdec : L.Lock ((s.setMag idx (BitVec.twoPow 64 s.wl.p)).setSgn idx sign)
            ((u.setMag idx (BitVec.twoPow 64 u.wl.p)).setSgn idx sign) := by
          refine lock_update hl rfl rfl ⟨hl.1.lip, ?_, hl.1.k, hl.1.lis, hl.1.lsp, hl.1.idepth, hl.1.p⟩
          show ({ u.cm with mag := u.cm.mag.set idx (BitVec.twoPow 64 u.wl.p), sgn := u.cm.sgn.set idx sign } :
            CoefMem) = { s.cm with mag := s.cm.mag.set idx (BitVec.twoPow 64 s.wl.p), sgn := s.cm.sgn.set idx sign }
          rw [hl.1.cm, hl.1.p]
        cases m with
        | enc =>
          cases listed with
          | true => exact locked_done () (lsp idx (lip idx false hl))
          | false => exact locked_done () (lsp idx hl)
        | dec =>
          cases listed with
          | true => exact locked_done () (lsp idx (lip idx false hdec))
          | false => exact locked_done () (lsp idx hdec)
      · cases m with
        | enc =>
          cases listed with
          | true => exact k.pushLsp _ _ (k.setLip _ _ _ hs)
          | false => exact k.pushLsp _ _ hs
        | dec =>
          have hset := k.setSgn rfl _ idx sign (k.setMag rfl s idx (BitVec.twoPow 64 s.wl.p) hs)
          cases listed with
          | true => exact k.pushLsp _ _ (k.setLip _ _ _ hset)
          | false => exact k.pushLsp _ _ hset
  · cases sig with
    | false =>
      cases listed with
      | true => exact hs
      | false => exact k.setLip _ _ _ hs
    | true =>
      refine Run.ends_andThen (ends_codeBit k _ s hs) fun sign s hs => ?_
      cases m with
      | enc =>
        cases listed with
        | true => exact k.pushLsp _ _ (k.setLip _ _ _ hs)
        | false => exact k.pushLsp _ _ hs
      | dec =>
        have hset := k.setSgn rfl _ idx sign (k.setMag rfl s idx (BitVec.twoPow 64 s.wl.p) hs)
        cases listed with
        | true => exact k.pushLsp _ _ (k.setLip _ _ _ hset)
        | false => exact k.pushLsp _ _ hset

theorem lock_setLis {s u : State} (hl : L.Lock s u) (f : List (List CoefSet) → List (List CoefSet)) :
    L.Lock { s with wl := { s.wl with lis := f s.wl.lis } } { u with wl := { u.wl with lis := f u.wl.lis } } := by
  refine lock_update hl rfl rfl ⟨hl.1.lip, hl.1.cm, hl.1.k, ?_, hl.1.lsp, hl.1.idepth, hl.1.p⟩
  show f u.wl.lis = f s.wl.lis
  rw [hl.1.lis]

theorem locked_processOffspring (h : L.Kept m) {process : CoefSet → State → Run Bool}
    (hp : ∀ o s u, L.Lock s u → L.Locked (process o s) (process o u)) (o : CoefSet) {s u : State} (hl : L.Lock s u) :
    L.Locked (processOffspring m process o s) (processOffspring m process o u) := by
  unfold processOffspring
  split
  · rw [hl.1.cm]
    exact locked_processPixel h false _ hl
  · refine locked_andThen h (hp o s u hl) (fun sig s u hl => ?_) fun P Q k sig s hs => ?_
    · cases sig with
      | true => exact locked_done () hl
      | false => exact locked_done () (lock_setLis hl fun lis => lis.set o.level (lis.getD o.level [] ++ [o]))
    · cases sig with
      | true => exact hs
      | false => exact k.setLis s _ hs

theorem locked_processSet (h : L.Kept m) (depth : Nat) (set : CoefSet) {s u : State} (hl : L.Lock s u) :
    L.Locked (processSet m depth set s) (processSet m depth set u) := by
  induction depth generalizing set s u with
  | zero => exact locked_done false hl
  | succ depth ih =>
    refine locked_andThen h (locked_codeBit h _ hl (by rw [hl.1.cm, hl.1.p])) (fun sig s u hl => ?_)
      fun P Q k sig s hs => ?_
    · cases sig with
      | false => exact locked_done false hl
      | true =>
        exact locked_andThen h (locked_forEach h
          (fun o _ _ hl => locked_processOffspring h (fun o _ _ hl => ih o hl) o hl)
          (fun P Q k o s hs => ends_processOffspring k (fun o s hs => ends_processSet k depth o s hs) o s hs) _ hl)
          (fun _ _ _ hl => locked_done true hl) fun _ _ _ _ _ hs => hs
    · cases sig with
      | false => exact hs
      | true =>
        exact Run.ends_andThen (ends_forEach (fun o s hs =>
          ends_processOffspring k (fun o s hs => ends_processSet k depth o s hs) o s hs) _ s hs) fun _ _ hs => hs

theorem locked_lisLevel (h : L.Kept m) (level : Nat) {s u : State} (hl : L.Lock s u) :
    L.Locked (lisLevel m level s) (lisLevel m level u) := by
  unfold lisLevel
  rw [hl.1.lis]
  refine locked_forEach h (fun o s u hl => ?_) (fun P Q k o s hs => ?_) _ (lock_setLis hl fun lis => lis.set level [])
  · unfold lisOne
    rw [hl.1.k]
    refine locked_andThen h (locked_processSet h _ o hl) (fun sig s u hl => ?_) fun P Q k sig s hs => ?_
    · cases sig with
      | true => exact locked_done () hl
      | false => exact locked_done () (lock_setLis hl fun lis => lis.set level (lis.getD level [] ++ [o]))
    · cases sig with
      | true => exact hs
      | false => exact k.setLis s _ hs
  · refine Run.ends_andThen (ends_processSet k _ o s hs) fun sig s hs => ?_
    cases sig with
    | true => exact hs
    | false => exact k.setLis s _ hs

theorem locked_lisLevels (h : L.Kept m) (n : Nat) {s u : State} (hl : L.Lock s u) :
    L.Locked (lisLevels m n s) (lisLevels m n u) := by
  induction n generalizing s u with
  | zero => exact locked_done () hl
  | succ n ih =>
    exact locked_andThen h (locked_lisLevel h n hl) (fun _ _ _ hl => ih hl) fun _ _ k _ s hs => ends_lisLevels k n s hs

theorem locked_typeIPassAt (h : L.Kept m) (n : Nat) {s u : State} (hl : L.Lock s u) :
    L.Locked (typeIPassAt m n s) (typeIPassAt m n u) := by
  induction n generalizing s u with
  | zero => exact locked_done () hl
  | succ n ih =>
    have step : ∀ {s u : State}, L.Lock s u → L.Locked
        ((forEach (processOffspring m (processSet m s.wl.k)) (splitI s.cm.ext (n + 1)) (s.setIdepth n)).andThen
          fun _ s => typeIPassAt m n s)
        ((forEach (processOffspring m (processSet m u.wl.k)) (splitI u.cm.ext (n + 1)) (u.setIdepth n)).andThen
          fun _ s => typeIPassAt m n s) := by
      intro s u hl
      rw [hl.1.k, hl.1.cm]
      exact locked_andThen h (locked_forEach h
        (fun o _ _ hl => locked_processOffspring h (fun o _ _ hl => locked_processSet h _ o hl) o hl)
        (fun P Q k o s hs => ends_processOffspring k (fun o s hs => ends_processSet k _ o s hs) o s hs) _
        (lock_update hl rfl rfl ⟨hl.1.lip, hl.1.cm, hl.1.k, hl.1.lis, hl.1.lsp, rfl, hl.1.p⟩))
        (fun _ _ _ hl => ih hl) fun _ _ k _ s hs => ends_typeIPassAt k n s hs
    refine locked_andThen h (locked_codeBit h _ hl (by rw [hl.1.cm, hl.1.p])) (fun sig s u hl => ?_)
      fun P Q k sig s hs => ?_
    · cases sig with
      | false => exact locked_done () hl
      | true => exact step hl
    · cases sig with
      | false => exact hs
      | true =>
        exact Run.ends_andThen (ends_forEach (fun o s hs =>
          ends_processOffspring k (fun o s hs => ends_processSet k _ o s hs) o s hs) _ _ (k.setIdepth s n hs))
          fun _ s hs => ends_typeIPassAt k n s hs

theorem locked_lipPass (h : L.Kept m) {s u : State} (hl : L.Lock s u) : L.Locked (lipPass m s) (lipPass m u) := by
  unfold lipPass
  rw [hl.1.cm]
  refine locked_forEach h (fun idx s u hl => ?_) (fun P Q k idx s hs => ?_) _ hl
  · rw [hl.1.lip]
    split
    · exact locked_processPixel h true idx hl
    · exact locked_done () hl
  · split
    · exact ends_processPixel k true idx s hs
    · exact hs

theorem locked_plane (h : L.Kept m) (p : Nat) {s u : State} (hl : L.Lock s u) :
    L.Locked (plane m p s) (plane m p u) := by
  have hp : L.Lock (s.setPlane p) (u.setPlane p) :=
    lock_update hl rfl rfl ⟨hl.1.lip, hl.1.cm, hl.1.k, hl.1.lis, hl.1.lsp, hl.1.idepth, rfl⟩
  have hr : L.Locked (refinementPass m (s.setPlane p)) (refinementPass m (u.setPlane p)) := by
    unfold refinementPass
    rw [hp.1.lsp]
    exact locked_forEach h (fun idx _ _ hl => locked_refineOne h idx hl)
      (fun P Q k idx s hs => ends_refineOne k idx s hs) _ hp
  refine locked_andThen h hr (fun _ s u hl => ?_) fun P Q k _ s hs => ?_
  · refine locked_andThen h (locked_lipPass h hl) (fun _ s u hl => ?_) fun P Q k _ s hs => ?_
    · have hlis : L.Locked (lisPass m s) (lisPass m u) := by
        unfold lisPass; rw [hl.1.k]; exact locked_lisLevels h _ hl
      refine locked_andThen h hlis (fun _ s u hl => ?_) fun P Q k _ s hs => ends_typeIPassAt k _ s hs
      unfold typeIPass
      rw [hl.1.idepth]
      exact locked_typeIPassAt h _ hl
    · exact Run.ends_andThen (ends_lisLevels k _ s hs) fun _ s hs => ends_typeIPassAt k _ s hs
  · exact Run.ends_andThen (ends_lipPass k s hs) fun _ s hs =>
      Run.ends_andThen (ends_lisLevels k _ s hs) fun _ s hs => ends_typeIPassAt k _ s hs

/-- Two runs that stand in the relation at their start stand in it at every later bit, and so at their ends. -/
theorem locked_planes (h : L.Kept m) (n : Nat) {s u : State} (hl : L.Lock s u) :
    L.Locked (planes m n s) (planes m n u) := by
  induction n generalizing s u with
  | zero => exact locked_done () hl
  | succ n ih =>
    exact locked_andThen h (locked_plane h n hl) (fun _ _ _ hl => ih hl) fun _ _ k _ s hs => ends_planes k n s hs

end Sys2Proof.Machine
end

