-- ==== Sys2Proof/Laws/EngineSets.lean ====
section
/-! SUPPORT. Which elements the sets of the SPECK engine hold: each split hands every element on, a set of level `i` is no
larger than `A_i`, and so every set below the root depth is a pixel (43_coefficient_memory_and_sets.md R216 to R222). -/

namespace Sys2Proof.Machine

/-- The set holds the element with this number. -/
def CoefSet.HasElem (ext : Tri) (o : CoefSet) (idx : Nat) : Prop := ∃ t, o.holds t = true ∧ elemIdx ext t = idx

/-- TypeI at depth `k` holds the element with this number. -/
def TypeIHas (ext : Tri) (k idx : Nat) : Prop :=
  ∃ t : Tri, (t.x < ext.x ∧ t.y < ext.y ∧ t.z < ext.z) ∧ inTypeI ext k t = true ∧ elemIdx ext t = idx

/-- A set the engine makes: non-empty, inside the array, and no larger than the addressed box of its level. -/
structure CoefSet.Fits (ext : Tri) (o : CoefSet) : Prop where
  some : o.nonEmpty = true
  inX : o.origin.x + o.extent.x ≤ ext.x
  inY : o.origin.y + o.extent.y ≤ ext.y
  inZ : o.origin.z + o.extent.z ≤ ext.z
  leX : o.extent.x ≤ (halving ext o.level).x
  leY : o.extent.y ≤ (halving ext o.level).y
  leZ : o.extent.z ≤ (halving ext o.level).z

variable {ext : Tri}

theorem CoefSet.HasElem.lt {o : CoefSet} (hf : o.Fits ext) {idx : Nat} (h : o.HasElem ext idx) :
    idx < ext.x * ext.y * ext.z := by
  obtain ⟨t, ht, rfl⟩ := h
  rw [CoefSet.holds_iff] at ht
  have h1 := hf.inX; have h2 := hf.inY; have h3 := hf.inZ
  exact elemIdx_lt (by omega) (by omega) (by omega)

/-- A pixel holds exactly the element at its origin. -/
theorem CoefSet.hasElem_pixel {o : CoefSet} (hp : o.isPixel = true) (idx : Nat) :
    o.HasElem ext idx ↔ idx = elemIdx ext o.origin := by
  obtain ⟨h1, h2, h3⟩ := (CoefSet.isPixel_iff o).1 hp
  constructor
  · rintro ⟨t, ht, rfl⟩
    rw [CoefSet.holds_iff, h1, h2, h3] at ht
    have : t = o.origin := by rw [Tri.ext_iff']; omega
    rw [this]
  · rintro rfl
    exact ⟨o.origin, by rw [CoefSet.holds_iff, h1, h2, h3]; omega, rfl⟩

/-- A set at or below the root depth is a pixel. -/
theorem CoefSet.level_lt_of_not_pixel {o : CoefSet} (hf : o.Fits ext) (hp : o.isPixel = false) :
    o.level < rootDepth ext := by
  by_contra hc
  have one : ∀ n, clog2 n ≤ rootDepth ext → ceilDiv n (2 ^ o.level) ≤ 1 := by
    intro n hn
    rw [ceilDiv_le_iff (Nat.two_pow_pos _), Nat.one_mul]
    exact (clog2_le_iff n o.level).1 (by omega)
  have h1 := hf.leX; have h2 := hf.leY; have h3 := hf.leZ
  rw [halving_x] at h1; rw [halving_y] at h2; rw [halving_z] at h3
  have h4 := one ext.x (by unfold rootDepth; omega)
  have h5 := one ext.y (by unfold rootDepth; omega)
  have h6 := one ext.z (by unfold rootDepth; omega)
  have hne := (CoefSet.nonEmpty_iff o).1 hf.some
  have : o.isPixel = true := by rw [CoefSet.isPixel_iff]; omega
  rw [this] at hp; cases hp

/-- A candidate that holds a point holds an element, so it is kept. -/
theorem CoefSet.nonEmpty_of_holds {o : CoefSet} {t : Tri} (h : o.holds t = true) : o.nonEmpty = true := by
  rw [CoefSet.holds_iff] at h
  rw [CoefSet.nonEmpty_iff]
  omega

/-- The number whose bits 0, 1, 2 are these. -/
theorem exists_bits (x y z : Bool) :
    ∃ b < 8, b.testBit 0 = x ∧ b.testBit 1 = y ∧ b.testBit 2 = z ∧ (b = 0 → x = false ∧ y = false ∧ z = false) := by
  cases x <;> cases y <;> cases z
  · exact ⟨0, by decide, rfl, rfl, rfl, fun _ => ⟨rfl, rfl, rfl⟩⟩
  · exact ⟨4, by decide, rfl, rfl, rfl, fun h => by cases h⟩
  · exact ⟨2, by decide, rfl, rfl, rfl, fun h => by cases h⟩
  · exact ⟨6, by decide, rfl, rfl, rfl, fun h => by cases h⟩
  · exact ⟨1, by decide, rfl, rfl, rfl, fun h => by cases h⟩
  · exact ⟨5, by decide, rfl, rfl, rfl, fun h => by cases h⟩
  · exact ⟨3, by decide, rfl, rfl, rfl, fun h => by cases h⟩
  · exact ⟨7, by decide, rfl, rfl, rfl, fun h => by cases h⟩

theorem map_halfUp_le (t : Tri) : (t.map halfUp).x ≤ t.x ∧ (t.map halfUp).y ≤ t.y ∧ (t.map halfUp).z ≤ t.z :=
  ⟨halfUp_le _, halfUp_le _, halfUp_le _⟩

/-- The offspring of a set hold what the set holds (R217). -/
theorem hasElem_splitS (o : CoefSet) (idx : Nat) :
    (∃ q ∈ splitS o, q.HasElem ext idx) ↔ o.HasElem ext idx := by
  obtain ⟨hx, hy, hz⟩ := map_halfUp_le o.extent
  constructor
  · rintro ⟨q, hq, t, ht, rfl⟩
    obtain ⟨-, b, -, rfl⟩ := (mem_splitS o q).1 hq
    rw [candidate_holds_iff _ _ _ _ _ hx hy hz] at ht
    exact ⟨t, by rw [CoefSet.holds_iff]; exact ⟨ht.1.1, ht.2.1.1, ht.2.2.1⟩, rfl⟩
  · rintro ⟨t, ht, rfl⟩
    rw [CoefSet.holds_iff] at ht
    obtain ⟨b, hb, h0, h1, h2, -⟩ := exists_bits (decide (o.origin.x + (o.extent.map halfUp).x ≤ t.x))
      (decide (o.origin.y + (o.extent.map halfUp).y ≤ t.y)) (decide (o.origin.z + (o.extent.map halfUp).z ≤ t.z))
    have hc : (candidate o.origin (o.extent.map halfUp) o.extent (o.level + 1) b).holds t = true := by
      rw [candidate_holds_iff _ _ _ _ _ hx hy hz]
      exact ⟨⟨ht.1, h0⟩, ⟨ht.2.1, h1⟩, ht.2.2, h2⟩
    exact ⟨_, (mem_splitS o _).2 ⟨CoefSet.nonEmpty_of_holds hc, b, hb, rfl⟩, t, hc, rfl⟩

/-- TypeI one step shallower, and its offspring, hold what TypeI held (R221). -/
theorem typeIHas_succ (k idx : Nat) :
    TypeIHas ext (k + 1) idx ↔ TypeIHas ext k idx ∨ ∃ q ∈ splitI ext (k + 1), q.HasElem ext idx := by
  obtain ⟨hx, hy, hz⟩ := map_halfUp_le (halving ext k)
  have le : ∀ n, (halving ext n).x ≤ ext.x ∧ (halving ext n).y ≤ ext.y ∧ (halving ext n).z ≤ ext.z := by
    intro n
    induction n with
    | zero => exact ⟨Nat.le_refl _, Nat.le_refl _, Nat.le_refl _⟩
    | succ n ih =>
      have h := map_halfUp_le (halving ext n)
      exact ⟨Nat.le_trans h.1 ih.1, Nat.le_trans h.2.1 ih.2.1, Nat.le_trans h.2.2 ih.2.2⟩
  have hlek := le k
  constructor
  · rintro ⟨t, ht, hi, rfl⟩
    by_cases hk : inTypeI ext k t = true
    · exact .inl ⟨t, ht, hk, rfl⟩
    · right
      rw [inTypeI_iff] at hi hk
      obtain ⟨b, hb, h0, h1, h2, hne⟩ := exists_bits (decide (0 + ((halving ext k).map halfUp).x ≤ t.x))
        (decide (0 + ((halving ext k).map halfUp).y ≤ t.y)) (decide (0 + ((halving ext k).map halfUp).z ≤ t.z))
      have hb1 : 1 ≤ b := by
        rcases Nat.eq_zero_or_pos b with rfl | h
        · obtain ⟨e1, e2, e3⟩ := hne rfl
          rw [decide_eq_false_iff_not] at e1 e2 e3
          change (((halving ext k).map halfUp).x ≤ t.x ∨ ((halving ext k).map halfUp).y ≤ t.y ∨
            ((halving ext k).map halfUp).z ≤ t.z) at hi
          omega
        · exact h
      have hc : (candidate ⟨0, 0, 0⟩ ((halving ext k).map halfUp) (halving ext k) (k + 1) b).holds t = true := by
        rw [candidate_holds_iff _ _ _ _ _ hx hy hz]
        refine ⟨⟨⟨Nat.zero_le _, ?_⟩, h0⟩, ⟨⟨Nat.zero_le _, ?_⟩, h1⟩, ⟨Nat.zero_le _, ?_⟩, h2⟩
        · show t.x < 0 + (halving ext k).x; omega
        · show t.y < 0 + (halving ext k).y; omega
        · show t.z < 0 + (halving ext k).z; omega
      exact ⟨_, (mem_splitI ext (k + 1) _).2 ⟨CoefSet.nonEmpty_of_holds hc, b, hb1, hb, rfl⟩, t, hc, rfl⟩
  · rintro (⟨t, ht, hi, rfl⟩ | ⟨q, hq, t, ht, rfl⟩)
    · refine ⟨t, ht, ?_, rfl⟩
      rw [inTypeI_iff] at hi ⊢
      change ((halving ext k).map halfUp).x ≤ t.x ∨ ((halving ext k).map halfUp).y ≤ t.y ∨
        ((halving ext k).map halfUp).z ≤ t.z
      omega
    · obtain ⟨-, b, hb1, hb8, rfl⟩ := (mem_splitI ext (k + 1) q).1 hq
      change (candidate ⟨0, 0, 0⟩ ((halving ext k).map halfUp) (halving ext k) (k + 1) b).holds t = true at ht
      rw [candidate_holds_iff _ _ _ _ _ hx hy hz] at ht
      obtain ⟨⟨⟨-, h1⟩, h0⟩, ⟨⟨-, h2⟩, h0'⟩, ⟨-, h3⟩, h0''⟩ := ht
      change t.x < 0 + (halving ext k).x at h1
      change t.y < 0 + (halving ext k).y at h2
      change t.z < 0 + (halving ext k).z at h3
      change b.testBit 0 = decide (0 + ((halving ext k).map halfUp).x ≤ t.x) at h0
      change b.testBit 1 = decide (0 + ((halving ext k).map halfUp).y ≤ t.y) at h0'
      change b.testBit 2 = decide (0 + ((halving ext k).map halfUp).z ≤ t.z) at h0''
      refine ⟨t, ⟨by omega, by omega, by omega⟩, ?_, rfl⟩
      rw [inTypeI_iff]
      change ((halving ext k).map halfUp).x ≤ t.x ∨ ((halving ext k).map halfUp).y ≤ t.y ∨
        ((halving ext k).map halfUp).z ≤ t.z
      by_contra hc
      have f0 : b.testBit 0 = false := by rw [h0, decide_eq_false_iff_not]; omega
      have f1 : b.testBit 1 = false := by rw [h0', decide_eq_false_iff_not]; omega
      have f2 : b.testBit 2 = false := by rw [h0'', decide_eq_false_iff_not]; omega
      have : b = 1 ∨ b = 2 ∨ b = 3 ∨ b = 4 ∨ b = 5 ∨ b = 6 ∨ b = 7 := by omega
      rcases this with rfl | rfl | rfl | rfl | rfl | rfl | rfl <;> simp [Nat.testBit] at f0 f1 f2

theorem part_fits (bit : Bool) (o e n h : Nat) (hn : o + e ≤ n) (hh : halfUp e ≤ h) :
    (partOf bit o (halfUp e) e).1 + (partOf bit o (halfUp e) e).2 ≤ n ∧ (partOf bit o (halfUp e) e).2 ≤ h := by
  have h1 := halfUp_le e
  have h2 := sub_halfUp_le e
  cases bit <;> simp [partOf] <;> omega

theorem halfUp_mono {a b : Nat} (h : a ≤ b) : halfUp a ≤ halfUp b := by unfold halfUp ceilDiv; omega

/-- The offspring of a set that fits do. -/
theorem fits_splitS {o q : CoefSet} (hf : o.Fits ext) (hq : q ∈ splitS o) : q.Fits ext := by
  obtain ⟨hne, b, -, rfl⟩ := (mem_splitS o q).1 hq
  have hx := part_fits (b.testBit 0) o.origin.x o.extent.x ext.x (halving ext (o.level + 1)).x hf.inX (halfUp_mono hf.leX)
  have hy := part_fits (b.testBit 1) o.origin.y o.extent.y ext.y (halving ext (o.level + 1)).y hf.inY (halfUp_mono hf.leY)
  have hz := part_fits (b.testBit 2) o.origin.z o.extent.z ext.z (halving ext (o.level + 1)).z hf.inZ (halfUp_mono hf.leZ)
  exact ⟨hne, hx.1, hy.1, hz.1, hx.2, hy.2, hz.2⟩

/-- The offspring of TypeI fit. -/
theorem fits_splitI {q : CoefSet} (k : Nat) (hq : q ∈ splitI ext (k + 1)) : q.Fits ext := by
  obtain ⟨hne, b, -, -, rfl⟩ := (mem_splitI ext (k + 1) q).1 hq
  have le : ∀ n, (halving ext n).x ≤ ext.x ∧ (halving ext n).y ≤ ext.y ∧ (halving ext n).z ≤ ext.z := by
    intro n
    induction n with
    | zero => exact ⟨Nat.le_refl _, Nat.le_refl _, Nat.le_refl _⟩
    | succ n ih =>
      have h := map_halfUp_le (halving ext n)
      exact ⟨Nat.le_trans h.1 ih.1, Nat.le_trans h.2.1 ih.2.1, Nat.le_trans h.2.2 ih.2.2⟩
  obtain ⟨l1, l2, l3⟩ := le k
  have hx := part_fits (b.testBit 0) 0 (halving ext k).x ext.x (halving ext (k + 1)).x (by omega) (Nat.le_refl _)
  have hy := part_fits (b.testBit 1) 0 (halving ext k).y ext.y (halving ext (k + 1)).y (by omega) (Nat.le_refl _)
  have hz := part_fits (b.testBit 2) 0 (halving ext k).z ext.z (halving ext (k + 1)).z (by omega) (Nat.le_refl _)
  exact ⟨hne, hx.1, hy.1, hz.1, hx.2, hy.2, hz.2⟩

/-- TypeI at the root depth and the element 0 make the whole array (R220). -/
theorem typeIHas_root {idx : Nat} (h : idx < ext.x * ext.y * ext.z) :
    idx = 0 ∨ TypeIHas ext (rootDepth ext) idx := by
  obtain ⟨t, ht, rfl⟩ := exists_elemIdx h
  by_cases hi : inTypeI ext (rootDepth ext) t = true
  · exact .inr ⟨t, ht, hi, rfl⟩
  · left
    rw [inTypeI_iff, halving_x, halving_y, halving_z] at hi
    have one : ∀ n, clog2 n ≤ rootDepth ext → ceilDiv n (2 ^ rootDepth ext) ≤ 1 := by
      intro n hn
      rw [ceilDiv_le_iff (Nat.two_pow_pos _), Nat.one_mul]
      exact (clog2_le_iff n _).1 hn
    have h4 := one ext.x (by unfold rootDepth; omega)
    have h5 := one ext.y (by unfold rootDepth; omega)
    have h6 := one ext.z (by unfold rootDepth; omega)
    have : t.x = 0 ∧ t.y = 0 ∧ t.z = 0 := by omega
    unfold elemIdx
    rw [this.1, this.2.1, this.2.2]
    simp

/-- TypeI at depth 0 is empty (R220). -/
theorem not_typeIHas_zero (idx : Nat) : ¬ TypeIHas ext 0 idx := by
  rintro ⟨t, ht, hi, -⟩
  rw [inTypeI_iff] at hi
  change ext.x ≤ t.x ∨ ext.y ≤ t.y ∨ ext.z ≤ t.z at hi
  omega

end Sys2Proof.Machine
end

