-- ==== Sys2Proof/Laws/Memory.lean ====
section
/-! SUPPORT. The exchange buffer: every operation keeps the canonical form and the address space, and a read after a
write reads what was written (20_memory.md R73, R76, R77). -/

namespace Sys2Proof.Machine

/-- The canonical form, read as two facts: addresses strictly rise, and no listed byte is the unlisted one. -/
theorem Memory.wf_iff (m : Memory) :
    Memory.wf m = true ↔ m.Pairwise (fun c d => c.1 < d.1) ∧ ∀ c ∈ m, c.2 ≠ xbUnlisted := by
  induction m with
  | nil => simp [Memory.wf]
  | cons c rest ih =>
    cases rest with
    | nil => simp [Memory.wf]
    | cons d rest =>
      simp only [Memory.wf, Bool.and_eq_true, decide_eq_true_eq, bne_iff_ne, ne_eq]
      rw [ih, List.pairwise_cons (a := c)]
      constructor
      · rintro ⟨⟨hc, hlt⟩, hp, hv⟩
        refine ⟨⟨?_, hp⟩, ?_⟩
        · intro e he
          rcases List.mem_cons.1 he with rfl | he
          · exact hlt
          · exact lt_trans hlt ((List.pairwise_cons.1 hp).1 e he)
        · intro e he
          rcases List.mem_cons.1 he with rfl | he
          · exact hc
          · exact hv e he
      · rintro ⟨⟨hlt, hp⟩, hv⟩
        exact ⟨⟨hv c (by simp), hlt d (by simp)⟩, hp, fun e he => hv e (List.mem_cons_of_mem _ he)⟩

theorem Memory.wf_tail {c : Host.Cell} {m : Memory} (h : Memory.wf (c :: m) = true) : Memory.wf m = true := by
  rw [Memory.wf_iff] at *
  exact ⟨(List.pairwise_cons.1 h.1).2, fun e he => h.2 e (List.mem_cons_of_mem _ he)⟩

theorem Memory.wf_cons_lt {c : Host.Cell} {m : Memory} (h : Memory.wf (c :: m) = true) : ∀ d ∈ m, c.1 < d.1 := by
  rw [Memory.wf_iff] at h
  exact (List.pairwise_cons.1 h.1).1

theorem Memory.readByte_of_forall_ne {m : Memory} {a : Nat} (h : ∀ c ∈ m, c.1 ≠ a) : m.readByte a = xbUnlisted := by
  induction m with
  | nil => rfl
  | cons c rest ih =>
    rw [Memory.readByte, if_neg (h c (by simp))]
    exact ih fun d hd => h d (List.mem_cons_of_mem _ hd)

/-- An entry of a written store is the written one or an old one. -/
theorem Memory.mem_writeByte {m : Memory} {a : Nat} {v : Byte} {c : Host.Cell} (h : c ∈ m.writeByte a v) :
    (c = (a, v) ∧ v ≠ xbUnlisted) ∨ c ∈ m := by
  induction m with
  | nil =>
    unfold Memory.writeByte at h
    split at h
    · simp at h
    · rename_i hv; simp at h; exact .inl ⟨h, hv⟩
  | cons d rest ih =>
    unfold Memory.writeByte at h
    split at h
    · split at h
      · exact .inr h
      · rename_i hv
        rcases List.mem_cons.1 h with h | h
        · exact .inl ⟨h, hv⟩
        · exact .inr h
    · split at h
      · split at h
        · exact .inr (List.mem_cons_of_mem _ h)
        · rename_i hv
          rcases List.mem_cons.1 h with h | h
          · exact .inl ⟨h, hv⟩
          · exact .inr (List.mem_cons_of_mem _ h)
      · rcases List.mem_cons.1 h with h | h
        · exact .inr (h ▸ List.mem_cons_self)
        · rcases ih h with h | h
          · exact .inl h
          · exact .inr (List.mem_cons_of_mem _ h)

/-- A write keeps the canonical form. -/
theorem Memory.wf_writeByte {m : Memory} (h : Memory.wf m = true) (a : Nat) (v : Byte) :
    Memory.wf (m.writeByte a v) = true := by
  rw [Memory.wf_iff] at *
  refine ⟨?_, fun c hc => ?_⟩
  · obtain ⟨hp, -⟩ := h
    induction m with
    | nil => unfold Memory.writeByte; split <;> simp
    | cons d rest ih =>
      obtain ⟨hd, hr⟩ := List.pairwise_cons.1 hp
      unfold Memory.writeByte
      split
      · rename_i hlt
        split
        · exact hp
        · refine List.pairwise_cons.2 ⟨fun e he => ?_, hp⟩
          rcases List.mem_cons.1 he with rfl | he
          · exact hlt
          · exact lt_trans hlt (hd e he)
      · split
        · rename_i heq
          split
          · exact hr
          · exact List.pairwise_cons.2 ⟨fun e he => heq ▸ hd e he, hr⟩
        · rename_i hn hne
          refine List.pairwise_cons.2 ⟨fun e he => ?_, ih hr⟩
          rcases Memory.mem_writeByte he with ⟨rfl, -⟩ | he
          · show d.1 < a; omega
          · exact hd e he
  · rcases Memory.mem_writeByte hc with ⟨rfl, hv⟩ | hc
    · exact hv
    · exact h.2 c hc

/-- A read after a write of a byte: the written byte at its address, the old one elsewhere. -/
theorem Memory.readByte_writeByte {m : Memory} (h : Memory.wf m = true) (a : Nat) (v : Byte) (b : Nat) :
    (m.writeByte a v).readByte b = if b = a then v else m.readByte b := by
  induction m with
  | nil =>
    unfold Memory.writeByte
    by_cases hv : v = xbUnlisted
    · simp [hv, Memory.readByte]
    · by_cases hb : b = a
      · simp [hv, hb, Memory.readByte]
      · have : ¬ a = b := fun e => hb e.symm
        simp [hv, hb, this, Memory.readByte]
  | cons d rest ih =>
    have hlt := Memory.wf_cons_lt h
    have ih := ih (Memory.wf_tail h)
    unfold Memory.writeByte
    split
    · rename_i ha
      have hnone : Memory.readByte (d :: rest) a = xbUnlisted := by
        apply Memory.readByte_of_forall_ne
        intro e he
        rcases List.mem_cons.1 he with rfl | he
        · omega
        · have := hlt e he; omega
      split
      · rename_i hv
        by_cases hb : b = a
        · rw [if_pos hb, hb, hnone, hv]
        · rw [if_neg hb]
      · rw [Memory.readByte]
        by_cases hb : b = a
        · simp [hb]
        · have : ¬ a = b := fun e => hb e.symm
          simp [hb, this]
    · split
      · rename_i hn heq
        have hnone : Memory.readByte rest a = xbUnlisted := by
          apply Memory.readByte_of_forall_ne
          intro e he
          have := hlt e he; omega
        split
        · rename_i hv
          by_cases hb : b = a
          · rw [if_pos hb, hb, hnone, hv]
          · have : ¬ d.1 = b := by omega
            rw [if_neg hb, Memory.readByte, if_neg this]
        · by_cases hb : b = a
          · simp [Memory.readByte, hb]
          · have h1 : ¬ a = b := fun e => hb e.symm
            have h2 : ¬ d.1 = b := by omega
            simp [Memory.readByte, hb, h1, h2]
      · rename_i hn hne
        rw [Memory.readByte, Memory.readByte]
        by_cases hb : d.1 = b
        · have : ¬ b = a := by omega
          simp [hb, this]
        · simp only [if_neg hb]; exact ih

theorem Memory.within_writeByte {m : Memory} {size a : Nat} (h : m.Within size) (ha : a < size) (v : Byte) :
    (m.writeByte a v).Within size := by
  refine ⟨Memory.wf_writeByte h.1 a v, fun c hc => ?_⟩
  rcases Memory.mem_writeByte hc with ⟨rfl, -⟩ | hc
  · exact ha
  · exact h.2 c hc

theorem Memory.wf_writeBytes {m : Memory} (h : Memory.wf m = true) (a : Nat) (vs : List Byte) :
    Memory.wf (m.writeBytes a vs) = true := by
  induction vs generalizing m a with
  | nil => exact h
  | cons v vs ih => exact ih (Memory.wf_writeByte h a v) (a + 1)

/-- A read after a write of consecutive bytes. -/
theorem Memory.readByte_writeBytes {m : Memory} (h : Memory.wf m = true) (a : Nat) (vs : List Byte) (b : Nat) :
    (m.writeBytes a vs).readByte b = if a ≤ b ∧ b < a + vs.length then vs.getD (b - a) 0 else m.readByte b := by
  induction vs generalizing m a with
  | nil =>
    have : ¬ (a ≤ b ∧ b < a + ([] : List Byte).length) := by simp
    rw [if_neg this]; rfl
  | cons v vs ih =>
    rw [Memory.writeBytes, ih (Memory.wf_writeByte h a v), Memory.readByte_writeByte h]
    by_cases hb : b = a
    · subst hb
      have h1 : ¬ (b + 1 ≤ b ∧ b < b + 1 + vs.length) := by omega
      have h2 : b ≤ b ∧ b < b + (v :: vs).length := by simp
      rw [if_neg h1, if_pos h2]; simp
    · by_cases hin : a + 1 ≤ b ∧ b < a + 1 + vs.length
      · have h2 : a ≤ b ∧ b < a + (v :: vs).length := by rw [List.length_cons]; omega
        have h3 : b - a = (b - (a + 1)) + 1 := by omega
        rw [if_pos hin, if_pos h2, h3, List.getD_cons_succ]
      · have h2 : ¬ (a ≤ b ∧ b < a + (v :: vs).length) := by rw [List.length_cons]; omega
        rw [if_neg hin, if_neg h2, if_neg hb]

theorem Memory.within_writeBytes {m : Memory} {size a : Nat} (h : m.Within size) {vs : List Byte}
    (ha : a + vs.length ≤ size) : (m.writeBytes a vs).Within size := by
  induction vs generalizing m a with
  | nil => exact h
  | cons v vs ih =>
    rw [List.length_cons] at ha
    exact ih (Memory.within_writeByte h (by omega) v) (by omega)

theorem wordBytes_length (v : Word) : (wordBytes v).length = 8 := by simp [wordBytes]

theorem wordByte_getLsbD (v : Word) (j i : Nat) :
    (wordByte v j).getLsbD i = (decide (i < 8) && v.getLsbD (8 * j + i)) := by
  simp [wordByte]

theorem wordBytes_getD (v : Word) {j : Nat} (hj : j < 8) : (wordBytes v).getD j 0 = wordByte v j := by
  simp [wordBytes, List.getD_eq_getElem?_getD, hj]

theorem foldl_or_shift_getLsbD (g : Nat → Byte) (n : Nat) (hn : n ≤ 8) (i : Nat) :
    ((List.range n).foldl (fun (w : Word) j => w ||| ((g j).setWidth 64 <<< (8 * j))) 0).getLsbD i =
      (decide (i < 8 * n) && (g (i / 8)).getLsbD (i % 8)) := by
  induction n with
  | zero => simp
  | succ n ih =>
    rw [List.range_succ, List.foldl_append, List.foldl_cons, List.foldl_nil, BitVec.getLsbD_or, ih (by omega)]
    simp only [BitVec.getLsbD_shiftLeft, BitVec.getLsbD_setWidth]
    by_cases h1 : i < 8 * n
    · have h2 : i < 8 * (n + 1) := by omega
      simp [h1, h2]
    · by_cases h2 : i < 8 * (n + 1)
      · have h3 : i / 8 = n := by omega
        have h4 : i - 8 * n = i % 8 := by omega
        have h5 : i < 64 := by omega
        simp [h1, h2, h3, h4, h5]; intro; omega
      · have h6 : 8 ≤ i - 8 * n := by omega
        simp [h1, h2, BitVec.getLsbD_of_ge (g n) (i - 8 * n) h6]

/-- Bit `i` of the little-endian word at `a` is bit `i mod 8` of byte `a + i div 8` (R73). -/
theorem Memory.readWord_getLsbD (m : Memory) (a i : Nat) :
    (m.readWord a).getLsbD i = (decide (i < 64) && (m.readByte (a + i / 8)).getLsbD (i % 8)) := by
  rw [Memory.readWord, foldl_or_shift_getLsbD (fun j => m.readByte (a + j)) 8 (by omega)]

/-- A read after a write of a word. -/
theorem Memory.readByte_writeWord {m : Memory} (h : Memory.wf m = true) (a : Nat) (v : Word) (b : Nat) :
    (m.writeWord a v).readByte b = if a ≤ b ∧ b < a + 8 then wordByte v (b - a) else m.readByte b := by
  rw [Memory.writeWord, Memory.readByte_writeBytes h, wordBytes_length]
  by_cases hb : a ≤ b ∧ b < a + 8
  · rw [if_pos hb, if_pos hb, wordBytes_getD _ (by omega)]
  · rw [if_neg hb, if_neg hb]

theorem Memory.readWord_writeWord {m : Memory} (h : Memory.wf m = true) (a : Nat) (v : Word) :
    (m.writeWord a v).readWord a = v := by
  apply BitVec.eq_of_getLsbD_eq
  intro i hi
  rw [Memory.readWord_getLsbD, Memory.readByte_writeWord h]
  have h1 : a ≤ a + i / 8 ∧ a + i / 8 < a + 8 := by omega
  have h2 : 8 * (i / 8) + i % 8 = i := by omega
  have h3 : i % 8 < 8 := by omega
  rw [if_pos h1, Nat.add_sub_cancel_left, wordByte_getLsbD, h2]
  simp [hi, h3]

theorem flatMap_wordBytes_length (vs : List Word) : (vs.flatMap wordBytes).length = 8 * vs.length := by
  induction vs with
  | nil => rfl
  | cons v vs ih => rw [List.flatMap_cons, List.length_append, ih, wordBytes_length, List.length_cons]; omega

theorem flatMap_wordBytes_getD (vs : List Word) {i : Nat} (hi : i < 8 * vs.length) :
    (vs.flatMap wordBytes).getD i 0 = wordByte (vs.getD (i / 8) 0) (i % 8) := by
  induction vs generalizing i with
  | nil => simp at hi
  | cons v vs ih =>
    rw [List.flatMap_cons, List.getD_eq_getElem?_getD]
    rw [List.length_cons] at hi
    by_cases h : i < 8
    · have h1 : i / 8 = 0 := by omega
      have h2 : i % 8 = i := by omega
      rw [List.getElem?_append_left (by rw [wordBytes_length]; exact h), ← List.getD_eq_getElem?_getD,
        wordBytes_getD v h, h1, h2]
      rfl
    · have h1 : i / 8 = (i - 8) / 8 + 1 := by omega
      have h2 : i % 8 = (i - 8) % 8 := by omega
      rw [List.getElem?_append_right (by rw [wordBytes_length]; omega), wordBytes_length,
        ← List.getD_eq_getElem?_getD, ih (by omega), h1, h2, List.getD_cons_succ]

/-- A read after a write of consecutive words. -/
theorem Memory.readByte_writeWords {m : Memory} (h : Memory.wf m = true) (a : Nat) (vs : List Word) (b : Nat) :
    (m.writeWords a vs).readByte b =
      if a ≤ b ∧ b < a + 8 * vs.length then wordByte (vs.getD ((b - a) / 8) 0) ((b - a) % 8) else m.readByte b := by
  rw [Memory.writeWords, Memory.readByte_writeBytes h, flatMap_wordBytes_length]
  by_cases hb : a ≤ b ∧ b < a + 8 * vs.length
  · rw [if_pos hb, if_pos hb, flatMap_wordBytes_getD _ (by omega)]
  · rw [if_neg hb, if_neg hb]

theorem Memory.within_writeWords {m : Memory} {size a : Nat} (h : m.Within size) {vs : List Word}
    (ha : a + 8 * vs.length ≤ size) : (m.writeWords a vs).Within size :=
  Memory.within_writeBytes h (by rw [flatMap_wordBytes_length]; exact ha)

theorem Memory.within_writeWord {m : Memory} {size a : Nat} (h : m.Within size) (v : Word) (ha : a + 8 ≤ size) :
    (m.writeWord a v).Within size :=
  Memory.within_writeBytes h (by rw [wordBytes_length]; exact ha)

/-- Word `j` of consecutive words written at `a` reads back. -/
theorem Memory.readWord_writeWords {m : Memory} (h : Memory.wf m = true) (a : Nat) (vs : List Word) {j : Nat}
    (hj : j < vs.length) : (m.writeWords a vs).readWord (a + 8 * j) = vs.getD j 0 := by
  apply BitVec.eq_of_getLsbD_eq
  intro i hi
  rw [Memory.readWord_getLsbD, Memory.readByte_writeWords h]
  have h1 : a ≤ a + 8 * j + i / 8 ∧ a + 8 * j + i / 8 < a + 8 * vs.length := by omega
  have h2 : (a + 8 * j + i / 8 - a) / 8 = j := by omega
  have h3 : (a + 8 * j + i / 8 - a) % 8 = i / 8 := by omega
  have h4 : 8 * (i / 8) + i % 8 = i := by omega
  have h5 : i % 8 < 8 := by omega
  rw [if_pos h1, h2, h3, wordByte_getLsbD, h4]
  simp [hi, h5]

/-- The reset state's exchange buffer has the canonical form. -/
theorem State.reset_xb_wf : Memory.wf State.reset.xb = true := rfl

end Sys2Proof.Machine
end

