-- ==== Sys2Proof/Laws/Outlier.lean ====
section
/-! SUPPORT. The Outlier Coder's helpers, each once (45_outlier_coder.md R293 to R296), and the greatest magnitude of an array
(44_speck_engine.md R241). -/

namespace Sys2Proof.Machine

/-! ### The greatest magnitude -/

theorem foldl_max_le_iff (vs : List Word) (m b : Nat) :
    vs.foldl (fun m v => max m v.toNat) m ≤ b ↔ m ≤ b ∧ ∀ v ∈ vs, v.toNat ≤ b := by
  induction vs generalizing m with
  | nil => simp
  | cons v vs ih =>
    rw [List.foldl_cons, ih, Nat.max_le]
    simp only [List.mem_cons, forall_eq_or_imp, and_assoc]

theorem CoefMem.maxMag_le_iff (cm : CoefMem) (b : Nat) : cm.maxMag ≤ b ↔ ∀ v ∈ cm.mag, v.toNat ≤ b := by
  rw [CoefMem.maxMag, foldl_max_le_iff]; simp

theorem CoefMem.toNat_le_maxMag {cm : CoefMem} {v : Word} (h : v ∈ cm.mag) : v.toNat ≤ cm.maxMag :=
  (cm.maxMag_le_iff _).1 (Nat.le_refl _) v h

/-- The greatest magnitude is that of some element, unless it is 0. -/
theorem CoefMem.exists_maxMag {cm : CoefMem} (h : cm.maxMag ≠ 0) : ∃ v ∈ cm.mag, v.toNat = cm.maxMag := by
  by_contra hc
  have : cm.maxMag ≤ cm.maxMag - 1 := by
    rw [CoefMem.maxMag_le_iff]
    intro v hv
    have h1 := CoefMem.toNat_le_maxMag hv
    have h2 : v.toNat ≠ cm.maxMag := fun he => hc ⟨v, hv, he⟩
    omega
  omega

theorem CoefMem.maxMag_lt (cm : CoefMem) : cm.maxMag < 2 ^ 64 := by
  have : cm.maxMag ≤ 2 ^ 64 - 1 := (cm.maxMag_le_iff _).2 fun v _ => by have := v.isLt; omega
  omega

/-- Every magnitude is below the threshold one plane above the first. -/
theorem CoefMem.maxMag_lt_two_pow (cm : CoefMem) : cm.maxMag < 2 ^ (cm.maxbits + 1) := by
  unfold CoefMem.maxbits
  split
  · rename_i h; rw [h]; decide
  · exact Nat.lt_log2_self

theorem CoefMem.maxbits_le (cm : CoefMem) : cm.maxbits ≤ 63 := by
  unfold CoefMem.maxbits
  split
  · omega
  · rename_i h
    have : flog2 cm.maxMag < 64 := (Nat.log2_lt h).2 cm.maxMag_lt
    omega

/-! ### The width selector -/

theorem selectWidth_le (m : Nat) : selectWidth m ≤ 3 := by
  unfold selectWidth
  split
  · omega
  · split
    · omega
    · split <;> omega

/-- The selected width is the narrowest that holds the magnitude (R295). -/
theorem selectWidth_spec {m : Nat} (h : m < 2 ^ 64) :
    m < 2 ^ selectedWidth (selectWidth m) ∧ ∀ v < selectWidth m, 2 ^ selectedWidth v ≤ m := by
  unfold selectWidth selectedWidth
  split
  · refine ⟨by simp; omega, fun v hv => by omega⟩
  · split
    · refine ⟨by simp; omega, fun v hv => ?_⟩
      obtain rfl : v = 0 := by omega
      simp; omega
    · split
      · refine ⟨by simp; omega, fun v hv => ?_⟩
        have : v = 0 ∨ v = 1 := by omega
        rcases this with rfl | rfl <;> simp <;> omega
      · refine ⟨by simp; omega, fun v hv => ?_⟩
        have : v = 0 ∨ v = 1 ∨ v = 2 := by omega
        rcases this with rfl | rfl | rfl <;> simp <;> omega

/-! ### The checks of the records -/

/-- A record passes its checks (R294, 6(a) to 6(d)). -/
theorem checkRecord_eq_none_iff (tau : Word) (n : Nat) (seen : List Nat) (r : OutlierRecord) :
    checkRecord tau n seen r = none ↔ r.pos < n ∧ Real.finite r.error = true ∧
      Real.fge (Real.fabs r.error) tau = true ∧ Real.flt (quantize tau r.error) Real.two64 = true ∧ r.pos ∉ seen := by
  unfold checkRecord
  by_cases h1 : r.pos < n
  · cases h2 : Real.finite r.error <;> cases h3 : Real.fge (Real.fabs r.error) tau <;>
      cases h4 : Real.flt (quantize tau r.error) Real.two64 <;> by_cases h5 : r.pos ∈ seen <;>
      simp [h1, h5]
  · simp [h1]

/-- All records pass exactly where each passes after those before it. -/
theorem checkRecords_eq_none_iff (tau : Word) (n : Nat) (rs : List OutlierRecord) (seen : List Nat) :
    checkRecords tau n seen rs = none ↔ (∀ r ∈ rs, checkRecord tau n seen r = none) ∧ (rs.map (·.pos)).Nodup := by
  induction rs generalizing seen with
  | nil => simp [checkRecords]
  | cons r rs ih =>
    unfold checkRecords
    cases hc : checkRecord tau n seen r with
    | some status => simp [hc]
    | none =>
      have hc' := (checkRecord_eq_none_iff tau n seen r).1 hc
      simp only [ih, List.mem_cons, forall_eq_or_imp, List.map_cons, List.nodup_cons, checkRecord_eq_none_iff, not_or,
        List.mem_map, not_exists, not_and]
      constructor
      · rintro ⟨h, hn⟩
        exact ⟨⟨hc', fun x hx => ⟨(h x hx).1, (h x hx).2.1, (h x hx).2.2.1, (h x hx).2.2.2.1, (h x hx).2.2.2.2.2⟩⟩,
          fun x hx => (h x hx).2.2.2.2.1, hn⟩
      · rintro ⟨⟨-, h⟩, hr, hn⟩
        exact ⟨fun x hx => ⟨(h x hx).1, (h x hx).2.1, (h x hx).2.2.1, (h x hx).2.2.2.1, hr x hx, (h x hx).2.2.2.2⟩, hn⟩

/-- The first record that fails decides the status. -/
theorem checkRecords_append_cons (tau : Word) (n : Nat) (rs : List OutlierRecord) (r : OutlierRecord)
    (rest : List OutlierRecord) (seen : List Nat) (status : Status) (h : checkRecords tau n seen rs = none)
    (hr : checkRecord tau n ((rs.map (·.pos)).reverse ++ seen) r = some status) :
    checkRecords tau n seen (rs ++ r :: rest) = some status := by
  induction rs generalizing seen with
  | nil => simp only [List.map_nil, List.reverse_nil, List.nil_append] at hr; simp [checkRecords, hr]
  | cons q rs ih =>
    rw [checkRecords] at h
    rw [List.cons_append, checkRecords]
    cases hq : checkRecord tau n seen q with
    | some a => rw [hq] at h; simp at h
    | none =>
      rw [hq] at h
      refine ih (q.pos :: seen) h ?_
      rw [List.map_cons, List.reverse_cons, List.append_assoc] at hr
      exact hr

/-! ### The dense arrays -/

@[simp] theorem placeOutlier_d (tau : Word) (cm : CoefMem) (r : OutlierRecord) :
    (CoefMem.placeOutlier tau cm r).d = cm.d := rfl

@[simp] theorem placeOutlier_ext (tau : Word) (cm : CoefMem) (r : OutlierRecord) :
    (CoefMem.placeOutlier tau cm r).ext = cm.ext := rfl

/-- What placing a list of records at distinct positions leaves in the arrays (R294). -/
theorem foldl_placeOutlier (tau : Word) (rs : List OutlierRecord) (cm : CoefMem) (hn : (rs.map (·.pos)).Nodup)
    (hm : ∀ r ∈ rs, r.pos < cm.mag.length) (hs : ∀ r ∈ rs, r.pos < cm.sgn.length) :
    (rs.foldl (CoefMem.placeOutlier tau) cm).d = cm.d ∧
    (rs.foldl (CoefMem.placeOutlier tau) cm).ext = cm.ext ∧
    (rs.foldl (CoefMem.placeOutlier tau) cm).mag.length = cm.mag.length ∧
    (rs.foldl (CoefMem.placeOutlier tau) cm).sgn.length = cm.sgn.length ∧
    (∀ r ∈ rs, (rs.foldl (CoefMem.placeOutlier tau) cm).mag[r.pos]? = some (Real.f2u (quantize tau r.error)) ∧
      (rs.foldl (CoefMem.placeOutlier tau) cm).sgn[r.pos]? = some (!Real.neg r.error)) ∧
    ∀ idx, (∀ r ∈ rs, r.pos ≠ idx) → (rs.foldl (CoefMem.placeOutlier tau) cm).mag[idx]? = cm.mag[idx]? ∧
      (rs.foldl (CoefMem.placeOutlier tau) cm).sgn[idx]? = cm.sgn[idx]? := by
  induction rs generalizing cm with
  | nil => simp
  | cons r rs ih =>
    rw [List.map_cons, List.nodup_cons] at hn
    obtain ⟨h1, h2, h3, h4, h5, h6⟩ := ih (CoefMem.placeOutlier tau cm r) hn.2
      (fun q hq => by simpa [CoefMem.placeOutlier] using hm q (List.mem_cons_of_mem _ hq))
      (fun q hq => by simpa [CoefMem.placeOutlier] using hs q (List.mem_cons_of_mem _ hq))
    have hr : ∀ q ∈ rs, q.pos ≠ r.pos := fun q hq he => hn.1 (he ▸ List.mem_map_of_mem hq)
    have hml := hm r List.mem_cons_self
    have hsl := hs r List.mem_cons_self
    refine ⟨h1, h2, by rw [List.foldl_cons, h3]; simp [CoefMem.placeOutlier],
      by rw [List.foldl_cons, h4]; simp [CoefMem.placeOutlier], ?_, ?_⟩
    · intro q hq
      rcases List.mem_cons.1 hq with rfl | hq
      · obtain ⟨ha, hb⟩ := h6 q.pos hr
        rw [List.foldl_cons, ha, hb]
        simp [CoefMem.placeOutlier, hml, hsl]
      · exact h5 q hq
    · intro idx hidx
      obtain ⟨ha, hb⟩ := h6 idx fun q hq => hidx q (List.mem_cons_of_mem _ hq)
      have hne : r.pos ≠ idx := hidx r List.mem_cons_self
      rw [List.foldl_cons, ha, hb]
      simp [CoefMem.placeOutlier, hne]

/-! ### The output list -/

theorem CoefMem.mem_outlierPositions (cm : CoefMem) (idx : Nat) :
    idx ∈ cm.outlierPositions ↔ idx < cm.n ∧ cm.mag.getD idx 0 ≠ 0 := by
  simp [CoefMem.outlierPositions]

theorem CoefMem.outlierPositions_pairwise (cm : CoefMem) : cm.outlierPositions.Pairwise (· < ·) :=
  List.Pairwise.filter _ List.pairwise_lt_range

theorem CoefMem.outlierPositions_length_le (cm : CoefMem) : cm.outlierPositions.length ≤ cm.n := by
  have := List.length_filter_le (fun idx => cm.mag.getD idx 0 != 0) (List.range cm.n)
  rwa [List.length_range] at this

/-- The two words of each outlier, in the list's order (R293, R296). -/
theorem flatMap_pair_getD (f g : Nat → Word) (xs : List Nat) {j : Nat} (hj : j < xs.length) :
    (xs.flatMap fun i => [f i, g i]).getD (2 * j) 0 = f xs[j] ∧
      (xs.flatMap fun i => [f i, g i]).getD (2 * j + 1) 0 = g xs[j] := by
  induction xs generalizing j with
  | nil => simp at hj
  | cons x xs ih =>
    cases j with
    | zero => simp
    | succ j =>
      have := ih (j := j) (by simpa using hj)
      rw [Nat.mul_add]
      simpa [List.flatMap_cons] using this

theorem flatMap_pair_length (f g : Nat → Word) (xs : List Nat) :
    (xs.flatMap fun i => [f i, g i]).length = 2 * xs.length := by
  induction xs with
  | nil => rfl
  | cons x xs ih => simp [List.flatMap_cons, ih]; omega

theorem CoefMem.outlierWords_length (tau : Word) (cm : CoefMem) :
    (cm.outlierWords tau).length = 2 * cm.outlierPositions.length := flatMap_pair_length _ _ _

end Sys2Proof.Machine
end

