-- ==== Sys2Proof/Laws/EngineTrip.lean ====
section
/-! SUPPORT. An encoder and a decoder of the stream it leaves, side by side (44_speck_engine.md R240 to R257): bit for bit they
make the same decisions, and after bitplane `p` the decoder's array is the encoder's with the bits below `p` cleared. -/

namespace Sys2Proof.Machine

/-- What stays fixed while the two run: the encoder's array, and the bits and the length of the stream it will have left. -/
structure Trip where
  cm : CoefMem
  bit : Nat → Bool
  len : Nat

variable (c : Trip)

/-- The element's magnitude is below `2^q`. -/
def Trip.Low (q idx : Nat) : Prop := (c.cm.mag.getD idx 0).toNat < 2 ^ q

/-- The value is the element's magnitude with the bits below `q` cleared. -/
def Trip.Cut (q idx : Nat) (v : Word) : Prop := ∀ i, v.getLsbD i = (decide (q ≤ i) && (c.cm.mag.getD idx 0).getLsbD i)

/-- The encoder has left another stream than the fixed one. -/
def Trip.Bad (s : State) : Prop :=
  s.bs.Wf s.cfg ∧ (c.len < s.bs.wpos ∨ ∃ i < s.bs.wpos, s.bs.logical i ≠ c.bit i)

/-- Two pieces side by side, the encoder's first: where the encoder's is done, so is the decoder's, with `P` of both, or the
stream is another; where the encoder's stops, nothing is said. -/
def Trip.Sim {α : Type} (P : α → State → State → Prop) (r r' : Run α) : Prop :=
  match r with
  | .done v s => (∃ u, r' = .done v u ∧ P v s u) ∨ c.Bad s
  | .stop _ _ => True

variable {c}

theorem bad_keeps : EngineKeeps .enc c.Bad fun _ _ => True where
  budget _ _ _ := trivial
  put _ s bit bs h _ hp := by
    obtain ⟨hw, hb⟩ := h
    rcases BitStream.put_cases hw bit with ⟨-, -, hn⟩ | ⟨-, g, hg, hgw, -, hgp, -, -, hgl⟩
    · rw [hp] at hn; cases hn
    · rw [hp] at hg; cases hg
      refine ⟨hgw, ?_⟩
      show c.len < bs.wpos ∨ ∃ i < bs.wpos, bs.logical i ≠ c.bit i
      rcases hb with hb | ⟨i, hi, hne⟩
      · left; omega
      · right; exact ⟨i, by omega, by rw [hgl, if_neg (by omega)]; exact hne⟩
  full _ _ _ _ _ _ := trivial
  take hm := by cases hm
  short hm := by cases hm
  setMag hm := by cases hm
  setSgn hm := by cases hm
  setLip _ _ _ h := h
  pushLsp _ _ h := h
  setLis _ _ h := h
  setIdepth _ _ h := h
  setPlane _ _ h := h

/-- What the leader's pieces keep, whatever they keep bit by bit. -/
def Sweeps {α : Type} (f : State → Run α) : Prop :=
  ∀ (P : State → Prop) (Q : Status → State → Prop), EngineKeeps .enc P Q → ∀ s, P s → (f s).Ends P Q

theorem sim_andThen {α β : Type} {P : α → State → State → Prop} {P' : β → State → State → Prop} {r r' : Run α}
    {next next' : α → State → Run β} (hr : c.Sim P r r')
    (hn : ∀ v s u, P v s u → c.Sim P' (next v s) (next' v u)) (hk : ∀ v, Sweeps (next v)) :
    c.Sim P' (r.andThen next) (r'.andThen next') := by
  cases r with
  | stop a s => exact trivial
  | done v s =>
    rcases hr with ⟨u, rfl, hp⟩ | hb
    · exact hn v s u hp
    · have he := hk v _ _ (bad_keeps (c := c)) s hb
      show c.Sim P' (next v s) _
      cases hx : next v s with
      | done w x => rw [hx] at he; exact .inr he
      | stop a x => exact trivial

theorem sim_mono {α : Type} {P P' : α → State → State → Prop} {r r' : Run α} (hr : c.Sim P r r')
    (h : ∀ v s u, P v s u → P' v s u) : c.Sim P' r r' := by
  cases r with
  | stop a s => exact trivial
  | done v s =>
    rcases hr with ⟨u, hu, hp⟩ | hb
    · exact .inl ⟨u, hu, h v s u hp⟩
    · exact .inr hb

theorem sim_done {α : Type} {P : α → State → State → Prop} (v : α) {s u : State} (h : P v s u) :
    c.Sim P (.done v s) (.done v u) := .inl ⟨u, rfl, h⟩

theorem sweeps_forEach {α : Type} {f : α → State → Run Unit} (hf : ∀ x, Sweeps (f x)) (xs : List α) :
    Sweeps (forEach f xs) := fun P Q k s hs => ends_forEach (fun x s hs => hf x P Q k s hs) xs s hs

/-! ### The relation -/

/-- The encoder `s` and the decoder `u` stand at the same bit of bitplane `p`, TypeI at depth `k`. `X` names the elements in
flight: taken from a list and not yet put into one. `Y` names the flagged elements that the pass over the LIP has done, and
the lists from level `n` on are done: what is done is below `2^p`, the rest below `2^(p+1)`. `Z` names the significant
elements that the refinement pass has done. -/
structure Trip.Step (c : Trip) (p : Nat) (X Y Z : Nat → Prop) (n k : Nat) (s u : State) : Prop where
  lists : u.lip = s.lip ∧ u.wl.lis = s.wl.lis ∧ u.wl.lsp = s.wl.lsp ∧ u.wl.idepth = s.wl.idepth ∧ u.wl.p = s.wl.p ∧
    u.wl.k = s.wl.k
  here : s.wl.p = p ∧ s.wl.idepth = k ∧ s.wl.k = rootDepth c.cm.ext
  array : s.cm = c.cm
  shape : u.cm.ext = c.cm.ext ∧ u.cm.mag.length = c.cm.n ∧ u.cm.sgn.length = c.cm.n
  stream : s.bs.Wf s.cfg ∧ u.bs.rpos = s.bs.wpos ∧ u.wl.nb = s.wl.nb ∧ u.wl.b = s.wl.b ∧ u.bs.blen = c.len ∧
    ∀ i, u.bs.getbit i = c.bit i
  sizes : s.lip.n = c.cm.n ∧ s.lip.mw.length = maskWords c.cm.n ∧ s.wl.lis.length = rootDepth c.cm.ext + 1
  sets : ∀ i, ∀ o ∈ s.wl.lis.getD i [], o.level = i ∧ o.isPixel = false ∧ o.Fits c.cm.ext ∧
    ∀ idx, o.HasElem c.cm.ext idx → c.Low (p + 1) idx ∧ (n ≤ i → c.Low p idx)
  flagged : ∀ idx < c.cm.n, s.lip.rbit idx = true → c.Low (p + 1) idx ∧ (Y idx → c.Low p idx)
  held : ∀ idx < c.cm.n, X idx ∨ idx ∈ s.wl.lsp ∨ s.lip.rbit idx = true ∨
    (∃ i, ∃ o ∈ s.wl.lis.getD i [], o.HasElem c.cm.ext idx) ∨ TypeIHas c.cm.ext k idx
  found : ∀ idx < c.cm.n, (idx ∈ s.wl.lsp →
      (c.Cut p idx (u.cm.mag.getD idx 0) ∨ (¬ Z idx ∧ c.Cut (p + 1) idx (u.cm.mag.getD idx 0))) ∧
      u.cm.sgn.getD idx true = c.cm.sgn.getD idx true) ∧
    (idx ∉ s.wl.lsp → u.cm.mag.getD idx 0 = 0 ∧ u.cm.sgn.getD idx true = true)
  listed : ∀ idx ∈ s.wl.lsp, idx < c.cm.n ∧ c.cm.mag.getD idx 0 ≠ 0

variable {p n k : Nat} {X Y Z : Nat → Prop} {s u : State}

/-- One coded bit: the decoder takes the bit the encoder decided (R243). -/
theorem sim_codeBit (d d' : State → Bool) (h : c.Step p X Y Z n k s u) :
    c.Sim (fun v s' u' => v = d s ∧ (s'.lip = s.lip ∧ s'.wl.lsp = s.wl.lsp) ∧ c.Step p X Y Z n k s' u')
      (codeBit .enc d s) (codeBit .dec d' u) := by
  obtain ⟨hw, h1, h2, h3, h4, h5⟩ := h.stream
  rw [codeBit_eq, codeBit_eq]
  unfold Coding.code State.coding
  dsimp only
  by_cases hb : s.wl.nb = s.wl.b.toNat
  · rw [if_pos hb]; exact trivial
  · rw [if_neg hb]
    rcases BitStream.put_cases hw (d s) with ⟨-, -, hn⟩ | ⟨-, g, hg, hgw, -, hgp, -, -, hgl⟩
    · rw [hn]; exact trivial
    · rw [hg]
      by_cases hbad : c.len < s.bs.wpos + 1 ∨ d s ≠ c.bit s.bs.wpos
      · right
        refine ⟨hgw, ?_⟩
        rcases hbad with hbad | hbad
        · left
          show c.len < g.wpos
          omega
        · right
          refine ⟨s.bs.wpos, ?_, ?_⟩
          · show s.bs.wpos < g.wpos
            omega
          · show g.logical s.bs.wpos ≠ _
            rw [hgl, if_pos rfl]; exact hbad
      · rw [not_or, not_not] at hbad
        rw [if_neg (show ¬ u.wl.nb = u.wl.b.toNat by rw [h2, h3]; exact hb),
          if_neg (show ¬ u.bs.rpos ≥ u.bs.blen by rw [h1, h4]; omega), h5, h1, ← hbad.2]
        exact .inl ⟨_, rfl, rfl, ⟨rfl, rfl⟩, h.lists, h.here, h.array, h.shape,
          ⟨hgw, hgp.symm, by show u.wl.nb + 1 = s.wl.nb + 1; rw [h2], h3, h4, h5⟩,
          h.sizes, h.sets, h.flagged, h.held, h.found, h.listed⟩

/-! ### Cut magnitudes -/

theorem bit_of_range {x : Word} {p : Nat} (h1 : 2 ^ p ≤ x.toNat) (h2 : x.toNat < 2 ^ (p + 1)) : x.getLsbD p = true := by
  rw [BitVec.getLsbD, Nat.testBit_eq_decide_div_mod_eq, decide_eq_true_eq]
  have : x.toNat / 2 ^ p = 1 := by
    rw [Nat.pow_succ] at h2
    exact Nat.div_eq_of_lt_le (by omega) (by omega)
  rw [this]

theorem bit_of_lt {x : Word} {q i : Nat} (h : x.toNat < 2 ^ q) (hi : q ≤ i) : x.getLsbD i = false := by
  rw [BitVec.getLsbD]
  exact Nat.testBit_lt_two_pow (Nat.lt_of_lt_of_le h (Nat.pow_le_pow_right (by omega) hi))

/-- A magnitude found significant in the bitplane where it becomes so (R247). -/
theorem cut_of_found {idx : Nat} (hlow : c.Low (p + 1) idx) (hp : 2 ^ p ≤ (c.cm.mag.getD idx 0).toNat) :
    c.Cut p idx (BitVec.twoPow 64 p) := by
  have hp64 : p < 64 :=
    (Nat.pow_lt_pow_iff_right (by omega : 1 < 2)).1 (Nat.lt_of_le_of_lt hp (c.cm.mag.getD idx 0).isLt)
  intro i
  rw [BitVec.getLsbD_twoPow]
  by_cases hi : i = p
  · subst hi
    rw [bit_of_range hp hlow]; simp [hp64]
  · have hpi : ¬ p = i := fun h => hi h.symm
    by_cases hle : p ≤ i
    · rw [bit_of_lt hlow (show p + 1 ≤ i by omega)]; simp [hpi]
    · simp [hpi, hle]

/-- A refined magnitude (R245). -/
theorem cut_of_refined {idx : Nat} {v : Word} (h : c.Cut p idx v ∨ c.Cut (p + 1) idx v) :
    c.Cut p idx (if (c.cm.mag.getD idx 0).getLsbD p then v ||| BitVec.twoPow 64 p else v) := by
  intro i
  have hv : i ≠ p → v.getLsbD i = (decide (p ≤ i) && (c.cm.mag.getD idx 0).getLsbD i) := by
    intro hi
    rcases h with h | h
    · exact h i
    · rw [h i]
      have : (p + 1 ≤ i) = (p ≤ i) := by rw [eq_iff_iff]; omega
      simp only [this]
  by_cases hb : (c.cm.mag.getD idx 0).getLsbD p = true
  · have hp64 : p < 64 := by
      by_contra hc
      rw [BitVec.getLsbD_of_ge _ _ (by omega)] at hb
      cases hb
    rw [if_pos hb, BitVec.getLsbD_or, BitVec.getLsbD_twoPow]
    by_cases hi : i = p
    · subst hi; rw [hb]; simp [hp64]
    · have hpi : ¬ p = i := fun h => hi h.symm
      rw [hv hi]; simp [hpi]
  · rw [if_neg hb]
    by_cases hi : i = p
    · subst hi
      rw [Bool.not_eq_true] at hb
      rcases h with h | h
      · exact h i
      · rw [h i, hb]; simp
    · exact hv hi

theorem cut_zero {idx : Nat} {v : Word} (h : c.Cut 0 idx v) : v = c.cm.mag.getD idx 0 := by
  apply BitVec.eq_of_getLsbD_eq
  intro i _
  rw [h i]; simp

theorem getD_set_eq {α : Type} {l : List α} {i : Nat} (h : i < l.length) (v d : α) : (l.set i v).getD i d = v := by
  simp [List.getD_eq_getElem?_getD, h]

theorem getD_set_of_ne {α : Type} {l : List α} {i j : Nat} (h : j ≠ i) (v d : α) : (l.set i v).getD j d = l.getD j d := by
  simp [List.getD_eq_getElem?_getD, List.getElem?_set_ne (Ne.symm h)]

/-! ### Updates of both sides -/

/-- An element found significant becomes listed as such, and is in flight no more (R247). -/
theorem step_found {idx : Nat} {X' : Nat → Prop} (h : c.Step p X Y Z n k s u) (hi : idx < c.cm.n)
    (hlow : c.Low (p + 1) idx) (hsig : 2 ^ p ≤ (c.cm.mag.getD idx 0).toNat) (hX : ∀ j, X j → j = idx ∨ X' j) :
    c.Step p X' Y Z n k (s.pushLsp idx)
      (((u.setMag idx (BitVec.twoPow 64 u.wl.p)).setSgn idx (c.cm.sgn.getD idx true)).pushLsp idx) := by
  obtain ⟨l1, l2, l3, l4, l5, l6⟩ := h.lists
  have hp : u.wl.p = p := l5.trans h.here.1
  have hmem : ∀ j, j ∈ (s.pushLsp idx).wl.lsp ↔ j ∈ s.wl.lsp ∨ j = idx := by
    intro j
    show j ∈ s.wl.lsp ++ [idx] ↔ _
    rw [List.mem_append, List.mem_singleton]
  refine ⟨⟨l1, l2, ?_, l4, l5, l6⟩, h.here, h.array, ⟨h.shape.1, ?_, ?_⟩, h.stream, h.sizes, h.sets, h.flagged, ?_, ?_, ?_⟩
  · show u.wl.lsp ++ [idx] = s.wl.lsp ++ [idx]
    rw [l3]
  · show (u.cm.mag.set idx (BitVec.twoPow 64 u.wl.p)).length = _
    rw [List.length_set]; exact h.shape.2.1
  · show (u.cm.sgn.set idx (c.cm.sgn.getD idx true)).length = _
    rw [List.length_set]; exact h.shape.2.2
  · intro j hj
    rcases h.held j hj with hx | hx | hx
    · rcases hX j hx with rfl | hx
      · exact .inr (.inl ((hmem j).2 (.inr rfl)))
      · exact .inl hx
    · exact .inr (.inl ((hmem j).2 (.inl hx)))
    · exact .inr (.inr hx)
  · intro j hj
    change (j ∈ (s.pushLsp idx).wl.lsp → (c.Cut p j ((u.cm.mag.set idx (BitVec.twoPow 64 u.wl.p)).getD j 0) ∨
        (¬ Z j ∧ c.Cut (p + 1) j ((u.cm.mag.set idx (BitVec.twoPow 64 u.wl.p)).getD j 0))) ∧
        (u.cm.sgn.set idx (c.cm.sgn.getD idx true)).getD j true = c.cm.sgn.getD j true) ∧
      (j ∉ (s.pushLsp idx).wl.lsp → (u.cm.mag.set idx (BitVec.twoPow 64 u.wl.p)).getD j 0 = 0 ∧
        (u.cm.sgn.set idx (c.cm.sgn.getD idx true)).getD j true = true)
    by_cases hji : j = idx
    · subst hji
      rw [getD_set_eq (by rw [h.shape.2.1]; exact hi), getD_set_eq (by rw [h.shape.2.2]; exact hi), hp]
      exact ⟨fun _ => ⟨.inl (cut_of_found hlow hsig), rfl⟩, fun hn => absurd ((hmem j).2 (.inr rfl)) hn⟩
    · rw [getD_set_of_ne hji, getD_set_of_ne hji]
      obtain ⟨f1, f2⟩ := h.found j hj
      refine ⟨fun hm => f1 ?_, fun hm => f2 fun hc => hm ((hmem j).2 (.inl hc))⟩
      rcases (hmem j).1 hm with hm | hm
      · exact hm
      · exact absurd hm hji
  · intro j hj
    rcases (hmem j).1 hj with hj | rfl
    · exact h.listed j hj
    · refine ⟨hi, fun h0 => ?_⟩
      rw [h0] at hsig
      have := Nat.two_pow_pos p
      simp at hsig

theorem step_setLip {idx : Nat} {X' Y' : Nat → Prop} {v : Bool} (h : c.Step p X Y Z n k s u)
    (hflag : ∀ j < c.cm.n, (s.lip.wbit idx v).rbit j = true → c.Low (p + 1) j ∧ (Y' j → c.Low p j))
    (hheld : ∀ j < c.cm.n, X j ∨ s.lip.rbit j = true → X' j ∨ j ∈ s.wl.lsp ∨ (s.lip.wbit idx v).rbit j = true) :
    c.Step p X' Y' Z n k (s.setLip idx v) (u.setLip idx v) := by
  obtain ⟨l1, l2, l3, l4, l5, l6⟩ := h.lists
  refine ⟨⟨?_, l2, l3, l4, l5, l6⟩, h.here, h.array, h.shape, h.stream, ⟨h.sizes.1, ?_, h.sizes.2.2⟩, h.sets, hflag, ?_,
    h.found, h.listed⟩
  · show u.lip.wbit idx v = s.lip.wbit idx v
    rw [l1]
  · show (setBitAt s.lip.mw idx v).length = _
    rw [setBitAt_length]; exact h.sizes.2.1
  · intro j hj
    have hto := hheld j hj
    rcases h.held j hj with hx | hx | hx | hx
    · rcases hto (.inl hx) with hx | hx | hx
      · exact .inl hx
      · exact .inr (.inl hx)
      · exact .inr (.inr (.inl hx))
    · exact .inr (.inl hx)
    · rcases hto (.inr hx) with hx | hx | hx
      · exact .inl hx
      · exact .inr (.inl hx)
      · exact .inr (.inr (.inl hx))
    · exact .inr (.inr (.inr hx))

theorem step_rbit_wbit (h : c.Step p X Y Z n k s u) {idx : Nat} (hi : idx < c.cm.n) (v : Bool) (j : Nat) :
    (s.lip.wbit idx v).rbit j = if j = idx then v else s.lip.rbit j := by
  have hw : s.lip.Wf c.cm.n := ⟨Nat.le_of_eq h.sizes.1, by rw [h.sizes.1]; exact h.sizes.2.1⟩
  exact Bitmask.rbit_wbit hw (by rw [h.sizes.1]; exact hi) v j

/-- A set of insignificant elements goes to the end of its level's list (R248, R249). -/
theorem step_pushLis {o : CoefSet} {X' : Nat → Prop} (h : c.Step p X Y Z n k s u) (hf : o.Fits c.cm.ext)
    (hpx : o.isPixel = false) (hlow : ∀ idx, o.HasElem c.cm.ext idx → c.Low p idx)
    (hX : ∀ j, X j → o.HasElem c.cm.ext j ∨ X' j) : c.Step p X' Y Z n k (s.pushLis o) (u.pushLis o) := by
  obtain ⟨l1, l2, l3, l4, l5, l6⟩ := h.lists
  have hlev := CoefSet.level_lt_of_not_pixel hf hpx
  have hlen : o.level < s.wl.lis.length := by rw [h.sizes.2.2]; omega
  have hget : ∀ i q, q ∈ (s.pushLis o).wl.lis.getD i [] ↔ q ∈ s.wl.lis.getD i [] ∨ (i = o.level ∧ q = o) := by
    intro i q
    show q ∈ (s.wl.lis.set o.level (s.wl.lis.getD o.level [] ++ [o])).getD i [] ↔ _
    by_cases hi : i = o.level
    · subst hi
      rw [getD_set_eq hlen, List.mem_append, List.mem_singleton]; simp
    · rw [getD_set_of_ne hi]; simp [hi]
  refine ⟨⟨l1, ?_, l3, l4, l5, l6⟩, h.here, h.array, h.shape, h.stream, ⟨h.sizes.1, h.sizes.2.1, ?_⟩, ?_, h.flagged, ?_,
    h.found, h.listed⟩
  · show u.wl.lis.set o.level (u.wl.lis.getD o.level [] ++ [o]) = s.wl.lis.set o.level (s.wl.lis.getD o.level [] ++ [o])
    rw [l2]
  · show (s.wl.lis.set o.level _).length = _
    rw [List.length_set]; exact h.sizes.2.2
  · intro i q hq
    rcases (hget i q).1 hq with hq | ⟨rfl, rfl⟩
    · exact h.sets i q hq
    · refine ⟨rfl, hpx, hf, fun idx hidx => ⟨?_, fun _ => hlow idx hidx⟩⟩
      exact Nat.lt_of_lt_of_le (hlow idx hidx) (Nat.pow_le_pow_right (by omega) (by omega))
  · intro j hj
    rcases h.held j hj with hx | hx | hx | ⟨i, q, hq, he⟩ | hx
    · rcases hX j hx with hx | hx
      · exact .inr (.inr (.inr (.inl ⟨o.level, o, (hget _ _).2 (.inr ⟨rfl, rfl⟩), hx⟩)))
      · exact .inl hx
    · exact .inr (.inl hx)
    · exact .inr (.inr (.inl hx))
    · exact .inr (.inr (.inr (.inl ⟨i, q, (hget _ _).2 (.inl hq), he⟩)))
    · exact .inr (.inr (.inr (.inr hx)))

theorem step_mono {X' : Nat → Prop} (h : c.Step p X Y Z n k s u) (hX : ∀ j, X j → X' j) : c.Step p X' Y Z n k s u :=
  ⟨h.lists, h.here, h.array, h.shape, h.stream, h.sizes, h.sets, h.flagged, fun j hj => (h.held j hj).imp_left (hX j),
    h.found, h.listed⟩

/-! ### Refinement (R245) -/

theorem sweeps_codeBit (d : State → Bool) : Sweeps (codeBit .enc d) := fun _ _ k s hs => ends_codeBit k d s hs

theorem sim_refineOne {idx : Nat} (h : c.Step p X Y Z n k s u) (hi : idx ∈ s.wl.lsp) :
    c.Sim (fun _ s' u' => s'.wl.lsp = s.wl.lsp ∧ c.Step p X Y (fun j => j = idx ∨ Z j) n k s' u')
      (refineOne .enc idx s) (refineOne .dec idx u) := by
  have hd : (s.cm.mag.getD idx 0).getLsbD s.wl.p = (c.cm.mag.getD idx 0).getLsbD p := by rw [h.array, h.here.1]
  refine sim_andThen (sim_codeBit _ _ h) (fun bit s' u' hv => ?_) fun _ P Q k s hs => hs
  obtain ⟨rfl, ⟨-, hlsp⟩, h'⟩ := hv
  rw [hd]
  refine sim_done () ⟨hlsp, ?_⟩
  have hi' : idx ∈ s'.wl.lsp := by rw [hlsp]; exact hi
  have hlt := (h'.listed idx hi').1
  have hp : u'.wl.p = p := h'.lists.2.2.2.2.1.trans h'.here.1
  have hcut : c.Cut p idx (u'.cm.mag.getD idx 0) ∨ c.Cut (p + 1) idx (u'.cm.mag.getD idx 0) :=
    ((h'.found idx hlt).1 hi').1.imp_right And.right
  have hr := cut_of_refined hcut
  by_cases hb : (c.cm.mag.getD idx 0).getLsbD p = true
  · rw [if_pos hb] at hr ⊢
    refine ⟨h'.lists, h'.here, h'.array, ⟨h'.shape.1, ?_, h'.shape.2.2⟩, h'.stream, h'.sizes, h'.sets, h'.flagged,
      h'.held, ?_, h'.listed⟩
    · show (u'.cm.mag.set idx _).length = _
      rw [List.length_set]; exact h'.shape.2.1
    · intro j hj
      obtain ⟨f1, f2⟩ := h'.found j hj
      change (j ∈ s'.wl.lsp → (c.Cut p j ((u'.cm.mag.set idx (u'.cm.mag.getD idx 0 ||| BitVec.twoPow 64 u'.wl.p)).getD j 0) ∨
          (¬ (j = idx ∨ Z j) ∧
            c.Cut (p + 1) j ((u'.cm.mag.set idx (u'.cm.mag.getD idx 0 ||| BitVec.twoPow 64 u'.wl.p)).getD j 0))) ∧
          u'.cm.sgn.getD j true = c.cm.sgn.getD j true) ∧
        (j ∉ s'.wl.lsp → (u'.cm.mag.set idx (u'.cm.mag.getD idx 0 ||| BitVec.twoPow 64 u'.wl.p)).getD j 0 = 0 ∧
          u'.cm.sgn.getD j true = true)
      by_cases hji : j = idx
      · subst hji
        rw [getD_set_eq (by rw [h'.shape.2.1]; exact hj), hp]
        exact ⟨fun hm => ⟨.inl hr, (f1 hm).2⟩, fun hm => absurd hi' hm⟩
      · rw [getD_set_of_ne hji]
        refine ⟨fun hm => ⟨(f1 hm).1.imp_right fun hz => ⟨?_, hz.2⟩, (f1 hm).2⟩, f2⟩
        rintro (hc | hc)
        · exact hji hc
        · exact hz.1 hc
  · rw [if_neg hb] at hr
    rw [if_neg hb]
    refine ⟨h'.lists, h'.here, h'.array, h'.shape, h'.stream, h'.sizes, h'.sets, h'.flagged, h'.held, ?_, h'.listed⟩
    intro j hj
    obtain ⟨f1, f2⟩ := h'.found j hj
    refine ⟨fun hm => ?_, f2⟩
    by_cases hji : j = idx
    · subst hji; exact ⟨.inl hr, (f1 hm).2⟩
    · refine ⟨(f1 hm).1.imp_right fun hz => ⟨?_, hz.2⟩, (f1 hm).2⟩
      rintro (hc | hc)
      · exact hji hc
      · exact hz.1 hc

theorem sweeps_refineOne (idx : Nat) : Sweeps (refineOne .enc idx) := fun _ _ k s hs => ends_refineOne k idx s hs

theorem sim_refine (l : List Nat) {lsp : List Nat} (h : c.Step p X Y Z n k s u) (hs : s.wl.lsp = lsp)
    (hl : ∀ i ∈ l, i ∈ lsp) :
    c.Sim (fun _ s' u' => s'.wl.lsp = lsp ∧ c.Step p X Y (fun j => j ∈ l ∨ Z j) n k s' u')
      (forEach (refineOne .enc) l s) (forEach (refineOne .dec) l u) := by
  induction l generalizing s u Z with
  | nil =>
    refine sim_done () ⟨hs, h.lists, h.here, h.array, h.shape, h.stream, h.sizes, h.sets, h.flagged, h.held, ?_, h.listed⟩
    intro j hj
    simpa using h.found j hj
  | cons x l ih =>
    refine sim_andThen (sim_refineOne h (by rw [hs]; exact hl x List.mem_cons_self)) (fun _ s' u' hv => ?_)
      fun _ => sweeps_forEach sweeps_refineOne l
    refine sim_mono (ih hv.2 (hv.1.trans hs) fun i hi => hl i (List.mem_cons_of_mem _ hi)) fun _ s' u' hv => ⟨hv.1, ?_⟩
    have h' := hv.2
    refine ⟨h'.lists, h'.here, h'.array, h'.shape, h'.stream, h'.sizes, h'.sets, h'.flagged, h'.held, ?_, h'.listed⟩
    intro j hj
    obtain ⟨f1, f2⟩ := h'.found j hj
    refine ⟨fun hm => ⟨(f1 hm).1.imp_right fun hz => ⟨fun hc => hz.1 ?_, hz.2⟩, (f1 hm).2⟩, f2⟩
    rcases hc with hc | hc
    · rcases List.mem_cons.1 hc with hc | hc
      · exact .inr (.inl hc)
      · exact .inl hc
    · exact .inr (.inr hc)

/-! ### Pixels (R247) -/

theorem sweeps_processPixel (listed : Bool) (idx : Nat) : Sweeps (processPixel .enc listed idx) :=
  fun _ _ k s hs => ends_processPixel k listed idx s hs

/-- One pixel, flagged or new. `X` loses it from flight, and a flagged one is done in the pass over the LIP. -/
theorem sim_processPixel (listed : Bool) {idx : Nat} {X' Y' : Nat → Prop} (h : c.Step p X Y Z n k s u)
    (hi : idx < c.cm.n) (hlow : c.Low (p + 1) idx) (hX : ∀ j, X j → j = idx ∨ X' j)
    (hlisted : listed = true → s.lip.rbit idx = true ∧ ∀ j, X j → X' j)
    (hY : ∀ j, Y' j → (listed = true ∧ j = idx) ∨ Y j) :
    c.Sim (fun _ s' u' => c.Step p X' Y' Z n k s' u') (processPixel .enc listed idx s) (processPixel .dec listed idx u) := by
  have hd : decide (2 ^ s.wl.p ≤ (s.cm.mag.getD idx 0).toNat) = decide (2 ^ p ≤ (c.cm.mag.getD idx 0).toNat) := by
    rw [h.array, h.here.1]
  unfold processPixel
  refine sim_andThen (sim_codeBit _ _ h) (fun sig s' u' hv => ?_) fun sig P Q k s hs => ?_
  · obtain ⟨rfl, ⟨hlip, -⟩, h'⟩ := hv
    rw [hd]
    by_cases hsig : 2 ^ p ≤ (c.cm.mag.getD idx 0).toNat
    · simp only [hsig, decide_true, if_true]
      refine sim_andThen (sim_codeBit _ _ h') (fun sign s2 u2 hv => ?_) fun sign P Q k s hs => ?_
      · obtain ⟨rfl, ⟨hlip2, -⟩, h2⟩ := hv
        have hsgn : s'.cm.sgn.getD idx true = c.cm.sgn.getD idx true := by rw [h'.array]
        rw [hsgn]
        have hin : idx ∈ (s2.pushLsp idx).wl.lsp := by
          show idx ∈ s2.wl.lsp ++ [idx]
          simp
        cases listed with
        | true =>
          have h3 := step_found (X' := X') h2 hi hlow hsig hX
          refine sim_done () ?_
          have h4 := step_setLip (idx := idx) (X' := X') (Y' := Y') (v := false) h3
            (fun j hj hr => ?_) fun j hj hx => ?_
          · exact h4
          · rw [step_rbit_wbit h3 hi] at hr
            by_cases hji : j = idx
            · rw [if_pos hji] at hr; cases hr
            · rw [if_neg hji] at hr
              obtain ⟨f1, f2⟩ := h3.flagged j hj hr
              exact ⟨f1, fun hy => f2 ((hY j hy).resolve_left fun hc => hji hc.2)⟩
          · by_cases hji : j = idx
            · exact .inr (.inl (by rw [hji]; exact hin))
            · rcases hx with hx | hx
              · exact .inl hx
              · right; right
                rw [step_rbit_wbit h3 hi, if_neg hji]; exact hx
        | false =>
          have h3 := step_found (X' := X') h2 hi hlow hsig hX
          refine sim_done () ⟨h3.lists, h3.here, h3.array, h3.shape, h3.stream, h3.sizes, h3.sets, ?_, h3.held, h3.found,
            h3.listed⟩
          intro j hj hr
          obtain ⟨f1, f2⟩ := h3.flagged j hj hr
          exact ⟨f1, fun hy => f2 ((hY j hy).resolve_left fun hc => by cases hc.1)⟩
      · cases listed with
        | true => exact k.pushLsp _ _ (k.setLip _ _ _ hs)
        | false => exact k.pushLsp _ _ hs
    · simp only [hsig, decide_false, Bool.false_eq_true, if_false]
      have hlow' : c.Low p idx := Nat.lt_of_not_le hsig
      cases listed with
      | true =>
        obtain ⟨hr, hX'⟩ := hlisted rfl
        refine sim_done () ⟨h'.lists, h'.here, h'.array, h'.shape, h'.stream, h'.sizes, h'.sets, ?_,
          fun j hj => (h'.held j hj).imp_left (hX' j), h'.found, h'.listed⟩
        intro j hj hrj
        obtain ⟨f1, f2⟩ := h'.flagged j hj hrj
        refine ⟨f1, fun hy => ?_⟩
        rcases hY j hy with ⟨-, rfl⟩ | hy
        · exact hlow'
        · exact f2 hy
      | false =>
        refine sim_done () (step_setLip h' (fun j hj hr => ?_) fun j hj hx => ?_)
        · rw [step_rbit_wbit h' hi] at hr
          by_cases hji : j = idx
          · subst hji; exact ⟨hlow, fun _ => hlow'⟩
          · rw [if_neg hji] at hr
            obtain ⟨f1, f2⟩ := h'.flagged j hj hr
            exact ⟨f1, fun hy => f2 ((hY j hy).resolve_left fun hc => hji hc.2)⟩
        · by_cases hji : j = idx
          · right; right; rw [step_rbit_wbit h' hi, if_pos hji]
          · rcases hx with hx | hx
            · exact .inl ((hX j hx).resolve_left hji)
            · right; right; rw [step_rbit_wbit h' hi, if_neg hji]; exact hx
  · cases sig with
    | true =>
      refine Run.ends_andThen (ends_codeBit k _ s hs) fun sign s hs => ?_
      cases listed with
      | true => exact k.pushLsp _ _ (k.setLip _ _ _ hs)
      | false => exact k.pushLsp _ _ hs
    | false =>
      cases listed with
      | true => exact hs
      | false => exact k.setLip _ _ _ hs

/-! ### The pass over the LIP (R246) -/

theorem sim_lipPass (xs : List Nat) (hx : ∀ i ∈ xs, i < c.cm.n) {Y : Nat → Prop}
    (h : c.Step p (fun _ => False) Y Z n k s u) :
    c.Sim (fun _ s' u' => c.Step p (fun _ => False) (fun j => j ∈ xs ∨ Y j) Z n k s' u')
      (forEach (fun idx s => if s.lip.rbit idx then processPixel .enc true idx s else .done () s) xs s)
      (forEach (fun idx s => if s.lip.rbit idx then processPixel .dec true idx s else .done () s) xs u) := by
  induction xs generalizing s u Y with
  | nil =>
    refine sim_done () ⟨h.lists, h.here, h.array, h.shape, h.stream, h.sizes, h.sets, ?_, h.held, h.found, h.listed⟩
    intro j hj hr
    simpa using h.flagged j hj hr
  | cons x xs ih =>
    have hxn := hx x List.mem_cons_self
    have one : c.Sim (fun _ s' u' => c.Step p (fun _ => False) (fun j => j = x ∨ Y j) Z n k s' u')
        (if s.lip.rbit x then processPixel .enc true x s else .done () s)
        (if u.lip.rbit x then processPixel .dec true x u else .done () u) := by
      rw [h.lists.1]
      by_cases hr : s.lip.rbit x = true
      · rw [if_pos hr, if_pos hr]
        exact sim_processPixel true h hxn (h.flagged x hxn hr).1 (fun _ hf => hf.elim) (fun _ => ⟨hr, fun _ hf => hf⟩)
          fun j hy => hy.imp_left fun hj => ⟨rfl, hj⟩
      · rw [if_neg hr, if_neg hr]
        refine sim_done () ⟨h.lists, h.here, h.array, h.shape, h.stream, h.sizes, h.sets, ?_, h.held, h.found, h.listed⟩
        intro j hj hrj
        obtain ⟨f1, f2⟩ := h.flagged j hj hrj
        refine ⟨f1, fun hy => f2 (hy.resolve_left ?_)⟩
        rintro rfl
        exact hr hrj
    refine sim_andThen one (fun _ s' u' h' => ?_) fun _ => sweeps_forEach (fun idx P Q k s hs => ?_) xs
    · refine sim_mono (ih (fun i hi => hx i (List.mem_cons_of_mem _ hi)) h') fun _ s2 u2 h2 => ?_
      refine ⟨h2.lists, h2.here, h2.array, h2.shape, h2.stream, h2.sizes, h2.sets, ?_, h2.held, h2.found, h2.listed⟩
      intro j hj hr
      obtain ⟨f1, f2⟩ := h2.flagged j hj hr
      refine ⟨f1, fun hy => f2 ?_⟩
      rcases hy with hy | hy
      · rcases List.mem_cons.1 hy with rfl | hy
        · exact .inr (.inl rfl)
        · exact .inl hy
      · exact .inr (.inr hy)
    · split
      · exact ends_processPixel k true idx s hs
      · exact hs

/-! ### Sets (R248, R249) -/

/-- What the decoder's and the encoder's `process_set` do side by side, given a depth bound that the set does not exhaust. -/
def SetSim (c : Trip) (p : Nat) (Y Z : Nat → Prop) (k depth : Nat) : Prop :=
  ∀ (n : Nat) (X : Nat → Prop) (o : CoefSet) (s u : State), o.Fits c.cm.ext → o.isPixel = false →
    rootDepth c.cm.ext ≤ depth + o.level → (∀ j, o.HasElem c.cm.ext j → c.Low (p + 1) j) →
    c.Step p (fun j => o.HasElem c.cm.ext j ∨ X j) Y Z n k s u →
    c.Sim (fun sig s' u' => if sig then c.Step p X Y Z n k s' u'
        else c.Step p (fun j => o.HasElem c.cm.ext j ∨ X j) Y Z n k s' u' ∧ ∀ j, o.HasElem c.cm.ext j → c.Low p j)
      (processSet .enc depth o s) (processSet .dec depth o u)

theorem sweeps_processOffspring (depth : Nat) (o : CoefSet) :
    Sweeps (processOffspring .enc (processSet .enc depth) o) :=
  fun _ _ k s hs => ends_processOffspring k (fun o s hs => ends_processSet k depth o s hs) o s hs

theorem elems_lt {o : CoefSet} (hf : o.Fits c.cm.ext) {j : Nat} (h : o.HasElem c.cm.ext j) : j < c.cm.n :=
  CoefSet.HasElem.lt hf h

theorem sim_processOffspring {depth : Nat} (hp : SetSim c p Y Z k depth) {o : CoefSet} (hf : o.Fits c.cm.ext)
    (hd : rootDepth c.cm.ext ≤ depth + o.level) (hlow : ∀ j, o.HasElem c.cm.ext j → c.Low (p + 1) j)
    (h : c.Step p (fun j => o.HasElem c.cm.ext j ∨ X j) Y Z n k s u) :
    c.Sim (fun _ s' u' => c.Step p X Y Z n k s' u') (processOffspring .enc (processSet .enc depth) o s)
      (processOffspring .dec (processSet .dec depth) o u) := by
  unfold processOffspring
  by_cases hpx : o.isPixel = true
  · rw [if_pos hpx, if_pos hpx, h.array, h.shape.1]
    have he := CoefSet.hasElem_pixel (ext := c.cm.ext) hpx
    have h0 := (he _).2 rfl
    exact sim_processPixel false h (elems_lt hf h0) (hlow _ h0) (fun j hj => hj.imp_left (he j).1)
      (fun hc => by cases hc) fun _ hy => .inr hy
  · rw [if_neg hpx, if_neg hpx]
    have hpx' : o.isPixel = false := by simpa using hpx
    refine sim_andThen (hp n X o s u hf hpx' hd hlow h) (fun sig s' u' hv => ?_) fun sig P Q k s hs => ?_
    · cases sig with
      | true => exact sim_done () hv
      | false => exact sim_done () (step_pushLis hv.1 hf hpx' hv.2 fun _ hj => hj)
    · cases sig with
      | true => exact hs
      | false => exact k.setLis s _ hs

theorem sim_offsprings {depth : Nat} (hp : SetSim c p Y Z k depth) (l : List CoefSet)
    (hl : ∀ o ∈ l, o.Fits c.cm.ext ∧ rootDepth c.cm.ext ≤ depth + o.level ∧
      ∀ j, o.HasElem c.cm.ext j → c.Low (p + 1) j)
    (h : c.Step p (fun j => (∃ o ∈ l, o.HasElem c.cm.ext j) ∨ X j) Y Z n k s u) :
    c.Sim (fun _ s' u' => c.Step p X Y Z n k s' u') (forEach (processOffspring .enc (processSet .enc depth)) l s)
      (forEach (processOffspring .dec (processSet .dec depth)) l u) := by
  induction l generalizing s u with
  | nil => exact sim_done () (step_mono h fun j hj => by simpa using hj)
  | cons o l ih =>
    obtain ⟨hf, hd, hlow⟩ := hl o List.mem_cons_self
    refine sim_andThen (sim_processOffspring (X := fun j => (∃ o ∈ l, o.HasElem c.cm.ext j) ∨ X j) hp hf hd hlow
      (step_mono h fun j hj => ?_)) (fun _ s' u' h' => ih (fun q hq => hl q (List.mem_cons_of_mem _ hq)) h')
      fun _ => sweeps_forEach (sweeps_processOffspring depth) l
    rcases hj with ⟨q, hq, hj⟩ | hj
    · rcases List.mem_cons.1 hq with rfl | hq
      · exact .inl hj
      · exact .inr (.inl ⟨q, hq, hj⟩)
    · exact .inr (.inr hj)

theorem sim_processSet (depth : Nat) : SetSim c p Y Z k depth := by
  induction depth with
  | zero =>
    intro n X o s u hf hpx hd _ _
    have := CoefSet.level_lt_of_not_pixel hf hpx
    omega
  | succ depth ih =>
    intro n X o s u hf hpx hd hlow h
    have hdec : s.cm.significant s.wl.p o = c.cm.significant p o := by rw [h.array, h.here.1]
    refine sim_andThen (sim_codeBit _ _ h) (fun sig s' u' hv => ?_) fun sig P Q k s hs => ?_
    · obtain ⟨rfl, -, h'⟩ := hv
      rw [hdec]
      cases hsig : c.cm.significant p o with
      | false =>
        refine sim_done false ⟨h', ?_⟩
        rintro j ⟨t, ht, rfl⟩
        have hn : ¬ c.cm.significant p o = true := by rw [hsig]; simp
        rw [CoefMem.significant_iff, not_exists] at hn
        exact Nat.lt_of_not_le fun hle => hn t ⟨ht, hle⟩
      | true =>
        refine sim_andThen (sim_offsprings ih (splitS o) (fun q hq => ⟨fits_splitS hf hq, ?_, fun j hj => ?_⟩)
          (X := X) (step_mono h' fun j hj => ?_)) (fun _ s2 u2 h2 => sim_done true h2) fun _ _ _ _ _ hs => hs
        · obtain ⟨-, b, -, rfl⟩ := (mem_splitS o q).1 hq
          rw [candidate_level]; omega
        · exact hlow j ((hasElem_splitS o j).1 ⟨q, hq, hj⟩)
        · exact hj.imp_left (hasElem_splitS o j).2
    · cases sig with
      | false => exact hs
      | true =>
        exact Run.ends_andThen (sweeps_forEach (sweeps_processOffspring depth) (splitS o) P Q k s hs) fun _ _ hs => hs

theorem sweeps_lisOne (level : Nat) (o : CoefSet) : Sweeps (lisOne .enc level o) := by
  intro P Q k s hs
  refine Run.ends_andThen (ends_processSet k _ o s hs) fun sig s hs => ?_
  cases sig with
  | true => exact hs
  | false => exact k.setLis s _ hs

theorem sim_lisOne {level : Nat} {o : CoefSet} (hf : o.Fits c.cm.ext) (hpx : o.isPixel = false) (hlev : o.level = level)
    (hlow : ∀ j, o.HasElem c.cm.ext j → c.Low (p + 1) j)
    (h : c.Step p (fun j => o.HasElem c.cm.ext j ∨ X j) Y Z n k s u) :
    c.Sim (fun _ s' u' => c.Step p X Y Z n k s' u') (lisOne .enc level o s) (lisOne .dec level o u) := by
  unfold lisOne
  rw [h.lists.2.2.2.2.2, h.here.2.2]
  refine sim_andThen (sim_processSet _ n X o s u hf hpx (Nat.le_add_right _ _) hlow h) (fun sig s' u' hv => ?_)
    fun sig P Q k s hs => ?_
  · cases sig with
    | true => exact sim_done () hv
    | false =>
      have := step_pushLis (X' := X) hv.1 hf hpx hv.2 fun _ hj => hj
      unfold State.pushLis at this
      rw [hlev] at this
      exact sim_done () this
  · cases sig with
    | true => exact hs
    | false => exact k.setLis s _ hs

theorem sim_lisItems {level : Nat} (l : List CoefSet)
    (hl : ∀ o ∈ l, o.level = level ∧ o.isPixel = false ∧ o.Fits c.cm.ext ∧
      ∀ j, o.HasElem c.cm.ext j → c.Low (p + 1) j)
    (h : c.Step p (fun j => (∃ o ∈ l, o.HasElem c.cm.ext j) ∨ X j) Y Z n k s u) :
    c.Sim (fun _ s' u' => c.Step p X Y Z n k s' u') (forEach (lisOne .enc level) l s)
      (forEach (lisOne .dec level) l u) := by
  induction l generalizing s u with
  | nil => exact sim_done () (step_mono h fun j hj => by simpa using hj)
  | cons o l ih =>
    obtain ⟨hlev, hpx, hf, hlow⟩ := hl o List.mem_cons_self
    refine sim_andThen (sim_lisOne (X := fun j => (∃ o ∈ l, o.HasElem c.cm.ext j) ∨ X j) hf hpx hlev hlow
      (step_mono h fun j hj => ?_)) (fun _ s' u' h' => ih (fun q hq => hl q (List.mem_cons_of_mem _ hq)) h')
      fun _ => sweeps_forEach (sweeps_lisOne level) l
    rcases hj with ⟨q, hq, hj⟩ | hj
    · rcases List.mem_cons.1 hq with rfl | hq
      · exact .inl hj
      · exact .inr (.inl ⟨q, hq, hj⟩)
    · exact .inr (.inr hj)

theorem sim_lisLevel {level : Nat} (hlev : level < rootDepth c.cm.ext + 1)
    (h : c.Step p (fun _ => False) Y Z (level + 1) k s u) :
    c.Sim (fun _ s' u' => c.Step p (fun _ => False) Y Z level k s' u') (lisLevel .enc level s) (lisLevel .dec level u) := by
  obtain ⟨l1, l2, l3, l4, l5, l6⟩ := h.lists
  have hlen : level < s.wl.lis.length := by rw [h.sizes.2.2]; exact hlev
  unfold lisLevel
  rw [l2]
  refine sim_lisItems (s.wl.lis.getD level []) (fun o ho => ?_) ?_
  · obtain ⟨h1, h2, h3, h4⟩ := h.sets level o ho
    exact ⟨h1, h2, h3, fun j hj => (h4 j hj).1⟩
  · refine ⟨⟨l1, ?_, l3, l4, l5, l6⟩, h.here, h.array, h.shape, h.stream, ⟨h.sizes.1, h.sizes.2.1, ?_⟩, ?_, h.flagged, ?_,
      h.found, h.listed⟩
    · show u.wl.lis.set level [] = s.wl.lis.set level []
      rw [l2]
    · show (s.wl.lis.set level []).length = _
      rw [List.length_set]; exact h.sizes.2.2
    · intro i o ho
      change o ∈ (s.wl.lis.set level []).getD i [] at ho
      by_cases hi : i = level
      · subst hi; rw [getD_set_eq hlen] at ho; cases ho
      · rw [getD_set_of_ne hi] at ho
        obtain ⟨h1, h2, h3, h4⟩ := h.sets i o ho
        exact ⟨h1, h2, h3, fun j hj => ⟨(h4 j hj).1, fun hle => (h4 j hj).2 (by omega)⟩⟩
    · intro j hj
      rcases h.held j hj with hx | hx | hx | ⟨i, o, ho, he⟩ | hx
      · exact hx.elim
      · exact .inr (.inl hx)
      · exact .inr (.inr (.inl hx))
      · by_cases hi : i = level
        · subst hi; exact .inl (.inl ⟨o, ho, he⟩)
        · refine .inr (.inr (.inr (.inl ⟨i, o, ?_, he⟩)))
          show o ∈ (s.wl.lis.set level []).getD i []
          rw [getD_set_of_ne hi]; exact ho
      · exact .inr (.inr (.inr (.inr hx)))

theorem sim_lisLevels (n : Nat) (hn : n ≤ rootDepth c.cm.ext + 1) (h : c.Step p (fun _ => False) Y Z n k s u) :
    c.Sim (fun _ s' u' => c.Step p (fun _ => False) Y Z 0 k s' u') (lisLevels .enc n s) (lisLevels .dec n u) := by
  induction n generalizing s u with
  | zero => exact sim_done () h
  | succ n ih =>
    exact sim_andThen (sim_lisLevel (by omega) h) (fun _ s' u' h' => ih (by omega) h')
      fun _ _ _ k s hs => ends_lisLevels k n s hs

/-! ### TypeI (R250) -/

theorem sim_typeIPassAt (k : Nat) (h : c.Step p (fun _ => False) Y Z 0 k s u)
    (hlow : ∀ j, TypeIHas c.cm.ext k j → c.Low (p + 1) j) :
    c.Sim (fun _ s' u' => ∃ k', c.Step p (fun _ => False) Y Z 0 k' s' u' ∧ ∀ j, TypeIHas c.cm.ext k' j → c.Low p j)
      (typeIPassAt .enc k s) (typeIPassAt .dec k u) := by
  induction k generalizing s u with
  | zero => exact sim_done () ⟨0, h, fun j hj => (not_typeIHas_zero j hj).elim⟩
  | succ k ih =>
    have hdec : s.cm.significantI s.wl.p (k + 1) = c.cm.significantI p (k + 1) := by rw [h.array, h.here.1]
    refine sim_andThen (sim_codeBit _ _ h) (fun sig s' u' hv => ?_) fun sig P Q kk s hs => ?_
    · obtain ⟨rfl, -, h'⟩ := hv
      rw [hdec]
      cases hsig : c.cm.significantI p (k + 1) with
      | false =>
        refine sim_done () ⟨k + 1, h', ?_⟩
        rintro j ⟨t, ht, hi, rfl⟩
        have hn : ¬ c.cm.significantI p (k + 1) = true := by rw [hsig]; simp
        rw [CoefMem.significantI_iff, not_exists] at hn
        exact Nat.lt_of_not_le fun hle => hn t ⟨ht, hi, hle⟩
      | true =>
        obtain ⟨l1, l2, l3, l4, l5, l6⟩ := h'.lists
        show c.Sim _
          ((forEach (processOffspring .enc (processSet .enc s'.wl.k)) (splitI s'.cm.ext (k + 1)) (s'.setIdepth k)).andThen
            fun _ s => typeIPassAt .enc k s)
          ((forEach (processOffspring .dec (processSet .dec u'.wl.k)) (splitI u'.cm.ext (k + 1)) (u'.setIdepth k)).andThen
            fun _ s => typeIPassAt .dec k s)
        rw [l6, h'.array, h'.shape.1]
        have h2 : c.Step p (fun j => (∃ q ∈ splitI c.cm.ext (k + 1), q.HasElem c.cm.ext j) ∨ False) Y Z 0 k
            (s'.setIdepth k) (u'.setIdepth k) := by
          refine ⟨⟨l1, l2, l3, rfl, l5, l6⟩, ⟨h'.here.1, rfl, h'.here.2.2⟩, h'.array, h'.shape, h'.stream, h'.sizes,
            h'.sets, h'.flagged, ?_, h'.found, h'.listed⟩
          intro j hj
          rcases h'.held j hj with hx | hx | hx | hx | hx
          · exact hx.elim
          · exact .inr (.inl hx)
          · exact .inr (.inr (.inl hx))
          · exact .inr (.inr (.inr (.inl hx)))
          · rcases (typeIHas_succ k j).1 hx with hx | hx
            · exact .inr (.inr (.inr (.inr hx)))
            · exact .inl (.inl hx)
        refine sim_andThen (sim_offsprings (sim_processSet s'.wl.k) (splitI c.cm.ext (k + 1)) (fun q hq => ?_) h2)
          (fun _ s2 u2 h3 => ih h3 fun j hj => hlow j ((typeIHas_succ k j).2 (.inl hj)))
          fun _ _ _ kk s hs => ends_typeIPassAt kk k s hs
        refine ⟨fits_splitI k hq, by rw [h'.here.2.2]; omega, fun j hj => hlow j ?_⟩
        exact (typeIHas_succ k j).2 (.inr ⟨q, hq, hj⟩)
    · cases sig with
      | false => exact hs
      | true =>
        exact Run.ends_andThen (sweeps_forEach (sweeps_processOffspring _) _ P Q kk _ (kk.setIdepth s k hs)) fun _ s hs =>
          ends_typeIPassAt kk k s hs

/-! ### Bitplanes (R244) -/

/-- Between bitplanes, the next being `p`: nothing is in flight, nothing is done, and TypeI is below `2^(p+1)` too. -/
def Trip.Ready (c : Trip) (p : Nat) (s u : State) : Prop :=
  ∃ k, c.Step p (fun _ => False) (fun _ => False) (fun _ => False) (rootDepth c.cm.ext + 1) k (s.setPlane p) (u.setPlane p) ∧
    ∀ j, TypeIHas c.cm.ext k j → c.Low (p + 1) j

/-- After bitplane `p`: everything is done. -/
def Trip.Through (c : Trip) (p : Nat) (s u : State) : Prop :=
  ∃ k, c.Step p (fun _ => False) (fun _ => True) (fun _ => True) 0 k s u ∧ ∀ j, TypeIHas c.cm.ext k j → c.Low p j

theorem sim_plane (p : Nat) (h : c.Ready p s u) :
    c.Sim (fun _ s' u' => c.Through p s' u') (plane .enc p s) (plane .dec p u) := by
  obtain ⟨k, h, hI⟩ := h
  have hr : c.Sim (fun _ s' u' => c.Step p (fun _ => False) (fun _ => False) (fun _ => True)
      (rootDepth c.cm.ext + 1) k s' u') (refinementPass .enc (s.setPlane p)) (refinementPass .dec (u.setPlane p)) := by
    unfold refinementPass
    rw [h.lists.2.2.1]
    refine sim_mono (sim_refine (s.setPlane p).wl.lsp h rfl fun _ hi => hi) fun _ s' u' hv => ?_
    obtain ⟨hlsp, h'⟩ := hv
    refine ⟨h'.lists, h'.here, h'.array, h'.shape, h'.stream, h'.sizes, h'.sets, h'.flagged, h'.held, ?_, h'.listed⟩
    intro j hj
    obtain ⟨f1, f2⟩ := h'.found j hj
    refine ⟨fun hm => ⟨.inl ?_, (f1 hm).2⟩, f2⟩
    rcases (f1 hm).1 with hc | hc
    · exact hc
    · exact absurd (.inl (by rw [← hlsp]; exact hm)) hc.1
  refine sim_andThen hr (fun _ s' u' h' => ?_) fun _ P Q kk s hs => ?_
  · have hlip : c.Sim (fun _ s' u' => c.Step p (fun _ => False) (fun _ => True) (fun _ => True)
        (rootDepth c.cm.ext + 1) k s' u') (lipPass .enc s') (lipPass .dec u') := by
      unfold lipPass
      have e1 : s'.cm.n = c.cm.n := by rw [h'.array]
      have e2 : u'.cm.n = c.cm.n := by unfold CoefMem.n; rw [h'.shape.1]
      rw [e1, e2]
      refine sim_mono (sim_lipPass (List.range c.cm.n) (fun i hi => List.mem_range.1 hi) h') fun _ s2 u2 h2 => ?_
      refine ⟨h2.lists, h2.here, h2.array, h2.shape, h2.stream, h2.sizes, h2.sets, ?_, h2.held, h2.found, h2.listed⟩
      intro j hj hb
      obtain ⟨f1, f2⟩ := h2.flagged j hj hb
      exact ⟨f1, fun _ => f2 (.inl (List.mem_range.2 hj))⟩
    refine sim_andThen hlip (fun _ s2 u2 h2 => ?_) fun _ P Q kk s hs => ?_
    · have hlis : c.Sim (fun _ s' u' => c.Step p (fun _ => False) (fun _ => True) (fun _ => True) 0 k s' u')
          (lisPass .enc s2) (lisPass .dec u2) := by
        unfold lisPass
        rw [h2.lists.2.2.2.2.2, h2.here.2.2]
        exact sim_lisLevels _ (Nat.le_refl _) h2
      refine sim_andThen hlis (fun _ s3 u3 h3 => ?_) fun _ P Q kk s hs => ends_typeIPassAt kk _ s hs
      unfold typeIPass
      rw [h3.lists.2.2.2.1, h3.here.2.1]
      exact sim_typeIPassAt k h3 hI
    · exact Run.ends_andThen (ends_lisLevels kk _ s hs) fun _ s hs => ends_typeIPassAt kk _ s hs
  · exact Run.ends_andThen (ends_lipPass kk s hs) fun _ s hs =>
      Run.ends_andThen (ends_lisLevels kk _ s hs) fun _ s hs => ends_typeIPassAt kk _ s hs

theorem ready_of_through (h : c.Through (p + 1) s u) : c.Ready p s u := by
  obtain ⟨k, h, hI⟩ := h
  refine ⟨k, ⟨?_, ⟨rfl, h.here.2.1, h.here.2.2⟩, h.array, h.shape, h.stream, h.sizes, ?_, ?_, h.held, ?_, h.listed⟩, hI⟩
  · obtain ⟨l1, l2, l3, l4, l5, l6⟩ := h.lists
    exact ⟨l1, l2, l3, l4, rfl, l6⟩
  · intro i o ho
    obtain ⟨h1, h2, h3, h4⟩ := h.sets i o ho
    refine ⟨h1, h2, h3, fun j hj => ⟨(h4 j hj).2 (Nat.zero_le _), fun hle => ?_⟩⟩
    have := CoefSet.level_lt_of_not_pixel h3 h2
    omega
  · intro j hj hr
    exact ⟨(h.flagged j hj hr).2 trivial, fun hf => hf.elim⟩
  · intro j hj
    obtain ⟨f1, f2⟩ := h.found j hj
    refine ⟨fun hm => ⟨?_, (f1 hm).2⟩, f2⟩
    rcases (f1 hm).1 with hc | hc
    · exact .inr ⟨fun hf => hf, hc⟩
    · exact absurd trivial hc.1

theorem sim_planes (p : Nat) (h : c.Ready p s u) :
    c.Sim (fun _ s' u' => c.Through 0 s' u') (planes .enc (p + 1) s) (planes .dec (p + 1) u) := by
  induction p generalizing s u with
  | zero => exact sim_andThen (sim_plane 0 h) (fun _ s' u' h' => sim_done () h') fun _ _ _ _ _ hs => hs
  | succ p ih =>
    exact sim_andThen (sim_plane (p + 1) h) (fun _ s' u' h' => ih (ready_of_through h'))
      fun _ _ _ kk s hs => ends_planes kk (p + 1) s hs

/-- After bitplane 0 the decoder's array is the encoder's (R256). -/
theorem array_of_through (h : c.Through 0 s u) {idx : Nat} (hi : idx < c.cm.n) :
    u.cm.mag.getD idx 0 = c.cm.mag.getD idx 0 ∧
      u.cm.sgn.getD idx true = if c.cm.mag.getD idx 0 = 0 then true else c.cm.sgn.getD idx true := by
  obtain ⟨k, h, hI⟩ := h
  obtain ⟨f1, f2⟩ := h.found idx hi
  by_cases hm : idx ∈ s.wl.lsp
  · obtain ⟨g1, g2⟩ := f1 hm
    have hcut : c.Cut 0 idx (u.cm.mag.getD idx 0) := by
      rcases g1 with g1 | g1
      · exact g1
      · exact absurd trivial g1.1
    rw [cut_zero hcut, if_neg (h.listed idx hm).2]
    exact ⟨rfl, g2⟩
  · obtain ⟨g1, g2⟩ := f2 hm
    have hlow : c.Low 0 idx := by
      rcases h.held idx hi with hx | hx | hx | ⟨i, o, ho, he⟩ | hx
      · exact hx.elim
      · exact absurd hx hm
      · exact (h.flagged idx hi hx).2 trivial
      · exact ((h.sets i o ho).2.2.2 idx he).2 (Nat.zero_le _)
      · exact hI idx hx
    have h0 : c.cm.mag.getD idx 0 = 0 := by
      unfold Trip.Low at hlow
      apply BitVec.eq_of_toNat_eq
      simpa using hlow
    rw [g1, g2, h0]
    exact ⟨rfl, by simp⟩

/-! ### The whole run -/

theorem getD_le_maxMag (cm : CoefMem) (idx : Nat) : (cm.mag.getD idx 0).toNat ≤ cm.maxMag := by
  rw [List.getD_eq_getElem?_getD]
  cases h : cm.mag[idx]? with
  | none => exact Nat.zero_le _
  | some v => exact CoefMem.toNat_le_maxMag (List.mem_of_getElem? h)

/-- The two at their start (R242). -/
theorem ready_init {s v : State} (budget : Word) {bit : Nat → Bool} {len : Nat} (hw : s.bs.Wf s.cfg) (hn : 1 ≤ s.cm.n)
    (hext : v.cm.ext = s.cm.ext) (hr : v.bs.rpos = s.bs.wpos) (hb : v.bs.blen = len)
    (hbit : ∀ i, v.bs.getbit i = bit i) :
    Trip.Ready ⟨s.cm, bit, len⟩ s.cm.maxbits (speckInit .enc budget s) (speckInit .dec budget v) := by
  have hvn : v.cm.n = s.cm.n := by unfold CoefMem.n; rw [hext]
  have hlow : ∀ q, s.cm.maxbits + 1 ≤ q → ∀ idx, Trip.Low ⟨s.cm, bit, len⟩ q idx := by
    intro q hq idx
    refine Nat.lt_of_le_of_lt (getD_le_maxMag s.cm idx) (Nat.lt_of_lt_of_le s.cm.maxMag_lt_two_pow ?_)
    exact Nat.pow_le_pow_right (by omega) hq
  have hlis : ∀ d i, (List.replicate (d + 1) ([] : List CoefSet)).getD i [] = [] := by
    intro d i
    rw [List.getD_eq_getElem?_getD, List.getElem?_replicate]
    split <;> rfl
  have hlipWf : ((s.lip.resize 0).resize s.cm.n).Wf s.cm.n := by
    rw [Bitmask.resize_zero]; exact Bitmask.wf_resize (Bitmask.wf_empty _) (Nat.le_refl _)
  have hlipn : ((s.lip.resize 0).resize s.cm.n).n = s.cm.n := by
    rw [Bitmask.resize_zero]; exact (Bitmask.resize_spec (Bitmask.wf_empty 0) s.cm.n).1
  refine ⟨rootDepth s.cm.ext, ⟨⟨?_, ?_, rfl, ?_, rfl, ?_⟩, ⟨rfl, rfl, rfl⟩, rfl, ⟨hext, ?_, ?_⟩,
    ⟨hw, hr, rfl, rfl, hb, hbit⟩, ⟨hlipn, ?_, ?_⟩, ?_, ?_, ?_, ?_, ?_⟩, fun j _ => hlow _ (Nat.le_refl _) j⟩
  · show ((v.lip.resize 0).resize v.cm.n).wbit 0 true = ((s.lip.resize 0).resize s.cm.n).wbit 0 true
    rw [Bitmask.resize_zero, Bitmask.resize_zero, hvn]
  · show List.replicate (rootDepth v.cm.ext + 1) [] = List.replicate (rootDepth s.cm.ext + 1) []
    rw [hext]
  · show rootDepth v.cm.ext = rootDepth s.cm.ext
    rw [hext]
  · show rootDepth v.cm.ext = rootDepth s.cm.ext
    rw [hext]
  · show (List.replicate v.cm.n (0 : Word)).length = s.cm.n
    rw [List.length_replicate, hvn]
  · show (List.replicate v.cm.n true).length = s.cm.n
    rw [List.length_replicate, hvn]
  · show (setBitAt ((s.lip.resize 0).resize s.cm.n).mw 0 true).length = maskWords s.cm.n
    rw [setBitAt_length, hlipWf.wordsLen, hlipn]
  · show (List.replicate (rootDepth s.cm.ext + 1) ([] : List CoefSet)).length = _
    rw [List.length_replicate]
  · intro i o ho
    change o ∈ (List.replicate (rootDepth s.cm.ext + 1) ([] : List CoefSet)).getD i [] at ho
    rw [hlis] at ho
    cases ho
  · intro idx _ _
    exact ⟨hlow _ (Nat.le_refl _) idx, fun hf => hf.elim⟩
  · intro idx hidx
    rcases typeIHas_root hidx with rfl | hI
    · right; right; left
      show (((s.lip.resize 0).resize s.cm.n).wbit 0 true).rbit 0 = true
      rw [Bitmask.rbit_wbit hlipWf (by rw [hlipn]; exact hn), if_pos rfl]
    · exact .inr (.inr (.inr (.inr hI)))
  · intro idx _
    refine ⟨fun hm => ?_, fun _ => ⟨?_, ?_⟩⟩
    · change idx ∈ ([] : List Nat) at hm
      cases hm
    · show (List.replicate v.cm.n (0 : Word)).getD idx 0 = 0
      rw [List.getD_eq_getElem?_getD, List.getElem?_replicate]; split <;> rfl
    · show (List.replicate v.cm.n true).getD idx true = true
      rw [List.getD_eq_getElem?_getD, List.getElem?_replicate]; split <;> rfl
  · intro idx hm
    change idx ∈ ([] : List Nat) at hm
    cases hm

/-- An encoder's run that its budget did not end, and a decoder's run from where it began on the stream it left, with the same
budget: the decoder consumes as many bits, ends `OK`, and holds the encoder's magnitudes, and its signs wherever the magnitude
is not 0 (R256). -/
theorem speckRun_trip {s v t : State} {nb : Nat} (budget : Word) (hw : s.bs.Wf s.cfg) (hn : 1 ≤ s.cm.n)
    (henc : speckRun .enc budget s.cm.maxbits s = (.ok, nb, t)) (hlt : nb < budget.toNat)
    (hext : v.cm.ext = s.cm.ext) (hr : v.bs.rpos = s.bs.wpos) (hb : v.bs.blen = s.bs.wpos + nb)
    (hbit : ∀ i, v.bs.getbit i = t.bs.getbit i) :
    ∃ u, speckRun .dec budget s.cm.maxbits v = (.ok, nb, u) ∧ ∀ idx < s.cm.n,
      u.cm.mag.getD idx 0 = s.cm.mag.getD idx 0 ∧
      u.cm.sgn.getD idx true = if s.cm.mag.getD idx 0 = 0 then true else s.cm.sgn.getD idx true := by
  have hs := sim_planes s.cm.maxbits (ready_init (v := v) budget (bit := t.bs.getbit) (len := s.bs.wpos + nb) hw hn hext
    hr hb hbit)
  have hk := ends_planes (encodedFrom_keeps (speckInit .enc budget s)) (s.cm.maxbits + 1) (speckInit .enc budget s)
    ⟨SameOutside.refl _, rfl, rfl, Nat.zero_le _, rfl, rfl, ⟨0, (Nat.mul_one _).symm⟩, rfl, fun h => ⟨h, fun _ _ => rfl⟩⟩
  rcases speckRun_cases .enc budget s.cm.maxbits s with ⟨x, hp, hx⟩ | ⟨a, x, hp, hx⟩
  · rw [hx] at henc
    obtain ⟨-, hnb, ht⟩ : Status.ok = Status.ok ∧ x.wl.nb = nb ∧ speckEnd .enc x = t := by
      simpa only [Prod.mk.injEq] using henc
    rw [hp] at hs hk
    have hxw := hk.stream hw
    rcases hs with ⟨y, hy, hthru⟩ | ⟨-, hbad⟩
    · rcases speckRun_cases .dec budget s.cm.maxbits v with ⟨z, hz, hv⟩ | ⟨a, z, hz, hv⟩
      · rw [hy] at hz
        cases hz
        refine ⟨speckEnd .dec y, ?_, fun idx hi => array_of_through hthru hi⟩
        obtain ⟨k, hst, -⟩ := hthru
        rw [hv, hst.stream.2.2.1, hnb]
      · rw [hy] at hz; cases hz
    · exfalso
      have hwp : x.bs.wpos = s.bs.wpos + x.wl.nb := hk.wpos
      rcases hbad with hbad | ⟨i, hi, hne⟩
      · change s.bs.wpos + nb < x.bs.wpos at hbad
        omega
      · apply hne
        show x.bs.logical i = t.bs.getbit i
        rw [← ht]
        have hxw' : x.bs.Wf s.cfg := hxw.1
        exact (BitStream.getBitAt_commit hxw' i).symm
  · exfalso
    rw [hp] at hk
    obtain ⟨h, hq⟩ := hk
    rw [hx] at henc
    by_cases ha : a = .alloc
    · rw [ha] at henc; simp at henc
    · rcases hq with ⟨rfl, hq⟩ | ⟨hq, -⟩
      · have hnb : x.wl.nb = nb := by
          simp only [Prod.mk.injEq] at henc
          exact henc.2.1
        have hbud : x.wl.b = budget := h.budget
        rw [hnb, hbud] at hq
        omega
      · exact ha hq

end Sys2Proof.Machine
end

