-- ==== Sys2Proof/Laws/PerInstr.lean ====
section
/-! SUPPORT. A fact of every command's encoding, constructor by constructor: the frame is of the command's own row of the
opcode table (30_encoding.md R106, R107). -/

namespace Sys2Proof.Laws.EncodingMatchesTable

/-- The encoded frame is selected by the row that carries the command's mnemonic. -/
def Statement (i : Instr) : Prop :=
  ∃ row ∈ opcodeTable, row.mnemonic = Machine.mnemonicOf i ∧ row.selects (encode i) = true

/-- A row whose operands are whole words alone masks nothing. -/
theorem mask_all (h : Word) : h &&& 0xFFFFFFFFFFFFFFFF = h := BitVec.and_allOnes

/-- A row's mask keeps the opcode and drops a small operand `a` that takes all eight bits. -/
theorem mask_a (op a : Byte) : headWord op a 0 &&& 0xFF00FFFFFFFFFFFF = headWord op 0 0 := by
  rw [show (0xFF00FFFFFFFFFFFF : Word) =
    ((0xFF : Byte) ++ (0 : Byte) ++ (0xFF : Byte) ++ (0xFFFFFFFFFF : BitVec 40) : BitVec (8 + 8 + 8 + 40)) from by decide,
    headWord_and, show op &&& 0xFF = op from BitVec.and_allOnes, show a &&& 0 = 0 from BitVec.and_zero]
  rfl

/-- A row's mask drops both small operands. -/
theorem mask_ab (op a b : Byte) : headWord op a b &&& 0xFF0000FFFFFFFFFF = headWord op 0 0 := by
  rw [show (0xFF0000FFFFFFFFFF : Word) =
    ((0xFF : Byte) ++ (0 : Byte) ++ (0 : Byte) ++ (0xFFFFFFFFFF : BitVec 40) : BitVec (8 + 8 + 8 + 40)) from by decide,
    headWord_and, show op &&& 0xFF = op from BitVec.and_allOnes, show a &&& 0 = 0 from BitVec.and_zero,
    show b &&& 0 = 0 from BitVec.and_zero]

/-- A row's mask drops a one-bit operand. -/
theorem mask_bit (op : Byte) (v : Bool) : headWord op (bitField v) 0 &&& 0xFFFEFFFFFFFFFFFF = headWord op 0 0 := by
  rw [show (0xFFFEFFFFFFFFFFFF : Word) =
    ((0xFF : Byte) ++ (0xFE : Byte) ++ (0xFF : Byte) ++ (0xFFFFFFFFFF : BitVec 40) : BitVec (8 + 8 + 8 + 40)) from by decide,
    headWord_and, show op &&& 0xFF = op from BitVec.and_allOnes, show bitField v &&& 0xFE = 0 from by cases v <;> decide]
  rfl

theorem nop : Statement .nop :=
  ⟨⟨"NOP", 0x0000000000000000, 0xFFFFFFFFFFFFFFFF, true, true, true⟩, by simp [opcodeTable], rfl, by rw [OpcodeRow.selects, encode, mask_all]; rfl⟩

theorem reset : Statement .reset :=
  ⟨⟨"RESET", 0x0100000000000000, 0xFFFFFFFFFFFFFFFF, true, true, true⟩, by simp [opcodeTable], rfl, by rw [OpcodeRow.selects, encode, mask_all]; rfl⟩

theorem rdreg (reg : Byte) : Statement (.rdreg reg) :=
  ⟨⟨"RDREG", 0x0200000000000000, 0xFF00FFFFFFFFFFFF, true, true, true⟩, by simp [opcodeTable], rfl, by rw [OpcodeRow.selects, encode, mask_a]; rfl⟩

theorem bsWbit (bit : Bool) : Statement (.bsWbit bit) :=
  ⟨⟨"BS_WBIT", 0x1000000000000000, 0xFFFEFFFFFFFFFFFF, true, true, true⟩, by simp [opcodeTable], rfl, by rw [OpcodeRow.selects, encode, mask_bit]; rfl⟩

theorem bsWbits (n : Byte) (value : Word) : Statement (.bsWbits n value) :=
  ⟨⟨"BS_WBITS", 0x1100000000000000, 0xFF00FFFFFFFFFFFF, false, true, true⟩, by simp [opcodeTable], rfl, by rw [OpcodeRow.selects, encode, mask_a]; rfl⟩

theorem bsRbit : Statement .bsRbit :=
  ⟨⟨"BS_RBIT", 0x1200000000000000, 0xFFFFFFFFFFFFFFFF, true, true, true⟩, by simp [opcodeTable], rfl, by rw [OpcodeRow.selects, encode, mask_all]; rfl⟩

theorem bsRbits (n : Byte) : Statement (.bsRbits n) :=
  ⟨⟨"BS_RBITS", 0x1300000000000000, 0xFF00FFFFFFFFFFFF, true, true, true⟩, by simp [opcodeTable], rfl, by rw [OpcodeRow.selects, encode, mask_a]; rfl⟩

theorem bsRewind : Statement .bsRewind :=
  ⟨⟨"BS_REWIND", 0x1400000000000000, 0xFFFFFFFFFFFFFFFF, true, true, true⟩, by simp [opcodeTable], rfl, by rw [OpcodeRow.selects, encode, mask_all]; rfl⟩

theorem bsWseek (pos : Word) : Statement (.bsWseek pos) :=
  ⟨⟨"BS_WSEEK", 0x1500000000000000, 0xFFFFFFFFFFFFFFFF, false, true, true⟩, by simp [opcodeTable], rfl, by rw [OpcodeRow.selects, encode, mask_all]; rfl⟩

theorem bsRseek (pos : Word) : Statement (.bsRseek pos) :=
  ⟨⟨"BS_RSEEK", 0x1600000000000000, 0xFFFFFFFFFFFFFFFF, false, true, true⟩, by simp [opcodeTable], rfl, by rw [OpcodeRow.selects, encode, mask_all]; rfl⟩

theorem bsFlush : Statement .bsFlush :=
  ⟨⟨"BS_FLUSH", 0x1700000000000000, 0xFFFFFFFFFFFFFFFF, true, true, true⟩, by simp [opcodeTable], rfl, by rw [OpcodeRow.selects, encode, mask_all]; rfl⟩

theorem bsRrbit (pos : Word) : Statement (.bsRrbit pos) :=
  ⟨⟨"BS_RRBIT", 0x1800000000000000, 0xFFFFFFFFFFFFFFFF, false, true, true⟩, by simp [opcodeTable], rfl, by rw [OpcodeRow.selects, encode, mask_all]; rfl⟩

theorem bsRwbit (bit : Bool) (pos : Word) : Statement (.bsRwbit bit pos) :=
  ⟨⟨"BS_RWBIT", 0x1900000000000000, 0xFFFEFFFFFFFFFFFF, false, true, true⟩, by simp [opcodeTable], rfl, by rw [OpcodeRow.selects, encode, mask_bit]; rfl⟩

theorem bsTest (start len : Word) : Statement (.bsTest start len) :=
  ⟨⟨"BS_TEST", 0x1A00000000000000, 0xFFFFFFFFFFFFFFFF, false, false, true⟩, by simp [opcodeTable], rfl, by rw [OpcodeRow.selects, encode, mask_all]; rfl⟩

theorem bsGet (addr : Word) : Statement (.bsGet addr) :=
  ⟨⟨"BS_GET", 0x1B00000000000000, 0xFFFFFFFFFFFFFFFF, false, true, true⟩, by simp [opcodeTable], rfl, by rw [OpcodeRow.selects, encode, mask_all]; rfl⟩

theorem bsParse (addr bits : Word) : Statement (.bsParse addr bits) :=
  ⟨⟨"BS_PARSE", 0x1C00000000000000, 0xFFFFFFFFFFFFFFFF, false, false, true⟩, by simp [opcodeTable], rfl, by rw [OpcodeRow.selects, encode, mask_all]; rfl⟩

theorem mkResize (size : Word) : Statement (.mkResize size) :=
  ⟨⟨"MK_RESIZE", 0x2000000000000000, 0xFFFFFFFFFFFFFFFF, false, true, true⟩, by simp [opcodeTable], rfl, by rw [OpcodeRow.selects, encode, mask_all]; rfl⟩

theorem mkReset : Statement .mkReset :=
  ⟨⟨"MK_RESET", 0x2100000000000000, 0xFFFFFFFFFFFFFFFF, true, true, true⟩, by simp [opcodeTable], rfl, by rw [OpcodeRow.selects, encode, mask_all]; rfl⟩

theorem mkRbit (idx : Word) : Statement (.mkRbit idx) :=
  ⟨⟨"MK_RBIT", 0x2200000000000000, 0xFFFFFFFFFFFFFFFF, false, true, true⟩, by simp [opcodeTable], rfl, by rw [OpcodeRow.selects, encode, mask_all]; rfl⟩

theorem mkWbit (bit : Bool) (idx : Word) : Statement (.mkWbit bit idx) :=
  ⟨⟨"MK_WBIT", 0x2300000000000000, 0xFFFEFFFFFFFFFFFF, false, true, true⟩, by simp [opcodeTable], rfl, by rw [OpcodeRow.selects, encode, mask_bit]; rfl⟩

theorem mkWtrue (idx : Word) : Statement (.mkWtrue idx) :=
  ⟨⟨"MK_WTRUE", 0x2400000000000000, 0xFFFFFFFFFFFFFFFF, false, true, true⟩, by simp [opcodeTable], rfl, by rw [OpcodeRow.selects, encode, mask_all]; rfl⟩

theorem mkWfalse (idx : Word) : Statement (.mkWfalse idx) :=
  ⟨⟨"MK_WFALSE", 0x2500000000000000, 0xFFFFFFFFFFFFFFFF, false, true, true⟩, by simp [opcodeTable], rfl, by rw [OpcodeRow.selects, encode, mask_all]; rfl⟩

theorem mkCount : Statement .mkCount :=
  ⟨⟨"MK_COUNT", 0x2600000000000000, 0xFFFFFFFFFFFFFFFF, true, true, true⟩, by simp [opcodeTable], rfl, by rw [OpcodeRow.selects, encode, mask_all]; rfl⟩

theorem mkHas (start len : Word) : Statement (.mkHas start len) :=
  ⟨⟨"MK_HAS", 0x2700000000000000, 0xFFFFFFFFFFFFFFFF, false, false, true⟩, by simp [opcodeTable], rfl, by rw [OpcodeRow.selects, encode, mask_all]; rfl⟩

theorem mkView (addr : Word) : Statement (.mkView addr) :=
  ⟨⟨"MK_VIEW", 0x2800000000000000, 0xFFFFFFFFFFFFFFFF, false, true, true⟩, by simp [opcodeTable], rfl, by rw [OpcodeRow.selects, encode, mask_all]; rfl⟩

theorem mkUse (addr : Word) : Statement (.mkUse addr) :=
  ⟨⟨"MK_USE", 0x2900000000000000, 0xFFFFFFFFFFFFFFFF, false, true, true⟩, by simp [opcodeTable], rfl, by rw [OpcodeRow.selects, encode, mask_all]; rfl⟩

theorem cmShape (d : Byte) (n0 n1 n2 : Word) : Statement (.cmShape d n0 n1 n2) :=
  ⟨⟨"CM_SHAPE", 0x3000000000000000, 0xFF00FFFFFFFFFFFF, false, false, false⟩, by simp [opcodeTable], rfl, by rw [OpcodeRow.selects, encode, mask_a]; rfl⟩

theorem cmSt (sign : Bool) (idx mag : Word) : Statement (.cmSt sign idx mag) :=
  ⟨⟨"CM_ST", 0x3100000000000000, 0xFFFEFFFFFFFFFFFF, false, false, true⟩, by simp [opcodeTable], rfl, by rw [OpcodeRow.selects, encode, mask_bit]; rfl⟩

theorem cmLd (idx : Word) : Statement (.cmLd idx) :=
  ⟨⟨"CM_LD", 0x3200000000000000, 0xFFFFFFFFFFFFFFFF, false, true, true⟩, by simp [opcodeTable], rfl, by rw [OpcodeRow.selects, encode, mask_all]; rfl⟩

theorem spkEnc (budget : Word) : Statement (.spkEnc budget) :=
  ⟨⟨"SPK_ENC", 0x4000000000000000, 0xFFFFFFFFFFFFFFFF, false, true, true⟩, by simp [opcodeTable], rfl, by rw [OpcodeRow.selects, encode, mask_all]; rfl⟩

theorem spkDec (maxbits : Byte) (budget : Word) : Statement (.spkDec maxbits budget) :=
  ⟨⟨"SPK_DEC", 0x4100000000000000, 0xFF00FFFFFFFFFFFF, false, true, true⟩, by simp [opcodeTable], rfl, by rw [OpcodeRow.selects, encode, mask_a]; rfl⟩

theorem outTol (tau : Word) : Statement (.outTol tau) :=
  ⟨⟨"OUT_TOL", 0x5000000000000000, 0xFFFFFFFFFFFFFFFF, false, true, true⟩, by simp [opcodeTable], rfl, by rw [OpcodeRow.selects, encode, mask_all]; rfl⟩

theorem outEnc (addr count len : Word) : Statement (.outEnc addr count len) :=
  ⟨⟨"OUT_ENC", 0x5100000000000000, 0xFFFFFFFFFFFFFFFF, false, false, false⟩, by simp [opcodeTable], rfl, by rw [OpcodeRow.selects, encode, mask_all]; rfl⟩

theorem outDec (maxbits wsel : Byte) (addr len : Word) : Statement (.outDec maxbits wsel addr len) :=
  ⟨⟨"OUT_DEC", 0x5200000000000000, 0xFF0000FFFFFFFFFF, false, false, true⟩, by simp [opcodeTable], rfl, by rw [OpcodeRow.selects, encode, mask_ab]; rfl⟩

theorem xbSt8 (value : Byte) (addr : Word) : Statement (.xbSt8 value addr) :=
  ⟨⟨"XB_ST8", 0x6000000000000000, 0xFF00FFFFFFFFFFFF, false, true, true⟩, by simp [opcodeTable], rfl, by rw [OpcodeRow.selects, encode, mask_a]; rfl⟩

theorem xbLd8 (addr : Word) : Statement (.xbLd8 addr) :=
  ⟨⟨"XB_LD8", 0x6100000000000000, 0xFFFFFFFFFFFFFFFF, false, true, true⟩, by simp [opcodeTable], rfl, by rw [OpcodeRow.selects, encode, mask_all]; rfl⟩

theorem xbSt64 (addr value : Word) : Statement (.xbSt64 addr value) :=
  ⟨⟨"XB_ST64", 0x6200000000000000, 0xFFFFFFFFFFFFFFFF, false, false, true⟩, by simp [opcodeTable], rfl, by rw [OpcodeRow.selects, encode, mask_all]; rfl⟩

theorem xbLd64 (addr : Word) : Statement (.xbLd64 addr) :=
  ⟨⟨"XB_LD64", 0x6300000000000000, 0xFFFFFFFFFFFFFFFF, false, true, true⟩, by simp [opcodeTable], rfl, by rw [OpcodeRow.selects, encode, mask_all]; rfl⟩

end Sys2Proof.Laws.EncodingMatchesTable
end

