-- ==== Sys2Proof/Laws/Real.lean ====
section
/-! SUPPORT. The binary64 operations, each helper once: what a pattern's fields are, what a pattern with a sign decodes to,
that rounding gives a nearest value, and when it is finite (00_scope.md R10; 45_outlier_coder.md R291). -/

namespace Sys2Proof.Machine.Real

/-- The magnitude bits 62:0 of a pattern, as a number. -/
theorem fabs_toNat (x : Word) : (fabs x).toNat = x.toNat % 2 ^ 63 := by
  rw [fabs, BitVec.toNat_and]
  exact Nat.and_two_pow_sub_one_eq_mod x.toNat 63

theorem expField_eq (x : Word) : expField x = x.toNat / 2 ^ 52 % 2 ^ 11 := by
  simp [expField, BitVec.extractLsb'_toNat, Nat.shiftRight_eq_div_pow]

theorem fracField_eq (x : Word) : fracField x = x.toNat % 2 ^ 52 := by
  simp [fracField, BitVec.extractLsb'_toNat]

theorem neg_iff (x : Word) : neg x = true ↔ 2 ^ 63 ≤ x.toNat := by
  rw [neg, BitVec.getLsbD, Nat.testBit_eq_decide_div_mod_eq, decide_eq_true_eq]
  have := x.isLt
  omega

/-- A pattern is finite exactly where its magnitude bits are below those of infinity. -/
theorem finite_iff (x : Word) : finite x = true ↔ x.toNat % 2 ^ 63 < infBits := by
  rw [finite, bne_iff_ne, expField_eq, infBits]
  have := x.isLt
  omega

/-- The magnitude, in units of `2^-1074`, of the pattern whose bits 62:0 are `n`. -/
theorem units_eq (x : Word) : units x =
    if x.toNat % 2 ^ 63 / 2 ^ 52 = 0 then x.toNat % 2 ^ 63
    else (2 ^ 52 + x.toNat % 2 ^ 52) * 2 ^ (x.toNat % 2 ^ 63 / 2 ^ 52 - 1) := by
  have he : expField x = x.toNat % 2 ^ 63 / 2 ^ 52 := by rw [expField_eq]; omega
  rw [units, he, fracField_eq]
  split
  · omega
  · rfl

/-! ### A pattern with its sign -/

theorem withSign_toNat (s : Bool) {n : Nat} (h : n < 2 ^ 63) :
    (withSign s n).toNat = n + if s then 2 ^ 63 else 0 := by
  cases s with
  | false =>
    have : n % 2 ^ 64 = n := Nat.mod_eq_of_lt (by omega)
    simp [withSign, BitVec.toNat_ofNat]
    omega
  | true =>
    have hn : n % 2 ^ 64 = n := Nat.mod_eq_of_lt (by omega)
    have : n ||| 2 ^ 63 = 2 ^ 63 + n := by
      rw [Nat.lor_comm]; exact (Nat.two_pow_add_eq_or_of_lt h 1 ▸ by simp)
    simp only [withSign, if_true, BitVec.toNat_or, BitVec.toNat_ofNat, hn]
    show n ||| 2 ^ 63 = _
    omega

theorem neg_withSign (s : Bool) {n : Nat} (h : n < 2 ^ 63) : neg (withSign s n) = s := by
  rw [Bool.eq_iff_iff, neg_iff, withSign_toNat s h]
  cases s <;> simp
  omega

theorem finite_withSign (s : Bool) {n : Nat} (h : n < 2 ^ 63) : finite (withSign s n) = true ↔ n < infBits := by
  rw [finite_iff, withSign_toNat s h]
  have : (n + if s then 2 ^ 63 else 0) % 2 ^ 63 = n := by cases s <;> simp <;> omega
  rw [this]

/-! ### Rounding -/

/-- `roundDiv` is within half a unit of the quotient, and even on a tie. -/
theorem roundDiv_spec (num : Nat) {den : Nat} (h : 0 < den) :
    2 * (roundDiv num den * den) ≤ 2 * num + den ∧ 2 * num ≤ 2 * (roundDiv num den * den) + den ∧
    (2 * (roundDiv num den * den) = 2 * num + den ∨ 2 * num = 2 * (roundDiv num den * den) + den →
      roundDiv num den % 2 = 0) := by
  have hd := Nat.div_add_mod num den
  have hm := Nat.mod_lt num h
  rw [Nat.mul_comm] at hd
  have hs : (num / den + 1) * den = num / den * den + den := by rw [Nat.add_mul, Nat.one_mul]
  unfold roundDiv
  dsimp only
  by_cases hc : 2 * (num % den) > den ∨ (2 * (num % den) = den ∧ num / den % 2 = 1)
  · rw [if_pos hc, hs]; refine ⟨by omega, by omega, ?_⟩; omega
  · rw [if_neg hc]; refine ⟨by omega, by omega, ?_⟩; omega

/-- Rounding an exact quotient is exact. -/
theorem roundDiv_mul (n : Nat) {den : Nat} (h : 0 < den) : roundDiv (n * den) den = n := by
  have h1 : n * den % den = 0 := Nat.mul_mod_left n den
  have h2 : n * den / den = n := Nat.mul_div_cancel n h
  simp only [roundDiv, h1, h2]
  rw [if_neg]
  omega

theorem roundDiv_ge (num den : Nat) : num / den ≤ roundDiv num den := by
  unfold roundDiv
  dsimp only
  split <;> omega

theorem roundDiv_le (num den : Nat) : roundDiv num den ≤ num / den + 1 := by
  unfold roundDiv
  dsimp only
  split <;> omega

theorem roundUnits_le (num den : Nat) : roundUnits num den ≤ infBits := Nat.min_le_right _ _

/-- Every pattern that rounding gives fits below the sign bit. -/
theorem roundUnits_lt (num den : Nat) : roundUnits num den < 2 ^ 63 :=
  Nat.lt_of_le_of_lt (roundUnits_le num den) (by decide)

/-- `f2u` on its domain (R291): the integer that the value is. -/
theorem f2u_of_domain {x : Word} (hf : finite x = true) (hs : neg x = false ∨ isZero x = true)
    (hi : units x % 2 ^ 1074 = 0) (hu : units x < 2 ^ (1074 + 64)) :
    f2u x = BitVec.ofNat 64 (units x / 2 ^ 1074) := by
  rw [f2u, if_pos]
  rw [Bool.and_eq_true, Bool.and_eq_true, Bool.and_eq_true, Bool.or_eq_true, Bool.not_eq_true', beq_iff_eq, decide_eq_true_eq]
  exact ⟨⟨⟨hf, hs⟩, hi⟩, hu⟩

/-! ### The nearest value -/

/-- The magnitude, in units of `2^-1074`, of the pattern whose bits 62:0 are `n`. -/
def magOf (n : Nat) : Nat := if n / 2 ^ 52 = 0 then n else (2 ^ 52 + n % 2 ^ 52) * 2 ^ (n / 2 ^ 52 - 1)

theorem units_eq_magOf (x : Word) : units x = magOf (x.toNat % 2 ^ 63) := by
  rw [units_eq, magOf]
  have : x.toNat % 2 ^ 63 % 2 ^ 52 = x.toNat % 2 ^ 52 := by omega
  rw [this]

theorem units_withSign (s : Bool) {n : Nat} (h : n < 2 ^ 63) : units (withSign s n) = magOf n := by
  rw [units_eq_magOf, withSign_toNat s h]
  have : (n + if s then 2 ^ 63 else 0) % 2 ^ 63 = n := by cases s <;> simp <;> omega
  rw [this]

/-- The pattern of `m` significand units in binade `u` has that magnitude, also where `m` fills the binade. -/
theorem magOf_binade {u m : Nat} (h1 : m ≤ 2 ^ 53) (h2 : 0 < u → 2 ^ 52 ≤ m) : magOf (u * 2 ^ 52 + m) = m * 2 ^ u := by
  unfold magOf
  by_cases hm : m < 2 ^ 52
  · have hu : u = 0 := by omega
    subst hu
    rw [if_pos (by omega)]; simp
  · by_cases hm2 : m < 2 ^ 53
    · have hd : (u * 2 ^ 52 + m) / 2 ^ 52 = u + 1 := by omega
      have hr : 2 ^ 52 + (u * 2 ^ 52 + m) % 2 ^ 52 = m := by omega
      rw [hd, hr, if_neg (by omega), Nat.add_sub_cancel]
    · have hm3 : m = 2 ^ 53 := by omega
      have hd : (u * 2 ^ 52 + m) / 2 ^ 52 = u + 2 := by omega
      have hr : (u * 2 ^ 52 + m) % 2 ^ 52 = 0 := by omega
      rw [hd, hr, if_neg (by omega), hm3, show u + 2 - 1 = u + 1 by omega, Nat.pow_succ 2 u]
      omega

/-- Every magnitude is a multiple of `2^u`, or lies below binade `u`. -/
theorem magOf_cases (u n : Nat) : (∃ m, magOf n = m * 2 ^ u) ∨ (0 < u ∧ magOf n < 2 ^ 52 * 2 ^ u) := by
  unfold magOf
  by_cases h0 : n / 2 ^ 52 = 0
  · rw [if_pos h0]
    rcases Nat.eq_zero_or_pos u with rfl | hu
    · exact .inl ⟨n, by simp⟩
    · right
      have : 1 ≤ 2 ^ u := Nat.one_le_two_pow
      refine ⟨hu, Nat.lt_of_lt_of_le (show n < 2 ^ 52 by omega) ?_⟩
      exact Nat.le_mul_of_pos_right _ this
  · rw [if_neg h0]
    by_cases hu : u ≤ n / 2 ^ 52 - 1
    · left
      refine ⟨(2 ^ 52 + n % 2 ^ 52) * 2 ^ (n / 2 ^ 52 - 1 - u), ?_⟩
      rw [Nat.mul_assoc, ← Nat.pow_add]
      congr 2; omega
    · right
      refine ⟨by omega, ?_⟩
      have h1 : 2 ^ 52 + n % 2 ^ 52 < 2 ^ 53 := by omega
      have h2 : 2 ^ (n / 2 ^ 52 - 1) ≤ 2 ^ (u - 1) := Nat.pow_le_pow_right (by omega) (by omega)
      calc (2 ^ 52 + n % 2 ^ 52) * 2 ^ (n / 2 ^ 52 - 1)
          < 2 ^ 53 * 2 ^ (n / 2 ^ 52 - 1) := Nat.mul_lt_mul_of_pos_right h1 (Nat.two_pow_pos _)
        _ ≤ 2 ^ 53 * 2 ^ (u - 1) := Nat.mul_le_mul_left _ h2
        _ = 2 ^ 52 * 2 ^ u := by
          obtain ⟨v, rfl⟩ : ∃ v, u = v + 1 := ⟨u - 1, by omega⟩
          rw [Nat.add_sub_cancel, Nat.pow_succ 2 52, Nat.pow_succ 2 v]; ring

/-- Among the multiples of `2^u`, rounding takes the nearest, and the even one of two as near. -/
theorem roundDiv_nearest (num den u m : Nat) (hd : 0 < den) :
    Int.natAbs ((roundDiv num (den * 2 ^ u) * 2 ^ u * den : Nat) - (num : Int)) ≤
        Int.natAbs ((m * 2 ^ u * den : Nat) - (num : Int)) ∧
      (Int.natAbs ((roundDiv num (den * 2 ^ u) * 2 ^ u * den : Nat) - (num : Int)) =
          Int.natAbs ((m * 2 ^ u * den : Nat) - (num : Int)) →
        m ≠ roundDiv num (den * 2 ^ u) → roundDiv num (den * 2 ^ u) % 2 = 0) := by
  have hD : 0 < den * 2 ^ u := Nat.mul_pos hd (Nat.two_pow_pos u)
  obtain ⟨h1, h2, h3⟩ := roundDiv_spec num hD
  have e1 : ∀ x, x * 2 ^ u * den = x * (den * 2 ^ u) := fun x => by ring
  rw [e1, e1]
  generalize den * 2 ^ u = D at *
  generalize roundDiv num D = R at *
  rcases Nat.lt_trichotomy m R with hm | rfl | hm
  · have : (m + 1) * D ≤ R * D := Nat.mul_le_mul_right _ hm
    rw [Nat.add_mul, Nat.one_mul] at this
    generalize m * D = a at *
    generalize R * D = b at *
    refine ⟨by omega, fun he _ => h3 (by omega)⟩
  · exact ⟨Nat.le_refl _, fun _ hne => absurd rfl hne⟩
  · have : (R + 1) * D ≤ m * D := Nat.mul_le_mul_right _ hm
    rw [Nat.add_mul, Nat.one_mul] at this
    generalize m * D = a at *
    generalize R * D = b at *
    refine ⟨by omega, fun he _ => h3 (by omega)⟩

/-- Rounding keeps 53 significant bits: `u` is the binade, whose significand is full but in binade 0. -/
theorem roundUnits_binade (num den : Nat) : ∃ u,
    roundUnits num den = min (u * 2 ^ 52 + roundDiv num (den * 2 ^ u)) infBits ∧
      roundDiv num (den * 2 ^ u) ≤ 2 ^ 53 ∧ (0 < u → 2 ^ 52 ≤ roundDiv num (den * 2 ^ u)) ∧
      num / den < 2 ^ (u + 53) ∧ (0 < u → 2 ^ (52 + u) ≤ num / den) := by
  refine ⟨Nat.log2 (num / den) - 52, rfl, ?_⟩
  have hq : num / den < 2 ^ (Nat.log2 (num / den) + 1) := Nat.lt_log2_self
  have hq2 : num / den ≠ 0 → 2 ^ Nat.log2 (num / den) ≤ num / den := fun h => Nat.log2_self_le h
  have hz : num / den = 0 → Nat.log2 (num / den) = 0 := fun h => by rw [h]; rfl
  generalize Nat.log2 (num / den) = l at *
  obtain ⟨u, hu⟩ : ∃ u, u = l - 52 := ⟨_, rfl⟩
  rw [← hu]
  have hge := roundDiv_ge num (den * 2 ^ u)
  have hle := roundDiv_le num (den * 2 ^ u)
  have hdd : num / (den * 2 ^ u) = num / den / 2 ^ u := (Nat.div_div_eq_div_mul num den (2 ^ u)).symm
  have hq3 : num / den < 2 ^ (u + 53) := Nat.lt_of_lt_of_le hq (Nat.pow_le_pow_right (by omega) (by omega))
  have hup : num / den / 2 ^ u < 2 ^ 53 := by
    rw [Nat.div_lt_iff_lt_mul (Nat.two_pow_pos u), ← Nat.pow_add, Nat.add_comm]
    exact hq3
  have hlow2 : 0 < u → 2 ^ (52 + u) ≤ num / den := by
    intro h0
    have hne : num / den ≠ 0 := fun h => by have := hz h; omega
    have := hq2 hne
    rwa [show 52 + u = l by omega]
  have hlow : 0 < u → 2 ^ 52 ≤ num / den / 2 ^ u := by
    intro h0
    rw [Nat.le_div_iff_mul_le (Nat.two_pow_pos u), ← Nat.pow_add]
    exact hlow2 h0
  exact ⟨by omega, fun h0 => by have := hlow h0; omega, hq3, hlow2⟩

/-- `roundUnits`, when finite, is the pattern of the nearest magnitude, the even one of two as near (R291). -/
theorem roundUnits_nearest (num den n : Nat) (hd : 0 < den) (hf : roundUnits num den < infBits) :
    Int.natAbs ((magOf (roundUnits num den) * den : Nat) - (num : Int)) ≤ Int.natAbs ((magOf n * den : Nat) - (num : Int)) ∧
      (Int.natAbs ((magOf (roundUnits num den) * den : Nat) - (num : Int)) =
          Int.natAbs ((magOf n * den : Nat) - (num : Int)) →
        magOf n ≠ magOf (roundUnits num den) → roundUnits num den % 2 = 0) := by
  obtain ⟨u, hr, h53, h52, -, hlow⟩ := roundUnits_binade num den
  have hr' : roundUnits num den = u * 2 ^ 52 + roundDiv num (den * 2 ^ u) := by omega
  have hmag : magOf (roundUnits num den) = roundDiv num (den * 2 ^ u) * 2 ^ u := by
    rw [hr']
    exact magOf_binade h53 h52
  have hpar : roundUnits num den % 2 = roundDiv num (den * 2 ^ u) % 2 := by rw [hr']; omega
  rw [hmag, hpar]
  rcases magOf_cases u n with ⟨m, hm⟩ | ⟨h0, hm⟩
  · rw [hm]
    obtain ⟨g1, g2⟩ := roundDiv_nearest num den u m hd
    exact ⟨g1, fun he hne => g2 he fun hc => hne (by rw [hc])⟩
  · obtain ⟨g1, -⟩ := roundDiv_nearest num den u (2 ^ 52) hd
    have hnum : 2 ^ 52 * 2 ^ u * den ≤ num := by
      have h1 := hlow h0
      rw [Nat.le_div_iff_mul_le hd, Nat.pow_add] at h1
      exact h1
    have hlt : magOf n * den < 2 ^ 52 * 2 ^ u * den := Nat.mul_lt_mul_of_pos_right hm hd
    generalize magOf n * den = a at *
    generalize 2 ^ 52 * 2 ^ u * den = b at *
    refine ⟨by omega, fun he => by omega⟩

/-- A quotient rounds below an even `m` exactly where it is below `m - 1/2`: the tie goes up to `m`. -/
theorem roundDiv_lt_even (num m : Nat) {den : Nat} (hd : 0 < den) (hm : m % 2 = 0) :
    roundDiv num den < m ↔ 2 * num + den < 2 * (m * den) := by
  obtain ⟨g1, g2, g3⟩ := roundDiv_spec num hd
  generalize roundDiv num den = r at *
  have hle : ∀ x y : Nat, x ≤ y → x * den ≤ y * den := fun x y => Nat.mul_le_mul_right den
  rcases Nat.lt_trichotomy m (r + 1) with hr | hr | hr
  · have := hle m r (by omega)
    omega
  · subst hr
    rw [Nat.add_mul, Nat.one_mul]
    omega
  · have := hle (r + 2) m (by omega)
    rw [Nat.add_mul] at this
    omega

/-- The bound of `roundUnits_lt_iff`, the exponent a variable so that no tactic evaluates the power. -/
theorem roundUnits_lt_iff_add (num den k : Nat) (hk : k = 2044) (hd : 0 < den) :
    roundUnits num den < infBits ↔ num + 2 ^ k * den < 2 ^ 54 * (2 ^ k * den) := by
  obtain ⟨u, hr, h53, h52, hup, hlow⟩ := roundUnits_binade num den
  have hlt : roundUnits num den < infBits ↔ u * 2 ^ 52 + roundDiv num (den * 2 ^ u) < 2047 * 2 ^ 52 := by
    rw [hr, infBits]; omega
  clear hr
  rw [hlt]
  rcases Nat.lt_trichotomy u (k + 1) with hu | hu | hu
  · refine ⟨fun _ => ?_, fun _ => by omega⟩
    rw [Nat.div_lt_iff_lt_mul hd] at hup
    have h1 : 2 ^ (u + 53) * den ≤ 2 ^ (53 + k) * den :=
      Nat.mul_le_mul_right _ (Nat.pow_le_pow_right (by omega) (by omega))
    rw [Nat.pow_add 2 53 k, Nat.mul_assoc] at h1
    have h2 : 0 < 2 ^ k * den := Nat.mul_pos (Nat.two_pow_pos k) hd
    generalize 2 ^ k * den = a at *
    generalize 2 ^ (u + 53) * den = b at *
    omega
  · have h := roundDiv_lt_even num (2 ^ 53) (Nat.mul_pos hd (Nat.two_pow_pos u)) (by decide)
    have e : den * 2 ^ u = 2 * (2 ^ k * den) := by rw [hu, Nat.pow_succ 2 k]; ring
    rw [show u * 2 ^ 52 + roundDiv num (den * 2 ^ u) < 2047 * 2 ^ 52 ↔ roundDiv num (den * 2 ^ u) < 2 ^ 53 by omega, h, e]
    generalize 2 ^ k * den = a
    omega
  · refine ⟨fun h => by have := h52 (by omega); omega, fun h => ?_⟩
    exfalso
    have h1 := hlow (by omega)
    rw [Nat.le_div_iff_mul_le hd] at h1
    have h2 : 2 ^ (54 + k) * den ≤ 2 ^ (52 + u) * den :=
      Nat.mul_le_mul_right _ (Nat.pow_le_pow_right (by omega) (by omega))
    rw [Nat.pow_add 2 54 k, Nat.mul_assoc] at h2
    generalize 2 ^ k * den = a at *
    generalize 2 ^ (52 + u) * den = b at *
    omega

/-- `roundUnits` is finite exactly below half a last place above the greatest finite magnitude (R291). -/
theorem roundUnits_lt_iff (num : Nat) {den : Nat} (hd : 0 < den) :
    roundUnits num den < infBits ↔ num < overflowUnits * den := by
  obtain ⟨k, hk⟩ : ∃ k, k = 2044 := ⟨_, rfl⟩
  rw [roundUnits_lt_iff_add num den k hk hd, overflowUnits, ← hk, Nat.mul_assoc, Nat.sub_mul, Nat.one_mul]
  generalize 2 ^ k * den = a
  omega

/-! ### The quotient and the product of finite values -/

theorem isNaN_of_finite {x : Word} (h : finite x = true) : isNaN x = false := by
  simp only [finite, bne_iff_ne, ne_eq] at h
  simp [isNaN, h]

theorem isInf_of_finite {x : Word} (h : finite x = true) : isInf x = false := by
  simp only [finite, bne_iff_ne, ne_eq] at h
  simp [isInf, h]

theorem isInf_withSign (s : Bool) : isInf (withSign s infBits) = true := by cases s <;> decide

theorem isZero_iff (x : Word) : isZero x = true ↔ units x = 0 := by
  have h1 : isZero x = true ↔ x.toNat % 2 ^ 63 = 0 := by
    rw [isZero, beq_iff_eq, ← BitVec.toNat_inj, fabs_toNat]; rfl
  rw [h1, units_eq]
  generalize x.toNat = n
  split
  · rfl
  · have h2 : 0 < (2 ^ 52 + n % 2 ^ 52) * 2 ^ (n % 2 ^ 63 / 2 ^ 52 - 1) := Nat.mul_pos (by omega) (Nat.two_pow_pos _)
    omega

theorem withSign_even (s : Bool) {n : Nat} (h : n < 2 ^ 63) (h2 : n % 2 = 0) : (withSign s n).getLsbD 0 = false := by
  rw [BitVec.getLsbD, Nat.testBit_zero, withSign_toNat s h]
  cases s <;> simp <;> omega

/-- The pattern that rounding gives under a sign: the sign, when it is finite, and that it is then nearest (R291). -/
theorem withSign_roundUnits_spec (s : Bool) (num : Nat) {den : Nat} (hd : 0 < den) :
    neg (withSign s (roundUnits num den)) = s ∧
    (finite (withSign s (roundUnits num den)) = true ↔ num < overflowUnits * den) ∧
    (finite (withSign s (roundUnits num den)) = false → isInf (withSign s (roundUnits num den)) = true) ∧
    (finite (withSign s (roundUnits num den)) = true → ∀ z : Word,
      Int.natAbs (units (withSign s (roundUnits num den)) * den - num : Int) ≤ Int.natAbs (units z * den - num : Int) ∧
      (Int.natAbs (units (withSign s (roundUnits num den)) * den - num : Int) = Int.natAbs (units z * den - num : Int) →
        units z ≠ units (withSign s (roundUnits num den)) → (withSign s (roundUnits num den)).getLsbD 0 = false)) := by
  have hl := roundUnits_lt num den
  refine ⟨neg_withSign s hl, ?_, ?_, ?_⟩
  · rw [finite_withSign s hl, roundUnits_lt_iff num hd]
  · intro h
    have : ¬ roundUnits num den < infBits := by rw [← finite_withSign s hl, h]; simp
    have := roundUnits_le num den
    rw [show roundUnits num den = infBits by omega]
    exact isInf_withSign s
  · intro h z
    rw [finite_withSign s hl] at h
    obtain ⟨a, b⟩ := roundUnits_nearest num den (z.toNat % 2 ^ 63) hd h
    rw [units_withSign s hl, units_eq_magOf z]
    push_cast at a b
    exact ⟨a, fun h1 h2 => withSign_even s hl (b h1 h2)⟩

/-- On finite operands, the divisor not 0, the quotient is the rounded exact one. -/
theorem fdiv_of_finite {x y : Word} (hx : finite x = true) (hy : finite y = true) (h : units y ≠ 0) :
    fdiv x y = withSign (neg x != neg y) (roundUnits (units x * 2 ^ 1074) (units y)) := by
  have hy0 : isZero y = false := Bool.eq_false_iff.2 fun hz => h ((isZero_iff y).1 hz)
  unfold fdiv
  rw [isNaN_of_finite hx, isNaN_of_finite hy, isInf_of_finite hx, isInf_of_finite hy, hy0]
  simp only [Bool.and_false, Bool.or_false, Bool.false_or, Bool.false_eq_true, if_false]
  split
  · next hz =>
    rw [(isZero_iff x).1 hz, Nat.zero_mul]
    have : roundUnits 0 (units y) = 0 := by simp [roundUnits, roundDiv]
    rw [this]
  · rfl

/-- On finite operands the product is the rounded exact one. -/
theorem fmul_of_finite {x y : Word} (hx : finite x = true) (hy : finite y = true) :
    fmul x y = withSign (neg x != neg y) (roundUnits (units x * units y) (2 ^ 1074)) := by
  unfold fmul
  rw [isNaN_of_finite hx, isNaN_of_finite hy, isInf_of_finite hx, isInf_of_finite hy]
  simp only [Bool.false_and, Bool.and_false, Bool.or_false, Bool.false_eq_true, if_false]

end Sys2Proof.Machine.Real
end

