-- ==== Sys2Proof/Tests/Slice0.lean ====
section
/-! SUPPORT. The model's own tests: which terms are ill-formed, decoding of words written out from 30_encoding.md R100 to R106,
one step of each command with the results the rules' examples and 95_test_vectors.md give, and for every statement with
hypotheses a state and operands that meet them. -/

namespace Sys2Proof.Tests

open Sys2Proof.Machine

/-! ### Ill-formed terms, one for each check of WellFormed.lean -/

theorem test_wellFormed_unlisted_register_low : (Instr.rdreg 0x0F).wellFormed = false := by decide
theorem test_wellFormed_unlisted_register_high : (Instr.rdreg 0x15).wellFormed = false := by decide
theorem test_wellFormed_write_count : (Instr.bsWbits 65 0).wellFormed = false := by decide
theorem test_wellFormed_read_count : (Instr.bsRbits 65).wellFormed = false := by decide
theorem test_wellFormed_dim_zero : (Instr.cmShape 0 4 0 0).wellFormed = false := by decide
theorem test_wellFormed_dim_four : (Instr.cmShape 4 4 4 4).wellFormed = false := by decide
theorem test_wellFormed_unused_extent_one : (Instr.cmShape 1 4 1 0).wellFormed = false := by decide
theorem test_wellFormed_unused_extent_two : (Instr.cmShape 2 4 4 1).wellFormed = false := by decide
theorem test_wellFormed_decode_maxbits : (Instr.spkDec 64 0).wellFormed = false := by decide
theorem test_wellFormed_outlier_maxbits : (Instr.outDec 64 0 0 1).wellFormed = false := by decide
theorem test_wellFormed_outlier_width : (Instr.outDec 0 4 0 1).wellFormed = false := by decide
theorem test_wellFormed_accepts_limits : (Instr.bsWbits 64 0).wellFormed = true ∧ (Instr.cmShape 3 1 1 1).wellFormed = true ∧
    (Instr.outDec 63 3 0 1).wellFormed = true ∧ (Instr.rdreg 0x14).wellFormed = true := by decide

/-! ### Words written out from the formats of R100, R101 and the opcodes of R106 -/

theorem test_decode_nop : decode ⟨0x0000000000000000, 0, 0, 0⟩ = .ok (.nop) := by decide
theorem test_decode_reset : decode ⟨0x0100000000000000, 0, 0, 0⟩ = .ok (.reset) := by decide
theorem test_decode_rdreg : decode ⟨0x0214000000000000, 0, 0, 0⟩ = .ok (.rdreg 0x14) := by decide
theorem test_decode_bsWbit : decode ⟨0x1001000000000000, 0, 0, 0⟩ = .ok (.bsWbit true) := by decide
theorem test_decode_bsWbits : decode ⟨0x1108000000000000, 0xA5, 0, 0⟩ = .ok (.bsWbits 8 0xA5) := by decide
theorem test_decode_bsRbit : decode ⟨0x1200000000000000, 0, 0, 0⟩ = .ok (.bsRbit) := by decide
theorem test_decode_bsRbits : decode ⟨0x1340000000000000, 0, 0, 0⟩ = .ok (.bsRbits 64) := by decide
theorem test_decode_bsRewind : decode ⟨0x1400000000000000, 0, 0, 0⟩ = .ok (.bsRewind) := by decide
theorem test_decode_bsWseek : decode ⟨0x1500000000000000, 7, 0, 0⟩ = .ok (.bsWseek 7) := by decide
theorem test_decode_bsRseek : decode ⟨0x1600000000000000, 9, 0, 0⟩ = .ok (.bsRseek 9) := by decide
theorem test_decode_bsFlush : decode ⟨0x1700000000000000, 0, 0, 0⟩ = .ok (.bsFlush) := by decide
theorem test_decode_bsRrbit : decode ⟨0x1800000000000000, 63, 0, 0⟩ = .ok (.bsRrbit 63) := by decide
theorem test_decode_bsRwbit : decode ⟨0x1901000000000000, 5, 0, 0⟩ = .ok (.bsRwbit true 5) := by decide
theorem test_decode_bsTest : decode ⟨0x1A00000000000000, 60, 8, 0⟩ = .ok (.bsTest 60 8) := by decide
theorem test_decode_bsGet : decode ⟨0x1B00000000000000, 0x10, 0, 0⟩ = .ok (.bsGet 0x10) := by decide
theorem test_decode_bsParse : decode ⟨0x1C00000000000000, 0x10, 12, 0⟩ = .ok (.bsParse 0x10 12) := by decide
theorem test_decode_mkResize : decode ⟨0x2000000000000000, 70, 0, 0⟩ = .ok (.mkResize 70) := by decide
theorem test_decode_mkReset : decode ⟨0x2100000000000000, 0, 0, 0⟩ = .ok (.mkReset) := by decide
theorem test_decode_mkRbit : decode ⟨0x2200000000000000, 69, 0, 0⟩ = .ok (.mkRbit 69) := by decide
theorem test_decode_mkWbit : decode ⟨0x2301000000000000, 64, 0, 0⟩ = .ok (.mkWbit true 64) := by decide
theorem test_decode_mkWtrue : decode ⟨0x2400000000000000, 3, 0, 0⟩ = .ok (.mkWtrue 3) := by decide
theorem test_decode_mkWfalse : decode ⟨0x2500000000000000, 3, 0, 0⟩ = .ok (.mkWfalse 3) := by decide
theorem test_decode_mkCount : decode ⟨0x2600000000000000, 0, 0, 0⟩ = .ok (.mkCount) := by decide
theorem test_decode_mkHas : decode ⟨0x2700000000000000, 60, 10, 0⟩ = .ok (.mkHas 60 10) := by decide
theorem test_decode_mkView : decode ⟨0x2800000000000000, 16, 0, 0⟩ = .ok (.mkView 16) := by decide
theorem test_decode_mkUse : decode ⟨0x2900000000000000, 24, 0, 0⟩ = .ok (.mkUse 24) := by decide
theorem test_decode_cmShape : decode ⟨0x3003000000000000, 2, 3, 4⟩ = .ok (.cmShape 3 2 3 4) := by decide
theorem test_decode_cmSt : decode ⟨0x3101000000000000, 5, 117, 0⟩ = .ok (.cmSt true 5 117) := by decide
theorem test_decode_cmLd : decode ⟨0x3200000000000000, 5, 0, 0⟩ = .ok (.cmLd 5) := by decide
theorem test_decode_spkEnc : decode ⟨0x4000000000000000, 0xFFFFFFFFFFFFFFFF, 0, 0⟩ = .ok (.spkEnc all1) := by decide
theorem test_decode_spkDec : decode ⟨0x4106000000000000, 15, 0, 0⟩ = .ok (.spkDec 6 15) := by decide
theorem test_decode_outTol : decode ⟨0x5000000000000000, 0x3FB999999999999A, 0, 0⟩ = .ok (.outTol 0x3FB999999999999A) := by decide
theorem test_decode_outEnc : decode ⟨0x5100000000000000, 0x100, 1, 8⟩ = .ok (.outEnc 0x100 1 8) := by decide
theorem test_decode_outDec : decode ⟨0x5202010000000000, 0x100, 16, 0⟩ = .ok (.outDec 2 1 0x100 16) := by decide
theorem test_decode_xbSt8 : decode ⟨0x60BC000000000000, 1, 0, 0⟩ = .ok (.xbSt8 0xBC 1) := by decide
theorem test_decode_xbLd8 : decode ⟨0x6100000000000000, 15, 0, 0⟩ = .ok (.xbLd8 15) := by decide
theorem test_decode_xbSt64 : decode ⟨0x6200000000000000, 8, 0x0102030405060708, 0⟩ = .ok (.xbSt64 8 0x0102030405060708) := by decide
theorem test_decode_xbLd64 : decode ⟨0x6300000000000000, 8, 0, 0⟩ = .ok (.xbLd64 8) := by decide
theorem test_decode_zero_field : decode ⟨0x1100000000000001, 0, 0, 0⟩ = .error .mustBeZero := by decide
theorem test_decode_bit_field_high : decode ⟨0x1002000000000000, 0, 0, 0⟩ = .error .mustBeZero := by decide
theorem test_decode_unused_word : decode ⟨0x1500000000000000, 7, 1, 0⟩ = .error .mustBeZero := by decide
theorem test_decode_unlisted_opcode : decode ⟨0x0300000000000000, 0, 0, 0⟩ = .error .unknownOpcode := by decide

/-! ### One step of each command -/

/-- Small parameters. -/
def tiny : Params := { cap0Words := 1, maxWords := 4, mkMaxBits := 256, maxElems := 16, xbBytes := 64 }

/-- A CORE just after hardware reset. -/
def fresh : State := .hardwareReset tiny []

/-- The state a command leaves. -/
def nextOf (r : Result) : State :=
  match r with
  | .next t => t
  | .fault _ => fresh
  | .refused _ => fresh

theorem exec_eq_nextOf (i : Instr) (s : State) : exec i s = .next (nextOf (exec i s)) := by
  obtain ⟨t, h⟩ := exec_next i s
  rw [h]; rfl

/-- The response a command gives. -/
def answerOf (i : Instr) (s : State) : Option Response := (nextOf (exec i s)).rspPort.getLast?

/-- Eight bits written and pending: the state after `BS_WBITS 8, 0xA5` from reset. -/
def pending : State := { fresh with bs := { fresh.bs with wpos := 8, wbuf := 0xA5 } }

/-- The same bits committed. -/
def committed : State := { fresh with bs := { fresh.bs with mem := [0xA5], wpos := 8, wbuf := 0xA5, blen := 8 } }

/-- A full stream of one word. -/
def full : State := { fresh with bs := { fresh.bs with mem := [5], wpos := 64, rpos := 64, blen := 64 } }

/-- A full stream at the largest capacity. -/
def atLimit : State := { fresh with bs := { fresh.bs with cap := 4, mem := [0, 0, 0, 0], wpos := 256 } }

/-- Two words with bits 63 and 64 set. -/
def straddling : State := { fresh with bs := { fresh.bs with cap := 2, mem := [0x8000000000000000, 1] } }

/-- A mask of 70 bits, bits 3 and 64 set. -/
def masked : State := { fresh with mask := { n := 70, mw := [8, 1] } }

/-- A mask of 70 bits whose last word is all ones, tail bits included. -/
def tailed : State := { fresh with mask := { n := 70, mw := [0, 0xFFFFFFFFFFFFFFFF] } }

/-- A 4 by 4 array with 117 at the origin (44_speck_engine.md R264). -/
def shaped : State :=
  { fresh with cm := { CoefMem.shaped 2 ⟨4, 4, 1⟩ with mag := 117 :: List.replicate 15 0 } }

/-- The stream of R264, declared, and an array of the encoder's shape. -/
def coded : State :=
  { fresh with bs := { fresh.bs with mem := [0x222B], wpos := 15, wbuf := 0x222B, blen := 15 }, cm := .shaped 2 ⟨4, 4, 1⟩ }

/-- Tolerance 0.1 and the record (5, 0.5) at address 0 (45_outlier_coder.md R298). -/
def staged : State :=
  { fresh with
    oc := { tol := 0x3FB999999999999A, tolv := true }
    xb := (Memory.writeWord [] 0 5).writeWord 8 0x3FE0000000000000 }

/-- Tolerance 0.1 and the stream of R298, declared. -/
def codedOutlier : State :=
  { fresh with
    bs := { fresh.bs with mem := [0x406EA], wpos := 24, wbuf := 0x406EA, blen := 24 }
    oc := { tol := 0x3FB999999999999A, tolv := true } }

/-- The same stream with its first 10 bits declared. -/
def cutOutlier : State := { codedOutlier with bs := { codedOutlier.bs with blen := 10 } }

/-- A CORE after a fatal fault. -/
def broken : State := { fresh with st := { flags := 0xC0, lastst := 0x80, faulted := true } }

theorem test_nop : answerOf .nop broken = some ⟨.faulted, 0, 0⟩ ∧ answerOf .nop fresh = some ⟨.ok, 0, 0⟩ := by decide
theorem test_reset : answerOf .reset broken = some ⟨.ok, 0, 0⟩ ∧ (nextOf (exec .reset broken)).st = .reset := by decide
theorem test_reset_keeps_xb : (nextOf (exec .reset staged)).xb = staged.xb ∧ (nextOf (exec .reset staged)).oc.tolv = false := by
  decide
theorem test_rdreg_capacity : answerOf (.rdreg 0x02) fresh = some ⟨.ok, 64, 0⟩ := by decide
theorem test_rdreg_status : answerOf (.rdreg 0x01) { fresh with st := { flags := 0x42, lastst := 0x10, faulted := false } } =
    some ⟨.ok, 0x1042, 0⟩ := by decide
theorem test_bsWbit : (nextOf (exec (.bsWbit true) fresh)).bs = { fresh.bs with wpos := 1, wbuf := 1 } := by decide
theorem test_bsWbit_grows : (nextOf (exec (.bsWbit true) full)).bs =
    { full.bs with cap := 2, mem := [5, 0], wpos := 65, wbuf := 1 } := by decide
theorem test_bsWbits : (nextOf (exec (.bsWbits 8 0xA5) fresh)).bs = pending.bs := by decide
theorem test_bsWbits_straddles : (nextOf (exec (.bsWbits 64 0xF0) pending)).bs =
    { pending.bs with cap := 2, mem := [0xF0A5, 0], wpos := 72, wbuf := 0 } := by decide
theorem test_bsRbit : answerOf .bsRbit committed = some ⟨.ok, 1, 0⟩ ∧ (nextOf (exec .bsRbit committed)).bs.rpos = 1 := by decide
theorem test_bsRbit_end : answerOf .bsRbit full = some ⟨.range, 0, 0⟩ := by decide
theorem test_bsRbits : answerOf (.bsRbits 8) committed = some ⟨.ok, 0xA5, 0⟩ := by decide
theorem test_bsRbits_pending : answerOf (.bsRbits 8) pending = some ⟨.ok, 0, 0⟩ := by decide
theorem test_bsRewind : (nextOf (exec .bsRewind pending)).bs = { pending.bs with mem := [0xA5], wpos := 0, wbuf := 0 } := by
  decide
theorem test_bsWseek : (nextOf (exec (.bsWseek 4) pending)).bs = { pending.bs with mem := [0xA5], wpos := 4, wbuf := 5 } := by
  decide
theorem test_bsWseek_beyond : answerOf (.bsWseek 65) pending = some ⟨.range, 0, 0⟩ := by decide
theorem test_bsRseek : (nextOf (exec (.bsRseek 64) pending)).bs = { pending.bs with rpos := 64 } := by decide
theorem test_bsFlush : answerOf .bsFlush pending = some ⟨.ok, 8, 0⟩ ∧ (nextOf (exec .bsFlush pending)).bs = committed.bs := by
  decide
theorem test_bsRrbit : answerOf (.bsRrbit 2) committed = some ⟨.ok, 1, 0⟩ ∧ answerOf (.bsRrbit 1) committed = some ⟨.ok, 0, 0⟩ := by
  decide
theorem test_bsRwbit : (nextOf (exec (.bsRwbit false 0) committed)).bs = { committed.bs with mem := [0xA4], wbuf := 0xA4 } := by
  decide
theorem test_bsTest : answerOf (.bsTest 0 63) straddling = some ⟨.ok, 0, 0⟩ ∧ answerOf (.bsTest 60 8) straddling = some ⟨.ok, 1, 0⟩ := by
  decide +kernel
theorem test_bsTest_tail : answerOf (.bsTest 65 63) straddling = some ⟨.ok, 0, 0⟩ := by decide +kernel
theorem test_bsGet : answerOf (.bsGet 0) { fresh with bs := { fresh.bs with wpos := 12, wbuf := 0xABC } } = some ⟨.ok, 12, 2⟩ ∧
    (nextOf (exec (.bsGet 0) { fresh with bs := { fresh.bs with wpos := 12, wbuf := 0xABC } })).xb = [(0, 0xBC), (1, 0x0A)] := by
  decide +kernel
theorem test_bsParse : (nextOf (exec (.bsParse 0 12) { pending with xb := [(0, 0xBC), (1, 0xFA)] })).bs =
    { cap := 1, mem := [0xABC], wpos := 0, rpos := 0, wbuf := 0, blen := 12 } := by decide +kernel
theorem test_mkResize : (nextOf (exec (.mkResize 70) fresh)).mask = { n := 70, mw := [0, 0] } := by decide
theorem test_mkResize_clears_tail : (nextOf (exec (.mkResize 72) tailed)).mask = { n := 72, mw := [0, 0xFFFFFFFFFFFFFF3F] } := by
  decide
theorem test_mkReset : (nextOf (exec .mkReset tailed)).mask = { n := 70, mw := [0, 0] } := by decide
theorem test_mkRbit : answerOf (.mkRbit 64) masked = some ⟨.ok, 1, 0⟩ ∧ answerOf (.mkRbit 70) tailed = some ⟨.range, 0, 0⟩ := by
  decide
theorem test_mkWbit : (nextOf (exec (.mkWbit false 64) masked)).mask = { n := 70, mw := [8, 0] } := by decide
theorem test_mkWtrue : (nextOf (exec (.mkWtrue 69) masked)).mask = { n := 70, mw := [8, 0x21] } := by decide
theorem test_mkWfalse : (nextOf (exec (.mkWfalse 3) masked)).mask = { n := 70, mw := [0, 1] } := by decide
theorem test_mkCount : answerOf .mkCount tailed = some ⟨.ok, 6, 0⟩ := by decide +kernel
theorem test_mkHas : answerOf (.mkHas 60 10) masked = some ⟨.ok, 1, 0⟩ ∧ answerOf (.mkHas 4 60) masked = some ⟨.ok, 0, 0⟩ := by
  decide +kernel
theorem test_mkHas_range : answerOf (.mkHas 65 6) masked = some ⟨.range, 0, 0⟩ := by decide
theorem test_mkView : answerOf (.mkView 16) masked = some ⟨.ok, 2, 0⟩ ∧ (nextOf (exec (.mkView 16) masked)).xb = [(16, 8), (24, 1)] := by
  decide +kernel
theorem test_mkUse : (nextOf (exec (.mkUse 8) { masked with xb := [(9, 2), (23, 0x80)] })).mask =
    { n := 70, mw := [0x200, 0x8000000000000000] } := by decide +kernel
theorem test_mkUse_align : answerOf (.mkUse 1000001) masked = some ⟨.align, 0, 0⟩ := by decide
theorem test_cmShape : answerOf (.cmShape 2 4 4 0) fresh = some ⟨.ok, 16, 0⟩ ∧
    answerOf (.cmShape 2 4 0 0) fresh = some ⟨.arg, 0, 0⟩ := by decide
theorem test_cmShape_alloc : answerOf (.cmShape 2 4 5 0) fresh = some ⟨.alloc, 0, 0⟩ := by decide
theorem test_cmSt : (nextOf (exec (.cmSt false 5 7) shaped)).cm.mag = [117, 0, 0, 0, 0, 7, 0, 0, 0, 0, 0, 0, 0, 0, 0, 0] := by decide
theorem test_cmLd : answerOf (.cmLd 0) shaped = some ⟨.ok, 117, 1⟩ ∧ answerOf (.cmLd 16) shaped = some ⟨.range, 0, 0⟩ := by decide
theorem test_spkEnc : answerOf (.spkEnc all1) shaped = some ⟨.ok, 15, 6⟩ ∧ (nextOf (exec (.spkEnc all1) shaped)).bs.mem = [0x222B] := by
  decide +kernel
theorem test_spkDec : answerOf (.spkDec 6 all1) coded = some ⟨.ok, 15, 0⟩ ∧ (nextOf (exec (.spkDec 6 all1) coded)).cm = shaped.cm := by
  decide +kernel
theorem test_outTol : (nextOf (exec (.outTol 1) fresh)).oc = { tol := 1, tolv := true } ∧
    answerOf (.outTol 0x8000000000000000) fresh = some ⟨.arg, 0, 0⟩ := by decide +kernel
theorem test_outEnc : answerOf (.outEnc 0 1 8) staged = some ⟨.ok, 24, 2⟩ ∧ (nextOf (exec (.outEnc 0 1 8) staged)).bs.mem = [0x406EA] := by
  decide +kernel
theorem test_outDec : answerOf (.outDec 2 0 0 8) codedOutlier = some ⟨.ok, 1, 24⟩ ∧
    (nextOf (exec (.outDec 2 0 0 8) codedOutlier)).xb = staged.xb := by decide +kernel
theorem test_outDec_late_range : answerOf (.outDec 2 0 64 8) codedOutlier = some ⟨.range, 0, 0⟩ ∧
    (nextOf (exec (.outDec 2 0 64 8) codedOutlier)).bs.rpos = 24 := by decide +kernel
theorem test_outDec_data_short : answerOf (.outDec 2 0 0 8) cutOutlier = some ⟨.dataShort, 0, 10⟩ ∧
    (nextOf (exec (.outDec 2 0 0 8) cutOutlier)).xb = [] := by decide +kernel
theorem test_xbSt8 : (nextOf (exec (.xbSt8 0xBC 63) fresh)).xb = [(63, 0xBC)] := by decide
theorem test_xbLd8 : answerOf (.xbLd8 8) staged = some ⟨.ok, 0, 0⟩ ∧ answerOf (.xbLd8 15) staged = some ⟨.ok, 0x3F, 0⟩ := by decide
theorem test_xbSt64 : (nextOf (exec (.xbSt64 8 0x0102030405060708) fresh)).xb =
    [(8, 8), (9, 7), (10, 6), (11, 5), (12, 4), (13, 3), (14, 2), (15, 1)] := by decide
theorem test_xbSt64_align : answerOf (.xbSt64 4 0) fresh = some ⟨.align, 0, 0⟩ := by decide
theorem test_xbLd64 : answerOf (.xbLd64 0) { fresh with xb := [(0, 0xBC), (1, 0x0A)] } = some ⟨.ok, 0x0ABC, 0⟩ := by decide

/-! ### The hypotheses of the statements are met -/

theorem pendingLow_of_lt {w : Word} {k : Nat} (h : w.toNat < 2 ^ k) (i : Nat) (hi : k ≤ i) : w.getLsbD i = false := by
  rw [BitVec.getLsbD]
  exact Nat.testBit_lt_two_pow (lt_of_lt_of_le h (Nat.pow_le_pow_right (by omega) hi))

theorem tiny_wf : tiny.Wf :=
  ⟨⟨0, rfl⟩, ⟨2, rfl⟩, by decide, by decide, by decide, by decide, by decide, by decide, by decide⟩

theorem fresh_stream : fresh.bs.Wf tiny :=
  ⟨by decide, ⟨0, rfl⟩, by decide, rfl, by decide, by decide, pendingLow_of_lt (by decide), by decide⟩

theorem pending_stream : pending.bs.Wf tiny :=
  ⟨by decide, ⟨0, rfl⟩, by decide, rfl, by decide, by decide, pendingLow_of_lt (by decide), by decide⟩

theorem full_stream : full.bs.Wf tiny :=
  ⟨by decide, ⟨0, rfl⟩, by decide, rfl, by decide, by decide, pendingLow_of_lt (by decide), by decide⟩

theorem atLimit_stream : atLimit.bs.Wf tiny :=
  ⟨by decide, ⟨2, rfl⟩, by decide, rfl, by decide, by decide, pendingLow_of_lt (by decide), by decide⟩

theorem coded_stream : coded.bs.Wf tiny :=
  ⟨by decide, ⟨0, rfl⟩, by decide, rfl, by decide, by decide, pendingLow_of_lt (by decide), by decide⟩

theorem masked_wf : masked.mask.Wf 256 := ⟨by decide, rfl⟩

theorem tailed_wf : tailed.mask.Wf 256 := ⟨by decide, rfl⟩

theorem shaped_wf : shaped.cm.Wf tiny := ⟨.inr (by decide), rfl, rfl, by decide⟩

theorem staged_within : staged.xb.Within 64 := ⟨by decide, by decide⟩

theorem empty_within : Memory.Within [] 64 := ⟨rfl, by simp⟩

/-- One element, so that the unlimited budget surely fits the small stream. -/
def single : State := { fresh with cm := { CoefMem.shaped 1 ⟨1, 1, 1⟩ with mag := [1] } }

theorem single_wf : single.cm.Wf tiny := ⟨.inr (by decide), rfl, rfl, by decide⟩

/-- A stream of four words of which all bits are declared. -/
def declared : State :=
  { fresh with bs := { fresh.bs with cap := 4, mem := [0, 0, 0, 0], blen := 256 }, cm := .shaped 1 ⟨1, 1, 1⟩ }

theorem witness_EncodeInvertsDecode : decode ⟨0x1108000000000000, 0xA5, 0, 0⟩ = .ok (.bsWbits 8 0xA5) := by decide

theorem witness_DecodeFollowsOpcodeTable :
    (∃ row ∈ opcodeTable, row.selects ⟨0x1108000000000000, 0xA5, 0, 0⟩ = true) ∧
    decode ⟨0x1108000000000000, 0xA5, 0, 0⟩ = .ok (.bsWbits 8 0xA5) ∧
    ∃ r1 ∈ opcodeTable, ∃ r2 ∈ opcodeTable, (0x1108000000000000 : Word) &&& r1.mask = r1.pattern ∧
      (0x1108000000000000 : Word) &&& r2.mask = r2.pattern := by decide

theorem witness_StepTakesNextFrame : fresh.cmdPort = [] ∧
    (fresh.present (encode (.bsWbits 8 0xA5))).cmdPort = encode (.bsWbits 8 0xA5) :: [] ∧
    decode (encode (.bsWbits 8 0xA5)) = .ok (.bsWbits 8 0xA5) := by decide

theorem witness_IllegalFramesAnswered : fresh.st.faulted = false ∧
    decode ⟨0x0300000000000000, 0, 0, 0⟩ = .error .unknownOpcode ∧
    decode ⟨0x0000000000000000, 0, 0, 1⟩ = .error .mustBeZero ∧
    decode ⟨0x1141000000000000, 0, 0, 0⟩ = .ok (.bsWbits 65 0) ∧ (Instr.bsWbits 65 0).wellFormed = false ∧
    (fresh.present ⟨0x0300000000000000, 0, 0, 0⟩).cmdPort = [⟨0x0300000000000000, 0, 0, 0⟩] := by decide

theorem witness_IllegalMeansReservedValue : fresh.st.faulted = false ∧ (Instr.bsWbits 65 0).wellFormed = false ∧
    (Instr.bsWbits 64 0).wellFormed = true ∧
    (∃ t, exec (.bsWbits 65 0) fresh = .next t) ∧ ∃ t, exec (.bsWbits 64 0) fresh = .next t :=
  ⟨rfl, rfl, rfl, exec_next _ _, exec_next _ _⟩

theorem witness_FaultedCoreAcceptsOnlyReset : broken.st.faulted = true ∧ broken.st.flags.getLsbD 7 = true ∧
    (broken.present (encode .nop)).cmdPort = [encode .nop] ∧ (encode .nop).opcode ≠ 0x01 ∧
    (broken.present (encode .reset)).cmdPort = [encode .reset] ∧
    (broken.present ⟨0x0100000000000001, 0, 0, 0⟩).cmdPort = [⟨0x0100000000000001, 0, 0, 0⟩] ∧
    (Frame.mk 0x0100000000000001 0 0 0).opcode = 0x01 ∧ Frame.mk 0x0100000000000001 0 0 0 ≠ encode .reset := by decide

theorem witness_EveryFrameGetsOneResponse : (fresh.present (encode .bsRbit)).cmdPort = [encode .bsRbit] := by decide

theorem witness_FlagsAreSticky : exec .reset broken = .next (nextOf (exec .reset broken)) ∧ Instr.bsRbit ≠ .reset ∧ exec .bsRbit full = .next (nextOf (exec .bsRbit full)) ∧
    (nextOf (exec .bsRbit full)).st.flags = 0x02 := ⟨exec_eq_nextOf _ _, by decide, exec_eq_nextOf _ _, by decide⟩

theorem witness_FaultedMeansAlloc : exec (.bsWbit true) atLimit = .next (nextOf (exec (.bsWbit true) atLimit)) ∧
    (nextOf (exec (.bsWbit true) atLimit)).st.faulted = true ∧
    exec .nop fresh = .next (nextOf (exec .nop fresh)) ∧ (nextOf (exec .nop fresh)).st.faulted = false :=
  ⟨exec_eq_nextOf _ _, by decide, exec_eq_nextOf _ _, by decide⟩

theorem witness_ContractFaultChangesOnlyStatus : codedOutlier.lip = .empty ∧ codedOutlier.wl = .empty ∧
    exec (.outDec 2 0 64 8) codedOutlier = .next (nextOf (exec (.outDec 2 0 64 8) codedOutlier)) ∧
    (nextOf (exec (.outDec 2 0 64 8) codedOutlier)).st.lastst = Status.range.code ∧
    exec (.outDec 8 0 0 8) codedOutlier = .next (nextOf (exec (.outDec 8 0 0 8) codedOutlier)) ∧
    (nextOf (exec (.outDec 8 0 0 8) codedOutlier)).st.lastst = Status.dataWidth.code ∧
    exec (.xbSt64 4 0) fresh = .next (nextOf (exec (.xbSt64 4 0) fresh)) ∧
    (nextOf (exec (.xbSt64 4 0) fresh)).st.lastst = Status.align.code :=
  ⟨rfl, rfl, exec_eq_nextOf _ _, by decide +kernel, exec_eq_nextOf _ _, by decide +kernel, exec_eq_nextOf _ _, by decide⟩

theorem witness_AllocKeepsExchangeBuffer : exec (.mkResize 257) staged = .next (nextOf (exec (.mkResize 257) staged)) ∧
    (nextOf (exec (.mkResize 257) staged)).endedWith .alloc := ⟨exec_eq_nextOf _ _, by unfold State.endedWith; decide⟩

theorem witness_AllocRaised : atLimit.st.faulted = false ∧ atLimit.bs.wpos = 64 * atLimit.bs.cap ∧
    atLimit.cfg.maxWords < 2 * atLimit.bs.cap ∧ (1 : Byte).toNat ≤ 64 ∧ 64 * atLimit.bs.cap < atLimit.bs.wpos + (1 : Byte).toNat ∧
    1 ≤ { atLimit with cm := shaped.cm }.cm.n ∧ (1 : Word) ≠ 0 ∧
    tiny.mkMaxBits < (257 : Word).toNat ∧ tiny.maxElems < (17 : Word).toNat * (1 : Word).toNat * (1 : Word).toNat ∧
    (0 : Word).toNat % 8 = 0 ∧ (0 : Word).toNat + 16 * (0 : Word).toNat ≤ tiny.xbBytes ∧ staged.oc.tolv = true ∧
    tiny.maxElems < (17 : Word).toNat := by decide

/-- A parse needs a larger exchange buffer than the stream: 320 bits need 40 bytes and 5 words, of which 4 are allowed. -/
theorem witness_AllocRaised_parse : (0 : Word).toNat + ceilDiv (320 : Word).toNat 8 ≤ fresh.cfg.xbBytes ∧ 1 ≤ fresh.bs.cap ∧
    ∀ j, ceilDiv (320 : Word).toNat 64 ≤ fresh.bs.cap * 2 ^ j → fresh.cfg.maxWords < fresh.bs.cap * 2 ^ j := by
  refine ⟨by decide, by decide, fun j hj => ?_⟩
  have h5 : 5 ≤ 1 * 2 ^ j := hj
  show 4 < 1 * 2 ^ j
  omega

/-- The invariant of a fresh CORE of small parameters, with a frame presented. -/
theorem fresh_inv : (fresh.present (encode (.bsWbits 8 0xA5))).Inv :=
  ⟨tiny_wf, rfl, ⟨.ok, rfl⟩, empty_within, fun _ =>
    ⟨fresh_stream, ⟨Nat.zero_le _, by decide⟩, rfl, rfl, ⟨.inl ⟨rfl, rfl⟩, rfl, rfl, Nat.zero_le _⟩,
      fun h => absurd (show false = true from h) (by decide)⟩⟩

theorem witness_StepKeepsInvariant : (fresh.present (encode (.bsWbits 8 0xA5))).Inv ∧
    ∃ t, step (fresh.present (encode (.bsWbits 8 0xA5))) = .next t ∧ t.bs.wpos = 8 :=
  ⟨fresh_inv, _, rfl, by decide⟩

theorem witness_ResetMeetsInvariant : tiny.Wf ∧ staged.xb.Within tiny.xbBytes := ⟨tiny_wf, staged_within⟩

theorem witness_CapacityOnlyGrows : Instr.bsWbit true ≠ .reset ∧
    exec (.bsWbit true) full = .next (nextOf (exec (.bsWbit true) full)) ∧
    (nextOf (exec (.bsWbit true) full)).st.faulted = false ∧ (nextOf (exec (.bsWbit true) full)).bs.cap = 2 :=
  ⟨by decide, exec_eq_nextOf _ _, by decide, by decide⟩

theorem witness_NopChangesNothing : fresh.st.faulted = false ∧ broken.st.faulted = true := ⟨rfl, rfl⟩

theorem witness_RdregReads : fresh.st.faulted = false ∧ ((0x15 : Byte) = 0x0F ∨ 0x15 ≤ (0x15 : Byte).toNat) := by decide

theorem witness_WriteBitAppends : full.st.faulted = false ∧ full.cfg.Wf ∧ full.bs.Wf full.cfg ∧
    full.bs.wpos < 64 * full.cfg.maxWords ∧ full.bs.wpos = 64 * full.bs.cap :=
  ⟨rfl, tiny_wf, full_stream, by decide, by decide⟩

/-- Both visibility clauses: the bit that completes a word, and one that does not. -/
theorem witness_WriteBitAppends_word : (63 + 1) % 64 = 0 ∧ (pending.bs.wpos + 1) % 64 ≠ 0 ∧ pending.bs.Wf pending.cfg ∧
    ({ fresh.bs with wpos := 63 } : BitStream).Wf tiny :=
  ⟨by decide, by decide, pending_stream,
    ⟨by decide, ⟨0, rfl⟩, by decide, rfl, by decide, by decide, pendingLow_of_lt (by decide), by decide⟩⟩

theorem witness_WriteBitsAppends : pending.st.faulted = false ∧ 64 < (65 : Byte).toNat ∧ (64 : Byte).toNat ≤ 64 ∧
    pending.cfg.Wf ∧ pending.bs.Wf pending.cfg ∧ pending.bs.wpos + (64 : Byte).toNat ≤ 64 * pending.cfg.maxWords :=
  ⟨rfl, by decide, by decide, tiny_wf, pending_stream, by decide⟩

theorem witness_CursorReads : fresh.st.faulted = false ∧ fresh.bs.rpos < 64 * fresh.bs.cap ∧
    full.st.faulted = false ∧ 64 * full.bs.cap ≤ full.bs.rpos ∧ 64 < (65 : Byte).toNat ∧
    64 * full.bs.cap < full.bs.rpos + (1 : Byte).toNat ∧ fresh.bs.rpos + (64 : Byte).toNat ≤ 64 * fresh.bs.cap ∧
    full.bs.rpos + (0 : Byte).toNat ≤ 64 * full.bs.cap := by decide

theorem witness_RewindCommits : pending.st.faulted = false ∧ pending.bs.Wf pending.cfg := ⟨rfl, pending_stream⟩

theorem witness_WriteSeekKeepsContent : pending.st.faulted = false ∧ pending.bs.Wf pending.cfg ∧
    64 * pending.bs.cap < (65 : Word).toNat ∧ (64 : Word).toNat ≤ 64 * pending.bs.cap ∧
    (4 : Word).toNat ≤ 64 * pending.bs.cap := ⟨rfl, pending_stream, by decide, by decide, by decide⟩

theorem witness_FlushDeclaresLength : pending.st.faulted = false ∧ pending.bs.Wf pending.cfg := ⟨rfl, pending_stream⟩

theorem witness_StreamReadsInPlace : fresh.st.faulted = false ∧ (64 : Word).toNat ≤ 64 * fresh.bs.cap ∧
    64 * fresh.bs.cap < (65 : Word).toNat ∧ (63 : Word).toNat < 64 * fresh.bs.cap ∧ 64 * fresh.bs.cap ≤ (64 : Word).toNat ∧
    (60 : Word).toNat + (4 : Word).toNat ≤ 64 * fresh.bs.cap ∧ 64 * fresh.bs.cap < (60 : Word).toNat + (5 : Word).toNat := by
  decide

theorem witness_RandomWriteVisible : pending.st.faulted = false ∧ pending.bs.Wf pending.cfg ∧
    64 * pending.bs.cap ≤ (64 : Word).toNat ∧ (63 : Word).toNat < 64 * pending.bs.cap :=
  ⟨rfl, pending_stream, by decide, by decide⟩

theorem witness_GetPacksBytes : pending.st.faulted = false ∧ pending.bs.Wf pending.cfg ∧ pending.xb.Within pending.cfg.xbBytes ∧
    (63 : Word).toNat + ceilDiv pending.bs.wpos 8 ≤ pending.cfg.xbBytes ∧
    pending.cfg.xbBytes < (64 : Word).toNat + ceilDiv pending.bs.wpos 8 :=
  ⟨rfl, pending_stream, empty_within, by decide, by decide⟩

theorem witness_ParseUnpacksBytes : pending.st.faulted = false ∧ pending.bs.Wf pending.cfg ∧
    pending.cfg.xbBytes < (0 : Word).toNat + ceilDiv (513 : Word).toNat 8 ∧
    (0 : Word).toNat + ceilDiv (129 : Word).toNat 8 ≤ pending.cfg.xbBytes ∧
    ceilDiv (129 : Word).toNat 64 ≤ pending.bs.cap * 2 ^ 2 ∧
    (∀ i < 2, pending.bs.cap * 2 ^ i < ceilDiv (129 : Word).toNat 64) ∧ pending.bs.cap * 2 ^ 2 ≤ pending.cfg.maxWords ∧
    (0 : Word).toNat + ceilDiv (257 : Word).toNat 8 ≤ pending.cfg.xbBytes ∧
    ceilDiv (257 : Word).toNat 64 ≤ pending.bs.cap * 2 ^ 3 ∧
    (∀ i < 3, pending.bs.cap * 2 ^ i < ceilDiv (257 : Word).toNat 64) ∧ pending.cfg.maxWords < pending.bs.cap * 2 ^ 3 :=
  ⟨rfl, pending_stream, by decide, by decide, by decide, by decide, by decide, by decide, by decide, by decide, by decide⟩

theorem witness_StreamRoundTrip : fresh.st.faulted = false ∧ fresh.cfg.Wf ∧ fresh.bs.Wf fresh.cfg ∧ fresh.bs.wpos = 0 ∧
    (∀ i ∈ [Instr.bsWbits 64 0xA5, .bsWbit true, .bsWbits 0 1], isCursorWrite i = true) ∧
    ([Instr.bsWbits 64 0xA5, .bsWbit true, .bsWbits 0 1].flatMap writtenBits).length ≤ 64 * fresh.cfg.maxWords :=
  ⟨rfl, tiny_wf, fresh_stream, rfl, by decide, by decide⟩

theorem witness_ParseInvertsGet : pending.st.faulted = false ∧ pending.cfg.Wf ∧ pending.bs.Wf pending.cfg ∧
    pending.xb.Within pending.cfg.xbBytes ∧ (63 : Word).toNat + ceilDiv pending.bs.wpos 8 ≤ pending.cfg.xbBytes :=
  ⟨rfl, tiny_wf, pending_stream, empty_within, by decide⟩

theorem witness_OneBitRangeTest : fresh.st.faulted = false ∧ (60 : Word).toNat + (4 : Word).toNat ≤ 64 * 1 ∧
    (∀ p < 64 * 1, ({ fresh.bs with mem := [0x8000000000000000] } : BitStream).getbit p = true ↔ p = 63) ∧
    (3 : Word).toNat + (67 : Word).toNat ≤ masked.mask.n ∧
    (∀ i < 70, ({ n := 70, mw := [8, 0] } : Bitmask).rbit i = true ↔ i = 3) := by decide +kernel

theorem witness_ResizeZeroExtends : tailed.st.faulted = false ∧ tailed.mask.Wf tailed.cfg.mkMaxBits ∧
    tailed.cfg.mkMaxBits < (257 : Word).toNat ∧ (256 : Word).toNat ≤ tailed.cfg.mkMaxBits :=
  ⟨rfl, tailed_wf, by decide, by decide⟩

theorem witness_MaskBitWrites : masked.st.faulted = false ∧ masked.mask.Wf masked.cfg.mkMaxBits ∧
    masked.mask.n ≤ (70 : Word).toNat ∧ (69 : Word).toNat < masked.mask.n := ⟨rfl, masked_wf, by decide, by decide⟩

theorem witness_MaskReads : tailed.st.faulted = false ∧ (69 : Word).toNat < tailed.mask.n ∧ tailed.mask.n ≤ (70 : Word).toNat ∧
    (65 : Word).toNat + (5 : Word).toNat ≤ tailed.mask.n ∧ tailed.mask.n < (65 : Word).toNat + (6 : Word).toNat := by decide

theorem witness_MaskResetClears : tailed.st.faulted = false := rfl

theorem witness_MaskViewCopiesOut : masked.st.faulted = false ∧ masked.mask.Wf masked.cfg.mkMaxBits ∧
    masked.xb.Within masked.cfg.xbBytes ∧ (1 : Word).toNat % 8 ≠ 0 ∧
    ((56 : Word).toNat % 8 = 0 ∧ masked.cfg.xbBytes < (56 : Word).toNat + 8 * ceilDiv masked.mask.n 64) ∧
    (48 : Word).toNat % 8 = 0 ∧ (48 : Word).toNat + 8 * ceilDiv masked.mask.n 64 ≤ masked.cfg.xbBytes :=
  ⟨rfl, masked_wf, empty_within, by decide, by decide, by decide, by decide⟩

theorem witness_MaskUseCopiesIn : masked.st.faulted = false ∧ (1 : Word).toNat % 8 ≠ 0 ∧
    ((56 : Word).toNat % 8 = 0 ∧ masked.cfg.xbBytes < (56 : Word).toNat + 8 * ceilDiv masked.mask.n 64) ∧
    (48 : Word).toNat % 8 = 0 ∧ (48 : Word).toNat + 8 * ceilDiv masked.mask.n 64 ≤ masked.cfg.xbBytes ∧
    tailed.st.faulted = false ∧ (48 : Word).toNat + 8 * ceilDiv tailed.mask.n 64 ≤ tailed.cfg.xbBytes ∧
    tailed.mask.Wf tailed.cfg.mkMaxBits ∧ tailed.xb.Within tailed.cfg.xbBytes :=
  ⟨rfl, by decide, by decide, by decide, by decide, rfl, by decide, tailed_wf, empty_within⟩

/-- The illegal, the empty, the too large and the greatest legal shape. -/
theorem witness_ShapeClearsArray : fresh.st.faulted = false ∧ ¬ (1 ≤ (4 : Byte).toNat ∧ (4 : Byte).toNat ≤ 3) ∧
    ((1 ≤ (2 : Byte).toNat ∧ (2 : Byte).toNat ≤ 3) ∧ ((2 : Byte).toNat < 3 → (0 : Word) = 0)) ∧ (0 : Word).toNat = 0 ∧
    fresh.cfg.maxElems < (4 : Word).toNat * (5 : Word).toNat * 1 ∧
    (4 : Word).toNat * (4 : Word).toNat * 1 ≤ fresh.cfg.maxElems := by decide

theorem witness_CoefficientStoreLoad : shaped.st.faulted = false ∧ shaped.cm.Wf shaped.cfg ∧ shaped.cm.n ≤ (16 : Word).toNat ∧
    (15 : Word).toNat < shaped.cm.n := ⟨rfl, shaped_wf, by decide, by decide⟩

theorem witness_SplitSPartitions : 1 ≤ (CoefSet.mk ⟨3, 0, 0⟩ ⟨2, 1, 1⟩ 1).extent.x ∧
    1 ≤ (CoefSet.mk ⟨3, 0, 0⟩ ⟨2, 1, 1⟩ 1).extent.y ∧ 1 ≤ (CoefSet.mk ⟨3, 0, 0⟩ ⟨2, 1, 1⟩ 1).extent.z ∧
    (splitS (CoefSet.mk ⟨3, 0, 0⟩ ⟨2, 1, 1⟩ 1)).length = 2 := by decide

theorem witness_SplitITiles : (1 : Nat) ≤ 2 ∧ splitI ⟨5, 3, 1⟩ 2 =
    [⟨⟨2, 0, 0⟩, ⟨1, 1, 1⟩, 2⟩, ⟨⟨0, 1, 0⟩, ⟨2, 1, 1⟩, 2⟩, ⟨⟨2, 1, 0⟩, ⟨1, 1, 1⟩, 2⟩] := by decide

theorem witness_RootDepthLeast : 1 ≤ (Tri.mk 5 3 1).x ∧ 1 ≤ (Tri.mk 5 3 1).y ∧ 1 ≤ (Tri.mk 5 3 1).z ∧
    rootDepth ⟨5, 3, 1⟩ = 3 ∧ halving ⟨5, 3, 1⟩ 3 = ⟨1, 1, 1⟩ ∧ halving ⟨5, 3, 1⟩ 2 ≠ ⟨1, 1, 1⟩ := by decide

theorem witness_EncodeCompletes : fresh.cm.n = 0 ∧ shaped.st.faulted = false ∧ shaped.cfg.Wf ∧ shaped.bs.Wf shaped.cfg ∧
    shaped.cm.Wf shaped.cfg ∧ 1 ≤ shaped.cm.n ∧
    shaped.bs.wpos + min (256 : Word).toNat (codedAtMost shaped.cm.n shaped.cm.maxbits) ≤ 64 * shaped.cfg.maxWords ∧
    1 ≤ single.cm.n ∧ single.cm.Wf single.cfg ∧
    single.bs.wpos + min all1.toNat (codedAtMost single.cm.n single.cm.maxbits) ≤ 64 * single.cfg.maxWords :=
  ⟨rfl, rfl, tiny_wf, fresh_stream, shaped_wf, by decide, by decide +kernel, by decide, single_wf, by decide +kernel⟩

theorem witness_DecodeCompletes : declared.st.faulted = false ∧ 63 < (64 : Byte).toNat ∧ (63 : Byte).toNat ≤ 63 ∧
    fresh.cm.n = 0 ∧ 1 ≤ declared.cm.n ∧
    declared.bs.rpos + min all1.toNat (codedAtMost declared.cm.n (63 : Byte).toNat) ≤ declared.bs.blen ∧
    shaped.bs.blen ≤ shaped.bs.rpos ∧ 1 ≤ shaped.cm.n ∧ all1 ≠ 0 := by decide +kernel

theorem witness_EncodePrefix : shaped.st.faulted = false ∧ shaped.cfg.Wf ∧ shaped.bs.Wf shaped.cfg ∧
    (7 : Word).toNat ≤ all1.toNat ∧ 1 ≤ shaped.cm.n ∧
    exec (.spkEnc 7) shaped = .next (nextOf (exec (.spkEnc 7) shaped)) ∧
    exec (.spkEnc all1) shaped = .next (nextOf (exec (.spkEnc all1) shaped)) ∧
    (nextOf (exec (.spkEnc all1) shaped)).endedWith .ok :=
  ⟨rfl, tiny_wf, fresh_stream, by decide, by decide, exec_eq_nextOf _ _, exec_eq_nextOf _ _,
    by unfold State.endedWith; decide +kernel⟩

/-- The other stream holds the same bits three places higher, and other bits around them. -/
theorem witness_DecodeReadsOnlyConsumedBits : coded.st.faulted = false ∧
    exec (.spkDec 6 15) coded = .next (nextOf (exec (.spkDec 6 15) coded)) ∧
    (nextOf (exec (.spkDec 6 15) coded)).endedWith .ok ∧
    3 + ((nextOf (exec (.spkDec 6 15) coded)).bs.rpos - coded.bs.rpos) ≤ 20 ∧
    ∀ i < (nextOf (exec (.spkDec 6 15) coded)).bs.rpos - coded.bs.rpos,
      ({ coded.bs with mem := [0x222B * 8 + 7 + 2 ^ 18], rpos := 3, blen := 20 } : BitStream).getbit (3 + i) =
        coded.bs.getbit (coded.bs.rpos + i) :=
  ⟨rfl, exec_eq_nextOf _ _, by unfold State.endedWith; decide +kernel, by decide +kernel, by decide +kernel⟩

theorem witness_SpeckRoundTrip : shaped.st.faulted = false ∧ shaped.cfg.Wf ∧ shaped.bs.Wf shaped.cfg ∧
    shaped.cm.Wf shaped.cfg ∧ 1 ≤ shaped.cm.n ∧
    exec (.spkEnc all1) shaped = .next (nextOf (exec (.spkEnc all1) shaped)) ∧
    (nextOf (exec (.spkEnc all1) shaped)).endedWith .ok :=
  ⟨rfl, tiny_wf, fresh_stream, shaped_wf, by decide, exec_eq_nextOf _ _, by unfold State.endedWith; decide +kernel⟩

theorem witness_OutTolSets : fresh.st.faulted = false ∧ (1 ≤ (1 : Word).toNat ∧ (1 : Word).toNat < 0x7FF0000000000000) ∧
    (1 ≤ (0x7FEFFFFFFFFFFFFF : Word).toNat ∧ (0x7FEFFFFFFFFFFFFF : Word).toNat < 0x7FF0000000000000) ∧
    ((0 : Word).toNat = 0 ∨ 0x7FF0000000000000 ≤ (0 : Word).toNat) ∧
    0x7FF0000000000000 ≤ (0x7FF0000000000000 : Word).toNat := by decide

/-- One record (0, 0.5) of tolerance 0.1 in an array of one element: the bound then is the whole stream. -/
def stagedOne : State := { staged with xb := Memory.writeWord [] 8 0x3FE0000000000000 }

theorem witness_OutEncCompletes : stagedOne.st.faulted = false ∧ stagedOne.cfg.Wf ∧ stagedOne.bs.Wf stagedOne.cfg ∧
    (0 : Word).toNat % 8 = 0 ∧ (0 : Word).toNat + 16 * (1 : Word).toNat ≤ stagedOne.cfg.xbBytes ∧ stagedOne.oc.tolv = true ∧
    1 ≤ (1 : Word).toNat ∧ (1 : Word).toNat ≤ stagedOne.cfg.maxElems ∧
    (∀ j < (1 : Word).toNat, stagedOne.SoundRecord 0 1 j) ∧
    stagedOne.bs.wpos + codedAtMost (1 : Word).toNat 63 ≤ 64 * stagedOne.cfg.maxWords := by
  refine ⟨rfl, tiny_wf, fresh_stream, by decide, by decide, rfl, by decide, by decide, fun j hj => ?_, by decide⟩
  have h0 : j = 0 := by have : j < 1 := hj; omega
  subst h0
  exact ⟨by decide +kernel, by decide +kernel, by decide +kernel, by decide +kernel, fun i hi => absurd hi (by omega)⟩

/-- The list of one record fits the last 16 bytes of the buffer, where one of two would not. -/
theorem witness_OutlierRoundTrip : stagedOne.st.faulted = false ∧ stagedOne.cfg.Wf ∧ stagedOne.bs.Wf stagedOne.cfg ∧
    exec (.outEnc 0 1 2) stagedOne = .next (nextOf (exec (.outEnc 0 1 2) stagedOne)) ∧
    (nextOf (exec (.outEnc 0 1 2) stagedOne)).endedWith .ok ∧ (48 : Word).toNat % 8 = 0 ∧
    (48 : Word).toNat + 16 * (1 : Word).toNat ≤ stagedOne.cfg.xbBytes ∧ (1 : Nat) < (2 : Word).toNat ∧
    (∀ j < (1 : Word).toNat, (stagedOne.xb.outlierRecord 0 j).pos ≠ 1) ∧
    (nextOf (exec (.outEnc 0 1 2) stagedOne)).cm.mag[(stagedOne.xb.outlierRecord 0 0).pos]? = some 5 :=
  ⟨rfl, tiny_wf, fresh_stream, exec_eq_nextOf _ _, by unfold State.endedWith; decide +kernel, by decide, by decide, by decide,
    by decide +kernel, by decide +kernel⟩

/-- The premises, and each clause: the last where stream and buffer hold all the array can need; a decode that ends `OK` with
one element found, whose list fits at 48 and not at 64; and one that ends `DATA_SHORT`, with no bit left and with 10. -/
theorem witness_OutDecCompletes : { declared with oc := staged.oc }.st.faulted = false ∧
    declared.xb.Within declared.cfg.xbBytes ∧ (7 : Byte).toNat ≤ 63 ∧ (0 : Byte).toNat ≤ 3 ∧
    (7 : Byte).toNat < 8 * 2 ^ (0 : Byte).toNat ∧ (48 : Word).toNat % 8 = 0 ∧ staged.oc.tolv = true ∧
    1 ≤ (1 : Word).toNat ∧ (1 : Word).toNat ≤ declared.cfg.maxElems ∧
    (48 : Word).toNat + 16 * (1 : Word).toNat ≤ declared.cfg.xbBytes ∧
    declared.bs.rpos + codedAtMost (1 : Word).toNat (7 : Byte).toNat ≤ declared.bs.blen :=
  ⟨rfl, empty_within, by decide, by decide, by decide, by decide, rfl, by decide, by decide, by decide, by decide⟩

theorem witness_OutDecCompletes_found :
    let d := nextOf (exec (.spkDec 2 all1) { codedOutlier with cm := .shaped 1 ⟨8, 1, 1⟩ })
    codedOutlier.st.faulted = false ∧ codedOutlier.xb = [] ∧ codedOutlier.oc.tolv = true ∧
      (8 : Word).toNat ≤ codedOutlier.cfg.maxElems ∧ d.st.lastst = Status.ok.code ∧ d.cm.outlierPositions = [5] ∧
      (48 : Word).toNat + 16 * 1 ≤ codedOutlier.cfg.xbBytes ∧ (64 : Word).toNat ≤ codedOutlier.cfg.xbBytes ∧
      codedOutlier.cfg.xbBytes < (64 : Word).toNat + 16 * 1 ∧ (64 : Word).toNat % 8 = 0 := by decide +kernel

theorem witness_OutDecCompletes_short :
    fresh.bs.blen ≤ fresh.bs.rpos ∧
      (nextOf (exec (.spkDec 2 all1) { cutOutlier with cm := .shaped 1 ⟨8, 1, 1⟩ })).st.lastst = Status.dataShort.code ∧
      cutOutlier.xb = [] ∧ cutOutlier.oc.tolv = true ∧ cutOutlier.st.faulted = false := by decide +kernel

/-- Each check of `OUT_ENC` fails somewhere: a misaligned list, one too long, no tolerance, no length, one too great, a position
out of range, an error that is not finite, and a position given twice. -/
theorem witness_OutEncRefusals : staged.st.faulted = false ∧ (4 : Word).toNat % 8 ≠ 0 ∧
    staged.cfg.xbBytes < (0 : Word).toNat + 16 * (5 : Word).toNat ∧ fresh.oc.tolv = false ∧ (0 : Word).toNat = 0 ∧
    staged.cfg.maxElems < (17 : Word).toNat ∧ 5 ≤ (staged.xb.outlierRecord 0 0).pos ∧
    (staged.xb.outlierRecord 0 0).pos < 6 ∧
    Real.finite ((Memory.writeWord [] 8 0x7FF0000000000000).outlierRecord 0 0).error = false ∧
    (stagedOne.xb.outlierRecord 0 1).pos = (stagedOne.xb.outlierRecord 0 0).pos := by decide +kernel

theorem witness_OutDecRefusals : codedOutlier.st.faulted = false ∧ 63 < (64 : Byte).toNat ∧ 3 < (4 : Byte).toNat ∧
    (63 : Byte).toNat ≤ 63 ∧ (3 : Byte).toNat ≤ 3 ∧ (4 : Word).toNat % 8 ≠ 0 ∧ (64 : Word).toNat % 8 = 0 ∧
    codedOutlier.cfg.xbBytes < (72 : Word).toNat ∧ (64 : Word).toNat ≤ codedOutlier.cfg.xbBytes ∧
    codedOutlier.oc.tolv = true ∧ fresh.oc.tolv = false ∧ codedOutlier.cfg.maxElems < (17 : Word).toNat ∧
    (16 : Word).toNat ≤ codedOutlier.cfg.maxElems ∧ 8 * 2 ^ (0 : Byte).toNat ≤ (8 : Byte).toNat := by decide

/-- 0.5 / 0.1 and 0.1 * 5.0, with 1.0 as the other value (45_outlier_coder.md R298). -/
theorem witness_RealRoundingIsNearest : Real.finite 0x3FE0000000000000 = true ∧ Real.finite 0x3FB999999999999A = true ∧
    Real.finite 0x3FF0000000000000 = true ∧ Real.units 0x3FB999999999999A ≠ 0 ∧
    Real.fdiv 0x3FE0000000000000 0x3FB999999999999A = 0x4014000000000000 ∧
    Real.finite 0x4014000000000000 = true ∧
    Real.fmul 0x3FB999999999999A 0x4014000000000000 = 0x3FE0000000000000 := by decide +kernel

/-- The greatest finite value over 0.5, and times 2.0, is infinite; over and times 1.0 it is itself. -/
theorem witness_RealRoundingIsNearest_overflow : Real.finite 0x7FEFFFFFFFFFFFFF = true ∧
    Real.units 0x3FE0000000000000 ≠ 0 ∧ Real.fdiv 0x7FEFFFFFFFFFFFFF 0x3FE0000000000000 = 0x7FF0000000000000 ∧
    Real.fmul 0x7FEFFFFFFFFFFFFF 0x4000000000000000 = 0x7FF0000000000000 ∧
    Real.finite (Real.fdiv 0x7FEFFFFFFFFFFFFF 0x3FE0000000000000) = false ∧
    Real.fdiv 0x7FEFFFFFFFFFFFFF 0x3FF0000000000000 = 0x7FEFFFFFFFFFFFFF ∧
    Real.fmul 0x7FEFFFFFFFFFFFFF 0x3FF0000000000000 = 0x7FEFFFFFFFFFFFFF := by decide +kernel

theorem witness_ExchangeAccess : staged.st.faulted = false ∧ staged.xb.Within staged.cfg.xbBytes ∧
    staged.cfg.xbBytes < (64 : Word).toNat + 1 ∧ (63 : Word).toNat + 1 ≤ staged.cfg.xbBytes ∧ (63 : Word).toNat % 8 ≠ 0 ∧
    ((64 : Word).toNat % 8 = 0 ∧ staged.cfg.xbBytes < (64 : Word).toNat + 8) ∧
    (56 : Word).toNat % 8 = 0 ∧ (56 : Word).toNat + 8 ≤ staged.cfg.xbBytes :=
  ⟨rfl, staged_within, by decide, by decide, by decide, by decide, by decide, by decide⟩

end Sys2Proof.Tests
end

