-- ==== Sys2Proof/Proofs/Scope.lean ====
section
/-! SUPPORT. The statements of 00_scope.md R10 on the binary64 patterns: which tolerances `OUT_TOL` takes
(45_outlier_coder.md R292), and that the quotient and the product are the nearest values (R291). -/

namespace Sys2Proof.Machine

/-! ### The finite patterns greater than zero -/

theorem Real.key_zero : Real.key 0 = 0 := by decide

/-- A key is positive exactly where the sign bit is clear and some magnitude bit is set. -/
theorem Real.key_pos_iff (x : Word) : 0 < Real.key x ↔ 1 ≤ x.toNat ∧ x.toNat < 2 ^ 63 := by
  have hx := x.isLt
  unfold Real.key
  rw [Real.fabs_toNat]
  by_cases hs : Real.neg x = true
  · have := (Real.neg_iff x).1 hs
    rw [if_pos hs]
    omega
  · have := mt (Real.neg_iff x).2 hs
    rw [if_neg hs]
    omega

/-- Of the finite patterns, the values greater than zero are those with a positive key. -/
theorem Real.flt_zero_iff {x : Word} (hx : Real.finite x = true) : Real.flt 0 x = true ↔ 0 < Real.key x := by
  have h0 : Real.isNaN 0 = false := by decide
  rw [Real.flt, h0, Real.isNaN_of_finite hx, Real.key_zero]
  simp

/-- The finite values greater than zero are the patterns from 1 up to infinity's, by the layout of IEEE 754 (log 10). -/
theorem Real.finite_and_pos_iff (x : Word) :
    (Real.finite x && Real.flt 0 x) = true ↔ 1 ≤ x.toNat ∧ x.toNat < Real.infBits := by
  have hinf : Real.infBits < 2 ^ 63 := by decide
  rw [Bool.and_eq_true]
  constructor
  · rintro ⟨hf, hp⟩
    have ⟨h1, h2⟩ := (Real.key_pos_iff x).1 ((Real.flt_zero_iff hf).1 hp)
    have := (Real.finite_iff x).1 hf
    omega
  · rintro ⟨h1, h2⟩
    have hf : Real.finite x = true := (Real.finite_iff x).2 (by omega)
    exact ⟨hf, (Real.flt_zero_iff hf).2 ((Real.key_pos_iff x).2 (by omega))⟩

/-! ### `OUT_TOL` -/

/-- What `OUT_TOL` does in a CORE that is not faulted (R292). -/
theorem exec_outTol_of_live {s : State} (h : s.st.faulted = false) (tau : Word) :
    exec (.outTol tau) s =
      if 1 ≤ tau.toNat ∧ tau.toNat < Real.infBits then
        .next ({ s with oc := { tol := tau, tolv := true } }.finish .ok 0 0)
      else .next (s.finish .arg 0 0) := by
  rw [exec, execOutTol, unlessFaulted_of_live h]
  simp only [Real.finite_and_pos_iff, finishOk_eq, raise_eq]

/-- Settles O53: the check of R292, on a pattern, is the range `1 .. 0x7FEFFFFFFFFFFFFF`. -/
theorem outTolSets : Obligations.OutTolSets := by
  intro tau s hs
  rw [exec_outTol_of_live hs]
  exact ⟨fun h => if_pos h, fun h => if_neg (by rw [Real.infBits]; omega)⟩

/-! ### The nearest quotient and product -/

/-- Settles O59: both operations round the exact result once (`fdiv_of_finite`, `fmul_of_finite`), and the pattern that
rounding gives is the nearest one (`withSign_roundUnits_spec`). The casts are moved by rewriting, so that no tactic
evaluates `2^1074`. -/
theorem realRoundingIsNearest : Obligations.RealRoundingIsNearest := by
  intro x y hx hy
  constructor
  · intro hy0
    obtain ⟨hneg, hfin, hinf, hnear⟩ := Real.withSign_roundUnits_spec (Real.neg x != Real.neg y)
      (Real.units x * 2 ^ 1074) (Nat.pos_of_ne_zero hy0)
    rw [Real.fdiv_of_finite hx hy hy0]
    rw [Nat.cast_mul, Nat.cast_pow, Nat.cast_ofNat] at hnear
    exact ⟨hneg, hfin, hinf, fun hf z _ => hnear hf z⟩
  · have hunit : 0 < 2 ^ 1074 := pow_pos two_pos _
    obtain ⟨hneg, hfin, hinf, hnear⟩ := Real.withSign_roundUnits_spec (Real.neg x != Real.neg y)
      (Real.units x * Real.units y) hunit
    rw [Real.fmul_of_finite hx hy]
    rw [Nat.cast_mul, Nat.cast_pow, Nat.cast_ofNat] at hnear
    exact ⟨hneg, hfin, hinf, fun hf z _ => hnear hf z⟩

end Sys2Proof.Machine
end

