-- ==== Sys2Proof/Proofs/State.lean ====
section
/-! SUPPORT. The statements of 10_state.md: one inversion of what a command can leave (`executed_of_exec`), from which the
invariant, the capacity and the fatal fault follow; the answer and the flags; reset and `RDREG`. -/

namespace Sys2Proof.Machine

/-! ### Reset (10_state.md R65) -/

theorem BitStream.wf_reset {cfg : Params} (h : cfg.Wf) : (BitStream.reset cfg.cap0Words).Wf cfg where
  capPos := by
    obtain ⟨i, hi⟩ := h.capPower
    exact hi ▸ Nat.one_le_two_pow
  capPower := ⟨0, (Nat.mul_one _).symm⟩
  capLe := by
    obtain ⟨j, hj⟩ := h.maxPower
    exact hj ▸ Nat.le_mul_of_pos_right _ (Nat.two_pow_pos j)
  memLen := List.length_replicate
  wposLe := Nat.zero_le _
  rposLe := Nat.zero_le _
  pendingLow _ _ := BitVec.getLsbD_zero
  blenLe := Nat.zero_le _

theorem CoefMem.wf_unshaped (cfg : Params) : CoefMem.unshaped.Wf cfg := ⟨.inl ⟨rfl, rfl⟩, rfl, rfl, Nat.zero_le _⟩

theorem OutlierRegs.wf_reset : OutlierRegs.reset.Wf := fun h => absurd h Bool.false_ne_true

theorem State.unitsWf_resetUnits {s : State} (h : s.cfg.Wf) : s.resetUnits.UnitsWf :=
  ⟨BitStream.wf_reset h, Bitmask.wf_empty _, rfl, rfl, CoefMem.wf_unshaped _, OutlierRegs.wf_reset⟩

theorem State.inv_resetUnits {s : State} (hc : s.cfg.Wf) (hx : s.xb.Within s.cfg.xbBytes) : s.resetUnits.Inv :=
  ⟨hc, BitVec.getLsbD_zero, ⟨.ok, rfl⟩, hx, fun _ => State.unitsWf_resetUnits hc⟩

theorem State.atReset_resetUnits (s : State) : s.resetUnits.AtReset :=
  ⟨⟨rfl, rfl, rfl⟩, ⟨rfl, rfl, rfl, rfl, rfl, rfl⟩, ⟨rfl, rfl⟩, ⟨rfl, rfl⟩, ⟨rfl, rfl, rfl, rfl, rfl⟩,
    ⟨rfl, rfl, rfl, rfl, rfl, rfl, rfl⟩, ⟨rfl, rfl⟩⟩

/-- Ending with `OK` after a reset writes `LASTST` 0 over 0. -/
theorem State.atReset_finish_ok {s : State} (h : s.AtReset) (r0 r1 : Word) : (s.finish .ok r0 r1).AtReset := by
  obtain ⟨⟨hflags, -, hfaulted⟩, hunits⟩ := h
  rw [State.finish_of_ne_alloc _ _ _ _ (by decide), StatusUnit.record_ok]
  exact ⟨⟨hflags, rfl, hfaulted⟩, hunits⟩

/-- Hardware reset leaves the units as the `RESET` command does, so what holds after one holds after the other (R65). -/
theorem State.resetUnits_hardwareReset (cfg : Params) (xb : Memory) :
    (State.hardwareReset cfg xb).resetUnits = State.hardwareReset cfg xb := rfl

/-- The default parameters are legal (00_scope.md R5). -/
theorem Params.wf_default : Params.default.Wf :=
  ⟨⟨0, rfl⟩, ⟨20, rfl⟩, by decide, by decide, by decide, by decide, by decide, by decide, by decide⟩

theorem Memory.within_nil (size : Nat) : Memory.Within [] size := ⟨rfl, fun _ h => absurd h List.not_mem_nil⟩

theorem State.atReset_hardwareReset (cfg : Params) (xb : Memory) : (State.hardwareReset cfg xb).AtReset :=
  State.resetUnits_hardwareReset cfg xb ▸ State.atReset_resetUnits _

theorem State.inv_hardwareReset {cfg : Params} {xb : Memory} (hc : cfg.Wf) (hx : xb.Within cfg.xbBytes) :
    (State.hardwareReset cfg xb).Inv :=
  State.resetUnits_hardwareReset cfg xb ▸ State.inv_resetUnits (s := State.hardwareReset cfg xb) hc hx

/-- Settles O17: both resets leave the units of `resetUnits`. -/
theorem resetLeavesListedValues : Obligations.ResetLeavesListedValues :=
  ⟨fun cfg xb => ⟨State.atReset_hardwareReset cfg xb, rfl⟩, State.atReset_hardwareReset _ _,
    fun s => ⟨_, rfl, State.atReset_finish_ok (State.atReset_resetUnits s) 0 0, rfl⟩⟩

/-- Settles O19: the parameters of `State.reset` are legal ones, and its `XB` lists no byte. -/
theorem resetMeetsInvariant : Obligations.ResetMeetsInvariant :=
  ⟨State.inv_hardwareReset Params.wf_default (Memory.within_nil _), fun _ _ => State.inv_hardwareReset⟩

/-! ### What the body of a command keeps -/

/-- What the body of a command of a live CORE keeps, whatever it does to the units: the status unit, the parameters, the
capacity up to doublings (R27), and the invariants of the units and of the exchange buffer. -/
structure BodyKeeps (s u : State) : Prop where
  st : u.st = s.st
  cfg : u.cfg = s.cfg
  cap : ∃ j, u.bs.cap = s.bs.cap * 2 ^ j
  units : s.UnitsWf → u.UnitsWf
  exchange : s.xb.Within s.cfg.xbBytes → u.xb.Within s.cfg.xbBytes

/-- A capacity that has not changed has been doubled no times. -/
theorem eq_mul_two_pow_self (c : Nat) : ∃ j, c = c * 2 ^ j := ⟨0, (Nat.mul_one c).symm⟩

namespace BodyKeeps

variable {s u v : State}

theorem refl (s : State) : BodyKeeps s s := ⟨rfl, rfl, eq_mul_two_pow_self _, id, id⟩

theorem trans (h : BodyKeeps s u) (k : BodyKeeps u v) : BodyKeeps s v where
  st := k.st.trans h.st
  cfg := k.cfg.trans h.cfg
  cap := by
    obtain ⟨i, hi⟩ := h.cap
    obtain ⟨j, hj⟩ := k.cap
    exact ⟨i + j, by rw [hj, hi, Nat.pow_add, Nat.mul_assoc]⟩
  units := k.units ∘ h.units
  exchange hx := h.cfg ▸ k.exchange (h.cfg.symm ▸ h.exchange hx)

theorem stream {b : BitStream} (hcap : ∃ j, b.cap = s.bs.cap * 2 ^ j) (hwf : s.bs.Wf s.cfg → b.Wf s.cfg) :
    BodyKeeps s { s with bs := b } :=
  ⟨rfl, rfl, hcap, fun h => ⟨hwf h.stream, h.mask, h.lipEmpty, h.worklistsEmpty, h.coefs, h.tolerance⟩, id⟩

theorem stream_of_cap_eq {b : BitStream} (hcap : b.cap = s.bs.cap) (hwf : s.bs.Wf s.cfg → b.Wf s.cfg) :
    BodyKeeps s { s with bs := b } := stream (hcap ▸ eq_mul_two_pow_self _) hwf

theorem mask {x : Bitmask} (hwf : s.mask.Wf s.cfg.mkMaxBits → x.Wf s.cfg.mkMaxBits) : BodyKeeps s { s with mask := x } :=
  ⟨rfl, rfl, eq_mul_two_pow_self _,
    fun h => ⟨h.stream, hwf h.mask, h.lipEmpty, h.worklistsEmpty, h.coefs, h.tolerance⟩, id⟩

theorem coefs {cm : CoefMem} (hwf : s.cm.Wf s.cfg → cm.Wf s.cfg) : BodyKeeps s { s with cm := cm } :=
  ⟨rfl, rfl, eq_mul_two_pow_self _,
    fun h => ⟨h.stream, h.mask, h.lipEmpty, h.worklistsEmpty, hwf h.coefs, h.tolerance⟩, id⟩

theorem tolerance {oc : OutlierRegs} (hwf : oc.Wf) : BodyKeeps s { s with oc := oc } :=
  ⟨rfl, rfl, eq_mul_two_pow_self _,
    fun h => ⟨h.stream, h.mask, h.lipEmpty, h.worklistsEmpty, h.coefs, hwf⟩, id⟩

theorem exchangeBuffer {m : Memory} (hx : s.xb.Within s.cfg.xbBytes → m.Within s.cfg.xbBytes) :
    BodyKeeps s { s with xb := m } :=
  ⟨rfl, rfl, eq_mul_two_pow_self _,
    fun h => ⟨h.stream, h.mask, h.lipEmpty, h.worklistsEmpty, h.coefs, h.tolerance⟩, hx⟩

/-- A coding run empties the engine's own units (R34, R50). -/
theorem engineFreed : BodyKeeps s { s with lip := .empty, wl := .empty } :=
  ⟨rfl, rfl, eq_mul_two_pow_self _, fun h => ⟨h.stream, h.mask, rfl, rfl, h.coefs, h.tolerance⟩, id⟩

end BodyKeeps

/-! ### What each unit's operations keep -/

/-- A cursor that moves within the capacity (R29). -/
theorem BitStream.wf_moveRead {cfg : Params} {b : BitStream} (h : b.Wf cfg) {pos : Nat} (hp : pos ≤ 64 * b.cap) :
    ({ b with rpos := pos } : BitStream).Wf cfg :=
  ⟨h.capPos, h.capPower, h.capLe, h.memLen, h.wposLe, hp, h.pendingLow, h.blenLe⟩

/-- The stream that `BS_REWIND` leaves (41_bitstream.md R150). -/
theorem BitStream.wf_rewind {cfg : Params} {b : BitStream} (h : b.Wf cfg) :
    ({ b.commit with wpos := 0, rpos := 0, wbuf := 0 } : BitStream).Wf cfg :=
  have hc := BitStream.wf_commit h
  ⟨hc.capPos, hc.capPower, hc.capLe, hc.memLen, Nat.zero_le _, Nat.zero_le _, fun _ _ => BitVec.getLsbD_zero, hc.blenLe⟩

theorem BitStream.wf_put {cfg : Params} {b g : BitStream} {v : Bool} (h : b.Wf cfg) (hg : b.put cfg.maxWords v = some g) :
    g.Wf cfg := by
  rcases BitStream.put_cases h v with ⟨-, -, hn⟩ | ⟨-, g', hs, hw, -⟩
  · exact absurd (hn.symm.trans hg) (by simp)
  · obtain rfl : g' = g := Option.some.inj (hs.symm.trans hg)
    exact hw

/-- Whatever bits are written, the capacity only doubles, and the stream's invariants hold (R27; 41_bitstream.md R144,
R145). -/
theorem BitStream.putAll_keeps {cfg : Params} {b g : BitStream} {vs : List Bool}
    (h : BitStream.putAll cfg.maxWords vs b = some g) : (∃ j, g.cap = b.cap * 2 ^ j) ∧ (b.Wf cfg → g.Wf cfg) := by
  induction vs generalizing b with
  | nil =>
    obtain rfl : b = g := Option.some.inj h
    exact ⟨eq_mul_two_pow_self _, id⟩
  | cons v vs ih =>
    obtain ⟨c, hc, hg⟩ := Option.bind_eq_some_iff.1 h
    obtain ⟨⟨j, hj⟩, hwf⟩ := ih hg
    obtain ⟨-, -, hcap, -⟩ := BitStream.put_some hc
    refine ⟨?_, fun hb => hwf (BitStream.wf_put hb hc)⟩
    rcases hcap with hcap | hcap
    · exact ⟨j, by rw [hj, hcap]⟩
    · exact ⟨j + 1, by rw [hj, hcap, Nat.pow_succ, Nat.mul_assoc, Nat.mul_comm 2]⟩

/-- Setting magnitudes and signs keeps the shape and the lengths of the arrays (R36). -/
theorem CoefMem.wf_set {cfg : Params} {cm : CoefMem} (h : cm.Wf cfg) (i : Nat) (v : Word) (sign : Bool) :
    ({ cm with mag := cm.mag.set i v, sgn := cm.sgn.set i sign } : CoefMem).Wf cfg :=
  ⟨h.shape, List.length_set.trans h.magLen, List.length_set.trans h.sgnLen, h.sizeLe⟩

/-- A fresh array of legal extents (43_coefficient_memory_and_sets.md R210). -/
theorem CoefMem.wf_shaped {cfg : Params} {d : Nat} {ext : Tri}
    (hshape : 1 ≤ d ∧ d ≤ 3 ∧ 1 ≤ ext.x ∧ 1 ≤ ext.y ∧ 1 ≤ ext.z ∧ (d < 2 → ext.y = 1) ∧ (d < 3 → ext.z = 1))
    (hsize : ext.volume ≤ cfg.maxElems) : (CoefMem.shaped d ext).Wf cfg :=
  ⟨.inr hshape, List.length_replicate, List.length_replicate, hsize⟩

/-- The one-dimensional array that the outlier commands code through (45_outlier_coder.md R294, R296). -/
theorem CoefMem.wf_shaped_line {cfg : Params} {n : Nat} (h1 : 1 ≤ n) (hn : n ≤ cfg.maxElems) :
    (CoefMem.shaped 1 ⟨n, 1, 1⟩).Wf cfg :=
  CoefMem.wf_shaped ⟨Nat.le_refl 1, by omega, h1, Nat.le_refl 1, Nat.le_refl 1, fun _ => rfl, fun _ => rfl⟩
    (by simpa [Tri.volume] using hn)

theorem wf_denseOutliers {cfg : Params} {n : Nat} (h1 : 1 ≤ n) (hn : n ≤ cfg.maxElems) (tau : Word)
    (records : List OutlierRecord) : (denseOutliers tau n records).Wf cfg := by
  suffices h : ∀ cm : CoefMem, cm.Wf cfg → (records.foldl (CoefMem.placeOutlier tau) cm).Wf cfg from
    h _ (CoefMem.wf_shaped_line h1 hn)
  induction records with
  | nil => exact fun _ h => h
  | cons r rs ih => exact fun cm h => ih _ (CoefMem.wf_set h _ _ _)

/-- The extents a legal `CM_SHAPE` sets (43_coefficient_memory_and_sets.md R210). -/
theorem shapeExtents_unused (d : Nat) (n0 n1 n2 : Word) :
    (d < 2 → (shapeExtents d n0 n1 n2).y = 1) ∧ (d < 3 → (shapeExtents d n0 n1 n2).z = 1) :=
  ⟨fun h => if_neg (Nat.not_le.2 h), fun h => if_neg (Nat.not_le.2 h)⟩

/-! ### Coding runs -/

/-- A decode consumes no bit past the declared length, unless it consumes none (44_speck_engine.md R243). -/
theorem speckRun_dec_within (budget : Word) (maxbits : Nat) (s : State) :
    (speckRun .dec budget maxbits s).2.1 = 0 ∨ s.bs.rpos + (speckRun .dec budget maxbits s).2.1 ≤ s.bs.blen := by
  have start : DecodedFrom (speckInit .dec budget s) (speckInit .dec budget s) :=
    ⟨SameOutside.refl _, rfl, rfl, rfl, rfl, rfl, Nat.zero_le _, rfl, .inl rfl⟩
  have ends := ends_planes (decodedFrom_keeps (speckInit .dec budget s)) (maxbits + 1) _ start
  rcases speckRun_cases .dec budget maxbits s with ⟨u, hp, hr⟩ | ⟨a, u, hp, hr⟩ <;> rw [hp] at ends <;> rw [hr]
  · have hu : DecodedFrom (speckInit .dec budget s) u := ends
    exact hu.within
  · have hu : DecodedFrom (speckInit .dec budget s) u := ends.1
    exact hu.within

/-- An encoder's run ends with `ALLOC`, and then has touched nothing outside the engine and the stream; or it ends with
another status and keeps what a body keeps. -/
theorem speckRun_enc_keeps (budget : Word) (maxbits : Nat) (s : State) :
    ∃ status nb u, speckRun .enc budget maxbits s = (status, nb, u) ∧ status ≠ .faulted ∧
      (status = .alloc ∧ SameOutside s u ∨ status ≠ .alloc ∧ BodyKeeps s u) := by
  rcases speckRun_enc budget maxbits s with ⟨nb, b, h, -, -, -, -, hcap, hwf⟩ | ⟨nb, u, h, hu, -⟩
  · exact ⟨_, _, _, h, by decide, .inr ⟨by decide, (BodyKeeps.stream hcap fun hb => (hwf hb).1).trans .engineFreed⟩⟩
  · exact ⟨_, _, _, h, by decide, .inl ⟨rfl, hu⟩⟩

/-- A decoder's run ends with `OK` or `DATA_SHORT` and keeps what a body keeps. -/
theorem speckRun_dec_keeps (budget : Word) (maxbits : Nat) (s : State) :
    ∃ status nb u, speckRun .dec budget maxbits s = (status, nb, u) ∧ (status = .ok ∨ status = .dataShort) ∧
      BodyKeeps s u := by
  have hin := speckRun_dec_within budget maxbits s
  obtain ⟨status, nb, cm, h, hd, hext, hmag, hsgn, -, hstatus⟩ := speckRun_dec budget maxbits s
  rw [h] at hin
  refine ⟨status, nb, _, h, hstatus.imp id And.left, ?_⟩
  have hbs : BodyKeeps s { s with bs := { s.bs with rpos := s.bs.rpos + nb } } :=
    .stream_of_cap_eq rfl fun hb => BitStream.wf_moveRead hb (by
      have := hb.rposLe
      have := hb.blenLe
      have hin' : nb = 0 ∨ s.bs.rpos + nb ≤ s.bs.blen := hin
      omega)
  have hn : cm.n = s.cm.n := by rw [CoefMem.n, hext, CoefMem.n]
  have hcm : s.cm.Wf s.cfg → cm.Wf s.cfg := fun hw => ⟨by rw [hd, hext]; exact hw.shape, hmag, hsgn, hn ▸ hw.sizeLe⟩
  exact (hbs.trans (.coefs hcm)).trans .engineFreed

/-! ### What each command can leave -/

/-- How a command that a live CORE accepts ends: with the fatal fault, nothing outside the engine, the stream and the array
touched before it (60_exceptions.md R344); or with a status that is no fatal one, after a body that keeps what
`BodyKeeps` says. -/
inductive LiveAnswer (s : State) : Result → Prop
  | alloc {u : State} (r0 r1 : Word) (outside : SameOutside s u) : LiveAnswer s (endCommand .alloc r0 r1 u)
  | ends {u : State} {status : Status} (r0 r1 : Word) (notAlloc : status ≠ .alloc) (notFaulted : status ≠ .faulted)
      (keeps : BodyKeeps s u) : LiveAnswer s (endCommand status r0 r1 u)

namespace LiveAnswer

variable {s : State}

theorem ok {u : State} {r0 r1 : Word} (h : BodyKeeps s u) : LiveAnswer s (finishOk r0 r1 u) :=
  .ends r0 r1 (by decide) (by decide) h

/-- A command refused by one of its own checks. -/
theorem refuse {status : Status} (h : status ≠ .faulted) : LiveAnswer s (raise status s) := by
  by_cases ha : status = .alloc
  · subst ha
    exact .alloc 0 0 (SameOutside.refl s)
  · exact .ends 0 0 ha h (.refl s)

theorem cond {p : Prop} [Decidable p] {a b : Result} (ha : p → LiveAnswer s a) (hb : ¬ p → LiveAnswer s b) :
    LiveAnswer s (if p then a else b) := by
  split
  · exact ha ‹_›
  · exact hb ‹_›

/-- A command whose last check is of a range. -/
theorem okIf {p : Prop} [Decidable p] {r0 r1 : Word} {u : State} (h : p → BodyKeeps s u) :
    LiveAnswer s (if p then finishOk r0 r1 u else raise .range s) :=
  cond (fun hp => ok (h hp)) fun _ => refuse (by decide)

/-- A write through the write cursor (41_bitstream.md R145 to R147). -/
theorem endWrite_putAll (vs : List Bool) : LiveAnswer s (endWrite (BitStream.putAll s.cfg.maxWords vs s.bs) s) := by
  cases hg : BitStream.putAll s.cfg.maxWords vs s.bs with
  | none => exact refuse (by decide)
  | some g =>
    obtain ⟨hcap, hwf⟩ := BitStream.putAll_keeps hg
    exact ok (.stream hcap hwf)

theorem writeMaskBit (bit : Bool) (idx : Word) : LiveAnswer s (writeMaskBit bit idx s) :=
  okIf fun _ => .mask fun h => Bitmask.wf_wbit h _ _

end LiveAnswer

/-! ### The checks of the outlier commands -/

theorem checkRecord_ne_faulted (tau : Word) (n : Nat) (seen : List Nat) (r : OutlierRecord) :
    checkRecord tau n seen r ≠ some .faulted := by
  unfold checkRecord
  split_ifs <;> simp

theorem checkRecords_ne_faulted (tau : Word) (n : Nat) (rs : List OutlierRecord) (seen : List Nat) :
    checkRecords tau n seen rs ≠ some .faulted := by
  induction rs generalizing seen with
  | nil => simp [checkRecords]
  | cons r rs ih =>
    rw [checkRecords]
    cases hr : checkRecord tau n seen r with
    | none => exact ih _
    | some status => exact fun h => checkRecord_ne_faulted tau n seen r (hr.trans h)

theorem outEncCheck_ne_faulted (addr count len : Word) (s : State) : outEncCheck addr count len s ≠ some .faulted := by
  unfold outEncCheck
  split_ifs
  case neg => exact checkRecords_ne_faulted _ _ _ _
  all_goals simp

theorem outDecCheck_ne_faulted (maxbits wsel : Byte) (addr len : Word) (s : State) :
    outDecCheck maxbits wsel addr len s ≠ some .faulted := by
  unfold outDecCheck
  split_ifs <;> simp

/-- An addressed length that passes the checks of `OUT_ENC` fits the array (45_outlier_coder.md R294). -/
theorem len_of_outEncCheck {addr count len : Word} {s : State} (h : outEncCheck addr count len s = none) :
    1 ≤ len.toNat ∧ len.toNat ≤ s.cfg.maxElems := by
  unfold outEncCheck at h
  split_ifs at h
  omega

/-- An addressed length that passes the checks of `OUT_DEC` fits the array (45_outlier_coder.md R296). -/
theorem len_of_outDecCheck {maxbits wsel : Byte} {addr len : Word} {s : State}
    (h : outDecCheck maxbits wsel addr len s = none) : 1 ≤ len.toNat ∧ len.toNat ≤ s.cfg.maxElems := by
  unfold outDecCheck at h
  split_ifs at h
  omega

/-! ### Commands whose body has several steps -/

section Bodies

variable {s : State}

theorem liveAnswer_bsGet (h : s.st.faulted = false) (addr : Word) : LiveAnswer s (exec (.bsGet addr) s) := by
  rw [exec, execBsGet, unlessFaulted_of_live h]
  refine .okIf fun hfit => ?_
  have hbs : BodyKeeps s { s with bs := s.bs.flush } :=
    .stream_of_cap_eq BitStream.commit_cap fun hw => (BitStream.flush_spec hw).1
  refine hbs.trans (.exchangeBuffer fun hx => Memory.within_writeBytes hx ?_)
  rw [packBytes_length]
  exact of_decide_eq_true hfit

theorem liveAnswer_bsParse (h : s.st.faulted = false) (addr bits : Word) : LiveAnswer s (exec (.bsParse addr bits) s) := by
  rw [exec, execBsParse, unlessFaulted_of_live h]
  refine .cond (fun _ => .cond (fun hle => .ok ?_) fun _ => .refuse (by decide)) fun _ => .refuse (by decide)
  refine .stream ⟨_, rfl⟩ fun hw => ?_
  obtain ⟨j, hj, hnw, -⟩ := parseCap_spec hw.capPos (ceilDiv bits.toNat 64)
  exact (BitStream.parse_spec hw ⟨j, hj⟩ hle _ _ (hj ▸ hnw)).1

theorem liveAnswer_mkView (h : s.st.faulted = false) (addr : Word) : LiveAnswer s (exec (.mkView addr) s) := by
  rw [exec, execMkView, unlessFaulted_of_live h]
  refine .cond (fun _ => .refuse (by decide)) fun _ => .okIf fun hfit => .exchangeBuffer fun hx => ?_
  have hfit' : addr.toNat + 8 * maskWords s.mask.n ≤ s.cfg.xbBytes := of_decide_eq_true hfit
  have hlen := List.length_take_le (maskWords s.mask.n) s.mask.mw
  exact Memory.within_writeWords hx (by omega)

theorem liveAnswer_mkUse (h : s.st.faulted = false) (addr : Word) : LiveAnswer s (exec (.mkUse addr) s) := by
  rw [exec, execMkUse, unlessFaulted_of_live h]
  refine .cond (fun _ => .refuse (by decide)) fun _ => .okIf fun _ => .mask fun hw => ⟨hw.sizeLe, ?_⟩
  simp [Memory.readWords]

theorem liveAnswer_cmShape (h : s.st.faulted = false) (d : Byte) (n0 n1 n2 : Word) :
    LiveAnswer s (exec (.cmShape d n0 n1 n2) s) := by
  rw [exec, execCmShape, unlessFaulted_of_live h]
  refine .cond (fun _ => .refuse (by decide)) fun hd => .cond (fun _ => .refuse (by decide)) fun _ =>
    .cond (fun _ => .refuse (by decide)) fun hpos =>
      .cond (fun hsize => .ok (.coefs fun _ => CoefMem.wf_shaped ?_ hsize)) fun _ => .refuse (by decide)
  obtain ⟨hy, hz⟩ := shapeExtents_unused d.toNat n0 n1 n2
  have hd' : 1 ≤ d.toNat ∧ d.toNat ≤ 3 := by simpa [legalDim, Nat.one_le_iff_ne_zero] using hd
  refine ⟨hd'.1, hd'.2, ?_, ?_, ?_, hy, hz⟩ <;> omega

theorem liveAnswer_spkEnc (h : s.st.faulted = false) (budget : Word) : LiveAnswer s (exec (.spkEnc budget) s) := by
  rw [exec, execSpkEnc, unlessFaulted_of_live h]
  refine .cond (fun _ => .refuse (by decide)) fun _ => ?_
  obtain ⟨status, nb, u, hrun, hf, ⟨rfl, hu⟩ | ⟨ha, hu⟩⟩ := speckRun_enc_keeps budget s.cm.maxbits s <;> simp only [hrun]
  · exact .alloc _ _ hu
  · exact .ends _ _ ha hf hu

theorem liveAnswer_spkDec (h : s.st.faulted = false) (maxbits : Byte) (budget : Word) :
    LiveAnswer s (exec (.spkDec maxbits budget) s) := by
  rw [exec, execSpkDec, unlessFaulted_of_live h]
  refine .cond (fun _ => .refuse (by decide)) fun _ => .cond (fun _ => .refuse (by decide)) fun _ => ?_
  obtain ⟨status, nb, u, hrun, hstatus, hu⟩ := speckRun_dec_keeps budget maxbits.toNat s
  simp only [hrun]
  exact .ends _ _ (by rintro rfl; simp at hstatus) (by rintro rfl; simp at hstatus) hu

theorem liveAnswer_outEnc (h : s.st.faulted = false) (addr count len : Word) :
    LiveAnswer s (exec (.outEnc addr count len) s) := by
  rw [exec, execOutEnc, unlessFaulted_of_live h]
  cases hc : outEncCheck addr count len s with
  | some status => exact .refuse fun he => outEncCheck_ne_faulted addr count len s (he ▸ hc)
  | none =>
    obtain ⟨h1, hn⟩ := len_of_outEncCheck hc
    have hwf : (denseOutliers s.oc.tol len.toNat (s.xb.outlierRecords addr.toNat count.toNat)).Wf s.cfg :=
      wf_denseOutliers h1 hn _ _
    generalize denseOutliers s.oc.tol len.toNat (s.xb.outlierRecords addr.toNat count.toNat) = cm at hwf
    have hcm : BodyKeeps s { s with cm := cm } := .coefs fun _ => hwf
    obtain ⟨status, nb, u, hrun, hf, ⟨rfl, hu⟩ | ⟨ha, hu⟩⟩ := speckRun_enc_keeps all1 cm.maxbits { s with cm := cm } <;>
      simp only [hrun]
    · exact .alloc _ _ ⟨hu.st, hu.mask, hu.oc, hu.xb, hu.cmdPort, hu.rspPort, hu.cfg, hu.freeCount⟩
    · exact .ends _ _ ha hf (hcm.trans hu)

theorem liveAnswer_outDec (h : s.st.faulted = false) (maxbits wsel : Byte) (addr len : Word) :
    LiveAnswer s (exec (.outDec maxbits wsel addr len) s) := by
  rw [exec, execOutDec, unlessFaulted_of_live h]
  cases hc : outDecCheck maxbits wsel addr len s with
  | some status => exact .refuse fun he => outDecCheck_ne_faulted maxbits wsel addr len s (he ▸ hc)
  | none =>
    obtain ⟨h1, hn⟩ := len_of_outDecCheck hc
    have hcm : BodyKeeps s { s with cm := .shaped 1 ⟨len.toNat, 1, 1⟩ } :=
      .coefs fun _ => CoefMem.wf_shaped_line h1 hn
    obtain ⟨status, nb, u, hrun, -, hdec⟩ := speckRun_dec_keeps all1 maxbits.toNat
      { s with cm := .shaped 1 ⟨len.toNat, 1, 1⟩ }
    have hu := hcm.trans hdec
    simp only [hrun, endOutDec]
    refine .cond (fun _ => .ends _ _ (by decide) (by decide) hu) fun _ =>
      .cond (fun hfit => .ok (hu.trans (.exchangeBuffer fun hx => ?_))) fun _ => .ends _ _ (by decide) (by decide) hu
    have hfit' : addr.toNat + 16 * u.cm.outlierPositions.length ≤ u.cfg.xbBytes := of_decide_eq_true hfit
    refine Memory.within_writeWords hx ?_
    rw [CoefMem.outlierWords_length]
    omega

end Bodies

/-- How every command but `RESET` ends in a live CORE. -/
theorem exec_liveAnswer (i : Instr) {s : State} (hi : i ≠ .reset) (h : s.st.faulted = false) :
    LiveAnswer s (exec i s) := by
  cases i with
  | reset => exact absurd rfl hi
  | nop =>
    rw [exec, execNop, unlessFaulted_of_live h]
    exact .ok (.refl s)
  | rdreg reg =>
    rw [exec, execRdreg, unlessFaulted_of_live h]
    cases s.regValue reg with
    | none => exact .refuse (by decide)
    | some v => exact .ok (.refl s)
  | bsWbit bit =>
    rw [exec, execBsWbit, unlessFaulted_of_live h]
    simpa [BitStream.putAll] using LiveAnswer.endWrite_putAll (s := s) [bit]
  | bsWbits n value =>
    rw [exec, execBsWbits, unlessFaulted_of_live h]
    exact .cond (fun _ => .refuse (by decide)) fun _ => .endWrite_putAll _
  | bsRbit =>
    rw [exec, execBsRbit, unlessFaulted_of_live h]
    exact .okIf fun hp => .stream_of_cap_eq rfl fun hw => BitStream.wf_moveRead hw hp
  | bsRbits n =>
    rw [exec, execBsRbits, unlessFaulted_of_live h]
    exact .cond (fun _ => .refuse (by decide)) fun _ =>
      .okIf fun hp => .stream_of_cap_eq rfl fun hw => BitStream.wf_moveRead hw hp
  | bsRewind =>
    rw [exec, execBsRewind, unlessFaulted_of_live h]
    exact .ok (.stream_of_cap_eq BitStream.commit_cap BitStream.wf_rewind)
  | bsWseek pos =>
    rw [exec, execBsWseek, unlessFaulted_of_live h]
    exact .okIf fun hp => .stream_of_cap_eq BitStream.commit_cap fun hw => (BitStream.seekWrite_spec hw hp).1
  | bsRseek pos =>
    rw [exec, execBsRseek, unlessFaulted_of_live h]
    exact .okIf fun hp => .stream_of_cap_eq rfl fun hw => BitStream.wf_moveRead hw hp
  | bsFlush =>
    rw [exec, execBsFlush, unlessFaulted_of_live h]
    exact .ok (.stream_of_cap_eq BitStream.commit_cap fun hw => (BitStream.flush_spec hw).1)
  | bsRrbit pos =>
    rw [exec, execBsRrbit, unlessFaulted_of_live h]
    exact .okIf fun _ => .refl s
  | bsRwbit bit pos =>
    rw [exec, execBsRwbit, unlessFaulted_of_live h]
    exact .okIf fun hp => .stream_of_cap_eq BitStream.commit_cap fun hw => (BitStream.randomWrite_spec hw hp bit).1
  | bsTest start len =>
    rw [exec, execBsTest, unlessFaulted_of_live h]
    exact .okIf fun _ => .refl s
  | bsGet addr => exact liveAnswer_bsGet h addr
  | bsParse addr bits => exact liveAnswer_bsParse h addr bits
  | mkResize size =>
    rw [exec, execMkResize, unlessFaulted_of_live h]
    exact .cond (fun hle => .ok (.mask fun hw => Bitmask.wf_resize hw hle)) fun _ => .refuse (by decide)
  | mkReset =>
    rw [exec, execMkReset, unlessFaulted_of_live h]
    exact .ok (.mask Bitmask.wf_clear)
  | mkRbit idx =>
    rw [exec, execMkRbit, unlessFaulted_of_live h]
    exact .okIf fun _ => .refl s
  | mkWbit bit idx =>
    rw [exec, execMkWbit, unlessFaulted_of_live h]
    exact .writeMaskBit _ _
  | mkWtrue idx =>
    rw [exec, execMkWtrue, unlessFaulted_of_live h]
    exact .writeMaskBit _ _
  | mkWfalse idx =>
    rw [exec, execMkWfalse, unlessFaulted_of_live h]
    exact .writeMaskBit _ _
  | mkCount =>
    rw [exec, execMkCount, unlessFaulted_of_live h]
    exact .ok (.refl s)
  | mkHas start len =>
    rw [exec, execMkHas, unlessFaulted_of_live h]
    exact .okIf fun _ => .refl s
  | mkView addr => exact liveAnswer_mkView h addr
  | mkUse addr => exact liveAnswer_mkUse h addr
  | cmShape d n0 n1 n2 => exact liveAnswer_cmShape h d n0 n1 n2
  | cmSt sign idx mag =>
    rw [exec, execCmSt, unlessFaulted_of_live h]
    exact .okIf fun _ => .coefs fun hw => CoefMem.wf_set hw _ _ _
  | cmLd idx =>
    rw [exec, execCmLd, unlessFaulted_of_live h]
    exact .okIf fun _ => .refl s
  | spkEnc budget => exact liveAnswer_spkEnc h budget
  | spkDec maxbits budget => exact liveAnswer_spkDec h maxbits budget
  | outTol tau =>
    rw [exec, execOutTol, unlessFaulted_of_live h]
    exact .cond (fun hp => .ok (.tolerance fun _ => Bool.and_eq_true_iff.1 hp)) fun _ => .refuse (by decide)
  | outEnc addr count len => exact liveAnswer_outEnc h addr count len
  | outDec maxbits wsel addr len => exact liveAnswer_outDec h maxbits wsel addr len
  | xbSt8 value addr =>
    rw [exec, execXbSt8, unlessFaulted_of_live h]
    exact .okIf fun hp => .exchangeBuffer fun hx => Memory.within_writeByte hx (of_decide_eq_true hp) _
  | xbLd8 addr =>
    rw [exec, execXbLd8, unlessFaulted_of_live h]
    exact .okIf fun _ => .refl s
  | xbSt64 addr value =>
    rw [exec, execXbSt64, unlessFaulted_of_live h]
    exact .cond (fun _ => .refuse (by decide)) fun _ =>
      .okIf fun hp => .exchangeBuffer fun hx => Memory.within_writeWord hx _ (of_decide_eq_true hp)
  | xbLd64 addr =>
    rw [exec, execXbLd64, unlessFaulted_of_live h]
    exact .cond (fun _ => .refuse (by decide)) fun _ => .okIf fun _ => .refl s

/-- All that a command can leave: after `RESET`, in a faulted CORE (60_exceptions.md R345), after the fatal fault (R344), and
otherwise. -/
inductive Executed (s : State) : Instr → State → Prop
  | reset : Executed s .reset (s.resetUnits.finish .ok 0 0)
  | refused {i : Instr} (notReset : i ≠ .reset) (faulted : s.st.faulted = true) : Executed s i (s.finish .faulted 0 0)
  | alloc {i : Instr} {u : State} (r0 r1 : Word) (live : s.st.faulted = false) (outside : SameOutside s u) :
      Executed s i (u.finish .alloc r0 r1)
  | ends {i : Instr} {u : State} {status : Status} (r0 r1 : Word) (live : s.st.faulted = false)
      (notAlloc : status ≠ .alloc) (notFaulted : status ≠ .faulted) (keeps : BodyKeeps s u) :
      Executed s i (u.finish status r0 r1)

/-- A faulted CORE refuses every command but `RESET` (R345). -/
theorem exec_of_faulted {i : Instr} {s : State} (hi : i ≠ .reset) (h : s.st.faulted = true) :
    exec i s = .next (s.finish .faulted 0 0) := by
  cases i with
  | reset => exact absurd rfl hi
  | _ => rw [exec]; exact unlessFaulted_of_faulted h _

theorem executed_of_exec {i : Instr} {s t : State} (h : exec i s = .next t) : Executed s i t := by
  by_cases hi : i = .reset
  · subst hi
    cases h
    exact .reset
  · cases hf : s.st.faulted with
    | true =>
      rw [exec_of_faulted hi hf] at h
      cases h
      exact .refused hi hf
    | false =>
      have live := exec_liveAnswer i hi hf
      rw [h] at live
      cases live with
      | alloc r0 r1 outside => exact .alloc r0 r1 hf outside
      | ends r0 r1 notAlloc notFaulted keeps => exact .ends r0 r1 hf notAlloc notFaulted keeps

/-! ### The invariant -/

/-- Ending a command keeps the invariant: flag 7 is set exactly with `FAULTED`, or where it was set already; the units may be
in any state if the CORE is faulted then. -/
theorem State.inv_finish {u : State} (status : Status) (r0 r1 : Word) (hc : u.cfg.Wf)
    (hm : u.st.flags.getLsbD 7 = u.st.faulted) (hx : u.xb.Within u.cfg.xbBytes)
    (hs : status = .faulted → u.st.faulted = true) (hu : status ≠ .alloc → u.st.faulted = false → u.UnitsWf) :
    (u.finish status r0 r1).Inv := by
  refine ⟨by simpa using hc, ?_, ⟨status, by simp⟩, by simpa using hx, fun hlive => ?_⟩
  · have hflag : status.flagMask.getLsbD 7 = (status == .alloc || status == .faulted) := by cases status <;> decide
    rw [State.finish_st, StatusUnit.record_flags, StatusUnit.record_faulted, BitVec.getLsbD_or, hm, hflag]
    by_cases h : status = .faulted
    · rw [hs h, Bool.true_or, Bool.true_or]
    · rw [beq_false_of_ne h, Bool.or_false]
  · rw [State.finish_st, StatusUnit.record_faulted, Bool.or_eq_false_iff] at hlive
    have ha : status ≠ .alloc := by simpa using hlive.2
    have hw := hu ha hlive.1
    rw [State.finish_of_ne_alloc _ _ _ _ ha]
    exact ⟨hw.stream, hw.mask, hw.lipEmpty, hw.worklistsEmpty, hw.coefs, hw.tolerance⟩

/-- Every command keeps the invariant. -/
theorem State.inv_exec {i : Instr} {s t : State} (hs : s.Inv) (h : exec i s = .next t) : t.Inv := by
  cases executed_of_exec h with
  | reset =>
    have hr := State.inv_resetUnits hs.params hs.exchange
    exact State.inv_finish _ _ _ hr.params hr.mirror hr.exchange nofun fun _ => hr.live
  | refused notReset faulted =>
    exact State.inv_finish _ _ _ hs.params hs.mirror hs.exchange (fun _ => faulted) fun _ => hs.live
  | alloc r0 r1 live outside =>
    refine State.inv_finish _ _ _ (outside.cfg ▸ hs.params) (outside.st ▸ hs.mirror) ?_ nofun fun ha => absurd rfl ha
    rw [outside.xb, outside.cfg]
    exact hs.exchange
  | ends r0 r1 live notAlloc notFaulted keeps =>
    refine State.inv_finish _ _ _ (keeps.cfg ▸ hs.params) (keeps.st ▸ hs.mirror) ?_ (absurd · notFaulted)
      fun _ _ => keeps.units (hs.live live)
    rw [keeps.cfg]
    exact keeps.exchange hs.exchange

/-- So does refusing a frame that spells no command (30_encoding.md R102). -/
theorem State.inv_rejectFrame {f : Frame} {s t : State} (hs : s.Inv) (h : rejectFrame f s = .next t) : t.Inv := by
  unfold rejectFrame at h
  split at h <;> cases h
  · rename_i hf
    exact State.inv_finish _ _ _ hs.params hs.mirror hs.exchange (fun _ => (Bool.and_eq_true_iff.1 hf).1) fun _ => hs.live
  · exact State.inv_finish _ _ _ hs.params hs.mirror hs.exchange nofun fun _ => hs.live

/-- The invariant says nothing of the command port. -/
theorem State.inv_setCmdPort {s : State} (h : s.Inv) (frames : List Frame) : { s with cmdPort := frames }.Inv :=
  ⟨h.params, h.mirror, h.lastIsStatus, h.exchange, fun hf =>
    have hu := h.live hf
    ⟨hu.stream, hu.mask, hu.lipEmpty, hu.worklistsEmpty, hu.coefs, hu.tolerance⟩⟩

/-- Settles O20: a step waits, runs a command or refuses a frame, and each keeps the invariant. -/
theorem stepKeepsInvariant : Obligations.StepKeepsInvariant := by
  intro s t hs h
  obtain ⟨-, hidle⟩ | ⟨f, rest, -, ⟨i, -, hrun⟩ | ⟨-, hreject⟩⟩ := step_cases s
  · cases hidle.symm.trans h
    exact hs
  · exact State.inv_exec (State.inv_setCmdPort hs rest) (hrun.symm.trans h)
  · exact State.inv_rejectFrame (State.inv_setCmdPort hs rest) (hreject.symm.trans h)

/-! ### The capacity and the fatal fault -/

/-- Settles O21: a command that leaves the CORE live has ended after a body, which only doubles the capacity. -/
theorem capacityOnlyGrows : Obligations.CapacityOnlyGrows := by
  intro i s t hi h hlive
  cases executed_of_exec h with
  | reset => exact absurd rfl hi
  | refused notReset faulted => simp [faulted] at hlive
  | alloc r0 r1 live outside => simp at hlive
  | ends r0 r1 live notAlloc notFaulted keeps =>
    rw [State.finish_bs _ _ _ _ notAlloc]
    exact keeps.cap

/-- Settles O13: the CORE is faulted after a refusal, where it was before, and after the fatal fault; every other end leaves
it live. -/
theorem faultedMeansAlloc : Obligations.FaultedMeansAlloc := by
  intro i s t h
  cases executed_of_exec h with
  | reset => simp [State.endedWith_finish, StatusUnit.reset]
  | refused notReset faulted => simp [State.endedWith_finish, faulted]
  | alloc r0 r1 live outside => simp [State.endedWith_finish]
  | ends r0 r1 live notAlloc notFaulted keeps =>
    simp [State.endedWith_finish, keeps.st, live, notAlloc, notFaulted]

/-- Settles O15: of the ways a command ends, `ALLOC` is the one that leaves all but the engine, the stream and the array as
they were. -/
theorem allocKeepsExchangeBuffer : Obligations.AllocKeepsExchangeBuffer := by
  intro i s t h hended
  cases executed_of_exec h with
  | reset => exact absurd ((State.endedWith_finish _ _ _ _).1 hended) (by decide)
  | refused notReset faulted => exact absurd ((State.endedWith_finish _ _ _ _).1 hended) (by decide)
  | alloc r0 r1 live outside =>
    exact ⟨live, by simp, by rw [State.finish_st, outside.st]; rfl, by rw [State.finish_xb, outside.xb]⟩
  | ends r0 r1 live notAlloc notFaulted keeps => exact absurd ((State.endedWith_finish _ _ _ _).1 hended) notAlloc

/-! ### The flags -/

/-- The flag of each status stands at its place in the list of R24. -/
theorem Status.flagMask_getLsbD_iff (status : Status) : ∀ b < 7, status.flagMask.getLsbD b = true ↔
    ([0x01, 0x02, 0x03, 0x04, 0x10, 0x11, 0x80] : List Byte)[b]? = some status.code := by
  cases status <;> decide

/-- Flag 7 mirrors `FAULTED`: both fatal statuses set it (60_exceptions.md R331). -/
theorem Status.flagMask_seven_iff (status : Status) :
    status.flagMask.getLsbD 7 = true ↔ status.code = 0x80 ∨ status.code = 0x81 := by
  cases status <;> decide

/-- Settles O12: every command but `RESET` ends by adding its status's flags to those it found. -/
theorem flagsAreSticky : Obligations.FlagsAreSticky := by
  refine ⟨fun s t h => ?_, fun i s t hi h => ?_⟩
  · cases h
    rw [State.finish_st, StatusUnit.record_ok]
    rfl
  · obtain ⟨u, status, r0, r1, hu, hst, -⟩ := exec_answers i s hi
    cases hu.symm.trans h
    rw [State.finish_st, hst, StatusUnit.record_flags, StatusUnit.record_lastst]
    simp only [BitVec.getLsbD_or, Bool.or_eq_true]
    exact ⟨fun b hb => or_congr_right (status.flagMask_getLsbD_iff b hb), or_congr_right status.flagMask_seven_iff⟩

/-! ### Frames and responses -/

/-- The outcome is the end of one command that left the ports and the parameters as `s` holds them: `Answers`, without what
`RESET` does not keep. -/
def EndsOnce (s : State) (r : Result) : Prop :=
  ∃ (u : State) (status : Status) (r0 r1 : Word), r = .next (u.finish status r0 r1) ∧
    u.cmdPort = s.cmdPort ∧ u.rspPort = s.rspPort ∧ u.cfg = s.cfg

theorem Answers.endsOnce {s : State} {r : Result} (h : Answers s r) : EndsOnce s r := by
  obtain ⟨u, status, r0, r1, hu, -, hports⟩ := h
  exact ⟨u, status, r0, r1, hu, hports⟩

theorem exec_endsOnce (i : Instr) (s : State) : EndsOnce s (exec i s) := by
  by_cases hi : i = .reset
  · subst hi
    exact ⟨s.resetUnits, .ok, 0, 0, rfl, rfl, rfl, rfl⟩
  · exact (exec_answers i s hi).endsOnce

theorem rejectFrame_endsOnce (f : Frame) (s : State) : EndsOnce s (rejectFrame f s) :=
  Answers.endsOnce (answers_ite (answers_raise _) (answers_raise _))

/-- With a frame presented, a step is the end of one command on the state without that frame (10_state.md R20). -/
theorem step_endsOnce {s : State} {f : Frame} {rest : List Frame} (h : s.cmdPort = f :: rest) :
    EndsOnce { s with cmdPort := rest } (step s) := by
  obtain ⟨hnil, -⟩ | ⟨f', rest', hport, hstep⟩ := step_cases s
  · exact absurd (h.symm.trans hnil) (List.cons_ne_nil f rest)
  · obtain ⟨rfl, rfl⟩ := List.cons.inj (h.symm.trans hport)
    obtain ⟨i, -, hrun⟩ | ⟨-, hreject⟩ := hstep
    · exact hrun ▸ exec_endsOnce i _
    · exact hreject ▸ rejectFrame_endsOnce f _

/-- The one response of a command that ends with `status` (30_encoding.md R103). -/
def responseOf (status : Status) (r0 r1 : Word) : Response :=
  if status.keepsResults then ⟨status, r0, r1⟩ else ⟨status, 0, 0⟩

theorem State.finish_rspPort_responseOf (u : State) (status : Status) (r0 r1 : Word) :
    (u.finish status r0 r1).rspPort = u.rspPort ++ [responseOf status r0 r1] := State.finish_rspPort u status r0 r1

@[simp] theorem responseOf_status (status : Status) (r0 r1 : Word) : (responseOf status r0 r1).status = status := by
  unfold responseOf; split <;> rfl

theorem responseOf_results_zero {status : Status} (r0 r1 : Word) (hok : status ≠ .ok) (hshort : status ≠ .dataShort) :
    (responseOf status r0 r1).res0 = 0 ∧ (responseOf status r0 r1).res1 = 0 := by
  have h : status.keepsResults = false := by cases status <;> first | rfl | contradiction
  rw [responseOf, h]
  exact ⟨rfl, rfl⟩

/-- Settles O10: whatever the frame spells, the step is one `end_command`, which gives one response. -/
theorem everyFrameGetsOneResponse : Obligations.EveryFrameGetsOneResponse := by
  intro s f rest hport
  obtain ⟨u, status, r0, r1, hstep, hcmd, hrsp, hcfg⟩ := step_endsOnce hport
  refine ⟨_, responseOf status r0 r1, hstep, (State.finish_cmdPort ..).trans hcmd, ?_, ?_,
    (State.finish_cfg ..).trans hcfg, ?_⟩
  · rw [State.finish_rspPort_responseOf, hrsp]
  · rw [responseOf_status]
    exact (State.endedWith_finish _ _ _ _).2 rfl
  · rw [responseOf_status]
    exact responseOf_results_zero r0 r1

/-- Settles O6: `State.accept` gives the first frame and the state without it. -/
theorem stepTakesNextFrame : Obligations.StepTakesNextFrame := by
  refine ⟨fun s h => ?_, fun s f rest i h hdecode => ?_⟩
  · rw [step, accept_nil h]
  · rw [step, accept_cons h]
    simp only [hdecode]

/-! ### `RDREG` (10_state.md R60) -/

theorem exec_rdreg_of_some {s : State} {reg : Byte} {v : Word} (h : s.st.faulted = false) (hv : s.regValue reg = some v) :
    exec (.rdreg reg) s = .next (s.finish .ok v 0) := by
  rw [exec, execRdreg, unlessFaulted_of_live h, hv]
  rfl

theorem exec_rdreg_of_none {s : State} {reg : Byte} (h : s.st.faulted = false) (hv : s.regValue reg = none) :
    exec (.rdreg reg) s = .next (s.finish .illegal 0 0) := by
  rw [exec, execRdreg, unlessFaulted_of_live h, hv]
  rfl

/-- Only the listed numbers name a register (R60). -/
theorem State.regValue_eq_none {s : State} {reg : Byte} (h : listedRegister reg = false) : s.regValue reg = none := by
  have hne : ¬ reg.toNat ≤ 0x0E ∧ ¬ (0x10 ≤ reg.toNat ∧ reg.toNat ≤ 0x14) := by simpa [listedRegister] using h
  unfold State.regValue
  split
  case h_21 => rfl
  all_goals omega

/-- The word of `ST` as a number: `LASTST` above `FLAGS` (R60). -/
theorem StatusUnit.word_eq (st : StatusUnit) : st.word = BitVec.ofNat 64 (st.lastst.toNat * 256 + st.flags.toNat) := by
  have hf := st.flags.isLt
  apply BitVec.eq_of_toNat_eq
  rw [StatusUnit.word, BitVec.toNat_setWidth, BitVec.toNat_append, BitVec.toNat_ofNat, ← Nat.shiftLeft_add_eq_or_of_lt hf,
    Nat.shiftLeft_eq]

theorem State.regValue_status (s : State) :
    s.regValue 0x01 = some (BitVec.ofNat 64 (s.st.lastst.toNat * 256 + s.st.flags.toNat)) :=
  congrArg some s.st.word_eq

theorem bitWord_eq_ite (v : Bool) : bitWord v = if v then 1 else 0 := by cases v <;> rfl

theorem State.regValue_tolv (s : State) : s.regValue 0x0E = some (if s.oc.tolv then 1 else 0) :=
  congrArg some (bitWord_eq_ite s.oc.tolv)

/-- Settles O23: each listed number selects its row of `regValue`, in the order of R60's table. -/
theorem rdregReads : Obligations.RdregReads := by
  intro s hs
  refine ⟨fun p hp => exec_rdreg_of_some hs ?_, fun reg hreg => exec_rdreg_of_none hs (State.regValue_eq_none ?_)⟩
  · revert p
    simp only [List.forall_mem_cons]
    exact ⟨rfl, s.regValue_status, rfl, rfl, rfl, rfl, rfl, rfl, rfl, rfl, rfl, rfl, rfl, rfl, s.regValue_tolv,
      rfl, rfl, rfl, rfl, rfl, nofun⟩
  · have hn : reg.toNat = 0x0F ∨ 0x15 ≤ reg.toNat := hreg.imp_left (congrArg BitVec.toNat)
    have hno : ¬ (reg.toNat ≤ 0x0E ∨ 0x10 ≤ reg.toNat ∧ reg.toNat ≤ 0x14) := by omega
    simpa [listedRegister] using hno

end Sys2Proof.Machine
end

