-- ==== Sys2Proof/Proofs/Memory.lean ====
section
/-! SUPPORT. The statement of 20_memory.md: what `BS_GET` and `BS_PARSE` do to a stream that fits `XB`
(41_bitstream.md R157, R158), and that unpacking undoes packing (R74). -/

namespace Sys2Proof.Machine

/-! ### Packed bytes (20_memory.md R74) -/

/-- The byte that holds a packed bit is among the bytes written. -/
theorem div_eight_lt_ceilDiv {n p : Nat} (hp : p < n) : p / 8 < ceilDiv n 8 := by
  have hn := ceilDiv_mul_ge (show 0 < 8 by decide) n
  omega

theorem packedBit_of_lt {m : Memory} {a n p : Nat} (hp : p < n) :
    packedBit m a n p = (m.readByte (a + p / 8)).getLsbD (p % 8) := by
  rw [packedBit, decide_eq_true hp, Bool.true_and]

/-- Packing a stream into a buffer and unpacking it from there gives back each bit. -/
theorem packedBit_writeBytes_packBytes {m : Memory} (hm : Memory.wf m = true) (a : Nat) (mem : List Word) {n p : Nat}
    (hp : p < n) : packedBit (m.writeBytes a (packBytes mem n)) a n p = getBitAt mem p := by
  have hbyte := div_eight_lt_ceilDiv hp
  have hin : a ≤ a + p / 8 ∧ a + p / 8 < a + (packBytes mem n).length := by
    rw [packBytes_length]; omega
  have hmod : p % 8 < 8 := Nat.mod_lt p (by decide)
  have hpos : 8 * (p / 8) + p % 8 = p := Nat.div_add_mod p 8
  rw [packedBit_of_lt hp, Memory.readByte_writeBytes hm, if_pos hin, Nat.add_sub_cancel_left,
    packBytes_getD mem n hbyte, packByte_getLsbD, hpos]
  simp [hmod, hp]

/-! ### The capacity of a parsed stream (41_bitstream.md R158) -/

/-- A stream that already holds the words keeps its capacity: its least doubling is none. -/
theorem parseCap_of_le {cap nw : Nat} (hcap : 1 ≤ cap) (hnw : nw ≤ cap) : parseCap cap nw = cap := by
  obtain ⟨j, hj, -, hleast⟩ := parseCap_spec hcap nw
  cases j with
  | zero => rw [hj, Nat.pow_zero, Nat.mul_one]
  | succ j =>
    have hzero := hleast 0 (Nat.succ_pos j)
    omega

/-- The bits below the write cursor fill no more words than the stream has. -/
theorem BitStream.words_le_cap {cfg : Params} {b : BitStream} (h : b.Wf cfg) : ceilDiv b.wpos 64 ≤ b.cap := by
  rw [ceilDiv_le_iff (by decide), Nat.mul_comm]
  exact h.wposLe

/-- The write cursor fits a 64-bit word (10_state.md R29). -/
theorem BitStream.wpos_toNat {cfg : Params} {b : BitStream} (hc : cfg.Wf) (h : b.Wf cfg) :
    (BitVec.ofNat 64 b.wpos).toNat = b.wpos := by
  have hfits := hc.streamFits
  have hcap := h.capLe
  have hpos := h.wposLe
  rw [BitVec.toNat_ofNat, Nat.mod_eq_of_lt (by omega)]

/-! ### The two commands -/

/-- A command that ends with `OK` does not fault the CORE (60_exceptions.md R331). -/
theorem State.finish_ok_live {s : State} (h : s.st.faulted = false) (r0 r1 : Word) :
    (s.finish .ok r0 r1).st.faulted = false := by
  rw [State.finish_st, StatusUnit.record_faulted, h]
  rfl

/-- What `BS_GET` at address `a` makes of the stream and of `XB` (R157). -/
def State.packStream (s : State) (a : Nat) : State :=
  { s with bs := s.bs.flush, xb := s.xb.writeBytes a (packBytes s.bs.flush.mem s.bs.wpos) }

theorem exec_bsGet_of_fits {s : State} {addr : Word} (h : s.st.faulted = false)
    (hfit : addr.toNat + ceilDiv s.bs.wpos 8 ≤ s.cfg.xbBytes) :
    exec (.bsGet addr) s =
      .next ((s.packStream addr.toNat).finish .ok (BitVec.ofNat 64 s.bs.wpos) (BitVec.ofNat 64 (ceilDiv s.bs.wpos 8))) := by
  rw [exec, execBsGet, unlessFaulted_of_live h]
  exact if_pos (decide_eq_true hfit)

/-- What a `BS_GET` that fits leaves to the next command (R157). -/
theorem exec_bsGet_leaves {s : State} {addr : Word} (h : s.st.faulted = false)
    (hfit : addr.toNat + ceilDiv s.bs.wpos 8 ≤ s.cfg.xbBytes) :
    ∃ t, exec (.bsGet addr) s = .next t ∧ t.st.faulted = false ∧ t.cfg = s.cfg ∧ t.bs = s.bs.flush ∧
      t.xb = s.xb.writeBytes addr.toNat (packBytes s.bs.flush.mem s.bs.wpos) :=
  ⟨_, exec_bsGet_of_fits h hfit, State.finish_ok_live (s := s.packStream _) h _ _,
    State.finish_cfg .., State.finish_bs _ _ _ _ (by decide), State.finish_xb ..⟩

theorem exec_bsParse_of_fits {s : State} {addr bits : Word} (h : s.st.faulted = false)
    (hfit : addr.toNat + ceilDiv bits.toNat 8 ≤ s.cfg.xbBytes)
    (hcap : parseCap s.bs.cap (ceilDiv bits.toNat 64) ≤ s.cfg.maxWords) :
    exec (.bsParse addr bits) s =
      .next ({ s with bs := s.bs.parse (parseCap s.bs.cap (ceilDiv bits.toNat 64)) s.xb addr.toNat bits.toNat }.finish
        .ok 0 0) := by
  rw [exec, execBsParse, unlessFaulted_of_live h]
  exact (if_pos (decide_eq_true hfit)).trans (if_pos hcap)

/-- A `BS_PARSE` of bits that the stream's words already hold keeps the capacity (R158). -/
theorem exec_bsParse_of_words_le_cap {s : State} {addr bits : Word} (h : s.st.faulted = false) (hwf : s.bs.Wf s.cfg)
    (hfit : addr.toNat + ceilDiv bits.toNat 8 ≤ s.cfg.xbBytes) (hwords : ceilDiv bits.toNat 64 ≤ s.bs.cap) :
    exec (.bsParse addr bits) s =
      .next ({ s with bs := s.bs.parse s.bs.cap s.xb addr.toNat bits.toNat }.finish .ok 0 0) := by
  have hcap := parseCap_of_le hwf.capPos hwords
  rw [exec_bsParse_of_fits h hfit (hcap.trans_le hwf.capLe), hcap]

/-! ### Packing and parsing back -/

theorem runCommands_cons {i : Instr} {is : List Instr} {s t : State} (h : exec i s = .next t) :
    runCommands (i :: is) s = runCommands is t := by
  rw [runCommands, h]

/-- A stream parsed from the buffer it was packed into has the packed stream's logical content below the cursor. -/
theorem BitStream.getbit_parse_packBytes {cfg : Params} {b : BitStream} (h : b.Wf cfg) {m : Memory}
    (hm : Memory.wf m = true) (a : Nat) {p : Nat} (hp : p < b.wpos) :
    (b.flush.parse b.flush.cap (m.writeBytes a (packBytes b.flush.mem b.wpos)) a b.wpos).getbit p = b.logical p := by
  obtain ⟨hwf, -, hwpos, -, -, -, hcontent⟩ := BitStream.flush_spec h
  have hwords : ceilDiv b.wpos 64 ≤ b.flush.cap := hwpos ▸ BitStream.words_le_cap hwf
  have hloaded : p < 64 * ceilDiv b.wpos 64 := by
    have hn := ceilDiv_mul_ge (show 0 < 64 by decide) b.wpos
    omega
  have hparse := (BitStream.parse_spec hwf ⟨0, (Nat.mul_one _).symm⟩ hwf.capLe
    (m.writeBytes a (packBytes b.flush.mem b.wpos)) a hwords).2 p
  calc _ = packedBit (m.writeBytes a (packBytes b.flush.mem b.wpos)) a b.wpos p := by rw [hparse, if_pos hloaded]
    _ = b.flush.getbit p := packedBit_writeBytes_packBytes hm a b.flush.mem hp
    _ = b.logical p := hcontent p

/-- Settles O35: the flush of `BS_GET` keeps cursor and capacity, so `BS_PARSE` finds its buffer inside `XB` and needs
no growth, and unpacking undoes packing. -/
theorem parseInvertsGet : Obligations.ParseInvertsGet := by
  intro addr s hlive hc hwf hx hfit
  obtain ⟨hflush, hcap, -⟩ := BitStream.flush_spec hwf
  obtain ⟨t, hget, hlive', hcfg, hbs, hxb⟩ := exec_bsGet_leaves hlive hfit
  have hn := BitStream.wpos_toNat hc hwf
  have hparse := exec_bsParse_of_words_le_cap (addr := addr) (bits := BitVec.ofNat 64 s.bs.wpos) hlive'
    (hbs ▸ hcfg ▸ hflush) (by rw [hn, hcfg]; exact hfit) (by rw [hn, hbs, hcap]; exact BitStream.words_le_cap hwf)
  rw [hbs, hxb, hn] at hparse
  exact ⟨_, (runCommands_cons hget).trans (runCommands_cons hparse), State.finish_ok_live hlive' 0 0, hcap, rfl, rfl, rfl,
    fun p hp => BitStream.getbit_parse_packBytes hwf hx.1 addr.toNat hp⟩

end Sys2Proof.Machine
end

/-! SUPPORT. The statements of 30_encoding.md. A format is known by the bits it requires to be 0 (`Format.zerosOk_iff`): they
give the frame of a decoded command back, and they are the masks of the opcode table. Then the answer `ILLEGAL`. -/

namespace Sys2Proof

/-! ### Decoding as two questions (R102 steps 2 and 3) -/

theorem decode_eq_ok_iff {f : Frame} {i : Instr} :
    decode f = .ok i ↔ ∃ fmt : Format, opcodeRow f.opcode f = some (fmt, i) ∧ fmt.zerosOk f = true := by
  unfold decode
  cases opcodeRow f.opcode f with
  | none => simp
  | some row =>
    obtain ⟨fmt, j⟩ := row
    cases hz : fmt.zerosOk f <;> simp [hz]

theorem decode_eq_unknownOpcode_iff {f : Frame} :
    decode f = .error .unknownOpcode ↔ opcodeRow f.opcode f = none := by
  unfold decode
  cases opcodeRow f.opcode f with
  | none => simp
  | some row =>
    obtain ⟨fmt, j⟩ := row
    cases hz : fmt.zerosOk f <;> simp [hz]

/-- The opcodes that R108 lists as illegal are the gaps of the opcode map. -/
theorem opcodeRow_eq_none_iff (op : Byte) (f : Frame) : opcodeRow op f = none ↔
    (0x03 ≤ op.toNat ∧ op.toNat ≤ 0x0F) ∨ (0x1D ≤ op.toNat ∧ op.toNat ≤ 0x1F) ∨
    (0x2A ≤ op.toNat ∧ op.toNat ≤ 0x2F) ∨ (0x33 ≤ op.toNat ∧ op.toNat ≤ 0x3F) ∨
    (0x42 ≤ op.toNat ∧ op.toNat ≤ 0x4F) ∨ (0x53 ≤ op.toNat ∧ op.toNat ≤ 0x5F) ∨ 0x64 ≤ op.toNat := by
  unfold opcodeRow
  split
  case h_39 =>
    refine iff_of_true rfl ?_
    simp only [imp_false] at *
    omega
  all_goals
    refine iff_of_false nofun ?_
    omega

/-- Settles O4: the decoder answers `unknownOpcode` in the gaps of the opcode map alone. -/
theorem unlistedOpcodesAreUnknown : Obligations.UnlistedOpcodesAreUnknown := fun f =>
  decode_eq_unknownOpcode_iff.trans (opcodeRow_eq_none_iff f.opcode f)

/-! ### A command's own frame -/

@[simp] theorem a0_headWord_bitField (op b : Byte) (v : Bool) (p q r : Word) :
    (Frame.mk (headWord op (bitField v) b) p q r).a0 = v := by
  rw [Frame.a0, a_headWord, bitField_bit]

/-- The format of a command (R106). -/
def Instr.format : Instr → Format
  | .nop | .reset | .bsRbit | .bsRewind | .bsFlush | .mkReset | .mkCount => .F0
  | .bsWbit _ => .Fa1
  | .rdreg _ | .bsRbits _ => .Fa
  | .bsWseek _ | .bsRseek _ | .bsRrbit _ | .bsGet _ | .mkResize _ | .mkRbit _ | .mkWtrue _ | .mkWfalse _ | .mkView _
  | .mkUse _ | .cmLd _ | .spkEnc _ | .outTol _ | .xbLd8 _ | .xbLd64 _ => .FP
  | .bsRwbit _ _ | .mkWbit _ _ => .Fa1P
  | .bsWbits _ _ | .spkDec _ _ | .xbSt8 _ _ => .FaP
  | .bsTest _ _ | .bsParse _ _ | .mkHas _ _ | .xbSt64 _ _ => .FPQ
  | .cmSt _ _ _ => .Fa1PQ
  | .cmShape _ _ _ _ => .FaPQR
  | .outEnc _ _ _ => .FPQR
  | .outDec _ _ _ _ => .FabPQ

/-- The opcode map reads a command's own frame as that command, in its format. -/
theorem opcodeRow_encode (i : Instr) : opcodeRow (encode i).opcode (encode i) = some (i.format, i) := by
  cases i <;> simp [encode, opcodeRow, Instr.format]

/-- The must-be-zero fields of a command's own frame are 0. -/
theorem zerosOk_encode (i : Instr) : i.format.zerosOk (encode i) = true := by
  cases i <;> simp [encode, Instr.format, Format.zerosOk, Frame.aHighZero]

/-- Settles O1: the two questions of decoding, asked of a command's own frame. -/
theorem decodeInvertsEncode : Obligations.DecodeInvertsEncode := fun i =>
  decode_eq_ok_iff.2 ⟨i.format, opcodeRow_encode i, zerosOk_encode i⟩

/-- Settles O5: a sample that spells a command is that command's own frame. -/
theorem sampleFramesDecode : Obligations.SampleFramesDecode :=
  ⟨decodeInvertsEncode (.bsWbits 8 0xA5), decodeInvertsEncode (.outDec 2 0 0x100 16), by decide,
    decodeInvertsEncode (.bsWbits 65 0), by decide, decodeInvertsEncode .nop, decodeInvertsEncode (.mkWbit true 64),
    decodeInvertsEncode (.cmShape 2 4 4 0), decodeInvertsEncode (.spkDec 6 all1), decodeInvertsEncode (.xbSt8 0xBC 0)⟩

/-! ### The must-be-zero bits of a format (R101) -/

/-- The bits of `a` that a format requires to be 0. -/
def Format.aZeros : Format → Byte
  | .F0 | .FP | .FPQ | .FPQR => 0xFF
  | .Fa1 | .Fa1P | .Fa1PQ => 0xFE
  | .Fa | .FaP | .FaPQR | .FabPQ => 0x00

/-- The bits of `b` that a format requires to be 0. -/
def Format.bZeros : Format → Byte
  | .FabPQ => 0x00
  | .F0 | .Fa1 | .Fa | .FP | .Fa1P | .FaP | .FPQ | .Fa1PQ | .FaPQR | .FPQR => 0xFF

/-- The format requires `P` to be 0. -/
def Format.zeroP : Format → Bool
  | .F0 | .Fa1 | .Fa => true
  | .FP | .Fa1P | .FaP | .FPQ | .Fa1PQ | .FaPQR | .FPQR | .FabPQ => false

/-- The format requires `Q` to be 0. -/
def Format.zeroQ : Format → Bool
  | .F0 | .Fa1 | .Fa | .FP | .Fa1P | .FaP => true
  | .FPQ | .Fa1PQ | .FaPQR | .FPQR | .FabPQ => false

/-- The format requires `R` to be 0. -/
def Format.zeroR : Format → Bool
  | .FaPQR | .FPQR => false
  | .F0 | .Fa1 | .Fa | .FP | .Fa1P | .FaP | .FPQ | .Fa1PQ | .FabPQ => true

/-- `BitVec.and_allOnes` in the spelling that `simp` leaves. -/
theorem byte_and_ones (x : Byte) : x &&& 255#8 = x := BitVec.and_allOnes

theorem aHighZero_iff (f : Frame) : f.aHighZero = true ↔ f.a &&& 0xFE = 0 := by
  have h : ∀ x : Byte, (x.extractLsb' 1 7 == 0) = true ↔ x &&& 0xFE = 0 := by decide
  exact h f.a

/-- What `zerosOk` asks of each field. -/
theorem Format.zerosOk_iff (fmt : Format) (f : Frame) : fmt.zerosOk f = true ↔
    f.a &&& fmt.aZeros = 0 ∧ f.b &&& fmt.bZeros = 0 ∧ f.zero = 0 ∧
    (fmt.zeroP = true → f.p = 0) ∧ (fmt.zeroQ = true → f.q = 0) ∧ (fmt.zeroR = true → f.r = 0) := by
  cases fmt <;>
    simp [Format.zerosOk, aHighZero_iff, aZeros, bZeros, zeroP, zeroQ, zeroR, byte_and_ones, and_assoc, and_left_comm]

/-! ### A decoded frame is the command's own -/

/-- The frame of opcode `op` whose used fields are those of `f` and whose must-be-zero fields are 0. -/
def Format.frame (fmt : Format) (op : Byte) (f : Frame) : Frame :=
  ⟨headWord op (f.a &&& ~~~fmt.aZeros) (f.b &&& ~~~fmt.bZeros), if fmt.zeroP then 0 else f.p,
    if fmt.zeroQ then 0 else f.q, if fmt.zeroR then 0 else f.r⟩

theorem bitField_a0 (f : Frame) : bitField f.a0 = f.a &&& ~~~0xFE := by
  have h : ∀ x : Byte, bitField (x.getLsbD 0) = x &&& ~~~0xFE := by decide
  exact h f.a

/-- Every arm of the opcode map reads exactly the used fields of its format. -/
theorem encode_of_opcodeRow {op : Byte} {f : Frame} {fmt : Format} {i : Instr} (h : opcodeRow op f = some (fmt, i)) :
    encode i = fmt.frame op f := by
  unfold opcodeRow at h
  split at h
  case h_39 => cases h
  all_goals
    rename_i hop
    cases h
    rw [(BitVec.toNat_eq_nat.1 hop).2]
    simp [encode, Format.frame, bitField_a0, Format.aZeros, Format.bZeros, Format.zeroP, Format.zeroQ, Format.zeroR,
      byte_and_ones]

theorem and_not_of_and_eq_zero {x m : Byte} (h : x &&& m = 0) : x &&& ~~~m = x := by
  ext i hi
  simpa using congrArg (fun y : Byte => y[i]) h

/-- Where the must-be-zero fields are 0, clearing them changes nothing. -/
theorem Format.frame_of_zerosOk {fmt : Format} {f : Frame} (h : fmt.zerosOk f = true) : fmt.frame f.opcode f = f := by
  obtain ⟨ha, hb, hzero, hp, hq, hr⟩ := (fmt.zerosOk_iff f).1 h
  rw [Format.frame, and_not_of_and_eq_zero ha, and_not_of_and_eq_zero hb, headWord_eta f hzero,
    ite_eq_right_iff.2 fun h => (hp h).symm, ite_eq_right_iff.2 fun h => (hq h).symm,
    ite_eq_right_iff.2 fun h => (hr h).symm]

/-- Settles O2: a decoded command's frame has the fields the opcode map read, and 0 elsewhere. -/
theorem encodeInvertsDecode : Obligations.EncodeInvertsDecode := by
  intro f i h
  obtain ⟨fmt, hrow, hzeros⟩ := decode_eq_ok_iff.1 h
  exact (encode_of_opcodeRow hrow).trans (Format.frame_of_zerosOk hzeros)

/-! ### The opcode table (R107) -/

/-- The bits of `H` that a row of the format fixes: the opcode and the must-be-zero bits. -/
def Format.mask (fmt : Format) : Word := headWord 0xFF fmt.aZeros fmt.bZeros ||| 0xFFFFFFFFFF

/-- The row of a format under an opcode and a mnemonic. -/
def Format.row (fmt : Format) (mnemonic : String) (op : Byte) : OpcodeRow :=
  ⟨mnemonic, headWord op 0 0, fmt.mask, fmt.zeroP, fmt.zeroQ, fmt.zeroR⟩

/-- The fields of a masked `H` are the masked fields. -/
theorem Format.fields_mask (fmt : Format) (f : Frame) (m : Frame) (hm : m.h = f.h &&& fmt.mask) :
    m.opcode = f.opcode ∧ m.a = f.a &&& fmt.aZeros ∧ m.b = f.b &&& fmt.bZeros ∧ m.zero = f.zero := by
  have hmask : fmt.mask.extractLsb' 56 8 = BitVec.allOnes 8 ∧ fmt.mask.extractLsb' 48 8 = fmt.aZeros ∧
      fmt.mask.extractLsb' 40 8 = fmt.bZeros ∧ fmt.mask.extractLsb' 0 40 = BitVec.allOnes 40 := by
    cases fmt <;> decide
  obtain ⟨hop, ha, hb, hzero⟩ := hmask
  simp only [Frame.opcode, Frame.a, Frame.b, Frame.zero, hm, BitVec.extractLsb'_and, hop, ha, hb, hzero,
    BitVec.and_allOnes, and_self]

theorem eq_headWord_iff (f : Frame) (op a b : Byte) :
    f.h = headWord op a b ↔ f.opcode = op ∧ f.a = a ∧ f.b = b ∧ f.zero = 0 := by
  constructor
  · obtain ⟨h, p, q, r⟩ := f
    rintro rfl
    simp
  · rintro ⟨rfl, rfl, rfl, hzero⟩
    exact (headWord_eta f hzero).symm

/-- A row of the table selects the frames of its opcode whose must-be-zero fields are 0. -/
theorem Format.row_selects (fmt : Format) (mnemonic : String) (op : Byte) (f : Frame) :
    (fmt.row mnemonic op).selects f = true ↔ f.opcode = op ∧ fmt.zerosOk f = true := by
  obtain ⟨hop, ha, hb, hzero⟩ := fmt.fields_mask f { f with h := f.h &&& fmt.mask } rfl
  have hmatch := eq_headWord_iff { f with h := f.h &&& fmt.mask } op 0 0
  rw [hop, ha, hb, hzero] at hmatch
  simp only [OpcodeRow.selects, Format.row, Bool.and_eq_true, beq_iff_eq, hmatch, fmt.zerosOk_iff, Bool.or_eq_true,
    Bool.not_eq_true', ← Bool.not_eq_true, ← imp_iff_not_or, and_assoc]

/-- The opcode of a row: the opcode bits of its pattern. -/
def OpcodeRow.opcode (row : OpcodeRow) : Byte := row.pattern.extractLsb' 56 8

/-- Every row of the table is the row of its opcode's format, and the opcode map gives that opcode the row's mnemonic. -/
theorem opcodeTable_rows : ∀ row ∈ opcodeTable, ∃ fmt : Format, row = fmt.row row.mnemonic row.opcode ∧
    ∀ f, ∃ i, opcodeRow row.opcode f = some (fmt, i) ∧ Machine.mnemonicOf i = row.mnemonic := by
  intro row h
  fin_cases h <;> refine ⟨_, ?_, fun f => ⟨_, rfl, rfl⟩⟩ <;> rfl

/-- The row of every command (the rows of `Laws.EncodingMatchesTable`). -/
theorem encode_selected (i : Instr) : Laws.EncodingMatchesTable.Statement i := by
  open Laws.EncodingMatchesTable in
  cases i
  exacts [nop, reset, rdreg _, bsWbit _, bsWbits _ _, bsRbit, bsRbits _, bsRewind, bsWseek _, bsRseek _, bsFlush,
    bsRrbit _, bsRwbit _ _, bsTest _ _, bsGet _, bsParse _ _, mkResize _, mkReset, mkRbit _, mkWbit _ _, mkWtrue _,
    mkWfalse _, mkCount, mkHas _ _, mkView _, mkUse _, cmShape _ _ _ _, cmSt _ _ _, cmLd _, spkEnc _, spkDec _ _,
    outTol _, outEnc _ _ _, outDec _ _ _ _, xbSt8 _ _, xbLd8 _, xbSt64 _ _, xbLd64 _]

/-- Two rows of the table differ in their mnemonics. -/
theorem eq_of_mnemonic_eq {r1 r2 : OpcodeRow} (h1 : r1 ∈ opcodeTable) (h2 : r2 ∈ opcodeTable)
    (h : r1.mnemonic = r2.mnemonic) : r1 = r2 :=
  List.inj_on_of_nodup_map (f := OpcodeRow.mnemonic) (by decide) h1 h2 h

theorem exists_decode_of_selects {row : OpcodeRow} (hrow : row ∈ opcodeTable) {f : Frame} (h : row.selects f = true) :
    ∃ i, decode f = .ok i ∧ Machine.mnemonicOf i = row.mnemonic := by
  obtain ⟨fmt, heq, hmap⟩ := opcodeTable_rows row hrow
  obtain ⟨hop, hzeros⟩ := (fmt.row_selects _ _ f).1 (heq ▸ h)
  obtain ⟨i, hi, hname⟩ := hmap f
  exact ⟨i, decode_eq_ok_iff.2 ⟨fmt, hop ▸ hi, hzeros⟩, hname⟩

theorem exists_row_of_decode {f : Frame} {i : Instr} (h : decode f = .ok i) :
    ∃ row ∈ opcodeTable, row.mnemonic = Machine.mnemonicOf i ∧ row.selects f = true :=
  encodeInvertsDecode f i h ▸ encode_selected i

/-- Whether a row matches an `H` does not depend on the operand words: with all of them 0 it selects the frame. -/
theorem OpcodeRow.selects_zeros {row : OpcodeRow} {h : Word} (hm : h &&& row.mask = row.pattern) :
    row.selects ⟨h, 0, 0, 0⟩ = true := by
  simp [OpcodeRow.selects, hm]

/-- Settles O3: rows and opcode map agree, and a mnemonic names one row. -/
theorem decodeFollowsOpcodeTable : Obligations.DecodeFollowsOpcodeTable := by
  refine ⟨fun f row hrow => ⟨exists_decode_of_selects hrow, ?_⟩, fun f i h => ?_, fun h r1 hr1 r2 hr2 hm1 hm2 => ?_⟩
  · rintro ⟨i, hdecode, hname⟩
    obtain ⟨row', hrow', hname', hselects⟩ := exists_row_of_decode hdecode
    exact eq_of_mnemonic_eq hrow' hrow (hname'.trans hname) ▸ hselects
  · obtain ⟨row, hrow, hname, -⟩ := exists_row_of_decode h
    exact ⟨row, hrow, hname⟩
  · obtain ⟨i, hi, hname1⟩ := exists_decode_of_selects hr1 (OpcodeRow.selects_zeros hm1)
    obtain ⟨j, hj, hname2⟩ := exists_decode_of_selects hr2 (OpcodeRow.selects_zeros hm2)
    obtain rfl : i = j := Except.ok.inj (hi.symm.trans hj)
    exact eq_of_mnemonic_eq hr1 hr2 (hname1.symm.trans hname2)

end Sys2Proof

namespace Sys2Proof.Machine

/-! ### The answer `ILLEGAL` (R102 steps 2 to 4, R108) -/

/-- A live CORE answers a frame that spells no command with `ILLEGAL`. -/
theorem rejectFrame_of_live {s : State} (h : s.st.faulted = false) (f : Frame) :
    rejectFrame f s = .next (s.finish .illegal 0 0) := by
  rw [rejectFrame, h]
  rfl

/-- R60 lists every number that names a register. -/
theorem State.listedRegister_eq_false {s : State} {reg : Byte} (h : s.regValue reg = none) :
    listedRegister reg = false := by
  unfold State.regValue at h
  split at h
  case h_21 =>
    simp only [imp_false] at *
    have hno : ¬ (reg.toNat ≤ 0x0E ∨ 0x10 ≤ reg.toNat ∧ reg.toNat ≤ 0x14) := by omega
    simpa [listedRegister] using hno
  all_goals cases h

/-- The first check of `OUT_DEC` is that of its reserved values (45_outlier_coder.md R296). -/
theorem outDecCheck_eq_illegal_iff {maxbits wsel : Byte} {addr len : Word} {s : State} :
    outDecCheck maxbits wsel addr len s = some .illegal ↔ (Instr.outDec maxbits wsel addr len).wellFormed = false := by
  have reserved : (maxbits.toNat > 63 || wsel.toNat > 3) = !(Instr.outDec maxbits wsel addr len).wellFormed := by
    rw [Instr.wellFormed, Bool.not_and, ← decide_not, ← decide_not]
    simp only [Nat.not_le, gt_iff_lt]
  rw [outDecCheck, reserved]
  cases (Instr.outDec maxbits wsel addr len).wellFormed
  · simp
  · simp only [Bool.not_true, Bool.false_eq_true, if_false]
    split_ifs <;> simp

/-- A live CORE answers a command that holds a reserved value with `ILLEGAL`, whatever its other operands and the state. -/
theorem exec_of_illFormed {i : Instr} {s : State} (h : s.st.faulted = false) (hi : i.wellFormed = false) :
    exec i s = .next (s.finish .illegal 0 0) := by
  cases i with
  | rdreg reg => exact exec_rdreg_of_none h (State.regValue_eq_none hi)
  | bsWbits n value =>
    rw [exec, execBsWbits, unlessFaulted_of_live h]
    exact if_pos (Nat.not_le.1 (of_decide_eq_false hi))
  | bsRbits n =>
    rw [exec, execBsRbits, unlessFaulted_of_live h]
    exact if_pos (Nat.not_le.1 (of_decide_eq_false hi))
  | cmShape d n0 n1 n2 =>
    rw [exec, execCmShape, unlessFaulted_of_live h]
    cases hd : legalDim d with
    | false => exact if_pos rfl
    | true =>
      have hext : unusedExtentsZero d n1 n2 = false := by simpa [Instr.wellFormed, hd] using hi
      exact (if_neg (by decide)).trans (if_pos (by rw [hext]; rfl))
  | spkDec maxbits budget =>
    rw [exec, execSpkDec, unlessFaulted_of_live h]
    exact if_pos (Nat.not_le.1 (of_decide_eq_false hi))
  | outDec maxbits wsel addr len =>
    rw [exec, execOutDec, unlessFaulted_of_live h, outDecCheck_eq_illegal_iff.2 hi]
    rfl
  | _ => cases hi

/-- A step of a live CORE on a frame that spells no command (R102 steps 2 and 3). -/
theorem step_of_decode_error {s : State} {f : Frame} {rest : List Frame} {e : DecodeError} (h : s.st.faulted = false)
    (hport : s.cmdPort = f :: rest) (he : decode f = .error e) :
    step s = .next ({ s with cmdPort := rest }.finish .illegal 0 0) := by
  rw [step, accept_cons hport]
  simp only [he]
  exact rejectFrame_of_live (s := { s with cmdPort := rest }) h f

/-- Settles O7: the decoder refuses the frame, or the first check of the command it spells does. -/
theorem illegalFramesAnswered : Obligations.IllegalFramesAnswered := by
  intro s f rest hlive hport hbad
  obtain ⟨e, he⟩ | ⟨i, hi, hill⟩ := hbad
  · exact step_of_decode_error hlive hport he
  · exact (stepTakesNextFrame.2 s f rest i hport hi).trans (exec_of_illFormed (s := { s with cmdPort := rest }) hlive hill)

/-- The outcome is the end of a command with another status than `ILLEGAL`. -/
def EndsLegal (r : Result) : Prop :=
  ∃ (u : State) (status : Status) (r0 r1 : Word), r = .next (u.finish status r0 r1) ∧ status ≠ .illegal

namespace EndsLegal

theorem ends {u : State} {status : Status} {r0 r1 : Word} (h : status ≠ .illegal) :
    EndsLegal (endCommand status r0 r1 u) := ⟨u, status, r0, r1, rfl, h⟩

theorem live {s : State} {body : State → Result} (h : s.st.faulted = false) (hb : EndsLegal (body s)) :
    EndsLegal (unlessFaulted s body) := unlessFaulted_of_live h body ▸ hb

theorem ok {u : State} {r0 r1 : Word} : EndsLegal (finishOk r0 r1 u) := ends (by decide)

theorem refuse {u : State} {status : Status} (h : status ≠ .illegal) : EndsLegal (raise status u) := ends h

theorem branch {p : Prop} [Decidable p] {a b : Result} (ha : p → EndsLegal a) (hb : ¬ p → EndsLegal b) :
    EndsLegal (if p then a else b) := by
  split
  · exact ha ‹_›
  · exact hb ‹_›

/-- A command whose last check is of a range. -/
theorem okIf {p : Prop} [Decidable p] {r0 r1 : Word} {u v : State} :
    EndsLegal (if p then finishOk r0 r1 u else raise .range v) := branch (fun _ => ok) fun _ => refuse (by decide)

theorem write (written : Option BitStream) (s : State) : EndsLegal (endWrite written s) := by
  cases written with
  | none => exact refuse (by decide)
  | some b => exact ok

end EndsLegal

theorem checkRecord_ne_illegal (tau : Word) (n : Nat) (seen : List Nat) (r : OutlierRecord) :
    checkRecord tau n seen r ≠ some .illegal := by
  unfold checkRecord
  split_ifs <;> simp

theorem checkRecords_ne_illegal (tau : Word) (n : Nat) (rs : List OutlierRecord) (seen : List Nat) :
    checkRecords tau n seen rs ≠ some .illegal := by
  induction rs generalizing seen with
  | nil => simp [checkRecords]
  | cons r rs ih =>
    rw [checkRecords]
    cases hr : checkRecord tau n seen r with
    | none => exact ih _
    | some status => exact fun h => checkRecord_ne_illegal tau n seen r (hr.trans h)

theorem outEncCheck_ne_illegal (addr count len : Word) (s : State) : outEncCheck addr count len s ≠ some .illegal := by
  unfold outEncCheck
  split_ifs
  case neg => exact checkRecords_ne_illegal _ _ _ _
  all_goals simp

theorem speckRun_ne_illegal (m : Mode) (budget : Word) (maxbits : Nat) (s : State) :
    (speckRun m budget maxbits s).1 ≠ .illegal := by
  cases m with
  | enc => rcases speckRun_enc budget maxbits s with ⟨nb, b, h, -⟩ | ⟨nb, u, h, -⟩ <;> rw [h] <;> nofun
  | dec =>
    obtain ⟨status, nb, u, h, rfl | rfl, -⟩ := speckRun_dec_keeps budget maxbits s <;> rw [h] <;> nofun

open EndsLegal in
/-- No check but those of the reserved values answers `ILLEGAL`. -/
theorem exec_endsLegal {i : Instr} {s : State} (h : s.st.faulted = false) (hi : i.wellFormed = true) :
    EndsLegal (exec i s) := by
  cases i with
  | reset => exact ok
  | nop | bsRewind | bsFlush | mkReset | mkCount =>
    rw [exec]
    refine live h ?_
    exact ok
  | bsRbit | bsWseek | bsRseek | bsRrbit | bsRwbit | bsTest | bsGet | mkRbit | mkWbit | mkWtrue | mkWfalse | mkHas |
    cmSt | cmLd | xbSt8 | xbLd8 =>
    rw [exec]
    refine live h ?_
    exact okIf
  | mkView | mkUse | xbSt64 | xbLd64 =>
    rw [exec]
    refine live h ?_
    exact branch (fun _ => refuse (by decide)) fun _ => okIf
  | mkResize | outTol =>
    rw [exec]
    refine live h ?_
    exact branch (fun _ => ok) fun _ => refuse (by decide)
  | bsParse addr bits =>
    rw [exec]
    refine live h ?_
    exact branch (fun _ => branch (fun _ => ok) fun _ => refuse (by decide)) fun _ => refuse (by decide)
  | bsWbit bit =>
    rw [exec]
    refine live h ?_
    exact write _ _
  | rdreg reg =>
    rw [exec]
    refine live h ?_
    cases hv : s.regValue reg with
    | none => exact absurd hi (Bool.eq_false_iff.1 (State.listedRegister_eq_false hv))
    | some v => exact ok
  | bsWbits n value =>
    rw [exec]
    refine live h ?_
    exact branch (fun hn => absurd (of_decide_eq_true hi) (Nat.not_le.2 hn)) fun _ => write _ _
  | bsRbits n =>
    rw [exec]
    refine live h ?_
    exact branch (fun hn => absurd (of_decide_eq_true hi) (Nat.not_le.2 hn)) fun _ => okIf
  | cmShape d n0 n1 n2 =>
    obtain ⟨hd, hext⟩ : legalDim d = true ∧ unusedExtentsZero d n1 n2 = true := Bool.and_eq_true_iff.1 hi
    rw [exec]
    refine live h ?_
    exact branch (fun hf => absurd hf (by simp [hd])) fun _ => branch (fun hf => absurd hf (by simp [hext])) fun _ =>
      branch (fun _ => refuse (by decide)) fun _ => branch (fun _ => ok) fun _ => refuse (by decide)
  | spkEnc budget =>
    rw [exec]
    refine live h ?_
    exact branch (fun _ => refuse (by decide)) fun _ => ends (speckRun_ne_illegal _ _ _ _)
  | spkDec maxbits budget =>
    rw [exec]
    refine live h ?_
    exact branch (fun hn => absurd (of_decide_eq_true hi) (Nat.not_le.2 hn)) fun _ =>
      branch (fun _ => refuse (by decide)) fun _ => ends (speckRun_ne_illegal _ _ _ _)
  | outEnc addr count len =>
    rw [exec]
    refine live h ?_
    cases hc : outEncCheck addr count len s with
    | some status => exact refuse fun he => outEncCheck_ne_illegal addr count len s (he ▸ hc)
    | none => exact ends (speckRun_ne_illegal _ _ _ _)
  | outDec maxbits wsel addr len =>
    rw [exec]
    refine live h ?_
    cases hc : outDecCheck maxbits wsel addr len s with
    | some status => exact refuse fun he => Bool.eq_false_iff.1 (outDecCheck_eq_illegal_iff.1 (he ▸ hc)) hi
    | none => exact branch (fun _ => ends (by decide)) fun _ => okIf

/-- Settles O8: a reserved value is refused with `ILLEGAL`, and nothing else is. -/
theorem illegalMeansReservedValue : Obligations.IllegalMeansReservedValue := by
  intro i s t hlive ht
  cases hi : i.wellFormed with
  | false =>
    cases (exec_of_illFormed hlive hi).symm.trans ht
    exact iff_of_true ((State.endedWith_finish _ _ _ _).2 rfl) rfl
  | true =>
    obtain ⟨u, status, r0, r1, hu, hne⟩ := exec_endsLegal hlive hi
    cases hu.symm.trans ht
    exact iff_of_false (fun hend => hne ((State.endedWith_finish _ _ _ _).1 hend)) nofun

end Sys2Proof.Machine

/-! SUPPORT. The statements of 40_system.md on `RESET` and `NOP`: each is the end of a command with `OK`
(`State.finish_ok`), after the reset of the units and after nothing. -/

namespace Sys2Proof.Machine

/-- Ending with `OK` sets no flag and writes 0 to `LASTST`; the response has the results (60_exceptions.md R331). -/
theorem State.finish_ok (s : State) (r0 r1 : Word) :
    s.finish .ok r0 r1 = { s with st := { s.st with lastst := 0 }, rspPort := s.rspPort ++ [⟨.ok, r0, r1⟩] } := by
  rw [State.finish_of_ne_alloc _ _ _ _ (by decide), StatusUnit.record_ok]
  rfl

/-- `RESET` runs whether the CORE is faulted or not (R131). -/
theorem exec_reset (s : State) : exec .reset s = .next (s.resetUnits.finish .ok 0 0) := rfl

/-- `NOP` in a live CORE is the end of the command alone (R130). -/
theorem exec_nop_of_live {s : State} (h : s.st.faulted = false) : exec .nop s = .next (s.finish .ok 0 0) := by
  rw [exec, execNop, unlessFaulted_of_live h]
  rfl

/-- Settles O18: the end with `OK` adds its response to the state of `resetUnits` and writes `LASTST` 0 over 0. -/
theorem resetCommandRestores : Obligations.ResetCommandRestores := by
  intro s
  rw [exec_reset, State.finish_ok]
  rfl

/-- Settles O22: a live CORE only ends the command; a faulted one refuses `NOP` like all but `RESET` (R345). -/
theorem nopChangesNothing : Obligations.NopChangesNothing := by
  refine fun s => ⟨fun hlive => ?_, fun hfaulted => exec_of_faulted (by decide) hfaulted⟩
  rw [exec_nop_of_live hlive, State.finish_ok]

end Sys2Proof.Machine

/-! SUPPORT. The statements of 41_bitstream.md. Each command of the stream has one equation in a live CORE; what its new
stream holds is read off the laws of the stream's operations (`BitStream.putAll_spec`, `BitStream.flush_spec` and so on). -/

namespace Sys2Proof.Machine

/-! ### Writes through the cursor (R143 to R147) -/

@[simp] theorem BitStream.putWithin_cap (b : BitStream) (v : Bool) : (b.putWithin v).cap = b.cap := by
  unfold BitStream.putWithin; simp only; split <;> rfl

@[simp] theorem BitStream.putWithin_wpos (b : BitStream) (v : Bool) : (b.putWithin v).wpos = b.wpos + 1 := by
  unfold BitStream.putWithin; simp only; split <;> rfl

/-- A bit that completes no word stays in the write buffer, where reads do not see it (R143, R145). -/
theorem BitStream.putWithin_mem {b : BitStream} (h : (b.wpos + 1) % 64 ≠ 0) (v : Bool) : (b.putWithin v).mem = b.mem := by
  unfold BitStream.putWithin; rw [if_neg h]

/-- The bit that completes a word empties the write buffer (R145). -/
theorem BitStream.putWithin_wbuf {b : BitStream} (h : (b.wpos + 1) % 64 = 0) (v : Bool) : (b.putWithin v).wbuf = 0 := by
  unfold BitStream.putWithin; rw [if_pos h]

/-- A cursor on a word boundary has no bit pending, so a commit does nothing (R141). -/
theorem BitStream.commit_of_aligned {b : BitStream} (h : b.wpos % 64 = 0) : b.commit = b := by
  unfold BitStream.commit BitStream.k; rw [if_neg (by omega)]

/-- With no bit pending, reads see the whole logical content (R142, R143). -/
theorem BitStream.getbit_eq_logical_of_aligned {b : BitStream} (h : b.wpos % 64 = 0) (p : Nat) : b.getbit p = b.logical p := by
  rw [BitStream.logical_eq, if_neg (by omega)]; rfl

/-- Growing at a word boundary moves no cursor and shows reads nothing new (R143, R144). -/
theorem BitStream.grow_of_aligned {maxWords : Nat} {b g : BitStream} (h : b.wpos % 64 = 0)
    (hg : b.grow maxWords = some g) : g.wpos = b.wpos ∧ ∀ p, g.getbit p = b.getbit p := by
  unfold BitStream.grow at hg
  rw [BitStream.commit_of_aligned h] at hg
  simp only at hg
  split at hg
  · cases hg
  · cases hg
    exact ⟨rfl, getBitAt_append_zeros b.mem b.cap⟩

/-- When a written bit becomes visible to reads: with its word, and not before (R143, R145). -/
theorem BitStream.put_visible {maxWords : Nat} {b g : BitStream} {v : Bool} (h : b.put maxWords v = some g) :
    ((b.wpos + 1) % 64 = 0 → g.wbuf = 0) ∧ ((b.wpos + 1) % 64 ≠ 0 → ∀ p, g.getbit p = b.getbit p) := by
  have within : ∀ c : BitStream, (c.wpos + 1) % 64 ≠ 0 → ∀ p, (c.putWithin v).getbit p = c.getbit p := fun c hc p => by
    rw [BitStream.getbit, BitStream.putWithin_mem hc, BitStream.getbit]
  unfold BitStream.put at h
  split at h
  · obtain ⟨c, hgrow, rfl⟩ := Option.map_eq_some_iff.1 h
    obtain ⟨hwpos, hbits⟩ := BitStream.grow_of_aligned (by omega) hgrow
    exact ⟨fun hw => absurd hw (by omega), fun hw p => (within c (hwpos ▸ hw) p).trans (hbits p)⟩
  · cases h
    exact ⟨fun hw => BitStream.putWithin_wbuf hw v, within b⟩

theorem BitStream.grow_eq_none {maxWords : Nat} {b : BitStream} (h : maxWords < 2 * b.cap) : b.grow maxWords = none := by
  unfold BitStream.grow
  simp only [BitStream.commit_cap]
  exact if_pos h

theorem BitStream.put_of_full {maxWords : Nat} {b : BitStream} (hw : b.wpos = 64 * b.cap) (h : maxWords < 2 * b.cap)
    (v : Bool) : b.put maxWords v = none := by
  rw [BitStream.put, if_pos hw, BitStream.grow_eq_none h]; rfl

theorem BitStream.putAll_singleton (maxWords : Nat) (v : Bool) (b : BitStream) :
    BitStream.putAll maxWords [v] b = b.put maxWords v :=
  Option.bind_fun_some (b.put maxWords v)

theorem BitStream.putAll_append (maxWords : Nat) (vs ws : List Bool) (b : BitStream) :
    BitStream.putAll maxWords (vs ++ ws) b =
      (BitStream.putAll maxWords vs b).bind (BitStream.putAll maxWords ws) := by
  induction vs generalizing b with
  | nil => rfl
  | cons v vs ih =>
    rw [List.cons_append, BitStream.putAll, BitStream.putAll, Option.bind_assoc]
    exact congrArg (Option.bind _) (funext ih)

/-- Writing on past a capacity that cannot double fails, wherever below it the writing began (R144). -/
theorem BitStream.putAll_of_crosses {maxWords : Nat} {vs : List Bool} {b : BitStream} (hw : b.wpos ≤ 64 * b.cap)
    (hcross : 64 * b.cap < b.wpos + vs.length) (h : maxWords < 2 * b.cap) : BitStream.putAll maxWords vs b = none := by
  induction vs generalizing b with
  | nil => exact absurd hcross (Nat.not_lt.2 hw)
  | cons v vs ih =>
    rw [List.length_cons] at hcross
    rw [BitStream.putAll]
    by_cases hfull : b.wpos = 64 * b.cap
    · rw [BitStream.put_of_full hfull h]; rfl
    · rw [BitStream.put, if_neg hfull]
      exact ih (by simp; omega) (by simp; omega) (by simpa using h)

/-! ### The stream's commands in a live CORE -/

section Live

variable {s : State} (h : s.st.faulted = false)
include h

theorem exec_bsWbit_of_live (bit : Bool) : exec (.bsWbit bit) s = endWrite (s.bs.put s.cfg.maxWords bit) s := by
  rw [exec, execBsWbit, unlessFaulted_of_live h]

theorem exec_bsWbits_of_live {n : Byte} (hn : n.toNat ≤ 64) (value : Word) :
    exec (.bsWbits n value) s = endWrite (BitStream.putAll s.cfg.maxWords (lowBits value n.toNat) s.bs) s := by
  rw [exec, execBsWbits, unlessFaulted_of_live h]
  exact if_neg (Nat.not_lt.2 hn)

theorem exec_bsRbit_of_live : exec .bsRbit s =
    if s.bs.rpos < 64 * s.bs.cap then
      .next ({ s with bs := { s.bs with rpos := s.bs.rpos + 1 } }.finish .ok (bitWord (s.bs.getbit s.bs.rpos)) 0)
    else .next (s.finish .range 0 0) := by
  rw [exec, execBsRbit, unlessFaulted_of_live h]; rfl

theorem exec_bsRbits_of_live {n : Byte} (hn : n.toNat ≤ 64) : exec (.bsRbits n) s =
    if s.bs.rpos + n.toNat ≤ 64 * s.bs.cap then
      .next ({ s with bs := { s.bs with rpos := s.bs.rpos + n.toNat } }.finish .ok (s.bs.readBits n.toNat) 0)
    else .next (s.finish .range 0 0) := by
  rw [exec, execBsRbits, unlessFaulted_of_live h]
  exact if_neg (Nat.not_lt.2 hn)

theorem exec_bsRewind_of_live : exec .bsRewind s =
    .next ({ s with bs := { s.bs.commit with wpos := 0, rpos := 0, wbuf := 0 } }.finish .ok 0 0) := by
  rw [exec, execBsRewind, unlessFaulted_of_live h]; rfl

theorem exec_bsWseek_of_live (pos : Word) : exec (.bsWseek pos) s =
    if pos.toNat ≤ 64 * s.bs.cap then .next ({ s with bs := s.bs.seekWrite pos.toNat }.finish .ok 0 0)
    else .next (s.finish .range 0 0) := by
  rw [exec, execBsWseek, unlessFaulted_of_live h]; rfl

theorem exec_bsRseek_of_live (pos : Word) : exec (.bsRseek pos) s =
    if pos.toNat ≤ 64 * s.bs.cap then .next ({ s with bs := { s.bs with rpos := pos.toNat } }.finish .ok 0 0)
    else .next (s.finish .range 0 0) := by
  rw [exec, execBsRseek, unlessFaulted_of_live h]; rfl

theorem exec_bsFlush_of_live : exec .bsFlush s =
    .next ({ s with bs := s.bs.flush }.finish .ok (BitVec.ofNat 64 s.bs.wpos) 0) := by
  rw [exec, execBsFlush, unlessFaulted_of_live h]; rfl

theorem exec_bsRrbit_of_live (pos : Word) : exec (.bsRrbit pos) s =
    if pos.toNat < 64 * s.bs.cap then .next (s.finish .ok (bitWord (s.bs.getbit pos.toNat)) 0)
    else .next (s.finish .range 0 0) := by
  rw [exec, execBsRrbit, unlessFaulted_of_live h]; rfl

theorem exec_bsRwbit_of_live (bit : Bool) (pos : Word) : exec (.bsRwbit bit pos) s =
    if pos.toNat < 64 * s.bs.cap then .next ({ s with bs := s.bs.randomWrite pos.toNat bit }.finish .ok 0 0)
    else .next (s.finish .range 0 0) := by
  rw [exec, execBsRwbit, unlessFaulted_of_live h]; rfl

theorem exec_bsTest_of_live (start len : Word) : exec (.bsTest start len) s =
    if start.toNat + len.toNat ≤ 64 * s.bs.cap then
      .next (s.finish .ok (bitWord (s.bs.testRange start.toNat len.toNat)) 0)
    else .next (s.finish .range 0 0) := by
  rw [exec, execBsTest, unlessFaulted_of_live h]; rfl

theorem exec_mkHas_of_live (start len : Word) : exec (.mkHas start len) s =
    if start.toNat + len.toNat ≤ s.mask.n then
      .next (s.finish .ok (bitWord (s.mask.has start.toNat len.toNat)) 0)
    else .next (s.finish .range 0 0) := by
  rw [exec, execMkHas, unlessFaulted_of_live h]; rfl

theorem exec_bsGet_of_outside {addr : Word} (hout : s.cfg.xbBytes < addr.toNat + ceilDiv s.bs.wpos 8) :
    exec (.bsGet addr) s = .next (s.finish .range 0 0) := by
  rw [exec, execBsGet, unlessFaulted_of_live h]
  exact if_neg (by rw [State.xbHolds, decide_eq_true_eq]; omega)

theorem exec_bsParse_of_outside {addr bits : Word} (hout : s.cfg.xbBytes < addr.toNat + ceilDiv bits.toNat 8) :
    exec (.bsParse addr bits) s = .next (s.finish .range 0 0) := by
  rw [exec, execBsParse, unlessFaulted_of_live h]
  exact if_neg (by rw [State.xbHolds, decide_eq_true_eq]; omega)

theorem exec_bsParse_of_too_large {addr bits : Word} (hfit : addr.toNat + ceilDiv bits.toNat 8 ≤ s.cfg.xbBytes)
    (hcap : s.cfg.maxWords < parseCap s.bs.cap (ceilDiv bits.toNat 64)) :
    exec (.bsParse addr bits) s = .next (s.finish .alloc 0 0) := by
  rw [exec, execBsParse, unlessFaulted_of_live h]
  exact (if_pos (decide_eq_true hfit)).trans (if_neg (Nat.not_le.2 hcap))

end Live

/-! ### Bits written and read back (R160) -/

/-- Every cursor write puts its bits one after the other. -/
theorem exec_of_isCursorWrite {i : Instr} {s : State} (hi : isCursorWrite i = true) (h : s.st.faulted = false) :
    exec i s = endWrite (BitStream.putAll s.cfg.maxWords (writtenBits i) s.bs) s := by
  cases i with
  | bsWbit bit => rw [exec_bsWbit_of_live h, writtenBits, BitStream.putAll_singleton]
  | bsWbits n value => exact exec_bsWbits_of_live h (of_decide_eq_true hi) value
  | _ => cases hi

/-- A write that succeeds leaves a live CORE with the written stream and the same parameters. -/
theorem endWrite_leaves {s : State} (h : s.st.faulted = false) (b : BitStream) :
    ∃ t, endWrite (some b) s = .next t ∧ t.st.faulted = false ∧ t.cfg = s.cfg ∧ t.bs = b :=
  ⟨_, rfl, State.finish_ok_live (s := { s with bs := b }) h 0 0, State.finish_cfg .., State.finish_bs _ _ _ _ (by decide)⟩

/-- A sequence of cursor writes, before any other commands, is one write of all their bits. -/
theorem runCommands_cursorWrites {writes : List Instr} (rest : List Instr) {s : State} {b : BitStream}
    (h : s.st.faulted = false) (hw : ∀ i ∈ writes, isCursorWrite i = true)
    (hb : BitStream.putAll s.cfg.maxWords (writes.flatMap writtenBits) s.bs = some b) :
    ∃ t, runCommands (writes ++ rest) s = runCommands rest t ∧ t.st.faulted = false ∧ t.bs = b := by
  induction writes generalizing s with
  | nil => exact ⟨s, rfl, h, Option.some.inj hb⟩
  | cons i is ih =>
    rw [List.flatMap_cons, BitStream.putAll_append] at hb
    obtain ⟨c, hc, hrest⟩ := Option.bind_eq_some_iff.1 hb
    obtain ⟨u, hu, hlive, hcfg, hbs⟩ := endWrite_leaves h c
    have hexec : exec i s = .next u := by rw [exec_of_isCursorWrite (hw i List.mem_cons_self) h, hc, hu]
    obtain ⟨t, ht, hend⟩ := ih hlive (fun j hj => hw j (List.mem_cons_of_mem _ hj)) (by rw [hcfg, hbs]; exact hrest)
    exact ⟨t, (runCommands_cons hexec).trans ht, hend⟩

/-- Settles O34: the writes put their bits from position 0 of the logical content on, and the flush commits it. -/
theorem streamRoundTrip : Obligations.StreamRoundTrip := by
  intro writes s hlive hc hwf hw0 hwrites hfit
  obtain ⟨b, hput, hb, hwpos, hrpos, -, ⟨j, hcap, -⟩, hcontent⟩ :=
    BitStream.putAll_spec hc (writes.flatMap writtenBits) hwf (by omega)
  obtain ⟨u, hrun, hu, rfl⟩ := runCommands_cursorWrites [.bsFlush] hlive hwrites hput
  obtain ⟨-, fcap, fwpos, frpos, -, fblen, fbits⟩ := BitStream.flush_spec hb
  rw [hw0, Nat.zero_add] at hwpos hcontent
  refine ⟨_, hrun.trans (runCommands_cons (exec_bsFlush_of_live hu)),
    State.finish_ok_live (s := { u with bs := u.bs.flush }) hu _ _, fblen.trans hwpos, fwpos.trans hwpos,
    frpos.trans hrpos, ⟨j, fcap.trans hcap⟩, fun i hi => ?_⟩
  calc u.bs.flush.getbit i = u.bs.logical i := fbits i
    _ = _ := by rw [hcontent, if_pos ⟨Nat.zero_le i, hi⟩, Nat.sub_zero]

/-! ### One write (R146, R147) -/

/-- Settles O24: below the limit a write has room (`BitStream.has_room`), so `put` succeeds. -/
theorem writeBitAppends : Obligations.WriteBitAppends := by
  intro bit s hlive hc hwf hroom
  rcases BitStream.put_cases hwf bit with ⟨hfull, hmax, -⟩ | ⟨-, b, hput, hb, hcap, hwpos, hrpos, hblen, hcontent⟩
  · have := BitStream.has_room hc hwf hroom
    omega
  · obtain ⟨hempty, hpending⟩ := BitStream.put_visible hput
    refine ⟨b, by rw [exec_bsWbit_of_live hlive, hput]; rfl, hb, hcap, hwpos, hrpos, hblen, hcontent, fun hw => ?_, hpending⟩
    exact ⟨hempty hw, BitStream.getbit_eq_logical_of_aligned (hwpos ▸ hw)⟩

theorem lowBits_length (v : Word) (n : Nat) : (lowBits v n).length = n := by simp [lowBits]

theorem lowBits_getD (v : Word) {n i : Nat} (hi : i < n) : (lowBits v n).getD i false = v.getLsbD i := by
  simp [lowBits, List.getD_eq_getElem?_getD, hi]

/-- Of the doublings of a capacity, at most 64 bits past the cursor need none or one (R147). -/
theorem doubled_at_most_once {cap wpos n j : Nat} (hcap : 1 ≤ cap) (hw : wpos ≤ 64 * cap) (hn : n ≤ 64)
    (hneed : 0 < j → 64 * (cap * 2 ^ (j - 1)) < wpos + n) (hfit : wpos + n ≤ 64 * (cap * 2 ^ j)) :
    cap * 2 ^ j = if wpos + n ≤ 64 * cap then cap else 2 * cap := by
  match j with
  | 0 => rw [if_pos (by simpa using hfit), Nat.pow_zero, Nat.mul_one]
  | 1 =>
    have hcross := hneed Nat.one_pos
    rw [if_neg (by simpa using hcross), Nat.pow_one, Nat.mul_comm]
  | j + 2 =>
    have hcross : 64 * (cap * 2 ^ (j + 1)) < wpos + n := hneed (Nat.succ_pos _)
    have htwo : cap * 2 ≤ cap * 2 ^ (j + 1) := Nat.mul_le_mul_left _ (Nat.le_self_pow (Nat.succ_ne_zero j) 2)
    omega

/-- Settles O25: `putAll` of the value's low bits. -/
theorem writeBitsAppends : Obligations.WriteBitsAppends := by
  intro n value s hlive
  refine ⟨fun hn => exec_of_illFormed hlive (decide_eq_false (Nat.not_le.2 hn)), fun hn hc hwf hroom => ?_⟩
  obtain ⟨b, hput, hb, hwpos, hrpos, hblen, ⟨j, hcap, hneed⟩, hcontent⟩ :=
    BitStream.putAll_spec hc (lowBits value n.toNat) hwf (by rw [lowBits_length]; exact hroom)
  rw [lowBits_length] at hwpos hneed hcontent
  have hfit := hb.wposLe
  rw [hwpos, hcap] at hfit
  refine ⟨b, by rw [exec_bsWbits_of_live hlive hn, hput]; rfl, hb, ?_, hwpos, hrpos, hblen, fun p => ?_⟩
  · exact hcap.trans (doubled_at_most_once hwf.capPos hwf.wposLe hn hneed hfit)
  · rw [hcontent]
    exact if_ctx_congr Iff.rfl (fun hp => lowBits_getD value (by omega)) fun _ => rfl

/-! ### Reads (R148, R149, R152, R154, R156) -/

theorem BitStream.readBits_getLsbD (b : BitStream) (n : Nat) {i : Nat} (hi : i < 64) :
    (b.readBits n).getLsbD i = (decide (i < n) && b.getbit (b.rpos + i)) := by
  rw [BitStream.readBits, BitVec.getLsbD_ofNat, bitsToNat_testBit, decide_eq_true hi, Bool.true_and]

/-- Settles O26: both commands compare with the capacity, and the bits of `readBits` are those of `mem`. -/
theorem cursorReads : Obligations.CursorReads := by
  intro s hlive
  refine ⟨fun hin => ?_, fun hout => ?_, fun n => ⟨fun hn => ?_, fun hn hout => ?_, fun hn hin => ?_⟩⟩
  · rw [exec_bsRbit_of_live hlive, if_pos hin, bitWord_eq_ite]
  · rw [exec_bsRbit_of_live hlive, if_neg (Nat.not_lt.2 hout)]
  · exact exec_of_illFormed hlive (decide_eq_false (Nat.not_le.2 hn))
  · rw [exec_bsRbits_of_live hlive hn, if_neg (Nat.not_le.2 hout)]
  · exact ⟨s.bs.readBits n.toNat, by rw [exec_bsRbits_of_live hlive hn, if_pos hin], fun i hi =>
      BitStream.readBits_getLsbD s.bs n.toNat hi⟩

/-- The range test of the stream is that of a mask over the same words (42_bitmask.md R181). -/
theorem BitStream.testRange_iff (b : BitStream) (start len : Nat) :
    b.testRange start len = true ↔ ∃ p, start ≤ p ∧ p < start + len ∧ b.getbit p = true :=
  Bitmask.has_iff ⟨0, b.mem⟩ start len

/-- Settles O30: each command is one comparison with the capacity; the test is `BitStream.testRange_iff`. -/
theorem streamReadsInPlace : Obligations.StreamReadsInPlace := by
  intro s hlive
  refine ⟨fun pos => ⟨fun hin => ?_, fun hout => ?_, fun hin => ?_, fun hout => ?_⟩,
    fun start len => ⟨fun hin => ?_, fun hout => ?_⟩⟩
  · rw [exec_bsRseek_of_live hlive, if_pos hin]
  · rw [exec_bsRseek_of_live hlive, if_neg (Nat.not_le.2 hout)]
  · rw [exec_bsRrbit_of_live hlive, if_pos hin, bitWord_eq_ite]
  · rw [exec_bsRrbit_of_live hlive, if_neg (Nat.not_lt.2 hout)]
  · exact ⟨s.bs.testRange start.toNat len.toNat, by rw [exec_bsTest_of_live hlive, if_pos hin, bitWord_eq_ite],
      BitStream.testRange_iff s.bs start.toNat len.toNat⟩
  · rw [exec_bsTest_of_live hlive, if_neg (Nat.not_le.2 hout)]

/-- Where one bit alone of a store is set, a range inside the store holds a set bit exactly if it holds that one (R161). -/
theorem exists_set_in_range_iff {bit : Nat → Bool} {start len size one : Nat} (hin : start + len ≤ size)
    (hone : ∀ i < size, bit i = true ↔ i = one) :
    (∃ i, start ≤ i ∧ i < start + len ∧ bit i = true) ↔ start ≤ one ∧ one < start + len := by
  constructor
  · rintro ⟨i, hge, hlt, hbit⟩
    obtain rfl := (hone i (by omega)).1 hbit
    exact ⟨hge, hlt⟩
  · rintro ⟨hge, hlt⟩
    exact ⟨one, hge, hlt, (hone one (by omega)).2 rfl⟩

theorem bitWord_of_iff {v : Bool} {p : Prop} [Decidable p] (h : v = true ↔ p) : bitWord v = if p then 1 else 0 := by
  rw [bitWord_eq_ite]; exact if_congr h rfl rfl

/-- Settles O36: both tests ask whether the range holds a set bit. -/
theorem oneBitRangeTest : Obligations.OneBitRangeTest := by
  intro start len one s hlive
  refine ⟨fun hin hone => ?_, fun hin hone => ?_⟩
  · rw [exec_bsTest_of_live hlive, if_pos hin,
      bitWord_of_iff ((BitStream.testRange_iff ..).trans (exists_set_in_range_iff hin hone))]
  · rw [exec_mkHas_of_live hlive, if_pos hin,
      bitWord_of_iff ((Bitmask.has_iff ..).trans (exists_set_in_range_iff hin hone))]

/-! ### Commits (R150, R151, R153, R155) -/

/-- Settles O27: the stream left is the committed one, whose `mem` holds the logical content. -/
theorem rewindCommits : Obligations.RewindCommits := fun _ hlive hwf =>
  ⟨_, exec_bsRewind_of_live hlive, rfl, rfl, rfl, BitStream.commit_cap, BitStream.commit_blen,
    BitStream.commit_mem_length, BitStream.getBitAt_commit hwf⟩

/-- Moving the write cursor makes the bits of its new word below it pending (R151). -/
theorem BitStream.seekWrite_wbuf_getLsbD {cfg : Params} {b : BitStream} (h : b.Wf cfg) (pos : Nat) {i : Nat} (hi : i < 64) :
    (b.seekWrite pos).wbuf.getLsbD i = (decide (i < pos % 64) && b.logical (64 * (pos / 64) + i)) := by
  show (bufferAt b.commit.mem pos).getLsbD i = _
  rw [bufferAt_getLsbD, BitStream.getBitAt_commit h, decide_eq_true hi, Bool.true_and]

/-- Settles O28: `BitStream.seekWrite_spec`, with the reloaded buffer read bit by bit. -/
theorem writeSeekKeepsContent : Obligations.WriteSeekKeepsContent := by
  intro pos s hlive hwf
  rw [exec_bsWseek_of_live hlive]
  refine ⟨fun hout => if_neg (Nat.not_le.2 hout), fun hin => ?_⟩
  obtain ⟨-, hcap, hwpos, hrpos, hblen, hbits, hcontent⟩ := BitStream.seekWrite_spec hwf hin
  exact ⟨_, if_pos hin, hwpos, hrpos, hcap, hblen, BitStream.commit_mem_length, hbits, hcontent,
    fun i hi => BitStream.seekWrite_wbuf_getLsbD hwf pos.toNat hi⟩

/-- Settles O29: `BitStream.flush_spec`. -/
theorem flushDeclaresLength : Obligations.FlushDeclaresLength := by
  intro s hlive hwf
  obtain ⟨-, hcap, hwpos, hrpos, hwbuf, hblen, hbits⟩ := BitStream.flush_spec hwf
  exact ⟨_, exec_bsFlush_of_live hlive, hblen, hwpos, hrpos, hwbuf, hcap, BitStream.commit_mem_length, hbits⟩

/-- Settles O31: `BitStream.randomWrite_spec`. -/
theorem randomWriteVisible : Obligations.RandomWriteVisible := by
  intro bit pos s hlive hwf
  rw [exec_bsRwbit_of_live hlive]
  refine ⟨fun hout => if_neg (Nat.not_lt.2 hout), fun hin => ?_⟩
  obtain ⟨hb, hcap, hwpos, hrpos, hblen, hbits, hcontent⟩ := BitStream.randomWrite_spec hwf hin bit
  exact ⟨_, if_pos hin, hb, hwpos, hrpos, hcap, hblen, hbits, hcontent⟩

/-! ### Packed streams (R157, R158) -/

/-- Each bit of the bytes a stream is packed into, the unused bits of the last one included (20_memory.md R74). -/
theorem readByte_writeBytes_packBytes {m : Memory} (hm : Memory.wf m = true) (a : Nat) (mem : List Word) {n p : Nat}
    (hp : p < 8 * ceilDiv n 8) :
    ((m.writeBytes a (packBytes mem n)).readByte (a + p / 8)).getLsbD (p % 8) = (decide (p < n) && getBitAt mem p) := by
  have hbyte : p / 8 < ceilDiv n 8 := by omega
  have hin : a ≤ a + p / 8 ∧ a + p / 8 < a + (packBytes mem n).length := by rw [packBytes_length]; omega
  rw [Memory.readByte_writeBytes hm, if_pos hin, Nat.add_sub_cancel_left, packBytes_getD mem n hbyte, packByte_getLsbD,
    Nat.div_add_mod, decide_eq_true (Nat.mod_lt p (by decide)), Bool.true_and]

/-- Settles O32: the flushed stream holds the logical content, and its packed bytes hold that stream's bits. -/
theorem getPacksBytes : Obligations.GetPacksBytes := by
  intro addr s hlive hwf hx
  refine ⟨exec_bsGet_of_outside hlive, fun hfit => ?_⟩
  obtain ⟨-, hcap, hwpos, hrpos, hwbuf, hblen, hbits⟩ := BitStream.flush_spec hwf
  refine ⟨_, _, exec_bsGet_of_fits hlive hfit, hblen, hwpos, hrpos, hwbuf, hcap, BitStream.commit_mem_length, hbits,
    fun p hp => ?_, fun a ha => ?_⟩
  · rw [← hbits]
    exact readByte_writeBytes_packBytes hx.1 addr.toNat s.bs.flush.mem hp
  · rw [Memory.readByte_writeBytes hx.1, packBytes_length, if_neg (by omega)]

/-- The capacity a parse needs is the one least doubling that holds the words (R158). -/
theorem parseCap_eq {cap nw j : Nat} (hcap : 1 ≤ cap) (hj : nw ≤ cap * 2 ^ j) (hleast : ∀ i < j, cap * 2 ^ i < nw) :
    parseCap cap nw = cap * 2 ^ j := by
  obtain ⟨k, hk, hholds, hkleast⟩ := parseCap_spec hcap nw
  have hkj : k ≤ j := Nat.not_lt.1 fun hlt => Nat.not_lt.2 hj (hkleast j hlt)
  have hjk : j ≤ k := Nat.not_lt.1 fun hlt => Nat.not_lt.2 hholds (hleast k hlt)
  rw [hk, Nat.le_antisymm hkj hjk]

/-- Settles O33: the capacity is `cap · 2^j` (`parseCap_eq`), and the content is that of `BitStream.parse_spec`. -/
theorem parseUnpacksBytes : Obligations.ParseUnpacksBytes := by
  intro addr bits s hlive hwf
  refine ⟨exec_bsParse_of_outside hlive, fun j hfit hholds hleast => ?_⟩
  have hcap := parseCap_eq hwf.capPos hholds hleast
  refine ⟨fun hmax => exec_bsParse_of_too_large hlive hfit (hcap ▸ hmax), fun hle => ?_⟩
  obtain ⟨hb, hbits⟩ := BitStream.parse_spec hwf ⟨j, rfl⟩ hle s.xb addr.toNat hholds
  have hwords := ceilDiv_mul_ge (show 0 < 64 by decide) bits.toNat
  refine ⟨_, by rw [exec_bsParse_of_fits hlive hfit (hcap ▸ hle), hcap], rfl, hb.memLen, rfl, rfl, rfl, rfl,
    fun p hp => ?_, fun p hp hword => ?_, fun p hp => ?_⟩
  · rw [hbits, if_pos (by omega), packedBit_of_lt hp]
  · rw [hbits, if_pos hword, packedBit, decide_eq_false (Nat.not_lt.2 hp), Bool.false_and]
  · rw [hbits, if_neg (Nat.not_lt.2 hp)]

/-! ### `ALLOC` (60_exceptions.md R344) -/

section FullStream

variable {s : State} (hw : s.bs.wpos = 64 * s.bs.cap) (hmax : s.cfg.maxWords < 2 * s.bs.cap)
include hw hmax

/-- Where the stream is full and cannot double, the next bit the encoder emits is the fatal fault (44_speck_engine.md
R243). -/
theorem codeBit_enc_of_full (hbudget : s.wl.nb ≠ s.wl.b.toNat) (d : State → Bool) :
    codeBit .enc d s = .stop .alloc s := by
  rw [codeBit, emit, if_neg hbudget, BitStream.put_of_full hw hmax]; rfl

/-- A bitplane that begins with no `LSP` entry and with element 0 in the mask codes a bit of that element first (R244 to
R247). -/
theorem plane_enc_of_full (hbudget : s.wl.nb ≠ s.wl.b.toNat) (hlsp : s.wl.lsp = []) (hn : 1 ≤ s.cm.n)
    (hlip : s.lip.rbit 0 = true) (p : Nat) : plane .enc p s = .stop .alloc (s.setPlane p) := by
  have hrefine : refinementPass .enc (s.setPlane p) = .done () (s.setPlane p) := by
    rw [refinementPass, State.setPlane_wl, hlsp]; rfl
  have hpixel : processPixel .enc true 0 (s.setPlane p) = .stop .alloc (s.setPlane p) := by
    rw [processPixel, codeBit_enc_of_full (s := s.setPlane p) hw hmax hbudget]; rfl
  have hpass : lipPass .enc (s.setPlane p) = .stop .alloc (s.setPlane p) := by
    obtain ⟨k, hk⟩ := Nat.exists_eq_add_of_le' hn
    rw [lipPass, State.setPlane_cm, hk, List.range_succ_eq_map, forEach, State.setPlane_lip, if_pos hlip, hpixel]; rfl
  rw [plane, hrefine, Run.andThen, hpass]; rfl

/-- An encode that may write a bit and has an element to code then ends with `ALLOC` (R242, R257). -/
theorem speckRun_enc_of_full {budget : Word} (hbudget : budget ≠ 0) (hn : 1 ≤ s.cm.n) (maxbits : Nat) :
    ∃ nb u, speckRun .enc budget maxbits s = (.alloc, nb, u) := by
  have hzero : 0 ≠ budget.toNat := (BitVec.toNat_ne.1 hbudget).symm
  have hmask : ((s.lip.resize 0).resize s.cm.n).Wf s.cm.n :=
    Bitmask.wf_resize (s.lip.resize_zero ▸ Bitmask.wf_empty _) (Nat.le_refl _)
  have hsize : 0 < ((s.lip.resize 0).resize s.cm.n).n := by
    rw [s.lip.resize_zero, (Bitmask.resize_spec (Bitmask.wf_empty 0) s.cm.n).1]; exact hn
  have hlip : (speckInit .enc budget s).lip.rbit 0 = true := by
    rw [speckInit, Bitmask.rbit_wbit hmask hsize, if_pos rfl]
  have hplane := plane_enc_of_full (s := speckInit .enc budget s) hw hmax hzero rfl hn hlip maxbits
  refine ⟨0, (speckInit .enc budget s).setPlane maxbits, ?_⟩
  rw [speckRun, planes, hplane, Run.andThen]
  exact if_pos rfl

end FullStream

section LiveAlloc

variable {s : State} (h : s.st.faulted = false)
include h

theorem exec_spkEnc_of_full (hw : s.bs.wpos = 64 * s.bs.cap) (hmax : s.cfg.maxWords < 2 * s.bs.cap) (hn : 1 ≤ s.cm.n)
    {budget : Word} (hbudget : budget ≠ 0) : ∃ t, exec (.spkEnc budget) s = .next t ∧ t.endedWith .alloc := by
  obtain ⟨nb, u, hrun⟩ := speckRun_enc_of_full hw hmax hbudget hn s.cm.maxbits
  refine ⟨_, ?_, (State.endedWith_finish u .alloc (BitVec.ofNat 64 nb) (BitVec.ofNat 64 s.cm.maxbits)).2 rfl⟩
  rw [exec, execSpkEnc, unlessFaulted_of_live h, if_neg (by omega)]
  simp only [hrun]
  rfl

theorem exec_mkResize_of_too_large {size : Word} (hsize : s.cfg.mkMaxBits < size.toNat) :
    exec (.mkResize size) s = .next (s.finish .alloc 0 0) := by
  rw [exec, execMkResize, unlessFaulted_of_live h]
  exact if_neg (Nat.not_le.2 hsize)

theorem exec_cmShape_of_too_large {n0 n1 n2 : Word} (h0 : n0 ≠ 0) (h1 : n1 ≠ 0) (h2 : n2 ≠ 0)
    (hsize : s.cfg.maxElems < n0.toNat * n1.toNat * n2.toNat) :
    exec (.cmShape 3 n0 n1 n2) s = .next (s.finish .alloc 0 0) := by
  have hnone : ¬ (n0.toNat = 0 ∨ n1.toNat = 0 ∨ n2.toNat = 0) := by
    rintro (hz | hz | hz)
    · exact BitVec.toNat_ne.1 h0 hz
    · exact BitVec.toNat_ne.1 h1 hz
    · exact BitVec.toNat_ne.1 h2 hz
  rw [exec, execCmShape, unlessFaulted_of_live h]
  exact (if_neg hnone).trans (if_neg (Nat.not_le.2 hsize))

theorem exec_outEnc_of_too_long {addr count len : Word} (halign : addr.toNat % 8 = 0)
    (hfit : addr.toNat + 16 * count.toNat ≤ s.cfg.xbBytes) (htol : s.oc.tolv = true) (hlen : s.cfg.maxElems < len.toNat) :
    exec (.outEnc addr count len) s = .next (s.finish .alloc 0 0) := by
  have hcheck : outEncCheck addr count len s = some .alloc := by
    have hpos : len.toNat ≠ 0 := by omega
    simp [outEncCheck, aligned8, State.xbHolds, halign, hfit, htol, hpos, hlen]
  rw [exec, execOutEnc, unlessFaulted_of_live h, hcheck]; rfl

theorem exec_outDec_of_too_long {maxbits wsel : Byte} {addr len : Word} (hmaxbits : maxbits.toNat ≤ 63)
    (hwsel : wsel.toNat ≤ 3) (halign : addr.toNat % 8 = 0) (hfit : addr.toNat ≤ s.cfg.xbBytes) (htol : s.oc.tolv = true)
    (hlen : s.cfg.maxElems < len.toNat) : exec (.outDec maxbits wsel addr len) s = .next (s.finish .alloc 0 0) := by
  have hcheck : outDecCheck maxbits wsel addr len s = some .alloc := by
    have hpos : len.toNat ≠ 0 := by omega
    have hlegal : (maxbits.toNat > 63 || wsel.toNat > 3) = false := by simp [hmaxbits, hwsel]
    simp [outDecCheck, aligned8, State.xbHolds, hlegal, halign, hfit, htol, hpos, hlen]
  rw [exec, execOutDec, unlessFaulted_of_live h, hcheck]; rfl

end LiveAlloc

/-- Settles O16: each command checks its own limit; an encode meets the stream's with the first bit it emits. -/
theorem allocRaised : Obligations.AllocRaised := by
  intro s hlive
  refine ⟨fun bit hw hmax => ?_, fun n value hn hw hcross hmax => ?_,
    fun budget hw hmax hn => exec_spkEnc_of_full hlive hw hmax hn,
    fun addr bits hfit hcap hmax => ?_, fun size => exec_mkResize_of_too_large hlive,
    fun n0 n1 n2 => exec_cmShape_of_too_large hlive, fun addr count len => exec_outEnc_of_too_long hlive,
    fun maxbits wsel addr len => exec_outDec_of_too_long hlive⟩
  · rw [exec_bsWbit_of_live hlive, BitStream.put_of_full hw hmax]; rfl
  · rw [exec_bsWbits_of_live hlive hn, BitStream.putAll_of_crosses hw (by rw [lowBits_length]; exact hcross) hmax]; rfl
  · obtain ⟨j, hj, hholds, -⟩ := parseCap_spec hcap (ceilDiv bits.toNat 64)
    exact exec_bsParse_of_too_large hlive hfit (hj ▸ hmax j hholds)

end Sys2Proof.Machine

/-! SUPPORT. The statements of 42_bitmask.md. Each command on `MK` has one equation in a live CORE; what its new mask holds is
read off the laws of the mask's operations (Laws/Mask), and the two copies through `XB` off the laws of word stores. -/

namespace Sys2Proof.Machine

/-! ### The mask's commands in a live CORE -/

/-- What `MK_USE` at address `a` makes of the mask: words of `XB` in place of its own, and the same size (R192). -/
def Bitmask.load (x : Bitmask) (m : Memory) (a : Nat) : Bitmask := { n := x.n, mw := m.readWords a (maskWords x.n) }

section LiveMask

variable {s : State} (h : s.st.faulted = false)
include h

theorem exec_mkResize_of_fits {size : Word} (hsize : size.toNat ≤ s.cfg.mkMaxBits) :
    exec (.mkResize size) s = .next ({ s with mask := s.mask.resize size.toNat }.finish .ok 0 0) := by
  rw [exec, execMkResize, unlessFaulted_of_live h]
  exact if_pos hsize

theorem exec_mkReset_of_live : exec .mkReset s = .next ({ s with mask := s.mask.clear }.finish .ok 0 0) := by
  rw [exec, execMkReset, unlessFaulted_of_live h]; rfl

theorem exec_mkRbit_of_live (idx : Word) : exec (.mkRbit idx) s =
    if idx.toNat < s.mask.n then .next (s.finish .ok (bitWord (s.mask.rbit idx.toNat)) 0)
    else .next (s.finish .range 0 0) := by
  rw [exec, execMkRbit, unlessFaulted_of_live h]; rfl

/-- The three writes of one bit are `writeMaskBit` of the bit each writes (R186 to R188). -/
theorem exec_maskBitWrite_of_live {i : Instr} {v : Bool} {idx : Word}
    (hi : i = .mkWbit v idx ∨ (i = .mkWtrue idx ∧ v = true) ∨ (i = .mkWfalse idx ∧ v = false)) :
    exec i s = writeMaskBit v idx s := by
  obtain rfl | ⟨rfl, rfl⟩ | ⟨rfl, rfl⟩ := hi
  · rw [exec, execMkWbit, unlessFaulted_of_live h]
  · rw [exec, execMkWtrue, unlessFaulted_of_live h]
  · rw [exec, execMkWfalse, unlessFaulted_of_live h]

theorem exec_mkCount_of_live : exec .mkCount s = .next (s.finish .ok (BitVec.ofNat 64 s.mask.count) 0) := by
  rw [exec, execMkCount, unlessFaulted_of_live h]; rfl

theorem exec_mkView_of_live (addr : Word) : exec (.mkView addr) s =
    if addr.toNat % 8 ≠ 0 then .next (s.finish .align 0 0)
    else if addr.toNat + 8 * maskWords s.mask.n ≤ s.cfg.xbBytes then
      .next ({ s with xb := s.xb.writeWords addr.toNat (s.mask.mw.take (maskWords s.mask.n)) }.finish
        .ok (BitVec.ofNat 64 (maskWords s.mask.n)) 0)
    else .next (s.finish .range 0 0) := by
  rw [exec, execMkView, unlessFaulted_of_live h]
  simp [aligned8, State.xbHolds, finishOk_eq, raise_eq]

theorem exec_mkUse_of_live (addr : Word) : exec (.mkUse addr) s =
    if addr.toNat % 8 ≠ 0 then .next (s.finish .align 0 0)
    else if addr.toNat + 8 * maskWords s.mask.n ≤ s.cfg.xbBytes then
      .next ({ s with mask := s.mask.load s.xb addr.toNat }.finish .ok (BitVec.ofNat 64 (maskWords s.mask.n)) 0)
    else .next (s.finish .range 0 0) := by
  rw [exec, execMkUse, unlessFaulted_of_live h]
  simp [aligned8, State.xbHolds, finishOk_eq, raise_eq, Bitmask.load]

/-- A `MK_VIEW` that fits writes all of a well-formed mask's words (R191). -/
theorem exec_mkView_of_fits {addr : Word} (hwf : s.mask.Wf s.cfg.mkMaxBits) (halign : addr.toNat % 8 = 0)
    (hfit : addr.toNat + 8 * maskWords s.mask.n ≤ s.cfg.xbBytes) :
    exec (.mkView addr) s = .next ({ s with xb := s.xb.writeWords addr.toNat s.mask.mw }.finish
      .ok (BitVec.ofNat 64 (maskWords s.mask.n)) 0) := by
  rw [exec_mkView_of_live h, if_neg (not_not_intro halign), if_pos hfit, List.take_of_length_le hwf.wordsLen.le]

theorem exec_mkUse_of_fits {addr : Word} (halign : addr.toNat % 8 = 0)
    (hfit : addr.toNat + 8 * maskWords s.mask.n ≤ s.cfg.xbBytes) :
    exec (.mkUse addr) s =
      .next ({ s with mask := s.mask.load s.xb addr.toNat }.finish .ok (BitVec.ofNat 64 (maskWords s.mask.n)) 0) := by
  rw [exec_mkUse_of_live h, if_neg (not_not_intro halign), if_pos hfit]

end LiveMask

/-! ### Size, single bits and reset (R183, R184, R186 to R188) -/

/-- Settles O37: the size decides, and `Bitmask.resize_spec` says what the resized mask holds. -/
theorem resizeZeroExtends : Obligations.ResizeZeroExtends := fun size s hlive hwf =>
  ⟨exec_mkResize_of_too_large hlive, fun hsize =>
    ⟨s.mask.resize size.toNat, exec_mkResize_of_fits hlive hsize, Bitmask.resize_spec hwf size.toNat⟩⟩

/-- Settles O38: the three commands share `writeMaskBit`, and `Bitmask.rbit_wbit` says that it changes one bit. -/
theorem maskBitWrites : Obligations.MaskBitWrites := by
  intro i v idx s hlive hwf hi
  rw [exec_maskBitWrite_of_live hlive hi]
  exact ⟨fun hout => if_neg (Nat.not_lt.2 hout), fun hin =>
    ⟨s.mask.wbit idx.toNat v, if_pos hin, rfl, setBitAt_length .., Bitmask.rbit_wbit hwf hin v⟩⟩

/-- Settles O40: `MK_RESET` stores the cleared mask. -/
theorem maskResetClears : Obligations.MaskResetClears := fun s hlive =>
  ⟨s.mask.clear, exec_mkReset_of_live hlive, rfl, List.length_map .., Bitmask.rbit_clear s.mask⟩

/-! ### Reads (R185, R189, R190) -/

/-- The count is the number of indices below the size whose bit is set (R181). -/
theorem Bitmask.count_eq_card (x : Bitmask) :
    x.count = ((Finset.range x.n).filter fun i => x.rbit i = true).card := by
  rw [Bitmask.count, ← List.toFinset_range, ← List.toFinset_filter,
    List.toFinset_card_of_nodup (List.nodup_range.filter _)]

/-- Settles O39: each read answers its function of the mask, whose meaning over the bits is `Bitmask.count_eq_card` and
`Bitmask.has_iff`. -/
theorem maskReads : Obligations.MaskReads := by
  intro s hlive
  refine ⟨fun idx => ⟨fun hin => ?_, fun hout => ?_⟩, ?_, fun start len => ⟨fun hin => ?_, fun hout => ?_⟩⟩
  · rw [exec_mkRbit_of_live hlive, if_pos hin, bitWord_eq_ite]
  · rw [exec_mkRbit_of_live hlive, if_neg (Nat.not_lt.2 hout)]
  · rw [exec_mkCount_of_live hlive, Bitmask.count_eq_card]
  · refine ⟨s.mask.has start.toNat len.toNat, ?_, Bitmask.has_iff ..⟩
    rw [exec_mkHas_of_live hlive, if_pos hin, bitWord_eq_ite]
  · rw [exec_mkHas_of_live hlive, if_neg (Nat.not_le.2 hout)]

/-! ### Word stores in `XB`, bit by bit (20_memory.md R73, R75) -/

/-- Bit `i` of words written at `a` stands in byte `a + i div 8`, at bit `i mod 8`. -/
theorem Memory.getLsbD_readByte_writeWords {m : Memory} (hm : Memory.wf m = true) (a : Nat) (vs : List Word) {i : Nat}
    (hi : i < 64 * vs.length) :
    ((m.writeWords a vs).readByte (a + i / 8)).getLsbD (i % 8) = getBitAt vs i := by
  have hword : i / 8 / 8 = i / 64 := Nat.div_div_eq_div_mul i 8 8
  have hbit : 8 * (i / 8 % 8) + i % 8 = i % 64 := by omega
  have hlt : i % 8 < 8 := Nat.mod_lt i (by decide)
  rw [Memory.readByte_writeWords hm, if_pos (by omega), Nat.add_sub_cancel_left, wordByte_getLsbD, hword, hbit,
    decide_eq_true hlt, Bool.true_and, getBitAt]

@[simp] theorem Memory.readWords_length (m : Memory) (a k : Nat) : (m.readWords a k).length = k := by
  simp [Memory.readWords]

/-- Bit `i` of the words read from `a` is bit `i mod 8` of byte `a + i div 8`. -/
theorem Memory.getBitAt_readWords (m : Memory) (a : Nat) {k i : Nat} (hi : i < 64 * k) :
    getBitAt (m.readWords a k) i = (m.readByte (a + i / 8)).getLsbD (i % 8) := by
  have hword : i / 64 < k := Nat.div_lt_of_lt_mul hi
  have hbyte : a + 8 * (i / 64) + i % 64 / 8 = a + i / 8 := by omega
  have hbit : i % 64 % 8 = i % 8 := by omega
  have hlt : i % 64 < 64 := Nat.mod_lt i (by decide)
  have hget : (m.readWords a k).getD (i / 64) 0 = m.readWord (a + 8 * (i / 64)) := by
    simp [Memory.readWords, List.getD_eq_getElem?_getD, hword]
  rw [getBitAt, hget, Memory.readWord_getLsbD, hbyte, hbit, decide_eq_true hlt, Bool.true_and]

/-- Words written at consecutive slots read back. -/
theorem Memory.readWords_writeWords {m : Memory} (hm : Memory.wf m = true) (a : Nat) (vs : List Word) :
    (m.writeWords a vs).readWords a vs.length = vs := by
  apply List.ext_getElem (Memory.readWords_length ..)
  intro j _ hj
  simp [Memory.readWords, Memory.readWord_writeWords hm a vs hj, List.getD_eq_getElem?_getD, hj]

/-- A mask loaded from where its words were written is that mask, even into one whose words changed meanwhile. -/
theorem Bitmask.load_writeWords {x y : Bitmask} {max : Nat} (hx : x.Wf max) (hy : y.n = x.n) {m : Memory}
    (hm : Memory.wf m = true) (a : Nat) : y.load (m.writeWords a x.mw) a = x := by
  rw [Bitmask.load, hy, ← hx.wordsLen, Memory.readWords_writeWords hm]

/-! ### The mask in `XB` (R191, R192) -/

/-- Settles O41: the words of a well-formed mask are all written, and a byte outside them is not. -/
theorem maskViewCopiesOut : Obligations.MaskViewCopiesOut := by
  intro addr s hlive hwf hx
  have hlen : s.mask.mw.length = ceilDiv s.mask.n 64 := hwf.wordsLen
  refine ⟨fun halign => ?_, fun halign hout => ?_, fun halign hfit =>
    ⟨s.xb.writeWords addr.toNat s.mask.mw, exec_mkView_of_fits hlive hwf halign hfit, fun i hi => ?_, fun a ha => ?_⟩⟩
  · rw [exec_mkView_of_live hlive, if_pos halign]
  · rw [exec_mkView_of_live hlive, if_neg (not_not_intro halign)]
    exact if_neg (Nat.not_le.2 hout)
  · exact Memory.getLsbD_readByte_writeWords hx.1 addr.toNat s.mask.mw (hlen ▸ hi)
  · rw [Memory.readByte_writeWords hx.1, hlen, if_neg (by omega)]

/-- What a `MK_VIEW` that fits leaves to the next command (R191). -/
theorem exec_mkView_leaves {addr : Word} {s : State} (hlive : s.st.faulted = false) (hwf : s.mask.Wf s.cfg.mkMaxBits)
    (halign : addr.toNat % 8 = 0) (hfit : addr.toNat + 8 * maskWords s.mask.n ≤ s.cfg.xbBytes) :
    ∃ t, exec (.mkView addr) s = .next t ∧ t.st.faulted = false ∧ t.cfg = s.cfg ∧ t.mask = s.mask ∧
      t.xb = s.xb.writeWords addr.toNat s.mask.mw :=
  ⟨_, exec_mkView_of_fits hlive hwf halign hfit,
    State.finish_ok_live (s := { s with xb := s.xb.writeWords addr.toNat s.mask.mw }) hlive _ _, State.finish_cfg ..,
    State.finish_mask _ _ _ _ (by decide), State.finish_xb ..⟩

/-- What `MK_RESET` leaves to the next command (R184). -/
theorem exec_mkReset_leaves {s : State} (hlive : s.st.faulted = false) :
    ∃ t, exec .mkReset s = .next t ∧ t.st.faulted = false ∧ t.cfg = s.cfg ∧ t.mask = s.mask.clear ∧ t.xb = s.xb :=
  ⟨_, exec_mkReset_of_live hlive, State.finish_ok_live (s := { s with mask := s.mask.clear }) hlive _ _,
    State.finish_cfg .., State.finish_mask _ _ _ _ (by decide), State.finish_xb ..⟩

/-- What a `MK_USE` that fits leaves to the next command (R192). -/
theorem exec_mkUse_leaves {addr : Word} {s : State} (hlive : s.st.faulted = false) (halign : addr.toNat % 8 = 0)
    (hfit : addr.toNat + 8 * maskWords s.mask.n ≤ s.cfg.xbBytes) :
    ∃ t, exec (.mkUse addr) s = .next t ∧ t.st.faulted = false ∧
      t.mask = s.mask.load s.xb addr.toNat :=
  ⟨_, exec_mkUse_of_fits hlive halign hfit,
    State.finish_ok_live (s := { s with mask := s.mask.load s.xb addr.toNat }) hlive _ _, State.finish_mask _ _ _ _ (by decide)⟩

/-- `MK_VIEW` saves a mask: `MK_USE` of the same address restores it after `MK_RESET` (R192), which keeps the size and with
it the number of words loaded. -/
theorem runCommands_view_reset_use {addr : Word} {s : State} (hlive : s.st.faulted = false)
    (hwf : s.mask.Wf s.cfg.mkMaxBits) (hx : s.xb.Within s.cfg.xbBytes) (halign : addr.toNat % 8 = 0)
    (hfit : addr.toNat + 8 * maskWords s.mask.n ≤ s.cfg.xbBytes) :
    ∃ t, runCommands [.mkView addr, .mkReset, .mkUse addr] s = .next t ∧ t.st.faulted = false ∧ t.mask = s.mask := by
  obtain ⟨viewed, hview, hliveV, hcfgV, hmaskV, hxbV⟩ := exec_mkView_leaves hlive hwf halign hfit
  obtain ⟨cleared, hreset, hliveR, hcfgR, hmaskR, hxbR⟩ := exec_mkReset_leaves hliveV
  rw [hcfgV] at hcfgR
  rw [hmaskV] at hmaskR
  rw [hxbV] at hxbR
  obtain ⟨t, huse, hlive', hmask⟩ := exec_mkUse_leaves hliveR halign (by rw [hmaskR, hcfgR]; exact hfit)
  refine ⟨t, (runCommands_cons hview).trans ((runCommands_cons hreset).trans (runCommands_cons huse)), hlive', ?_⟩
  rw [hmask, hmaskR, hxbR]
  exact Bitmask.load_writeWords hwf (Bitmask.clear_n _) hx.1 addr.toNat

/-- Settles O42: the loaded words hold the bytes' bits, and words that `MK_VIEW` wrote read back. -/
theorem maskUseCopiesIn : Obligations.MaskUseCopiesIn := by
  intro addr s hlive
  refine ⟨fun halign => ?_, fun halign hout => ?_, fun halign hfit =>
    ⟨⟨_, exec_mkUse_of_fits hlive halign hfit, rfl, Memory.readWords_length .., fun i hi =>
      Memory.getBitAt_readWords s.xb addr.toNat hi⟩, fun hwf hx => runCommands_view_reset_use hlive hwf hx halign hfit⟩⟩
  · rw [exec_mkUse_of_live hlive, if_pos halign]
  · rw [exec_mkUse_of_live hlive, if_neg (not_not_intro halign)]
    exact if_neg (Nat.not_le.2 hout)

end Sys2Proof.Machine

/-! SUPPORT. The statements of 43_coefficient_memory_and_sets.md. The commands on `CM` have one equation each in a live CORE; the
splits rest on the one candidate offspring that can hold a point, its octant's (`candidate_holds_iff_octant`). -/

namespace Sys2Proof.Machine

/-! ### The array's commands (R210, R214, R215) -/

section LiveArray

variable {s : State} (h : s.st.faulted = false)
include h

theorem exec_cmShape_of_legal {d : Byte} {n0 n1 n2 : Word} (hd : legalDim d = true)
    (hunused : unusedExtentsZero d n1 n2 = true) : exec (.cmShape d n0 n1 n2) s =
      let ext := shapeExtents d.toNat n0 n1 n2
      if ext.x = 0 ∨ ext.y = 0 ∨ ext.z = 0 then .next (s.finish .arg 0 0)
      else if ext.volume ≤ s.cfg.maxElems then
        .next ({ s with cm := .shaped d.toNat ext }.finish .ok (BitVec.ofNat 64 ext.volume) 0)
      else .next (s.finish .alloc 0 0) := by
  rw [exec, execCmShape, unlessFaulted_of_live h]
  simp only [hd, hunused, Bool.not_true, Bool.false_eq_true, if_false]
  rfl

theorem exec_cmSt_of_live (sign : Bool) (idx mag : Word) : exec (.cmSt sign idx mag) s =
    if idx.toNat < s.cm.n then .next (((s.setMag idx.toNat mag).setSgn idx.toNat sign).finish .ok 0 0)
    else .next (s.finish .range 0 0) := by
  rw [exec, execCmSt, unlessFaulted_of_live h]; rfl

theorem exec_cmLd_of_live (idx : Word) : exec (.cmLd idx) s =
    if idx.toNat < s.cm.n then
      .next (s.finish .ok (s.cm.mag.getD idx.toNat 0) (bitWord (s.cm.sgn.getD idx.toNat true)))
    else .next (s.finish .range 0 0) := by
  rw [exec, execCmLd, unlessFaulted_of_live h]; rfl

end LiveArray

/-- A shape is legal exactly where its command holds no reserved value (R210; 30_encoding.md R108). -/
theorem cmShape_wellFormed_iff (d : Byte) (n0 n1 n2 : Word) : (Instr.cmShape d n0 n1 n2).wellFormed = true ↔
    (1 ≤ d.toNat ∧ d.toNat ≤ 3) ∧ (d.toNat < 2 → n1 = 0) ∧ (d.toNat < 3 → n2 = 0) := by
  simp only [Instr.wellFormed, legalDim, unusedExtentsZero, Bool.and_eq_true, Bool.or_eq_true, decide_eq_true_eq,
    beq_iff_eq, ← Nat.not_le, imp_iff_not_or, not_not]

/-- Every element of a fresh array is a positive 0 (10_state.md R36). -/
theorem CoefMem.shaped_getElem? {d : Nat} {ext : Tri} {idx : Nat} (h : idx < (CoefMem.shaped d ext).n) :
    (CoefMem.shaped d ext).mag[idx]? = some 0 ∧ (CoefMem.shaped d ext).sgn[idx]? = some true :=
  ⟨List.getElem?_replicate_of_lt h, List.getElem?_replicate_of_lt h⟩

/-- Settles O43: a reserved value is refused first (`exec_of_illFormed`), then the extents decide. -/
theorem shapeClearsArray : Obligations.ShapeClearsArray := by
  intro d n0 n1 n2 s hlive e1 e2 legal
  have hext : shapeExtents d.toNat n0 n1 n2 = ⟨n0.toNat, e1, e2⟩ := rfl
  have hlegal : legal ↔ (Instr.cmShape d n0 n1 n2).wellFormed = true := (cmShape_wellFormed_iff d n0 n1 n2).symm
  have hexec := fun hl : legal => exec_cmShape_of_legal (n0 := n0) hlive (Bool.and_eq_true_iff.1 (hlegal.1 hl)).1
    (Bool.and_eq_true_iff.1 (hlegal.1 hl)).2
  simp only [hext, Tri.volume] at hexec
  refine ⟨fun hl => exec_of_illFormed hlive (Bool.eq_false_iff.2 fun hw => hl (hlegal.2 hw)),
    fun hl hzero => ?_, fun hl h0 h1 h2 hsize => ?_, fun hl h0 h1 h2 hsize => ?_⟩
  · rw [hexec hl, if_pos hzero]
  · rw [hexec hl, if_neg (by omega), if_neg (Nat.not_le.2 hsize)]
  · refine ⟨.shaped d.toNat ⟨n0.toNat, e1, e2⟩, ?_, rfl, rfl, rfl, List.length_replicate, List.length_replicate,
      fun idx hi => CoefMem.shaped_getElem? hi⟩
    rw [hexec hl, if_neg (by omega), if_pos hsize]

/-- Settles O44: the index decides, and a list's element set at an index is that element alone. -/
theorem coefficientStoreLoad : Obligations.CoefficientStoreLoad := by
  intro idx s hlive hcm
  refine ⟨fun hout => ?_, fun hin => ⟨?_, fun sign mag => ?_⟩⟩
  · exact ⟨by rw [exec_cmLd_of_live hlive, if_neg (Nat.not_lt.2 hout)],
      fun sign mag => by rw [exec_cmSt_of_live hlive, if_neg (Nat.not_lt.2 hout)]⟩
  · have hmag : idx.toNat < s.cm.mag.length := hcm.magLen ▸ hin
    have hsgn : idx.toNat < s.cm.sgn.length := hcm.sgnLen ▸ hin
    refine ⟨s.cm.mag[idx.toNat], s.cm.sgn[idx.toNat], List.getElem?_eq_getElem hmag, List.getElem?_eq_getElem hsgn, ?_⟩
    rw [exec_cmLd_of_live hlive, if_pos hin, bitWord_eq_ite, List.getD_eq_getElem _ _ hmag, List.getD_eq_getElem _ _ hsgn]
  · refine ⟨{ s.cm with mag := s.cm.mag.set idx.toNat mag, sgn := s.cm.sgn.set idx.toNat sign }, ?_, rfl, rfl,
      List.length_set, List.length_set, List.getElem?_set_self (hcm.magLen ▸ hin),
      List.getElem?_set_self (hcm.sgnLen ▸ hin), fun j hj =>
        ⟨List.getElem?_set_ne hj.symm, List.getElem?_set_ne hj.symm⟩⟩
    rw [exec_cmSt_of_live hlive, if_pos hin]
    rfl

/-! ### The octant of a point (R217, R221) -/

/-- The number of the candidate offspring in which a point of the box lies: bit `i` says whether the point is past the first
part in dimension `i`. -/
def octant (o h t : Tri) : Nat :=
  (decide (o.x + h.x ≤ t.x)).toNat + 2 * (decide (o.y + h.y ≤ t.y)).toNat + 4 * (decide (o.z + h.z ≤ t.z)).toNat

/-- A number below 8 is known by its bits 0, 1, 2. -/
theorem eq_of_three_bits_iff : ∀ b < 8, ∀ x y z : Bool, b = x.toNat + 2 * y.toNat + 4 * z.toNat ↔
    b.testBit 0 = x ∧ b.testBit 1 = y ∧ b.testBit 2 = z := by decide

/-- Of the candidate offspring, only the one of its octant holds a point, and it does so if the box does. -/
theorem candidate_holds_iff_octant {o h e : Tri} (hle : h.x ≤ e.x ∧ h.y ≤ e.y ∧ h.z ≤ e.z) (level : Nat) {b : Nat}
    (hb : b < 8) (t : Tri) :
    (candidate o h e level b).holds t = true ↔ (CoefSet.mk o e level).holds t = true ∧ b = octant o h t := by
  rw [candidate_holds_iff o h e level b hle.1 hle.2.1 hle.2.2, CoefSet.holds_iff, octant, eq_of_three_bits_iff b hb]
  tauto

/-- Among the kept candidates of different numbers, the one of its octant holds a point of the box, if it is one of them. -/
theorem length_holding_candidates {o h e : Tri} (hle : h.x ≤ e.x ∧ h.y ≤ e.y ∧ h.z ≤ e.z) (level : Nat) {bs : List Nat}
    (hbs : ∀ b ∈ bs, b < 8) (hnodup : bs.Nodup) (t : Tri) :
    (((bs.map (candidate o h e level)).filter CoefSet.nonEmpty).filter fun q => q.holds t).length =
      if (CoefSet.mk o e level).holds t = true ∧ octant o h t ∈ bs then 1 else 0 := by
  have hkept : ∀ q : CoefSet, (q.holds t && q.nonEmpty) = q.holds t := fun q => by
    cases hq : q.holds t with
    | false => rfl
    | true => exact CoefSet.nonEmpty_of_holds hq
  rw [List.filter_filter]
  simp only [hkept]
  rw [← List.countP_eq_length_filter, List.countP_map]
  by_cases hin : (CoefSet.mk o e level).holds t = true
  · have hone : ∀ b ∈ bs, ((CoefSet.holds · t) ∘ candidate o h e level) b = true ↔ (b == octant o h t) = true := by
      intro b hb
      rw [Function.comp_apply, candidate_holds_iff_octant hle level (hbs b hb), beq_iff_eq]
      exact and_iff_right hin
    rw [List.countP_congr hone, ← List.count_eq_countP, hnodup.count]
    simp only [hin, true_and]
  · rw [if_neg fun hc => hin hc.1, List.countP_eq_zero]
    intro b hb hc
    exact hin ((candidate_holds_iff_octant hle level (hbs b hb) t).1 hc).1

theorem octant_lt (o h t : Tri) : octant o h t < 8 := by
  have hx := (decide (o.x + h.x ≤ t.x)).toNat_le
  have hy := (decide (o.y + h.y ≤ t.y)).toNat_le
  have hz := (decide (o.z + h.z ≤ t.z)).toNat_le
  rw [octant]
  omega

/-- A point is in octant 0 where it lies in the first part in every dimension. -/
theorem octant_eq_zero_iff (o h t : Tri) :
    octant o h t = 0 ↔ t.x < o.x + h.x ∧ t.y < o.y + h.y ∧ t.z < o.z + h.z := by
  simp only [octant, Nat.add_eq_zero_iff, mul_eq_zero, Bool.toNat_eq_zero, decide_eq_false_iff_not, Nat.not_le]
  simp [and_assoc]

/-! ### Splits (R216, R217, R221, R222) -/

/-- A dimension of an offspring is empty only where it is the rest of a dimension of length 1. -/
theorem one_le_partOf_iff {e : Nat} (he : 1 ≤ e) (bit : Bool) (o : Nat) :
    1 ≤ (partOf bit o (halfUp e) e).2 ↔ (!bit || decide (1 < e)) = true := by
  cases bit with
  | false => simp [partOf, halfUp_pos he]
  | true =>
    have := sub_halfUp_eq_zero_iff e
    simp only [partOf, if_true, Bool.not_true, Bool.false_or, decide_eq_true_eq]
    omega

/-- How many of the numbers below 8 have no bit set but where they may. -/
theorem countP_bits_within (x y z : Bool) :
    [0, 1, 2, 3, 4, 5, 6, 7].countP (fun b : Nat => (!b.testBit 0 || x) && (!b.testBit 1 || y) && (!b.testBit 2 || z)) =
      (if x then 2 else 1) * (if y then 2 else 1) * (if z then 2 else 1) := by
  cases x <;> cases y <;> cases z <;> rfl

/-- A split keeps an offspring for each choice of a half in the dimensions longer than 1 (R217). -/
theorem length_splitS {set : CoefSet} (hset : set.nonEmpty = true) : (splitS set).length =
    (if 1 < set.extent.x then 2 else 1) * (if 1 < set.extent.y then 2 else 1) * (if 1 < set.extent.z then 2 else 1) := by
  obtain ⟨hx, hy, hz⟩ := (CoefSet.nonEmpty_iff set).1 hset
  have hkept : ∀ b : Nat, (CoefSet.nonEmpty ∘ candidate set.origin (set.extent.map halfUp) set.extent (set.level + 1)) b =
      ((!b.testBit 0 || decide (1 < set.extent.x)) && (!b.testBit 1 || decide (1 < set.extent.y)) &&
        (!b.testBit 2 || decide (1 < set.extent.z))) := fun b => by
    rw [Bool.eq_iff_iff, Function.comp_apply, CoefSet.nonEmpty_iff, Bool.and_eq_true, Bool.and_eq_true,
      ← one_le_partOf_iff hx _ set.origin.x, ← one_le_partOf_iff hy _ set.origin.y, ← one_le_partOf_iff hz _ set.origin.z,
      and_assoc]
    rfl
  rw [splitS, ← List.countP_eq_length_filter, List.countP_map, funext hkept, countP_bits_within]
  simp only [decide_eq_true_eq]

/-- Settles O45: every octant has its candidate, so the one of a point's octant holds it (`length_holding_candidates`). -/
theorem splitSPartitions : Obligations.SplitSPartitions := by
  intro set hx hy hz
  refine ⟨fun t => ?_, fun o ho => ?_, length_splitS ((CoefSet.nonEmpty_iff set).2 ⟨hx, hy, hz⟩)⟩
  · have hmem : ∀ b < 8, b ∈ [0, 1, 2, 3, 4, 5, 6, 7] := by decide
    rw [splitS, length_holding_candidates (map_halfUp_le set.extent) _ (by decide) (by decide)]
    simp only [hmem _ (octant_lt _ _ t), and_true]
    rfl
  · obtain ⟨hne, b, -, rfl⟩ := (mem_splitS set o).1 ho
    exact ⟨rfl, (CoefSet.nonEmpty_iff _).1 hne⟩

/-- A point lies in another octant than 0 of the addressed box's exactly where it lies in TypeI (R220). -/
theorem octant_mem_iff_inTypeI (ext : Tri) (k : Nat) (t : Tri) :
    octant ⟨0, 0, 0⟩ (halving ext k) t ∈ [1, 2, 3, 4, 5, 6, 7] ↔ inTypeI ext k t = true := by
  have hrange : ∀ b < 8, b ∈ [1, 2, 3, 4, 5, 6, 7] ↔ b ≠ 0 := by decide
  rw [hrange _ (octant_lt _ _ t), ne_eq, octant_eq_zero_iff, inTypeI_iff]
  simp only [Nat.zero_add]
  omega

/-- A point lies in the addressed box exactly where it does not lie in TypeI (R220). -/
theorem halving_holds_iff (ext : Tri) (k level : Nat) (t : Tri) :
    (CoefSet.mk ⟨0, 0, 0⟩ (halving ext k) level).holds t = true ↔ (!inTypeI ext k t) = true := by
  rw [CoefSet.holds_iff, Bool.not_eq_true', ← Bool.not_eq_true, inTypeI_iff]
  simp only [Nat.zero_add, Nat.zero_le, true_and]
  omega

/-- Settles O46: the octants but octant 0 have their candidates, and octant 0 of `A_(k-1)` is `A_k`. -/
theorem splitITiles : Obligations.SplitITiles := by
  intro ext k hk
  obtain ⟨k, rfl⟩ := Nat.exists_eq_add_of_le' hk
  refine ⟨fun t => ?_, fun o ho => ?_⟩
  · have hhalf : (halving ext (k + 1)).x ≤ (halving ext k).x ∧ (halving ext (k + 1)).y ≤ (halving ext k).y ∧
        (halving ext (k + 1)).z ≤ (halving ext k).z := map_halfUp_le (halving ext k)
    rw [splitI, Nat.add_sub_cancel, length_holding_candidates hhalf _ (by decide) (by decide)]
    simp only [octant_mem_iff_inTypeI, halving_holds_iff, Bool.and_eq_true, and_comm]
  · have hfits := fits_splitI k ho
    obtain ⟨hne, b, -, -, rfl⟩ := (mem_splitI ext (k + 1) o).1 ho
    obtain ⟨hx, hy, hz⟩ := (CoefSet.nonEmpty_iff _).1 hne
    exact ⟨rfl, hx, hy, hz, hfits.leX, hfits.leY, hfits.leZ⟩

/-- Halving `k` times leaves 1 exactly from the dimension's own depth on (R216). -/
theorem ceilDiv_two_pow_eq_one_iff {n : Nat} (hn : 1 ≤ n) (k : Nat) : ceilDiv n (2 ^ k) = 1 ↔ clog2 n ≤ k := by
  have hpos := ceilDiv_mul_ge (Nat.two_pow_pos k) n
  have hne : ceilDiv n (2 ^ k) ≠ 0 := fun h => by rw [h] at hpos; omega
  have hle := ceilDiv_le_iff (Nat.two_pow_pos k) n 1
  rw [Nat.one_mul] at hle
  rw [clog2_le_iff, ← hle]
  omega

/-- Settles O47: dimension by dimension, the depth is reached where `ceil(N / 2^k)` is 1. -/
theorem rootDepthLeast : Obligations.RootDepthLeast := by
  intro ext hx hy hz k
  rw [Tri.ext_iff', halving_x, halving_y, halving_z, ceilDiv_two_pow_eq_one_iff hx, ceilDiv_two_pow_eq_one_iff hy,
    ceilDiv_two_pow_eq_one_iff hz, rootDepth, Nat.max_le, Nat.max_le]

end Sys2Proof.Machine

/-! SUPPORT. The lossless round trip of 44_speck_engine.md R256: one of the engine's runs first (`speckRun_roundTrip`), which
rests on the side-by-side run of encoder and decoder (`speckRun_trip`), then one of the commands. -/

namespace Sys2Proof.Machine

/-! ### The engine's round trip (44_speck_engine.md R256) -/

/-- What a decode gives back of an encoded array: its shape, every magnitude, and the sign wherever the magnitude is not 0
(43_coefficient_memory_and_sets.md R212; 44_speck_engine.md R256). -/
structure CoefMem.Restores (cm decoded : CoefMem) : Prop where
  ext : decoded.ext = cm.ext
  mag : decoded.mag = cm.mag
  sgn : ∀ idx < cm.n, decoded.sgn[idx]? = if cm.mag[idx]? = some 0 then some true else cm.sgn[idx]?

/-- Inside both lists, `getD` agrees only where the elements do. -/
theorem getElem?_eq_of_getD {α : Type} {xs ys : List α} {d : α} {i : Nat} (hx : i < xs.length) (hy : i < ys.length)
    (h : xs.getD i d = ys.getD i d) : xs[i]? = ys[i]? := by
  simpa [List.getD_eq_getElem?_getD, hx, hy] using h

/-- Restoring, read off element by element (`speckRun_trip`). -/
theorem CoefMem.restores_of_getD {cfg : Params} {cm decoded : CoefMem} (hcm : cm.Wf cfg) (hext : decoded.ext = cm.ext)
    (hmag' : decoded.mag.length = decoded.n) (hsgn' : decoded.sgn.length = decoded.n)
    (h : ∀ idx < cm.n, decoded.mag.getD idx 0 = cm.mag.getD idx 0 ∧
      decoded.sgn.getD idx true = if cm.mag.getD idx 0 = 0 then true else cm.sgn.getD idx true) :
    cm.Restores decoded := by
  have hmag := hcm.magLen
  have hsgn := hcm.sgnLen
  rw [CoefMem.n, hext, ← CoefMem.n] at hmag' hsgn'
  refine ⟨hext, ?_, fun idx hi => ?_⟩
  · apply List.ext_getElem?
    intro idx
    by_cases hi : idx < cm.n
    · exact getElem?_eq_of_getD (hmag' ▸ hi) (hmag ▸ hi) (h idx hi).1
    · rw [List.getElem?_eq_none (by omega), List.getElem?_eq_none (by omega)]
  · have hs := (h idx hi).2
    simp only [List.getD_eq_getElem?_getD, List.getElem?_eq_getElem (hmag ▸ hi), List.getElem?_eq_getElem (hsgn ▸ hi),
      List.getElem?_eq_getElem (hsgn' ▸ hi), Option.getD_some, Option.some.injEq] at hs ⊢
    rw [hs]
    split <;> rfl

/-- A cursor of a well-formed stream is below the unlimited budget, and so is any number of bits before it (log 4). -/
theorem BitStream.wpos_lt_all1 {cfg : Params} {b : BitStream} (hc : cfg.Wf) (h : b.Wf cfg) : b.wpos < all1.toNat := by
  have hall : all1.toNat = 2 ^ 64 - 1 := by decide
  have hfits := hc.streamFits
  have hcap := h.capLe
  have hpos := h.wposLe
  omega

/-- An encode of the array in `s` with the unlimited budget has ended `OK`: it emitted `nb` bits and left the stream `b`, all of
it declared (44_speck_engine.md R257). -/
structure Encoded (s : State) (nb : Nat) (b : BitStream) : Prop where
  run : speckRun .enc all1 s.cm.maxbits s = (.ok, nb, { s with bs := b, lip := .empty, wl := .empty })
  stream : b.Wf s.cfg
  wpos : b.wpos = s.bs.wpos + nb
  blen : b.blen = b.wpos

/-- An encoder's run that ends `OK` has left all but the stream and the engine's own units as it found them. -/
theorem encoded_of_run {s u : State} {nb : Nat} (hbs : s.bs.Wf s.cfg)
    (hrun : speckRun .enc all1 s.cm.maxbits s = (.ok, nb, u)) :
    ∃ b, u = { s with bs := b, lip := .empty, wl := .empty } ∧ Encoded s nb b := by
  rcases speckRun_enc all1 s.cm.maxbits s with ⟨nb', b, h, -, hwpos, hblen, -, -, hwf⟩ | ⟨nb', u', h, -⟩
  · obtain ⟨-, rfl, rfl⟩ : Status.ok = Status.ok ∧ nb = nb' ∧ u = _ := by simpa only [Prod.mk.injEq] using hrun.symm.trans h
    exact ⟨b, rfl, h, (hwf hbs).1, hwpos, hblen⟩
  · exact absurd (congrArg Prod.fst (hrun.symm.trans h)) nofun

/-- A decode of an encoder's stream from where it began consumes the bits written, restores the array and changes nothing but
its read cursor besides. -/
theorem speckRun_roundTrip {s v : State} {b : BitStream} {nb : Nat} (hc : s.cfg.Wf) (hbs : s.bs.Wf s.cfg)
    (hcm : s.cm.Wf s.cfg) (hn : 1 ≤ s.cm.n) (henc : Encoded s nb b) (hext : v.cm.ext = s.cm.ext)
    (hv : v.bs = { b with rpos := s.bs.wpos }) :
    ∃ cm : CoefMem, speckRun .dec all1 s.cm.maxbits v =
        (.ok, nb, { v with bs := { v.bs with rpos := b.wpos }, cm := cm, lip := .empty, wl := .empty }) ∧
      s.cm.Restores cm := by
  have hlt : nb < all1.toNat := by
    have := BitStream.wpos_lt_all1 hc henc.stream
    have := henc.wpos
    omega
  obtain ⟨u, hu, harray⟩ := speckRun_trip (v := v) all1 hbs hn henc.run hlt hext (by rw [hv])
    (by rw [hv]; exact henc.blen.trans henc.wpos) (fun i => by rw [hv]; rfl)
  obtain ⟨status, nb', cm, hdec, -, hext', hmag, hsgn, -⟩ := speckRun_dec all1 s.cm.maxbits v
  obtain ⟨rfl, rfl, rfl⟩ : Status.ok = status ∧ nb = nb' ∧ u = _ := by simpa only [Prod.mk.injEq] using hu.symm.trans hdec
  refine ⟨cm, ?_, CoefMem.restores_of_getD hcm (hext'.trans hext) hmag hsgn harray⟩
  rw [hdec, hv, henc.wpos]

/-! ### The commands between and around the two runs -/

@[simp] theorem State.finish_ok_bs (s : State) (r0 r1 : Word) : (s.finish .ok r0 r1).bs = s.bs :=
  State.finish_bs _ _ _ _ (by decide)

@[simp] theorem State.finish_ok_cm (s : State) (r0 r1 : Word) : (s.finish .ok r0 r1).cm = s.cm :=
  State.finish_cm _ _ _ _ (by decide)

@[simp] theorem State.finish_ok_oc (s : State) (r0 r1 : Word) : (s.finish .ok r0 r1).oc = s.oc :=
  State.finish_oc _ _ _ _ (by decide)

/-- After an encode, a seek of the read cursor to where it began leaves the encoder's stream to be decoded, and everything else
as the encode left it (41_bitstream.md R152). -/
theorem exec_bsRseek_of_encoded {s : State} {nb : Nat} {b : BitStream} (hlive : s.st.faulted = false) (hc : s.cfg.Wf)
    (hbs : s.bs.Wf s.cfg) (henc : Encoded s nb b) (r0 r1 : Word) :
    ∃ v, exec (.bsRseek (BitVec.ofNat 64 s.bs.wpos))
        ({ s with bs := b, lip := .empty, wl := .empty }.finish .ok r0 r1) = .next v ∧
      v.st.faulted = false ∧ v.cfg = s.cfg ∧ v.oc = s.oc ∧ v.cm = s.cm ∧ v.bs = { b with rpos := s.bs.wpos } := by
  have hlive' := State.finish_ok_live (s := { s with bs := b, lip := .empty, wl := .empty }) hlive r0 r1
  have hfit : s.bs.wpos ≤ 64 * b.cap := by
    have := henc.stream.wposLe
    have := henc.wpos
    omega
  rw [exec_bsRseek_of_live hlive', BitStream.wpos_toNat hc hbs, State.finish_ok_bs, if_pos hfit]
  refine ⟨_, rfl, State.finish_ok_live (s := { State.finish _ _ _ _ with bs := _ }) hlive' 0 0, ?_⟩
  simp only [State.finish_cfg, State.finish_ok_oc, State.finish_ok_cm, State.finish_ok_bs, and_self]

/-- A `SPK_ENC` of a shaped array is its run (R260). -/
theorem exec_spkEnc_of_run {s u : State} {budget : Word} {status : Status} {nb : Nat} (hlive : s.st.faulted = false)
    (hn : 1 ≤ s.cm.n) (hrun : speckRun .enc budget s.cm.maxbits s = (status, nb, u)) :
    exec (.spkEnc budget) s = .next (u.finish status (BitVec.ofNat 64 nb) (BitVec.ofNat 64 s.cm.maxbits)) := by
  rw [exec, execSpkEnc, unlessFaulted_of_live hlive, if_neg (Nat.ne_of_gt hn)]
  simp only [hrun]
  rfl

/-- A `SPK_DEC` into a shaped array is its run (R261, R262). -/
theorem exec_spkDec_of_run {s u : State} {budget : Word} {maxbits : Byte} {status : Status} {nb : Nat}
    (hlive : s.st.faulted = false) (hmaxbits : maxbits.toNat ≤ 63) (hn : 1 ≤ s.cm.n)
    (hrun : speckRun .dec budget maxbits.toNat s = (status, nb, u)) :
    exec (.spkDec maxbits budget) s = .next (u.finish status (BitVec.ofNat 64 nb) 0) := by
  rw [exec, execSpkDec, unlessFaulted_of_live hlive, if_neg (Nat.not_lt.2 hmaxbits), if_neg (Nat.ne_of_gt hn)]
  simp only [hrun]
  rfl

theorem CoefMem.toNat_maxbits (cm : CoefMem) : (BitVec.ofNat 8 cm.maxbits).toNat = cm.maxbits := by
  have := cm.maxbits_le
  rw [BitVec.toNat_ofNat, Nat.mod_eq_of_lt (by omega)]

/-- Settles O52: the seek hands the encoder's stream to the decoder, whose run is the other half of the engine's round trip. -/
theorem speckRoundTrip : Obligations.SpeckRoundTrip := by
  intro s t hlive hc hbs hcm hn hexec hok
  obtain ⟨⟨status, nb, u⟩, hrun⟩ : ∃ r, speckRun .enc all1 s.cm.maxbits s = r := ⟨_, rfl⟩
  obtain rfl : u.finish status _ _ = t := Host.Outcome.next.inj ((exec_spkEnc_of_run hlive hn hrun).symm.trans hexec)
  obtain rfl := (State.endedWith_finish u status _ _).1 hok
  obtain ⟨b, rfl, henc⟩ := encoded_of_run hbs hrun
  obtain ⟨v, hseek, hlive', -, -, hcm', hbs'⟩ := exec_bsRseek_of_encoded hlive hc hbs henc _ _
  obtain ⟨cm, hdec, hrestores⟩ := speckRun_roundTrip (v := v) hc hbs hcm hn henc (by rw [hcm']) hbs'
  rw [← s.cm.toNat_maxbits] at hdec
  have hexec' := exec_spkDec_of_run hlive' (s.cm.toNat_maxbits.trans_le s.cm.maxbits_le) (hcm' ▸ hn) hdec
  refine ⟨_, (runCommands_cons hseek).trans (runCommands_cons hexec'), (State.endedWith_finish ..).2 rfl, ?_⟩
  simp only [State.finish_ok_cm, State.finish_ok_bs]
  exact ⟨hrestores.mag, trivial, hrestores.sgn⟩

end Sys2Proof.Machine

/-! SUPPORT. The round trip of 45_outlier_coder.md R297: the selectors that `OUT_ENC` answers pass the checks of `OUT_DEC`, the
engine restores the dense array (`speckRun_roundTrip`), and the list of what it holds is no longer than the records'. -/

namespace Sys2Proof.Machine

/-! ### The selectors (R295) -/

/-- The second result of `OUT_ENC` carries the array's `maxbits` and its width selector (R294). -/
def CoefMem.selectors (cm : CoefMem) : Word := BitVec.ofNat 64 (selectWidth cm.maxMag * 2 ^ 8 + cm.maxbits)

theorem CoefMem.toNat_selectors (cm : CoefMem) : cm.selectors.toNat = selectWidth cm.maxMag * 2 ^ 8 + cm.maxbits := by
  have := cm.maxbits_le
  have := selectWidth_le cm.maxMag
  rw [CoefMem.selectors, BitVec.toNat_ofNat, Nat.mod_eq_of_lt (by omega)]

theorem CoefMem.toNat_selectors_low (cm : CoefMem) : (cm.selectors.setWidth 8).toNat = cm.maxbits := by
  have := cm.maxbits_le
  rw [BitVec.toNat_setWidth, CoefMem.toNat_selectors]
  omega

theorem CoefMem.toNat_selectors_high (cm : CoefMem) : ((cm.selectors >>> 8).setWidth 8).toNat = selectWidth cm.maxMag := by
  have := cm.maxbits_le
  have := selectWidth_le cm.maxMag
  rw [BitVec.toNat_setWidth, BitVec.toNat_ushiftRight, CoefMem.toNat_selectors, Nat.shiftRight_eq_div_pow]
  omega

/-- The width selected for the greatest magnitude is wider than its topmost bit's number, so check 7 of `OUT_DEC` passes
(R296). -/
theorem CoefMem.maxbits_lt_selectedWidth (cm : CoefMem) : cm.maxbits < selectedWidth (selectWidth cm.maxMag) := by
  unfold CoefMem.maxbits
  split
  · exact Nat.mul_pos (by decide) (Nat.two_pow_pos _)
  · rename_i h
    exact (Nat.log2_lt h).2 (selectWidth_spec cm.maxMag_lt).1

/-! ### The records in the dense array (R294) -/

theorem Memory.mem_outlierRecords {m : Memory} {a c : Nat} {r : OutlierRecord} :
    r ∈ m.outlierRecords a c ↔ ∃ j < c, m.outlierRecord a j = r := by
  simp [Memory.outlierRecords]

/-- A one-dimensional array has as many elements as its one extent says (10_state.md R35). -/
theorem CoefMem.n_of_line {cm : CoefMem} {n : Nat} (h : cm.ext = ⟨n, 1, 1⟩) : cm.n = n := by
  rw [CoefMem.n, h, Nat.mul_one, Nat.mul_one]

/-- Sound records stand in the dense array at their positions, and nothing else does. -/
theorem denseOutliers_spec {tau : Word} {n : Nat} {records : List OutlierRecord}
    (hsound : checkRecords tau n [] records = none) :
    (denseOutliers tau n records).ext = ⟨n, 1, 1⟩ ∧
    (∀ r ∈ records, r.pos < n ∧ (denseOutliers tau n records).mag[r.pos]? = some (Real.f2u (quantize tau r.error)) ∧
      (denseOutliers tau n records).sgn[r.pos]? = some (!Real.neg r.error)) ∧
    ∀ idx < n, (∀ r ∈ records, r.pos ≠ idx) → (denseOutliers tau n records).mag[idx]? = some 0 ∧
      (denseOutliers tau n records).sgn[idx]? = some true := by
  obtain ⟨hchecks, hnodup⟩ := (checkRecords_eq_none_iff tau n records []).1 hsound
  have hpos : ∀ r ∈ records, r.pos < n := fun r hr => ((checkRecord_eq_none_iff tau n [] r).1 (hchecks r hr)).1
  have hn : (CoefMem.shaped 1 ⟨n, 1, 1⟩).n = n := CoefMem.n_of_line rfl
  have hmagLen : (CoefMem.shaped 1 ⟨n, 1, 1⟩).mag.length = n := List.length_replicate.trans hn
  have hsgnLen : (CoefMem.shaped 1 ⟨n, 1, 1⟩).sgn.length = n := List.length_replicate.trans hn
  obtain ⟨-, hext, -, -, hplaced, hother⟩ := foldl_placeOutlier tau records (.shaped 1 ⟨n, 1, 1⟩) hnodup
    (fun r hr => (hpos r hr).trans_eq hmagLen.symm) (fun r hr => (hpos r hr).trans_eq hsgnLen.symm)
  refine ⟨hext, fun r hr => ⟨hpos r hr, hplaced r hr⟩, fun idx hi hno => ?_⟩
  obtain ⟨hmag, hsgn⟩ := hother idx hno
  obtain ⟨hmag0, hsgn0⟩ := CoefMem.shaped_getElem? (hi.trans_eq hn.symm)
  exact ⟨hmag.trans hmag0, hsgn.trans hsgn0⟩

/-- A list of positions that holds every position of a non-zero magnitude is at least as long as the output list. -/
theorem CoefMem.outlierPositions_length_le_of_mem {cm : CoefMem} {positions : List Nat}
    (h : ∀ idx < cm.n, cm.mag.getD idx 0 ≠ 0 → idx ∈ positions) : cm.outlierPositions.length ≤ positions.length := by
  refine (List.subperm_of_subset ?_ fun idx hi => ?_).length_le
  · exact cm.outlierPositions_pairwise.imp Nat.ne_of_lt
  · obtain ⟨hlt, hne⟩ := (cm.mem_outlierPositions idx).1 hi
    exact h idx hlt hne

/-! ### The two commands (R294, R296) -/

/-- The state in which `OUT_ENC` starts its encode: `CM` holds the dense array of the records in `XB`. -/
def State.stageOutliers (s : State) (addr count len : Word) : State :=
  { s with cm := denseOutliers s.oc.tol len.toNat (s.xb.outlierRecords addr.toNat count.toNat) }

section OutlierCommands

variable {s : State} {addr count len : Word}

/-- A record fails with `RANGE` or `ARG` (R294, 6(a) to 6(d)). -/
theorem status_of_checkRecord {tau : Word} {n : Nat} {seen : List Nat} {r : OutlierRecord} {status : Status}
    (h : checkRecord tau n seen r = some status) : status = .range ∨ status = .arg := by
  unfold checkRecord at h
  split_ifs at h <;> cases h <;> simp

theorem status_of_checkRecords {tau : Word} {n : Nat} {seen : List Nat} {rs : List OutlierRecord} {status : Status}
    (h : checkRecords tau n seen rs = some status) : status = .range ∨ status = .arg := by
  induction rs generalizing seen with
  | nil => cases h
  | cons r rs ih =>
    rw [checkRecords] at h
    cases hr : checkRecord tau n seen r with
    | none => rw [hr] at h; exact ih h
    | some failed => rw [hr] at h; exact Option.some.inj h ▸ status_of_checkRecord hr

/-- The statuses with which `OUT_ENC` refuses its operands (R294). -/
theorem status_of_outEncCheck {status : Status} (h : outEncCheck addr count len s = some status) :
    status ∈ [Status.align, .range, .arg, .alloc] := by
  unfold outEncCheck at h
  split_ifs at h
  case neg => obtain rfl | rfl := status_of_checkRecords h <;> decide
  all_goals cases h; decide

/-- What else the checks of `OUT_ENC` leave to the decoder: a valid tolerance and sound records (R294). -/
theorem sound_of_outEncCheck (h : outEncCheck addr count len s = none) :
    s.oc.tolv = true ∧ checkRecords s.oc.tol len.toNat [] (s.xb.outlierRecords addr.toNat count.toNat) = none := by
  unfold outEncCheck at h
  split_ifs at h
  rename_i htolv _ _
  exact ⟨by simpa using htolv, h⟩

/-- An `OUT_ENC` that ends `OK` has passed its checks. -/
theorem outEncCheck_of_ok {t : State} (hlive : s.st.faulted = false) (hexec : exec (.outEnc addr count len) s = .next t)
    (hok : t.endedWith .ok) : outEncCheck addr count len s = none := by
  cases hcheck : outEncCheck addr count len s with
  | none => rfl
  | some status =>
    rw [exec, execOutEnc, unlessFaulted_of_live hlive, hcheck] at hexec
    obtain rfl : s.finish status 0 0 = t := Host.Outcome.next.inj hexec
    obtain rfl := (State.endedWith_finish s status 0 0).1 hok
    exact absurd (status_of_outEncCheck hcheck) (by decide)

/-- An `OUT_ENC` that passes its checks is the encode of the dense array. -/
theorem exec_outEnc_of_run {u : State} {status : Status} {nb : Nat} (hlive : s.st.faulted = false)
    (hcheck : outEncCheck addr count len s = none)
    (hrun : speckRun .enc all1 (s.stageOutliers addr count len).cm.maxbits (s.stageOutliers addr count len) =
      (status, nb, u)) :
    exec (.outEnc addr count len) s =
      .next (u.finish status (BitVec.ofNat 64 nb) (s.stageOutliers addr count len).cm.selectors) := by
  rw [State.stageOutliers] at hrun ⊢
  rw [exec, execOutEnc, unlessFaulted_of_live hlive, hcheck]
  simp only [hrun]
  rfl

/-- An `OUT_ENC` that ends `OK` has encoded the dense array (R294). -/
theorem encoded_of_outEnc {t : State} (hlive : s.st.faulted = false) (hbs : s.bs.Wf s.cfg)
    (hcheck : outEncCheck addr count len s = none) (hexec : exec (.outEnc addr count len) s = .next t)
    (hok : t.endedWith .ok) :
    ∃ nb b, Encoded (s.stageOutliers addr count len) nb b ∧
      t = { s.stageOutliers addr count len with bs := b, lip := .empty, wl := .empty }.finish .ok (BitVec.ofNat 64 nb)
        (s.stageOutliers addr count len).cm.selectors := by
  obtain ⟨⟨status, nb, e⟩, hrun⟩ : ∃ r, speckRun .enc all1 (s.stageOutliers addr count len).cm.maxbits
    (s.stageOutliers addr count len) = r := ⟨_, rfl⟩
  obtain rfl := Host.Outcome.next.inj ((exec_outEnc_of_run hlive hcheck hrun).symm.trans hexec)
  obtain rfl := (State.endedWith_finish e status _ _).1 hok
  obtain ⟨b, rfl, henc⟩ := encoded_of_run (s := s.stageOutliers addr count len) hbs hrun
  exact ⟨nb, b, henc, rfl⟩

/-- An `OUT_DEC` whose decode ends `OK` and whose list fits writes the list (R296). -/
theorem exec_outDec_of_run {maxbits wsel : Byte} {u : State} {nb : Nat} (hlive : s.st.faulted = false)
    (hcheck : outDecCheck maxbits wsel addr len s = none)
    (hrun : speckRun .dec all1 maxbits.toNat { s with cm := .shaped 1 ⟨len.toNat, 1, 1⟩ } = (.ok, nb, u))
    (hfit : addr.toNat + 16 * u.cm.outlierPositions.length ≤ u.cfg.xbBytes) :
    exec (.outDec maxbits wsel addr len) s =
      .next ({ u with xb := u.xb.writeWords addr.toNat (u.cm.outlierWords u.oc.tol) }.finish .ok
        (BitVec.ofNat 64 u.cm.outlierPositions.length) (BitVec.ofNat 64 nb)) := by
  rw [exec, execOutDec, unlessFaulted_of_live hlive, hcheck]
  simp only [hrun]
  rw [endOutDec, if_neg (by decide)]
  exact if_pos (decide_eq_true hfit)

/-- The selectors of an array pass the checks of `OUT_DEC`, given room for the list's start and what `OUT_ENC` has checked
already. -/
theorem outDecCheck_selectors (cm : CoefMem) (halign : addr.toNat % 8 = 0) (hfit : addr.toNat ≤ s.cfg.xbBytes)
    (htolv : s.oc.tolv = true) (hlen : 1 ≤ len.toNat ∧ len.toNat ≤ s.cfg.maxElems) :
    outDecCheck (cm.selectors.setWidth 8) ((cm.selectors >>> 8).setWidth 8) addr len s = none := by
  have hmaxbits : ¬ cm.maxbits > 63 := Nat.not_lt.2 cm.maxbits_le
  have hwsel : ¬ selectWidth cm.maxMag > 3 := Nat.not_lt.2 (selectWidth_le _)
  have hwidth : ¬ cm.maxbits ≥ selectedWidth (selectWidth cm.maxMag) := Nat.not_le.2 cm.maxbits_lt_selectedWidth
  have hpos : len.toNat ≠ 0 := Nat.ne_of_gt hlen.1
  have hmax : ¬ len.toNat > s.cfg.maxElems := Nat.not_lt.2 hlen.2
  unfold outDecCheck
  rw [cm.toNat_selectors_low, cm.toNat_selectors_high]
  simp only [aligned8, State.xbHolds, hmaxbits, hwsel, hwidth, halign, hfit, htolv, hpos, hmax, Nat.add_zero, decide_true,
    decide_false, beq_self_eq_true, Bool.or_self, Bool.not_true, Bool.false_eq_true, if_false]

end OutlierCommands

/-! ### The round trip (R297) -/

/-- The list of a decoded array is no longer than the list it was encoded from. -/
theorem CoefMem.Restores.outlierPositions_length_le {tau : Word} {n : Nat} {records : List OutlierRecord} {decoded : CoefMem}
    (h : (denseOutliers tau n records).Restores decoded) (hsound : checkRecords tau n [] records = none) :
    decoded.outlierPositions.length ≤ records.length := by
  obtain ⟨hext, -, hother⟩ := denseOutliers_spec hsound
  have hn : decoded.n = n := CoefMem.n_of_line (h.ext.trans hext)
  refine (CoefMem.outlierPositions_length_le_of_mem (positions := records.map (·.pos)) fun idx hi hne => ?_).trans
    (List.length_map _).le
  by_contra hno
  refine hne ?_
  rw [List.getD_eq_getElem?_getD, h.mag, (hother idx (hn ▸ hi) fun r hr he => hno (List.mem_map.2 ⟨r, hr, he⟩)).1,
    Option.getD_some]

/-- A decode of the dense array gives each sound record's magnitude back, its sign if that magnitude is not 0, and zeros
elsewhere. -/
theorem CoefMem.Restores.holds_records {tau : Word} {n : Nat} {records : List OutlierRecord} {decoded : CoefMem}
    (h : (denseOutliers tau n records).Restores decoded) (hsound : checkRecords tau n [] records = none) :
    (∀ r ∈ records, decoded.mag[r.pos]? = some (Real.f2u (quantize tau r.error)) ∧
      (decoded.mag[r.pos]? ≠ some 0 → decoded.sgn[r.pos]? = some (!Real.neg r.error))) ∧
    ∀ idx < n, (∀ r ∈ records, r.pos ≠ idx) → decoded.mag[idx]? = some 0 ∧ decoded.sgn[idx]? = some true := by
  obtain ⟨hext, hplaced, hother⟩ := denseOutliers_spec hsound
  have hn : (denseOutliers tau n records).n = n := CoefMem.n_of_line hext
  rw [h.mag]
  refine ⟨fun r hr => ?_, fun idx hi hno => ?_⟩
  · obtain ⟨hpos, hmag, hsgn⟩ := hplaced r hr
    exact ⟨hmag, fun hne => by rw [h.sgn _ (hn.symm ▸ hpos), if_neg hne, hsgn]⟩
  · obtain ⟨hmag, -⟩ := hother idx hi hno
    exact ⟨hmag, by rw [h.sgn _ (hn.symm ▸ hi), if_pos hmag]⟩

/-- What `OUT_DEC` leaves when it decodes the stream of an array with that array's selectors (R296). -/
theorem exec_outDec_of_encoded {w v : State} {b : BitStream} {nb : Nat} {out len : Word} (hc : w.cfg.Wf)
    (hbs : w.bs.Wf w.cfg) (hcm : w.cm.Wf w.cfg) (henc : Encoded w nb b) (hext : w.cm.ext = ⟨len.toNat, 1, 1⟩)
    (hlive : v.st.faulted = false) (hcfg : v.cfg = w.cfg) (hv : v.bs = { b with rpos := w.bs.wpos })
    (htolv : v.oc.tolv = true) (hlen : 1 ≤ len.toNat ∧ len.toNat ≤ w.cfg.maxElems) (halign : out.toNat % 8 = 0)
    (hfit : ∀ cm : CoefMem, w.cm.Restores cm → out.toNat + 16 * cm.outlierPositions.length ≤ w.cfg.xbBytes) :
    ∃ u, exec (.outDec (w.cm.selectors.setWidth 8) ((w.cm.selectors >>> 8).setWidth 8) out len) v = .next u ∧
      u.endedWith .ok ∧ w.cm.Restores u.cm ∧ u.bs.rpos = b.wpos := by
  have hn : 1 ≤ w.cm.n := (CoefMem.n_of_line hext).symm ▸ hlen.1
  obtain ⟨cm, hdec, hrestores⟩ :=
    speckRun_roundTrip (v := { v with cm := .shaped 1 ⟨len.toNat, 1, 1⟩ }) hc hbs hcm hn henc hext.symm hv
  have hroom := hfit cm hrestores
  rw [← w.cm.toNat_selectors_low] at hdec
  rw [← hcfg] at hlen hroom
  have hcheck := outDecCheck_selectors w.cm halign (by omega) htolv hlen
  refine ⟨_, exec_outDec_of_run hlive hcheck hdec hroom, (State.endedWith_finish ..).2 rfl, ?_⟩
  simp only [State.finish_ok_cm, State.finish_ok_bs]
  exact ⟨hrestores, trivial⟩

/-- Settles O58: `OUT_DEC` with the selectors passes its checks, its run is the other half of the engine's round trip on the
dense array, and its list takes no more room than the records. -/
theorem outlierRoundTrip : Obligations.OutlierRoundTrip := by
  intro addr count len out s t hlive hc hbs hexec hok halign hfit
  have hcheck := outEncCheck_of_ok hlive hexec hok
  obtain ⟨htolv, hsound⟩ := sound_of_outEncCheck hcheck
  have hlen := len_of_outEncCheck hcheck
  obtain ⟨hext, -, -⟩ := denseOutliers_spec hsound
  have hcm : (s.stageOutliers addr count len).cm.Wf s.cfg := wf_denseOutliers hlen.1 hlen.2 _ _
  obtain ⟨nb, b, henc, rfl⟩ := encoded_of_outEnc hlive hbs hcheck hexec hok
  obtain ⟨v, hseek, hliveV, hcfgV, hocV, -, hbsV⟩ := exec_bsRseek_of_encoded
    (s := s.stageOutliers addr count len) hlive hc hbs henc (BitVec.ofNat 64 nb) (s.stageOutliers addr count len).cm.selectors
  obtain ⟨u, hdec, hokU, hrestores, hrpos⟩ := exec_outDec_of_encoded
    (w := s.stageOutliers addr count len) (out := out) hc hbs hcm henc hext hliveV hcfgV hbsV (hocV ▸ htolv) hlen halign
    fun cm h => by
      have hcount := CoefMem.Restores.outlierPositions_length_le h hsound
      rw [Memory.outlierRecords, List.length_map, List.length_range] at hcount
      exact (Nat.add_le_add_left (Nat.mul_le_mul_left 16 hcount) _).trans hfit
  have hn : (s.stageOutliers addr count len).cm.n = len.toNat := CoefMem.n_of_line hext
  refine ⟨_, u, State.finish_rspPort .., (runCommands_cons hseek).trans (runCommands_cons hdec), hokU, ?_⟩
  simp only [State.finish_ok_cm, State.finish_ok_bs]
  obtain ⟨hplaced, hother⟩ := CoefMem.Restores.holds_records hrestores hsound
  exact ⟨hrestores.mag, hrpos, fun idx hi => hrestores.sgn idx (hn ▸ hi),
    fun j hj => hplaced _ (Memory.mem_outlierRecords.2 ⟨j, hj, rfl⟩), fun idx hi hno => hother idx hi fun r hr => by
      obtain ⟨j, hj, rfl⟩ := Memory.mem_outlierRecords.1 hr
      exact hno j hj⟩

end Sys2Proof.Machine

/-! SUPPORT. The statements of 44_speck_engine.md on one command or on two with different operands. Both kinds rest on two runs
side by side (`locked_planes`): a run that ends for want of room or of bits is outlasted by the same run with more of them,
which codes no more than `codedAtMost` bits (R223); a run with a smaller budget leads the same run with a larger one, and a
decoder follows the bits it takes (R255). -/

namespace Sys2Proof.Machine

/-! ### Coding one bit, case by case (R243) -/

section Coding

variable {c : Coding} {v : Bool}

theorem Coding.code_of_spent (h : c.nb = c.b.toNat) (m : Mode) (v : Bool) : c.code m v = .stop .ok := if_pos h

theorem Coding.code_enc_of_put {g : BitStream} (h : c.nb ≠ c.b.toNat) (hput : c.bs.put c.cfg.maxWords v = some g) :
    c.code .enc v = .bit v { c with bs := g, nb := c.nb + 1 } := by
  rw [Coding.code, if_neg h]
  simp only [hput]

theorem Coding.code_enc_of_full (h : c.nb ≠ c.b.toNat) (hput : c.bs.put c.cfg.maxWords v = none) :
    c.code .enc v = .stop .alloc := by
  rw [Coding.code, if_neg h]
  simp only [hput]

theorem Coding.code_dec_of_declared (h : c.nb ≠ c.b.toNat) (hr : c.bs.rpos < c.bs.blen) (v : Bool) :
    c.code .dec v =
      .bit (c.bs.getbit c.bs.rpos) { c with bs := { c.bs with rpos := c.bs.rpos + 1 }, nb := c.nb + 1 } := by
  rw [Coding.code, if_neg h]
  exact if_neg (Nat.not_le.2 hr)

theorem Coding.code_dec_of_short (h : c.nb ≠ c.b.toNat) (hr : c.bs.blen ≤ c.bs.rpos) (v : Bool) :
    c.code .dec v = .stop .dataShort := by
  rw [Coding.code, if_neg h]
  exact if_pos hr

/-- An encoder's bit is the bit it decides, written at the cursor. -/
theorem Coding.put_of_code_enc {x : Bool} {c' : Coding} (h : c.code .enc v = .bit x c') :
    ∃ g, c.bs.put c.cfg.maxWords v = some g ∧ c' = { c with bs := g, nb := c.nb + 1 } := by
  by_cases hspent : c.nb = c.b.toNat
  · rw [Coding.code_of_spent hspent] at h
    cases h
  cases hput : c.bs.put c.cfg.maxWords v with
  | none =>
    rw [Coding.code_enc_of_full hspent hput] at h
    cases h
  | some g =>
    rw [Coding.code_enc_of_put hspent hput] at h
    exact ⟨g, rfl, (Coded.bit.inj h).2.symm⟩

/-- Every coded bit counts one. -/
theorem Coding.code_nb {m : Mode} {x : Bool} {c' : Coding} (h : c.code m v = .bit x c') : c'.nb = c.nb + 1 := by
  cases m with
  | enc =>
    obtain ⟨g, -, rfl⟩ := Coding.put_of_code_enc h
    rfl
  | dec =>
    by_cases hspent : c.nb = c.b.toNat
    · rw [Coding.code_of_spent hspent] at h
      cases h
    by_cases hshort : c.bs.blen ≤ c.bs.rpos
    · rw [Coding.code_dec_of_short hspent hshort] at h
      cases h
    · rw [Coding.code_dec_of_declared hspent (Nat.not_le.1 hshort)] at h
      rw [← (Coded.bit.inj h).2]

end Coding

/-! ### The ends of two runs side by side -/

/-- How two whole runs that stand in a relation can end: the status and the last state of each. -/
inductive LockRel.Final (L : LockRel) : Status → State → Status → State → Prop
  | both {x y : State} (lock : L.Lock x y) : L.Final .ok x .ok y
  | ahead {x y : State} {a' : Status} (rel : L.ahead a' y.coding x.coding) : L.Final .ok x a' y
  | stopped {x y : State} {a a' : Status} (same : SameEngine x y) (rel : L.stopped a x.coding a' y.coding) :
    L.Final a x a' y
  | later {x y : State} {a a' : Status} (rel : L.later a x.coding a' y.coding) : L.Final a x a' y
  | free {x y : State} {a' : Status} (rel : L.free x.coding) : L.Final .ok x a' y
  | freeStop {x y : State} {a a' : Status} (rel : L.freeStop a x.coding) : L.Final a x a' y

/-- What a run answers and leaves, its bitplanes having ended with this status in this state (R257). -/
def runResult (m : Mode) (a : Status) (u : State) : Status × Nat × State :=
  (a, u.wl.nb, if a = .alloc then u else speckEnd m u)

theorem of_runResult_ok {m : Mode} {a : Status} {x u : State} {nb : Nat} (h : runResult m a x = (.ok, nb, u)) :
    a = .ok ∧ x.wl.nb = nb ∧ speckEnd m x = u := by
  simp only [runResult, Prod.mk.injEq] at h
  obtain ⟨rfl, hnb, hu⟩ := h
  exact ⟨rfl, hnb, hu⟩

/-- Two runs that start in the relation end in it. -/
theorem locked_speckRun {L : LockRel} {m : Mode} (h : L.Kept m) {budget budget' : Word} {s u : State} (maxbits : Nat)
    (hl : L.Lock (speckInit m budget s) (speckInit m budget' u)) :
    ∃ a x a' y, speckRun m budget maxbits s = runResult m a x ∧ speckRun m budget' maxbits u = runResult m a' y ∧
      L.Final a x a' y := by
  have hlock := locked_planes h (maxbits + 1) hl
  obtain ⟨x, hx, hrx⟩ | ⟨a, x, hx, hrx⟩ := speckRun_cases m budget maxbits s <;>
    obtain ⟨y, hy, hry⟩ | ⟨a', y, hy, hry⟩ := speckRun_cases m budget' maxbits u <;>
    rw [hx, hy] at hlock
  · refine ⟨.ok, x, .ok, y, hrx, hry, ?_⟩
    obtain ⟨-, hlock⟩ | hfree := hlock
    · exact .both hlock
    · exact .free hfree
  · refine ⟨.ok, x, a', y, hrx, hry, ?_⟩
    obtain hahead | hfree := hlock
    · exact .ahead hahead
    · exact .free hfree
  · exact ⟨a, x, .ok, y, hrx, hry, .freeStop hlock⟩
  · refine ⟨a, x, a', y, hrx, hry, ?_⟩
    obtain ⟨hsame, hstopped⟩ | hlater | hfree := hlock
    · exact .stopped hsame hstopped
    · exact .later hlater
    · exact .freeStop hfree

/-! ### A run that ends for want of room codes fewer bits than the array can need -/

/-- A write that succeeds would with a higher limit, and leave the same stream (41_bitstream.md R144, R145). -/
theorem BitStream.put_of_more_words {maxWords maxWords' : Nat} {b g : BitStream} {v : Bool} (hle : maxWords ≤ maxWords')
    (h : b.put maxWords v = some g) : b.put maxWords' v = some g := by
  by_cases hfull : b.wpos = 64 * b.cap
  · have hroom : ¬ 2 * b.cap > maxWords := fun hgt => by
      rw [BitStream.put_of_full hfull hgt] at h
      cases h
    have hroom' : ¬ 2 * b.cap > maxWords' := by omega
    rw [BitStream.put, if_pos hfull, BitStream.grow] at h ⊢
    simp only [BitStream.commit_cap, if_neg hroom, if_neg hroom'] at h ⊢
    exact h
  · rw [BitStream.put, if_neg hfull] at h ⊢
    exact h

/-- The first of two codings has more room for the next bits: its stream may grow further, or is declared further. -/
def Roomier : Mode → Coding → Coding → Prop
  | .enc, c, d => c.bs = d.bs ∧ d.bs.Wf d.cfg ∧ 2 * d.cfg.maxWords ≤ c.cfg.maxWords
  | .dec, c, d => c.bs = { d.bs with blen := c.bs.blen } ∧ d.bs.blen < c.bs.blen ∧ d.bs.rpos < c.bs.blen

/-- The first run has more room than the second: they end together where the budget or the bitplanes do, and the first codes
more bits where the second's room ends. -/
def outlasts (m : Mode) : LockRel where
  both c d := c.nb = d.nb ∧ c.b = d.b ∧ Roomier m c d
  stopped _ _ a _ := a = .ok
  ahead _ d c := d.nb < c.nb
  later _ c _ d := d.nb < c.nb
  free _ := False
  freeStop _ _ := False

theorem outlasts_kept (m : Mode) : (outlasts m).Kept m where
  both c d v h := by
    obtain ⟨hnb, hb, hroom⟩ := h
    by_cases hspent : d.nb = d.b.toNat
    · rw [Coding.code_of_spent hspent, Coding.code_of_spent (by rw [hnb, hb, hspent])]
      exact .inl rfl
    have hspent' : c.nb ≠ c.b.toNat := by rwa [hnb, hb]
    cases m with
    | enc =>
      obtain ⟨hbs, hwf, hmax⟩ := hroom
      cases hput : d.bs.put d.cfg.maxWords v with
      | some g =>
        rw [Coding.code_enc_of_put hspent hput,
          Coding.code_enc_of_put hspent' (hbs ▸ BitStream.put_of_more_words (by omega) hput)]
        exact .inl ⟨rfl, congrArg (· + 1) hnb, hb, rfl, BitStream.wf_put hwf hput, hmax⟩
      | none =>
        cases hput' : c.bs.put c.cfg.maxWords v with
        | none =>
          have hcap := hwf.capLe
          have hfull := (BitStream.put_none hput').2
          rw [hbs] at hfull
          omega
        | some g =>
          rw [Coding.code_enc_of_full hspent hput, Coding.code_enc_of_put hspent' hput']
          exact .inl (Nat.lt_succ_of_le hnb.ge)
    | dec =>
      obtain ⟨hbs, hblen, hrpos⟩ := hroom
      have hread : c.bs.rpos = d.bs.rpos := by rw [hbs]
      have hbit : c.bs.getbit c.bs.rpos = d.bs.getbit d.bs.rpos := by rw [hbs]; rfl
      rw [Coding.code_dec_of_declared hspent' (hread ▸ hrpos)]
      by_cases hshort : d.bs.blen ≤ d.bs.rpos
      · rw [Coding.code_dec_of_short hspent hshort]
        exact .inl (Nat.lt_succ_of_le hnb.ge)
      · rw [Coding.code_dec_of_declared hspent (Nat.not_le.1 hshort)]
        refine .inl ⟨hbit, congrArg (· + 1) hnb, hb, ?_, hblen, ?_⟩
        · rw [hbs]
        · show d.bs.rpos + 1 < c.bs.blen
          omega
  ahead a d c v h := by
    cases hc : c.code m v with
    | bit x c' => exact (Nat.lt_succ_of_lt h).trans_eq (Coding.code_nb hc).symm
    | stop a' => exact h
  free _ _ h := h.elim

/-- A state whose stream has room for more bits: it may grow further, or is declared further. -/
def State.withRoom (s : State) : Mode → State
  | .enc => { s with cfg := { s.cfg with maxWords := 2 * s.cfg.maxWords } }
  | .dec => { s with bs := { s.bs with blen := s.bs.rpos + s.bs.blen + 1 } }

@[simp] theorem State.withRoom_cm (s : State) (m : Mode) : (s.withRoom m).cm = s.cm := by cases m <;> rfl

theorem lock_withRoom {m : Mode} {s : State} (hwf : m = .enc → s.bs.Wf s.cfg) (budget : Word) :
    (outlasts m).Lock (speckInit m budget (s.withRoom m)) (speckInit m budget s) := by
  cases m with
  | enc => exact ⟨⟨rfl, rfl, rfl, rfl, rfl, rfl, rfl⟩, rfl, rfl, rfl, hwf rfl, Nat.le_refl _⟩
  | dec =>
    refine ⟨⟨rfl, rfl, rfl, rfl, rfl, rfl, rfl⟩, rfl, rfl, rfl, ?_, ?_⟩
    · show s.bs.blen < s.bs.rpos + s.bs.blen + 1
      omega
    · show s.bs.rpos < s.bs.rpos + s.bs.blen + 1
      omega

/-- The bits of a run that does not end `OK` are fewer than the array can need: with more room the run codes at least one bit
more, and no more than that bound (43_coefficient_memory_and_sets.md R223). -/
theorem speckRun_bits_lt {m : Mode} {s u : State} {budget : Word} {maxbits : Nat} {a : Status} {nb : Nat}
    (hwf : m = .enc → s.bs.Wf s.cfg) (hn : 1 ≤ s.cm.n) (hrun : speckRun m budget maxbits s = (a, nb, u)) (ha : a ≠ .ok) :
    nb < codedAtMost s.cm.n maxbits := by
  have hle := speckRun_bits_le m budget maxbits (s := s.withRoom m) ((s.withRoom_cm m).symm ▸ hn)
  obtain ⟨a₁, x, a₂, y, hx, hy, hfinal⟩ := locked_speckRun (outlasts_kept m) maxbits (lock_withRoom hwf budget)
  rw [hx, s.withRoom_cm] at hle
  obtain ⟨rfl, rfl, -⟩ : a₂ = a ∧ y.wl.nb = nb ∧ _ := by simpa only [runResult, Prod.mk.injEq] using hy.symm.trans hrun
  cases hfinal with
  | both => exact absurd rfl ha
  | ahead rel => exact rel.trans_le hle
  | stopped _ rel => exact absurd rel ha
  | later rel => exact rel.trans_le hle
  | free rel => exact rel.elim
  | freeStop rel => exact rel.elim

/-! ### `SPK_ENC` (R241 to R244, R257, R260) -/

/-- The stream `b` is `old` with `nb` bits appended at the write cursor, committed and declared (R257). -/
structure BitStream.Extends (cfg : Params) (b old : BitStream) (nb : Nat) : Prop where
  wf : b.Wf cfg
  wpos : b.wpos = old.wpos + nb
  blen : b.blen = b.wpos
  rpos : b.rpos = old.rpos
  committed : ∀ p, b.getbit p = b.logical p
  kept : ∀ p, p < old.wpos ∨ b.wpos ≤ p → b.getbit p = old.logical p

/-- With room for as many bits as the budget and the array allow, an encode ends `OK`. -/
theorem speckRun_enc_of_room {s : State} {budget : Word} {maxbits : Nat} (hc : s.cfg.Wf) (hbs : s.bs.Wf s.cfg)
    (hn : 1 ≤ s.cm.n) (hroom : s.bs.wpos + min budget.toNat (codedAtMost s.cm.n maxbits) ≤ 64 * s.cfg.maxWords) :
    ∃ nb b, speckRun .enc budget maxbits s = (.ok, nb, { s with bs := b, lip := .empty, wl := .empty }) ∧
      nb ≤ budget.toNat ∧ nb ≤ codedAtMost s.cm.n maxbits ∧ b.Extends s.cfg s.bs nb := by
  have hle := speckRun_bits_le .enc budget maxbits hn
  obtain ⟨nb, b, hrun, hnb, hwpos, hblen, hrpos, -, hwf⟩ | ⟨nb, u, hrun, -, hnb, hwpos, hfull, hmax, hwf⟩ :=
    speckRun_enc budget maxbits s
  · rw [hrun] at hle
    obtain ⟨hb, hcommitted, hkept⟩ := hwf hbs
    exact ⟨nb, b, hrun, hnb, hle, hb, hwpos, hblen, hrpos, hcommitted, hkept⟩
  · have hlt := speckRun_bits_lt (fun _ => hbs) hn hrun nofun
    have hno := BitStream.has_room hc (hwf hbs)
    omega

/-- Settles O48: the refusal is the command's first check; an encode that fits ends `OK` (`speckRun_enc_of_room`). -/
theorem encodeCompletes : Obligations.EncodeCompletes := by
  refine fun budget s hlive => ⟨fun hn => ?_, fun hc hbs _ hn hroom => ?_⟩
  · rw [exec, execSpkEnc, unlessFaulted_of_live hlive, if_pos hn, raise_eq]
  · obtain ⟨nb, b, hrun, hbudget, hcoded, hb⟩ := speckRun_enc_of_room hc hbs hn hroom
    exact ⟨nb, b, exec_spkEnc_of_run hlive hn hrun, hbudget, hcoded, hb.wf, hb.wpos, hb.blen, hb.rpos, hb.committed,
      hb.kept⟩

/-! ### `SPK_DEC` (R242, R243, R257, R261, R262) -/

/-- The pixel at the root of the partition stands in the LIP from the start (R242). -/
theorem rbit_zero_speckInit (m : Mode) (budget : Word) {s : State} (hn : 1 ≤ s.cm.n) :
    (speckInit m budget s).lip.rbit 0 = true := by
  obtain ⟨hsize, -⟩ := Bitmask.resize_spec (Bitmask.wf_empty 0) s.cm.n
  have hmask : (Bitmask.empty.resize s.cm.n).Wf s.cm.n := Bitmask.wf_resize (Bitmask.wf_empty _) (Nat.le_refl _)
  show (((s.lip.resize 0).resize s.cm.n).wbit 0 true).rbit 0 = true
  rw [Bitmask.resize_zero, Bitmask.rbit_wbit hmask (hsize.symm ▸ hn), if_pos rfl]

/-- A bitplane that begins with no `LSP` entry and with element 0 in the LIP codes a bit of that element first, and stops where
that bit does (R244 to R247). -/
theorem plane_of_codeBit_stop {m : Mode} {s : State} {p : Nat} {a : Status} (hlsp : s.wl.lsp = []) (hn : 1 ≤ s.cm.n)
    (hlip : s.lip.rbit 0 = true) (hstop : ∀ d, codeBit m d (s.setPlane p) = .stop a (s.setPlane p)) :
    plane m p s = .stop a (s.setPlane p) := by
  have hrefine : refinementPass m (s.setPlane p) = .done () (s.setPlane p) := by
    rw [refinementPass, State.setPlane_wl, hlsp, forEach]
  have hpass : lipPass m (s.setPlane p) = .stop a (s.setPlane p) := by
    obtain ⟨k, hk⟩ := Nat.exists_eq_add_of_le' hn
    rw [lipPass, State.setPlane_cm, hk, List.range_succ_eq_map, forEach, State.setPlane_lip, if_pos hlip, processPixel, hstop]
    rfl
  rw [plane, hrefine, Run.andThen, hpass, Run.andThen]

/-- Where the declared stream has ended, the next bit the decoder takes is `DATA_SHORT` (R243). -/
theorem codeBit_dec_of_short {s : State} (hbudget : s.wl.nb ≠ s.wl.b.toNat) (hshort : s.bs.blen ≤ s.bs.rpos)
    (d : State → Bool) : codeBit .dec d s = .stop .dataShort s := by
  rw [codeBit, take, if_neg hbudget, if_pos hshort]

/-- A decode with nothing declared to read and a budget consumes no bit and leaves the default array (R242, R262). -/
theorem speckRun_dec_of_short {s : State} {budget : Word} (hbudget : budget ≠ 0) (hn : 1 ≤ s.cm.n)
    (hshort : s.bs.blen ≤ s.bs.rpos) (maxbits : Nat) :
    speckRun .dec budget maxbits s = (.dataShort, 0, { s with cm := s.cm.cleared, lip := .empty, wl := .empty }) := by
  have hplane : plane .dec maxbits (speckInit .dec budget s) =
      .stop .dataShort ((speckInit .dec budget s).setPlane maxbits) :=
    plane_of_codeBit_stop rfl hn (rbit_zero_speckInit .dec budget hn) fun d =>
      codeBit_dec_of_short (s := (speckInit .dec budget s).setPlane maxbits) (BitVec.toNat_ne.1 hbudget).symm hshort d
  rw [speckRun, planes, hplane, Run.andThen]
  dsimp only
  rw [if_neg (by decide), speckEnd, Bitmask.resize_zero]
  rfl

/-- With as many bits declared as the budget and the array allow, a decode ends `OK`. -/
theorem status_of_declared {s u : State} {budget : Word} {maxbits nb : Nat} {a : Status} (hn : 1 ≤ s.cm.n)
    (hrun : speckRun .dec budget maxbits s = (a, nb, u))
    (ha : a = .ok ∨ a = .dataShort ∧ nb < budget.toNat ∧ nb = s.bs.blen - s.bs.rpos)
    (hdeclared : s.bs.rpos + min budget.toNat (codedAtMost s.cm.n maxbits) ≤ s.bs.blen) : a = .ok := by
  by_contra hne
  obtain ⟨-, hbudget, hnb⟩ := ha.resolve_left hne
  have hlt := speckRun_bits_lt (m := .dec) nofun hn hrun hne
  omega

/-- Settles O49: the refusals are the command's first checks; then it is its run (`speckRun_dec`). -/
theorem decodeCompletes : Obligations.DecodeCompletes := by
  refine fun maxbits budget s hlive => ⟨fun hmax => ?_, fun hmax hn => ?_, fun hmax hn => ?_⟩
  · rw [exec, execSpkDec, unlessFaulted_of_live hlive, if_pos hmax, raise_eq]
  · rw [exec, execSpkDec, unlessFaulted_of_live hlive, if_neg (Nat.not_lt.2 hmax), if_pos hn, raise_eq]
  · obtain ⟨status, nb, cm, hrun, hd, hext, hmag, hsgn, hbudget, hstatus⟩ := speckRun_dec budget maxbits.toNat s
    refine ⟨status, nb, cm, exec_spkDec_of_run hlive hmax hn hrun, hd, hext, hmag, hsgn, hbudget, hstatus,
      status_of_declared hn hrun hstatus, fun hshort hne => ?_⟩
    have heq := hrun.symm.trans (speckRun_dec_of_short hne hn hshort maxbits.toNat)
    obtain rfl : cm = s.cm.cleared := congrArg (fun r => r.2.2.cm) heq
    exact ⟨congrArg Prod.fst heq, fun idx hi => ⟨List.getElem?_replicate_of_lt hi, List.getElem?_replicate_of_lt hi⟩⟩

/-! ### Two budgets (R243, R255) -/

/-- The coding `d` has ended where `c` has or at `limit` bits, and its stream is the first bits of that of `c`. -/
structure Coding.Begins (limit : Nat) (d c : Coding) : Prop where
  nb : d.nb = min limit c.nb
  short : d.bs.wpos ≤ c.bs.wpos
  same : ∀ p < d.bs.wpos, d.bs.logical p = c.bs.logical p
  wf : d.bs.Wf d.cfg
  wfLong : c.bs.Wf c.cfg

/-- A coding that has reached the limit stays the beginning of one that goes on. -/
theorem Coding.Begins.goOn {limit : Nat} {c c' d : Coding} {v x : Bool} (h : d.Begins limit c) (hspent : d.nb = limit)
    (hcode : c.code .enc v = .bit x c') : d.Begins limit c' := by
  obtain ⟨g, hput, rfl⟩ := Coding.put_of_code_enc hcode
  have hnb := h.nb
  have hshort := h.short
  obtain ⟨-, -, hnone⟩ | ⟨-, g', hput', hwf, -, hwpos, -, -, hlogical⟩ := BitStream.put_cases h.wfLong v
  · exact absurd (hnone.symm.trans hput) nofun
  obtain rfl : g' = g := Option.some.inj (hput'.symm.trans hput)
  refine ⟨?_, ?_, fun p hp => ?_, h.wf, hwf⟩
  · show d.nb = min limit (c.nb + 1)
    omega
  · show d.bs.wpos ≤ g'.wpos
    omega
  · rw [h.same p hp, hlogical, if_neg (by omega)]

/-- The second of two encoders has the budget `limit`, and the first no smaller one: both emit the same bits until it is
spent. -/
def smallerBudget (limit : Nat) : LockRel where
  both c d := c.bs = d.bs ∧ c.cfg = d.cfg ∧ c.nb = d.nb ∧ d.bs.Wf d.cfg ∧ d.b.toNat = limit ∧ limit ≤ c.b.toNat ∧
    d.nb ≤ limit
  stopped a c a' d := a = .alloc ∨ a' = .ok ∧ d.Begins limit c
  ahead a' d c := a' = .ok ∧ d.nb = limit ∧ d.Begins limit c
  later _ c a' d := a' = .ok ∧ d.Begins limit c
  free _ := False
  freeStop _ _ := False

theorem begins_of_both {limit : Nat} {c d : Coding} (h : (smallerBudget limit).both c d) : d.Begins limit c := by
  obtain ⟨hbs, hcfg, hnb, hwf, -, -, hle⟩ := h
  exact ⟨by omega, by rw [hbs], fun p _ => by rw [hbs], hwf, by rw [hbs, hcfg]; exact hwf⟩

theorem smallerBudget_kept (limit : Nat) : (smallerBudget limit).Kept .enc where
  both c d v h := by
    have hbegins := begins_of_both h
    obtain ⟨hbs, hcfg, hnb, hwf, hd, hc, hle⟩ := h
    by_cases hspent : d.nb = limit
    · rw [Coding.code_of_spent (hspent.trans hd.symm)]
      cases hcode : c.code .enc v with
      | bit x c' => exact .inl ⟨rfl, hspent, hbegins.goOn hspent hcode⟩
      | stop a => exact .inl (.inr ⟨rfl, hbegins⟩)
    · have hd' : d.nb ≠ d.b.toNat := by omega
      have hc' : c.nb ≠ c.b.toNat := by omega
      cases hput : d.bs.put d.cfg.maxWords v with
      | none =>
        rw [Coding.code_enc_of_full hd' hput, Coding.code_enc_of_full hc' (by rw [hbs, hcfg, hput])]
        exact .inl (.inl rfl)
      | some g =>
        rw [Coding.code_enc_of_put hd' hput, Coding.code_enc_of_put hc' (by rw [hbs, hcfg, hput])]
        exact .inl ⟨rfl, rfl, hcfg, congrArg (· + 1) hnb, BitStream.wf_put hwf hput, hd, hc,
          Nat.lt_of_le_of_ne hle hspent⟩
  ahead a d c v h := by
    obtain ⟨ha, hspent, hbegins⟩ := h
    cases hcode : c.code .enc v with
    | bit x c' => exact ⟨ha, hspent, hbegins.goOn hspent hcode⟩
    | stop a' => exact ⟨ha, hbegins⟩
  free _ _ h := h.elim

/-- If an encode with the larger of two budgets ends `OK`, one with the smaller does, at its budget or where the other ends,
having written the first bits of the other's stream. -/
theorem speckRun_enc_of_smaller_budget {s u : State} {b1 b2 : Word} {maxbits nb : Nat} (hbs : s.bs.Wf s.cfg)
    (hle : b1.toNat ≤ b2.toNat) (hrun : speckRun .enc b2 maxbits s = (.ok, nb, u)) :
    ∃ v, speckRun .enc b1 maxbits s = (.ok, min b1.toNat nb, v) ∧ ∀ p < v.bs.wpos, v.bs.getbit p = u.bs.getbit p := by
  obtain ⟨a, x, a', y, hx, hy, hfinal⟩ := locked_speckRun (smallerBudget_kept b1.toNat) (budget := b2) (budget' := b1)
    (s := s) (u := s) maxbits
    ⟨⟨rfl, rfl, rfl, rfl, rfl, rfl, rfl⟩, rfl, rfl, rfl, hbs, rfl, hle, Nat.zero_le _⟩
  obtain ⟨rfl, rfl, rfl⟩ := of_runResult_ok (hx.symm.trans hrun)
  obtain ⟨rfl, hbegins⟩ : a' = .ok ∧ y.coding.Begins b1.toNat x.coding := by
    cases hfinal with
    | both lock => exact ⟨rfl, begins_of_both lock.2⟩
    | ahead rel =>
      obtain ⟨hok, -, hbegins⟩ := rel
      exact ⟨hok, hbegins⟩
    | stopped _ rel => exact rel.resolve_left nofun
    | later rel => exact rel
    | free rel => exact rel.elim
    | freeStop rel => exact rel.elim
  refine ⟨speckEnd .enc y, ?_, fun p hp => ?_⟩
  · rw [hy, runResult, if_neg (by decide)]
    exact congrArg (fun n => (Status.ok, n, speckEnd .enc y)) hbegins.nb
  · obtain ⟨-, -, hwpos, -, -, -, hgetY⟩ := BitStream.flush_spec hbegins.wf
    obtain ⟨-, -, -, -, -, -, hgetX⟩ := BitStream.flush_spec hbegins.wfLong
    exact (hgetY p).trans ((hbegins.same p (hp.trans_eq hwpos)).trans (hgetX p).symm)

/-- An encode that ends `OK` moves the write cursor by the bits it emits. -/
theorem wpos_of_speckRun_enc {s u : State} {budget : Word} {maxbits nb : Nat}
    (hrun : speckRun .enc budget maxbits s = (.ok, nb, u)) : u.bs.wpos = s.bs.wpos + nb := by
  obtain ⟨nb', b, h, -, hwpos, -⟩ | ⟨nb', u', h, -⟩ := speckRun_enc budget maxbits s
  · obtain ⟨-, rfl, rfl⟩ : Status.ok = Status.ok ∧ nb = nb' ∧ u = _ := by
      simpa only [Prod.mk.injEq] using hrun.symm.trans h
    exact hwpos
  · exact absurd (congrArg Prod.fst (hrun.symm.trans h)) nofun

/-- Settles O50: both commands are their runs, and those stand as `speckRun_enc_of_smaller_budget` says. -/
theorem encodePrefix : Obligations.EncodePrefix := by
  intro b1 b2 s t1 t2 hlive _ hbs hle hn hexec1 hexec2 hok
  obtain ⟨⟨status, nb, u⟩, hrun⟩ : ∃ r, speckRun .enc b2 s.cm.maxbits s = r := ⟨_, rfl⟩
  obtain rfl := Host.Outcome.next.inj ((exec_spkEnc_of_run hlive hn hrun).symm.trans hexec2)
  obtain rfl := (State.endedWith_finish u status _ _).1 hok
  obtain ⟨v, hrun1, hbits⟩ := speckRun_enc_of_smaller_budget hbs hle hrun
  obtain rfl := Host.Outcome.next.inj ((exec_spkEnc_of_run hlive hn hrun1).symm.trans hexec1)
  refine ⟨(State.endedWith_finish ..).2 rfl, ?_⟩
  simp only [State.finish_ok_bs]
  refine ⟨?_, hbits⟩
  rw [wpos_of_speckRun_enc hrun1, wpos_of_speckRun_enc hrun]
  omega

/-! ### Two streams with the same bits (R243, R255) -/

/-- Two decoders began on `src` and on `src'`: they take the same bits as long as they take no more than `len`. -/
def sameBits (src src' : BitStream) (len : Nat) : LockRel where
  both c d := c.b = d.b ∧ c.nb = d.nb ∧ c.bs = { src with rpos := src.rpos + c.nb } ∧
    d.bs = { src' with rpos := src'.rpos + d.nb }
  stopped a c a' d := a = .ok → a' = .ok ∧ c.nb = d.nb
  ahead _ _ _ := False
  later _ _ _ _ := False
  free c := len < c.nb
  freeStop a c := a = .ok → len < c.nb

theorem sameBits_kept {src src' : BitStream} {len : Nat} (hlen : src'.rpos + len ≤ src'.blen)
    (hbits : ∀ i < len, src'.getbit (src'.rpos + i) = src.getbit (src.rpos + i)) : (sameBits src src' len).Kept .dec where
  both c d v h := by
    obtain ⟨hb, hnb, hc, hd⟩ := h
    by_cases hspent : c.nb = c.b.toNat
    · rw [Coding.code_of_spent hspent, Coding.code_of_spent (by rw [← hnb, ← hb, hspent])]
      exact .inl fun _ => ⟨rfl, hnb⟩
    by_cases hshort : c.bs.blen ≤ c.bs.rpos
    · rw [Coding.code_dec_of_short hspent hshort]
      cases d.code .dec v with
      | bit y d' => exact nofun
      | stop a' => exact .inl nofun
    rw [Coding.code_dec_of_declared hspent (Nat.not_le.1 hshort)]
    by_cases hin : c.nb < len
    · have hdeclared : d.bs.rpos < d.bs.blen := by
        rw [hd, ← hnb]
        show src'.rpos + c.nb < src'.blen
        omega
      rw [Coding.code_dec_of_declared (by rwa [← hnb, ← hb]) hdeclared]
      refine .inl ⟨?_, hb, congrArg (· + 1) hnb, ?_, ?_⟩
      · rw [hc, hd, ← hnb]
        exact (hbits c.nb hin).symm
      · rw [hc]
        rfl
      · rw [hd]
        rfl
    · have hpast : len < c.nb + 1 := Nat.lt_succ_of_le (Nat.not_lt.1 hin)
      cases d.code .dec v with
      | bit y d' => exact .inr hpast
      | stop a' => exact .inr hpast
  ahead _ _ _ _ h := h.elim
  free c v h := by
    cases hcode : c.code .dec v with
    | bit x c' => exact (Nat.lt_succ_of_lt h).trans_eq (Coding.code_nb hcode).symm
    | stop a => exact fun _ => h

/-- If a decode ends `OK`, one of the bits it consumed, from wherever they stand in another stream, ends so too, with the same
array. -/
theorem speckRun_dec_of_same_bits {s u : State} {b : BitStream} {budget : Word} {maxbits nb : Nat}
    (hrun : speckRun .dec budget maxbits s = (.ok, nb, u)) (hlen : b.rpos + nb ≤ b.blen)
    (hbits : ∀ i < nb, b.getbit (b.rpos + i) = s.bs.getbit (s.bs.rpos + i)) :
    ∃ v, speckRun .dec budget maxbits { s with bs := b } = (.ok, nb, v) ∧ v.cm = u.cm := by
  obtain ⟨a, x, a', y, hx, hy, hfinal⟩ := locked_speckRun (sameBits_kept hlen hbits) (budget := budget) (budget' := budget)
    (s := s) (u := { s with bs := b }) maxbits ⟨⟨rfl, rfl, rfl, rfl, rfl, rfl, rfl⟩, rfl, rfl, rfl, rfl⟩
  obtain ⟨rfl, rfl, rfl⟩ := of_runResult_ok (hx.symm.trans hrun)
  obtain ⟨rfl, hnb, hcm⟩ : a' = .ok ∧ x.wl.nb = y.wl.nb ∧ y.cm = x.cm := by
    cases hfinal with
    | both lock =>
      obtain ⟨hsame, -, hnb, -⟩ := lock
      exact ⟨rfl, hnb, hsame.cm⟩
    | ahead rel => exact rel.elim
    | stopped same rel =>
      obtain ⟨hok, hnb⟩ := rel rfl
      exact ⟨hok, hnb, same.cm⟩
    | later rel => exact rel.elim
    | free rel => exact absurd rel (Nat.lt_irrefl _)
    | freeStop rel => exact absurd (rel rfl) (Nat.lt_irrefl _)
  exact ⟨speckEnd .dec y, by rw [hy, hnb]; rfl, hcm⟩

/-- A decode moves the read cursor by the bits it consumes. -/
theorem rpos_of_speckRun_dec {s u : State} {budget : Word} {maxbits nb : Nat} {a : Status}
    (hrun : speckRun .dec budget maxbits s = (a, nb, u)) : u.bs.rpos = s.bs.rpos + nb := by
  obtain ⟨a', nb', cm, h, -⟩ := speckRun_dec budget maxbits s
  obtain ⟨-, rfl, rfl⟩ : a = a' ∧ nb = nb' ∧ u = _ := by simpa only [Prod.mk.injEq] using hrun.symm.trans h
  rfl

/-- A `SPK_DEC` that ends `OK` has passed its checks, and is a run that ends `OK`. -/
theorem run_of_spkDec_ok {s t : State} {maxbits : Byte} {budget : Word} (hlive : s.st.faulted = false)
    (hexec : exec (.spkDec maxbits budget) s = .next t) (hok : t.endedWith .ok) :
    maxbits.toNat ≤ 63 ∧ 1 ≤ s.cm.n ∧ ∃ nb u, speckRun .dec budget maxbits.toNat s = (.ok, nb, u) ∧
      t = u.finish .ok (BitVec.ofNat 64 nb) 0 := by
  obtain ⟨hillegal, harg, -⟩ := decodeCompletes maxbits budget s hlive
  have refused : ∀ status, exec (.spkDec maxbits budget) s = .next (s.finish status 0 0) → status = .ok := fun status h =>
    (State.endedWith_finish s status 0 0).1 (Host.Outcome.next.inj (hexec.symm.trans h) ▸ hok)
  have hmax : maxbits.toNat ≤ 63 := Nat.not_lt.1 fun h => absurd (refused _ (hillegal h)) nofun
  have hn : 1 ≤ s.cm.n := Nat.one_le_iff_ne_zero.2 fun h => absurd (refused _ (harg hmax h)) nofun
  obtain ⟨⟨status, nb, u⟩, hrun⟩ : ∃ r, speckRun .dec budget maxbits.toNat s = r := ⟨_, rfl⟩
  obtain rfl := Host.Outcome.next.inj ((exec_spkDec_of_run hlive hmax hn hrun).symm.trans hexec)
  obtain rfl := (State.endedWith_finish u status _ _).1 hok
  exact ⟨hmax, hn, nb, u, hrun, rfl⟩

/-- Settles O51: the second command passes the checks that the first did, and its run follows the first's
(`speckRun_dec_of_same_bits`). -/
theorem decodeReadsOnlyConsumedBits : Obligations.DecodeReadsOnlyConsumedBits := by
  intro maxbits budget s t b hlive hexec hok hlen hbits
  obtain ⟨hmax, hn, nb, u, hrun, rfl⟩ := run_of_spkDec_ok hlive hexec hok
  rw [State.finish_ok_bs, rpos_of_speckRun_dec hrun, Nat.add_sub_cancel_left] at hlen hbits ⊢
  obtain ⟨v, hrun', hcm⟩ := speckRun_dec_of_same_bits hrun hlen hbits
  refine ⟨_, exec_spkDec_of_run (s := { s with bs := b }) hlive hmax hn hrun', (State.endedWith_finish ..).2 rfl, ?_⟩
  rw [State.finish_ok_cm, State.finish_ok_cm, State.finish_ok_bs]
  exact ⟨hcm, rpos_of_speckRun_dec hrun'⟩

end Sys2Proof.Machine

/-! SUPPORT. The statement of 45_outlier_coder.md on `OUT_ENC` with sound records: it passes its checks, and is then an encode of
the dense array that has room (`speckRun_enc_of_room`). -/

namespace Sys2Proof.Machine

theorem denseOutliers_d (tau : Word) (n : Nat) (records : List OutlierRecord) : (denseOutliers tau n records).d = 1 := by
  suffices h : ∀ cm : CoefMem, (records.foldl (CoefMem.placeOutlier tau) cm).d = cm.d from h _
  induction records with
  | nil => exact fun _ => rfl
  | cons r rs ih => exact fun cm => ih _

/-- Sound records pass check 6 of R294. -/
theorem checkRecords_of_sound {s : State} {addr len count : Nat} (h : ∀ j < count, s.SoundRecord addr len j) :
    checkRecords s.oc.tol len [] (s.xb.outlierRecords addr count) = none := by
  refine (checkRecords_eq_none_iff ..).2 ⟨fun r hr => ?_, ?_⟩
  · obtain ⟨j, hj, rfl⟩ := Memory.mem_outlierRecords.1 hr
    obtain ⟨hpos, hfinite, htol, hfits, -⟩ := h j hj
    exact (checkRecord_eq_none_iff ..).2 ⟨hpos, hfinite, htol, hfits, List.not_mem_nil⟩
  · rw [Memory.outlierRecords, List.map_map]
    refine List.Nodup.map_on (fun i hi j hj heq => ?_) List.nodup_range
    obtain ⟨-, -, -, -, hdistinctI⟩ := h i (List.mem_range.1 hi)
    obtain ⟨-, -, -, -, hdistinctJ⟩ := h j (List.mem_range.1 hj)
    obtain hlt | hij | hlt := lt_trichotomy i j
    · exact absurd heq (hdistinctJ i hlt)
    · exact hij
    · exact absurd heq.symm (hdistinctI j hlt)

/-- Operands with which `OUT_ENC` passes its checks (R294). -/
theorem outEncCheck_of_sound {s : State} {addr count len : Word} (halign : addr.toNat % 8 = 0)
    (hfit : addr.toNat + 16 * count.toNat ≤ s.cfg.xbBytes) (htolv : s.oc.tolv = true) (hpos : 1 ≤ len.toNat)
    (hmax : len.toNat ≤ s.cfg.maxElems) (hsound : ∀ j < count.toNat, s.SoundRecord addr.toNat len.toNat j) :
    outEncCheck addr count len s = none := by
  have hne : len.toNat ≠ 0 := Nat.ne_of_gt hpos
  have hle : ¬ len.toNat > s.cfg.maxElems := Nat.not_lt.2 hmax
  simp only [outEncCheck, aligned8, State.xbHolds, halign, hfit, htolv, hne, hle, beq_self_eq_true, decide_true,
    Bool.not_true, Bool.false_eq_true, if_false]
  exact checkRecords_of_sound hsound

theorem codedAtMost_mono {n m m' : Nat} (h : m ≤ m') : codedAtMost n m ≤ codedAtMost n m' :=
  Nat.mul_le_mul_right _ (Nat.succ_le_succ h)

/-- With room for the bits of 64 bitplanes, an encode of the whole array ends `OK`: no magnitude has more. -/
theorem speckRun_enc_of_room_for_words {s : State} (hc : s.cfg.Wf) (hbs : s.bs.Wf s.cfg) (hn : 1 ≤ s.cm.n)
    (hroom : s.bs.wpos + codedAtMost s.cm.n 63 ≤ 64 * s.cfg.maxWords) :
    ∃ nb b, speckRun .enc all1 s.cm.maxbits s = (.ok, nb, { s with bs := b, lip := .empty, wl := .empty }) ∧
      nb ≤ codedAtMost s.cm.n s.cm.maxbits ∧ b.Extends s.cfg s.bs nb := by
  have hmono := codedAtMost_mono (n := s.cm.n) s.cm.maxbits_le
  obtain ⟨nb, b, hrun, -, hcoded, hb⟩ := speckRun_enc_of_room (budget := all1) (maxbits := s.cm.maxbits) hc hbs hn (by omega)
  exact ⟨nb, b, hrun, hcoded, hb⟩

/-- Settles O54: `denseOutliers_spec` says what the dense array holds, `selectWidth_spec` which width is answered. -/
theorem outEncCompletes : Obligations.OutEncCompletes := by
  intro addr count len s hlive hc hbs halign hfit htolv hpos hmax hsound hroom
  obtain ⟨hext, hplaced, hother⟩ := denseOutliers_spec (checkRecords_of_sound hsound)
  have hn : (s.stageOutliers addr count len).cm.n = len.toNat := CoefMem.n_of_line hext
  obtain ⟨nb, b, hrun, hcoded, hb⟩ := speckRun_enc_of_room_for_words (s := s.stageOutliers addr count len) hc hbs
    (hn.symm ▸ hpos) (hn.symm ▸ hroom)
  obtain ⟨hwide, hnarrow⟩ := selectWidth_spec (s.stageOutliers addr count len).cm.maxMag_lt
  refine ⟨_, b, nb, _, exec_outEnc_of_run hlive (outEncCheck_of_sound halign hfit htolv hpos hmax hsound) hrun,
    wf_denseOutliers hpos hmax _ _, denseOutliers_d _ _ _, hext, fun j hj => ?_,
    fun idx hi hno => hother idx hi fun r hr => ?_, selectWidth_le _, hwide, hnarrow, hn ▸ hcoded, hb.wf, hb.wpos, hb.blen,
    hb.rpos, hb.committed, hb.kept⟩
  · exact (hplaced _ (Memory.mem_outlierRecords.2 ⟨j, hj, rfl⟩)).2
  · obtain ⟨j, hj, rfl⟩ := Memory.mem_outlierRecords.1 hr
    exact hno j hj

end Sys2Proof.Machine

/-! SUPPORT. The statements of 45_outlier_coder.md on the checks of `OUT_ENC` and `OUT_DEC`, and on what `OUT_DEC` ends with:
after its checks it is a decode into a fresh line (`speckRun_dec`) and then one of three endings (`endOutDec_of_short`,
`endOutDec_of_no_room`, `exec_outDec_of_run`). The records in `XB` are the words of the list, two for each position. -/

namespace Sys2Proof.Machine

/-! ### The checks of `OUT_ENC` (R294) -/

section OutEncChecks

/-- The checks of a record, read as propositions. -/
theorem checkRecord_eq (tau : Word) (n : Nat) (seen : List Nat) (r : OutlierRecord) :
    checkRecord tau n seen r =
      if n ≤ r.pos then some .range
      else if Real.finite r.error = false ∨ Real.fge (Real.fabs r.error) tau = false ∨
        Real.flt (quantize tau r.error) Real.two64 = false ∨ r.pos ∈ seen then some .arg
      else none := by
  simp only [checkRecord, Nat.not_lt, Bool.not_eq_true', Bool.and_eq_false_iff, ite_or]

/-- The records before record `j`, record `j`, and those after it. -/
theorem Memory.outlierRecords_split (m : Memory) (a : Nat) {j c : Nat} (hj : j < c) :
    ∃ rest, m.outlierRecords a c = m.outlierRecords a j ++ m.outlierRecord a j :: rest := by
  obtain ⟨k, rfl⟩ := Nat.exists_eq_add_of_lt hj
  refine ⟨(List.range k).map fun i => m.outlierRecord a (j + (i + 1)), ?_⟩
  simp [Memory.outlierRecords, Nat.add_assoc, List.range_add, List.range_succ_eq_map, Function.comp_def]

variable {s : State} {addr count len : Word}

theorem exec_outEnc_of_check {status : Status} (hlive : s.st.faulted = false)
    (h : outEncCheck addr count len s = some status) : exec (.outEnc addr count len) s = .next (s.finish status 0 0) := by
  rw [exec, execOutEnc, unlessFaulted_of_live hlive, h]; rfl

/-- The checks of `OUT_ENC`, read as propositions. -/
theorem outEncCheck_eq : outEncCheck addr count len s =
    if addr.toNat % 8 ≠ 0 then some .align
    else if s.cfg.xbBytes < addr.toNat + 16 * count.toNat then some .range
    else if s.oc.tolv = false ∨ len.toNat = 0 then some .arg
    else if s.cfg.maxElems < len.toNat then some .alloc
    else checkRecords s.oc.tol len.toNat [] (s.xb.outlierRecords addr.toNat count.toNat) := by
  simp only [outEncCheck, aligned8, State.xbHolds, Bool.not_eq_true', beq_eq_false_iff_ne, decide_eq_false_iff_not,
    Nat.not_le, ite_or]

/-- The first record that is not sound decides. -/
theorem checkRecords_of_first_unsound {j : Nat} {status : Status} (hj : j < count.toNat)
    (hsound : ∀ i < j, s.SoundRecord addr.toNat len.toNat i)
    (h : checkRecord s.oc.tol len.toNat ((s.xb.outlierRecords addr.toNat j).map (·.pos)).reverse
      (s.xb.outlierRecord addr.toNat j) = some status) :
    checkRecords s.oc.tol len.toNat [] (s.xb.outlierRecords addr.toNat count.toNat) = some status := by
  obtain ⟨rest, hsplit⟩ := s.xb.outlierRecords_split addr.toNat hj
  rw [hsplit]
  exact checkRecords_append_cons _ _ _ _ _ _ _ (checkRecords_of_sound hsound) (by rwa [List.append_nil])

end OutEncChecks

/-- Settles O56: the first check of `outEncCheck_eq` that fails decides, and in the last of them the first unsound record. -/
theorem outEncRefusals : Obligations.OutEncRefusals := by
  intro addr count len s hlive answers r
  have refuses : ∀ {status}, outEncCheck addr count len s = some status → answers status := exec_outEnc_of_check hlive
  refine ⟨fun halign => refuses ?_, fun halign => ⟨fun hlong => refuses ?_, fun hfit =>
    ⟨fun hoperand => refuses ?_, exec_outEnc_of_too_long hlive halign hfit, fun htolv hpos hmax j hj hsound => ?_⟩⟩⟩
  · rw [outEncCheck_eq, if_pos halign]
  · rw [outEncCheck_eq, if_neg (not_not.2 halign), if_pos hlong]
  · rw [outEncCheck_eq, if_neg (not_not.2 halign), if_neg (Nat.not_lt.2 hfit), if_pos hoperand]
  · have hoperand : ¬ (s.oc.tolv = false ∨ len.toNat = 0) := by simp [htolv, Nat.ne_of_gt hpos]
    have decides : ∀ {status}, checkRecord s.oc.tol len.toNat ((s.xb.outlierRecords addr.toNat j).map (·.pos)).reverse
        (r j) = some status → answers status := fun h => refuses <| by
      rw [outEncCheck_eq, if_neg (not_not.2 halign), if_neg (Nat.not_lt.2 hfit), if_neg hoperand,
        if_neg (Nat.not_lt.2 hmax), checkRecords_of_first_unsound hj hsound h]
    refine ⟨fun hout => decides ?_, fun hin hfails => decides ?_⟩
    · rw [checkRecord_eq, if_pos hout]
    · rw [checkRecord_eq, if_neg (Nat.not_le.2 hin), if_pos]
      simpa [Memory.outlierRecords] using hfails

/-! ### The checks of `OUT_DEC` (R296) -/

section OutDecChecks

variable {s : State} {maxbits wsel : Byte} {addr len : Word}

theorem exec_outDec_of_check {status : Status} (hlive : s.st.faulted = false)
    (h : outDecCheck maxbits wsel addr len s = some status) :
    exec (.outDec maxbits wsel addr len) s = .next (s.finish status 0 0) := by
  rw [exec, execOutDec, unlessFaulted_of_live hlive, h]; rfl

/-- The checks of `OUT_DEC`, read as propositions. -/
theorem outDecCheck_eq : outDecCheck maxbits wsel addr len s =
    if 63 < maxbits.toNat ∨ 3 < wsel.toNat then some .illegal
    else if addr.toNat % 8 ≠ 0 then some .align
    else if s.cfg.xbBytes < addr.toNat then some .range
    else if s.oc.tolv = false ∨ len.toNat = 0 then some .arg
    else if s.cfg.maxElems < len.toNat then some .alloc
    else if 8 * 2 ^ wsel.toNat ≤ maxbits.toNat then some .dataWidth
    else none := by
  simp only [outDecCheck, aligned8, State.xbHolds, selectedWidth, Nat.add_zero, Bool.not_eq_true', beq_eq_false_iff_ne,
    decide_eq_false_iff_not, Nat.not_le, Bool.or_eq_true, decide_eq_true_eq, gt_iff_lt, ge_iff_le, ite_or]

/-- Where no check before the last fails, the width decides. -/
theorem outDecCheck_of_width (hmaxbits : maxbits.toNat ≤ 63) (hwsel : wsel.toNat ≤ 3) (halign : addr.toNat % 8 = 0)
    (hfit : addr.toNat ≤ s.cfg.xbBytes) (htolv : s.oc.tolv = true) (hpos : 1 ≤ len.toNat)
    (hmax : len.toNat ≤ s.cfg.maxElems) :
    outDecCheck maxbits wsel addr len s = if 8 * 2 ^ wsel.toNat ≤ maxbits.toNat then some .dataWidth else none := by
  have hoperand : ¬ (s.oc.tolv = false ∨ len.toNat = 0) := by simp [htolv, Nat.ne_of_gt hpos]
  rw [outDecCheck_eq, if_neg (by omega), if_neg (not_not.2 halign), if_neg (Nat.not_lt.2 hfit), if_neg hoperand,
    if_neg (Nat.not_lt.2 hmax)]

end OutDecChecks

/-- Settles O57: the first check of `outDecCheck_eq` that fails decides. -/
theorem outDecRefusals : Obligations.OutDecRefusals := by
  intro maxbits wsel addr len s hlive answers
  have refuses : ∀ {status}, outDecCheck maxbits wsel addr len s = some status → answers status :=
    exec_outDec_of_check hlive
  refine ⟨fun hreserved => refuses ?_, fun hmaxbits hwsel => ?_⟩
  · rw [outDecCheck_eq, if_pos hreserved]
  have hlegal : ¬ (63 < maxbits.toNat ∨ 3 < wsel.toNat) := by omega
  refine ⟨fun halign => refuses ?_, fun halign => ⟨fun hout => refuses ?_, fun hfit => ⟨fun hoperand => refuses ?_,
    exec_outDec_of_too_long hlive hmaxbits hwsel halign hfit, fun htolv hpos hmax hwidth => refuses ?_⟩⟩⟩
  · rw [outDecCheck_eq, if_neg hlegal, if_pos halign]
  · rw [outDecCheck_eq, if_neg hlegal, if_neg (not_not.2 halign), if_pos hout]
  · rw [outDecCheck_eq, if_neg hlegal, if_neg (not_not.2 halign), if_neg (Nat.not_lt.2 hfit), if_pos hoperand]
  · rw [outDecCheck_of_width hmaxbits hwsel halign hfit htolv hpos hmax, if_pos hwidth]

/-! ### The list of an array (R293, R296) -/

section OutlierList

variable {cm : CoefMem} {idx : Nat}

/-- The list names the elements whose magnitude is not 0. -/
theorem CoefMem.mem_outlierPositions_iff (hlen : cm.mag.length = cm.n) :
    idx ∈ cm.outlierPositions ↔ idx < cm.n ∧ cm.mag[idx]? ≠ some 0 := by
  rw [CoefMem.mem_outlierPositions]
  refine and_congr_right fun hi => ?_
  rw [List.getD_eq_getElem?_getD, List.getElem?_eq_getElem (hlen ▸ hi), Option.getD_some, ne_eq, ne_eq, Option.some_inj]

/-- The value of an element of known magnitude and sign. -/
theorem CoefMem.outlierValue_of_getElem? {mag : Word} {sign : Bool} (hmag : cm.mag[idx]? = some mag)
    (hsgn : cm.sgn[idx]? = some sign) (tau : Word) :
    cm.outlierValue tau idx =
      if sign then Real.fmul tau (Real.u2f mag) else Real.fnegate (Real.fmul tau (Real.u2f mag)) := by
  simp only [CoefMem.outlierValue, List.getD_eq_getElem?_getD, hmag, hsgn, Option.getD_some]

/-- Record `j` of a written list: the `j`-th position and that element's value. -/
theorem Memory.readWord_writeWords_outlierWords {m : Memory} (hm : m.wf = true) (a : Nat) (tau : Word) {j : Nat}
    (hj : cm.outlierPositions[j]? = some idx) :
    (m.writeWords a (cm.outlierWords tau)).readWord (a + 16 * j) = BitVec.ofNat 64 idx ∧
      (m.writeWords a (cm.outlierWords tau)).readWord (a + 16 * j + 8) = cm.outlierValue tau idx := by
  obtain ⟨hlt, rfl⟩ := List.getElem?_eq_some_iff.1 hj
  have hlen := cm.outlierWords_length tau
  obtain ⟨hpos, hvalue⟩ := flatMap_pair_getD (BitVec.ofNat 64) (cm.outlierValue tau) cm.outlierPositions hlt
  rw [show a + 16 * j = a + 8 * (2 * j) by omega, show a + 8 * (2 * j) + 8 = a + 8 * (2 * j + 1) by omega,
    Memory.readWord_writeWords hm _ _ (by omega), Memory.readWord_writeWords hm _ _ (by omega)]
  exact ⟨hpos, hvalue⟩

end OutlierList

/-! ### The three endings of `OUT_DEC` (R296, R333, R340) -/

section OutDecEnds

variable {s u : State} {maxbits wsel : Byte} {addr len : Word} {nb : Nat}

/-- An `OUT_DEC` that passes its checks is the decode of a fresh line, and then one of its endings. -/
theorem exec_outDec_eq_endOutDec {status : Status} (hlive : s.st.faulted = false)
    (hcheck : outDecCheck maxbits wsel addr len s = none)
    (hrun : speckRun .dec all1 maxbits.toNat { s with cm := .shaped 1 ⟨len.toNat, 1, 1⟩ } = (status, nb, u)) :
    exec (.outDec maxbits wsel addr len) s = endOutDec addr status nb u := by
  rw [exec, execOutDec, unlessFaulted_of_live hlive, hcheck]
  simp only [hrun]

theorem endOutDec_of_short : endOutDec addr .dataShort nb u = .next (u.finish .dataShort 0 (BitVec.ofNat 64 nb)) :=
  if_pos rfl

theorem endOutDec_of_no_room (h : u.cfg.xbBytes < addr.toNat + 16 * u.cm.outlierPositions.length) :
    endOutDec addr .ok nb u = .next (u.finish .range 0 0) := by
  rw [endOutDec, if_neg (by decide)]
  exact if_neg (by simpa [State.xbHolds] using h)

/-- A decode with a budget and nothing declared to read ends `DATA_SHORT`. -/
theorem status_of_nothing_declared {status : Status} {budget : Word} {maxbits : Nat} (hbudget : budget ≠ 0)
    (hn : 1 ≤ s.cm.n) (hrun : speckRun .dec budget maxbits s = (status, nb, u)) (hshort : s.bs.blen ≤ s.bs.rpos) :
    status = .dataShort :=
  congrArg Prod.fst (hrun.symm.trans (speckRun_dec_of_short hbudget hn hshort maxbits))

end OutDecEnds

/-- Settles O55: the run of `SPK_DEC` on the fresh line (`speckRun_dec`) is that of `OUT_DEC` too, and its ending follows from
the status of the run and the length of the list. -/
theorem outDecCompletes : Obligations.OutDecCompletes := by
  intro maxbits wsel addr len s hlive hxb hmaxbits hwsel hwidth halign haddr htolv hpos hmax
  have hcheck : outDecCheck maxbits wsel addr len s = none := by
    rw [outDecCheck_of_width hmaxbits hwsel halign haddr htolv hpos hmax, if_neg (Nat.not_le.2 hwidth)]
  have hn : (CoefMem.shaped 1 ⟨len.toNat, 1, 1⟩).n = len.toNat := CoefMem.n_of_line rfl
  have hshaped : 1 ≤ (CoefMem.shaped 1 ⟨len.toNat, 1, 1⟩).n := hpos.trans_eq hn.symm
  obtain ⟨status, nb, cm, hrun, hd, hext, hmag, hsgn, -, hstatus⟩ :=
    speckRun_dec all1 maxbits.toNat { s with cm := .shaped 1 ⟨len.toNat, 1, 1⟩ }
  have hcmn : cm.n = len.toNat := CoefMem.n_of_line hext
  have hends := exec_outDec_eq_endOutDec hlive hcheck hrun
  have hok : s.bs.rpos + codedAtMost len.toNat maxbits.toNat ≤ s.bs.blen → status = .ok := fun hdeclared =>
    status_of_declared hshaped hrun hstatus (by rw [hn]; dsimp only; omega)
  have hempty : s.bs.blen ≤ s.bs.rpos → status = .dataShort :=
    status_of_nothing_declared (s := { s with cm := .shaped 1 ⟨len.toNat, 1, 1⟩ }) (by decide) hshaped hrun
  refine ⟨status, nb, cm, cm.outlierPositions, exec_spkDec_of_run hlive hmaxbits hshaped hrun, hd, hext,
    hmag.trans hcmn, hsgn.trans hcmn, cm.outlierPositions_pairwise,
    fun idx => by rw [← hcmn, CoefMem.mem_outlierPositions_iff hmag], hstatus.imp_right And.left, hok, hempty,
    fun hst => ?_, fun hst hlong => ?_, fun hst hfit => ?_, fun hdeclared hfit => ?_⟩
  · subst hst
    obtain ⟨-, -, hnb⟩ := hstatus.resolve_left nofun
    exact ⟨hnb, hends.trans endOutDec_of_short⟩
  · subst hst
    exact hends.trans (endOutDec_of_no_room hlong)
  · subst hst
    have hwords := cm.outlierWords_length s.oc.tol
    refine ⟨_, exec_outDec_of_run hlive hcheck hrun hfit, Memory.within_writeWords hxb (by dsimp only; omega),
      fun j idx hj => ?_, fun a ha => ?_⟩
    · obtain ⟨hlt, -⟩ := (cm.mem_outlierPositions idx).1 (List.mem_of_getElem? hj)
      have hm := List.getElem?_eq_getElem (hmag.symm ▸ hlt)
      have hs := List.getElem?_eq_getElem (hsgn.symm ▸ hlt)
      obtain ⟨hword, hvalue⟩ := Memory.readWord_writeWords_outlierWords hxb.1 addr.toNat s.oc.tol hj
      exact ⟨_, _, hm, hs, hword, hvalue.trans (CoefMem.outlierValue_of_getElem? hm hs _)⟩
    · exact (Memory.readByte_writeWords hxb.1 ..).trans (if_neg (by dsimp only; omega))
  · have hle := cm.outlierPositions_length_le
    obtain rfl := hok hdeclared
    exact ⟨_, exec_outDec_of_run hlive hcheck hrun (by dsimp only; omega), (State.endedWith_finish ..).2 rfl⟩

end Sys2Proof.Machine

/-! SUPPORT. The statement of 46_exchange_buffer.md. Each of the four commands has one equation in a live CORE; what a store
changes and what a load answers is read off the laws of byte and word stores (Laws/Memory). -/

namespace Sys2Proof.Machine

/-! ### The exchange buffer's commands in a live CORE -/

section LiveExchange

variable {s : State} (h : s.st.faulted = false)
include h

theorem exec_xbSt8_of_live (value : Byte) (addr : Word) : exec (.xbSt8 value addr) s =
    if addr.toNat + 1 ≤ s.cfg.xbBytes then
      .next ({ s with xb := s.xb.writeByte addr.toNat value }.finish .ok 0 0)
    else .next (s.finish .range 0 0) := by
  rw [exec, execXbSt8, unlessFaulted_of_live h]
  simp only [State.xbHolds, decide_eq_true_eq, finishOk_eq, raise_eq]

theorem exec_xbLd8_of_live (addr : Word) : exec (.xbLd8 addr) s =
    if addr.toNat + 1 ≤ s.cfg.xbBytes then .next (s.finish .ok ((s.xb.readByte addr.toNat).setWidth 64) 0)
    else .next (s.finish .range 0 0) := by
  rw [exec, execXbLd8, unlessFaulted_of_live h]
  simp only [State.xbHolds, decide_eq_true_eq, finishOk_eq, raise_eq]

theorem exec_xbSt64_of_live (addr value : Word) : exec (.xbSt64 addr value) s =
    if addr.toNat % 8 ≠ 0 then .next (s.finish .align 0 0)
    else if addr.toNat + 8 ≤ s.cfg.xbBytes then
      .next ({ s with xb := s.xb.writeWord addr.toNat value }.finish .ok 0 0)
    else .next (s.finish .range 0 0) := by
  rw [exec, execXbSt64, unlessFaulted_of_live h]
  simp [aligned8, State.xbHolds, finishOk_eq, raise_eq]

theorem exec_xbLd64_of_live (addr : Word) : exec (.xbLd64 addr) s =
    if addr.toNat % 8 ≠ 0 then .next (s.finish .align 0 0)
    else if addr.toNat + 8 ≤ s.cfg.xbBytes then .next (s.finish .ok (s.xb.readWord addr.toNat) 0)
    else .next (s.finish .range 0 0) := by
  rw [exec, execXbLd64, unlessFaulted_of_live h]
  simp [aligned8, State.xbHolds, finishOk_eq, raise_eq]

end LiveExchange

/-! ### Stores and loads (R320 to R323) -/

/-- Byte `j` of a word as a number: the word shifted right by whole bytes, modulo 256 (20_memory.md R73). -/
theorem wordByte_eq_ofNat (v : Word) (j : Nat) : wordByte v j = BitVec.ofNat 8 (v.toNat / 2 ^ (8 * j)) := by
  rw [wordByte, BitVec.extractLsb', Nat.shiftRight_eq_div_pow]

/-- Settles O60: alignment and range decide in the order of the four equations, and `Memory.readByte_writeByte`,
`Memory.readByte_writeWord` and `Memory.readWord_getLsbD` say which bytes are written and read. -/
theorem exchangeAccess : Obligations.ExchangeAccess := by
  intro addr s hlive hxb
  refine ⟨fun hout => ?byteOut, fun hin => ?byteIn, fun halign => ?misaligned, fun halign hout => ?wordOut,
    fun halign hin => ?wordIn⟩
  case byteOut =>
    have hout := Nat.not_le.2 hout
    exact ⟨(exec_xbLd8_of_live hlive addr).trans (if_neg hout),
      fun value => (exec_xbSt8_of_live hlive value addr).trans (if_neg hout)⟩
  case byteIn =>
    exact ⟨by rw [exec_xbLd8_of_live hlive, if_pos hin, BitVec.ofNat_toNat],
      fun value => ⟨_, (exec_xbSt8_of_live hlive value addr).trans (if_pos hin),
        Memory.within_writeByte hxb hin value, Memory.readByte_writeByte hxb.1 addr.toNat value⟩⟩
  case misaligned =>
    exact ⟨(exec_xbLd64_of_live hlive addr).trans (if_pos halign),
      fun value => (exec_xbSt64_of_live hlive addr value).trans (if_pos halign)⟩
  case wordOut =>
    have halign := not_not_intro halign
    have hout := Nat.not_le.2 hout
    exact ⟨by rw [exec_xbLd64_of_live hlive, if_neg halign, if_neg hout],
      fun value => by rw [exec_xbSt64_of_live hlive, if_neg halign, if_neg hout]⟩
  case wordIn =>
    have halign := not_not_intro halign
    refine ⟨⟨s.xb.readWord addr.toNat, by rw [exec_xbLd64_of_live hlive, if_neg halign, if_pos hin], fun i hi => ?_⟩,
      fun value => ⟨s.xb.writeWord addr.toNat value, by rw [exec_xbSt64_of_live hlive, if_neg halign, if_pos hin],
        Memory.within_writeWord hxb value hin, fun a => ?_⟩⟩
    · rw [Memory.readWord_getLsbD, decide_eq_true hi, Bool.true_and]
    · rw [Memory.readByte_writeWord hxb.1, wordByte_eq_ofNat]

end Sys2Proof.Machine

/-! SUPPORT. The statements of 60_exceptions.md on ending a command, on contract faults and on the faulted CORE. Ending a
command writes `ST` and the response port alone unless it loses the units (`State.finish_writes_status`); a command is refused
before it changes anything, or ends with no contract fault, or is the `OUT_DEC` whose list does not fit (`exec_ends`); a frame
is `RESET` exactly if it decodes to it (`decode_eq_reset_iff`). -/

namespace Sys2Proof.Machine

/-! ### Ending a command (R331) -/

/-- Without the fatal fault, the end of a command writes `ST` and the response port and nothing else. -/
theorem State.finish_writes_status {s : State} {status : Status} {r0 r1 : Word} (h : status ≠ .alloc) :
    s.finish status r0 r1 =
      { s with st := (s.finish status r0 r1).st, rspPort := (s.finish status r0 r1).rspPort } := by
  rw [State.finish_of_ne_alloc _ _ _ _ h]

/-- `OK` and `DATA_SHORT` are the statuses that keep a command's results (30_encoding.md R103). -/
theorem responseOf_eq_ite (status : Status) (r0 r1 : Word) : responseOf status r0 r1 =
    if status = .ok ∨ status = .dataShort then ⟨status, r0, r1⟩ else ⟨status, 0, 0⟩ := by
  cases status <;> rfl

/-- Settles O11: `Status.flagMask` and `Status.code` are the rule's two tables, and the lemmas of `State.finish` say what it
keeps. -/
theorem endCommandEffect : Obligations.EndCommandEffect := by
  intro status r0 r1 s
  refine ⟨s.finish status r0 r1, endCommand_eq s status r0 r1, ?flags, ?lastst, ?faulted, ?response,
    s.finish_xb status r0 r1, s.finish_cmdPort status r0 r1, s.finish_cfg status r0 r1, State.finish_writes_status⟩
  case flags =>
    rw [State.finish_st, StatusUnit.record_flags]
    cases status with
    | ok => exact BitVec.or_zero
    | _ => rfl
  case lastst => rw [State.finish_st, StatusUnit.record_lastst]; cases status <;> rfl
  case faulted => rw [State.finish_st, StatusUnit.record_faulted, Bool.or_eq_true, beq_iff_eq]
  case response => rw [State.finish_rspPort_responseOf, responseOf_eq_ite]

/-! ### Contract faults (R333) -/

/-- How a command ends, as R333 tells the cases apart: refused before it has changed anything; with a status that is neither
a contract fault nor `DATA_WIDTH`; or with the late `RANGE` of an `OUT_DEC`, after the decode. -/
inductive CommandEnds (s : State) : Instr → Result → Prop
  | refused {i : Instr} (status : Status) : CommandEnds s i (raise status s)
  | done {i : Instr} {u : State} {status : Status} {r0 r1 : Word}
      (notContract : status = .ok ∨ status = .dataShort ∨ status = .alloc) :
      CommandEnds s i (endCommand status r0 r1 u)
  | lateRange {maxbits wsel : Byte} {addr len : Word} {nb : Nat} {cm : CoefMem}
      (noRoom : s.cfg.xbBytes < addr.toNat + 16 * cm.outlierPositions.length) :
      CommandEnds s (.outDec maxbits wsel addr len)
        (raise .range { s with bs := { s.bs with rpos := s.bs.rpos + nb }, cm := cm, lip := .empty, wl := .empty })

namespace CommandEnds

variable {s : State} {i : Instr}

theorem ok {u : State} {r0 r1 : Word} : CommandEnds s i (finishOk r0 r1 u) := .done (.inl rfl)

theorem runs {body : State → Result} (h : CommandEnds s i (body s)) :
    CommandEnds s i (unlessFaulted s body) := by
  cases hf : s.st.faulted with
  | true => exact unlessFaulted_of_faulted hf body ▸ .refused .faulted
  | false => exact unlessFaulted_of_live hf body ▸ h

theorem branch {p : Prop} [Decidable p] {a b : Result} (ha : p → CommandEnds s i a) (hb : ¬ p → CommandEnds s i b) :
    CommandEnds s i (if p then a else b) := by
  split
  · exact ha ‹_›
  · exact hb ‹_›

/-- A check that refuses the command, before what is left of its body. -/
theorem check {p : Prop} [Decidable p] {status : Status} {b : Result} (hb : CommandEnds s i b) :
    CommandEnds s i (if p then raise status s else b) := branch (fun _ => .refused status) fun _ => hb

/-- A command whose last check guards its effect. -/
theorem okIf {p : Prop} [Decidable p] {status : Status} {r0 r1 : Word} {u : State} :
    CommandEnds s i (if p then finishOk r0 r1 u else raise status s) := branch (fun _ => ok) fun _ => .refused status

theorem write (written : Option BitStream) : CommandEnds s i (endWrite written s) := by
  cases written with
  | none => exact .refused .alloc
  | some b => exact ok

end CommandEnds

/-- A coding run ends with no contract fault (44_speck_engine.md R243). -/
theorem speckRun_status (m : Mode) (budget : Word) (maxbits : Nat) (s : State) :
    (speckRun m budget maxbits s).1 = .ok ∨ (speckRun m budget maxbits s).1 = .dataShort ∨
      (speckRun m budget maxbits s).1 = .alloc := by
  cases m with
  | enc =>
    rcases speckRun_enc budget maxbits s with ⟨nb, b, h, -⟩ | ⟨nb, u, h, -⟩
    · exact .inl (congrArg Prod.fst h)
    · exact .inr (.inr (congrArg Prod.fst h))
  | dec =>
    obtain ⟨status, nb, u, h, hstatus, -⟩ := speckRun_dec_keeps budget maxbits s
    exact hstatus.elim (fun ho => .inl (h ▸ ho)) fun hd => .inr (.inl (h ▸ hd))

/-- An `OUT_DEC` past its checks has decoded into `CM` and moved the read cursor when it finds that the list does not fit
(45_outlier_coder.md R296). -/
theorem CommandEnds.afterDecode {s : State} {maxbits wsel : Byte} {addr len : Word} {status : Status} {nb : Nat}
    {cm : CoefMem} : CommandEnds s (.outDec maxbits wsel addr len) (endOutDec addr status nb
      { s with bs := { s.bs with rpos := s.bs.rpos + nb }, cm := cm, lip := .empty, wl := .empty }) := by
  unfold endOutDec
  refine .branch (fun _ => .done (.inr (.inl rfl))) fun _ => .branch (fun _ => .ok) fun hfit => ?_
  exact .lateRange (by simpa [State.xbHolds] using hfit)

open CommandEnds in
/-- Every check of a command stands before its first effect, but for the last one of `OUT_DEC`. -/
theorem exec_ends (i : Instr) (s : State) : CommandEnds s i (exec i s) := by
  cases i with
  | reset => exact ok
  | nop | bsRewind | bsFlush | mkReset | mkCount =>
    rw [exec]
    refine runs ?_
    exact ok
  | bsRbit | bsWseek | bsRseek | bsRrbit | bsRwbit | bsTest | bsGet | mkResize | mkRbit | mkWbit | mkWtrue | mkWfalse |
    mkHas | cmSt | cmLd | outTol | xbSt8 | xbLd8 =>
    rw [exec]
    refine runs ?_
    exact okIf
  | bsRbits | mkView | mkUse | xbSt64 | xbLd64 =>
    rw [exec]
    refine runs ?_
    exact check okIf
  | cmShape d n0 n1 n2 =>
    rw [exec]
    refine runs ?_
    exact check (check (check okIf))
  | bsParse addr bits =>
    rw [exec]
    refine runs ?_
    exact branch (fun _ => okIf) fun _ => .refused .range
  | rdreg reg =>
    rw [exec, execRdreg]
    refine runs ?_
    cases s.regValue reg with
    | none => exact .refused .illegal
    | some v => exact ok
  | bsWbit bit =>
    rw [exec]
    refine runs ?_
    exact write _
  | bsWbits n value =>
    rw [exec]
    refine runs ?_
    exact check (write _)
  | spkEnc budget =>
    rw [exec]
    refine runs ?_
    exact check (.done (speckRun_status _ _ _ _))
  | spkDec maxbits budget =>
    rw [exec]
    refine runs ?_
    exact check (check (.done (speckRun_status _ _ _ _)))
  | outEnc addr count len =>
    rw [exec, execOutEnc]
    refine runs ?_
    cases outEncCheck addr count len s with
    | some status => exact .refused status
    | none => exact .done (speckRun_status _ _ _ _)
  | outDec maxbits wsel addr len =>
    rw [exec, execOutDec]
    refine runs ?_
    cases outDecCheck maxbits wsel addr len s with
    | some status => exact .refused status
    | none =>
      obtain ⟨status, nb, cm, hrun, -⟩ :=
        speckRun_dec all1 maxbits.toNat { s with cm := .shaped 1 ⟨len.toNat, 1, 1⟩ }
      simp only [hrun]
      exact .afterDecode

/-- Settles O14: of the ways a command ends (`exec_ends`), a refusal leaves the state it found, and before the late `RANGE` the
decode has emptied engine units that were empty already. -/
theorem contractFaultChangesOnlyStatus : Obligations.ContractFaultChangesOnlyStatus := by
  intro i s t status hlip hwl hcontract hexec hended
  have hends : CommandEnds s i (.next t) := hexec ▸ exec_ends i s
  cases hends with
  | refused status' =>
    obtain rfl : status' = status := (State.endedWith_finish ..).1 hended
    exact .inl (State.finish_writes_status (by rintro rfl; simp at hcontract))
  | done notContract =>
    obtain rfl := (State.endedWith_finish ..).1 hended
    rcases notContract with rfl | rfl | rfl <;> simp at hcontract
  | lateRange noRoom =>
    obtain rfl : Status.range = status := (State.endedWith_finish ..).1 hended
    refine .inr ⟨_, _, _, _, rfl, rfl, ?_, ?_⟩ <;> rw [State.finish_of_ne_alloc _ _ _ _ (by decide)]
    · rw [← hlip, ← hwl]
    · exact noRoom

/-! ### The faulted CORE (R345) -/

/-- A faulted CORE refuses a frame by writing `LASTST` alone, its flag being set already. -/
theorem State.finish_faulted {s : State} (h : s.st.flags.getLsbD 7 = true) : s.finish .faulted 0 0 =
    { s with st := { s.st with lastst := 0x81 }, rspPort := s.rspPort ++ [⟨.faulted, 0, 0⟩] } := by
  rw [State.finish_of_ne_alloc _ _ _ _ (by decide), StatusUnit.record_faulted_status h]
  rfl

/-- One frame spells `RESET` (30_encoding.md R101, R106). -/
theorem decode_eq_reset_iff {f : Frame} : decode f = .ok .reset ↔ f = encode .reset :=
  ⟨fun h => (encodeInvertsDecode f .reset h).symm, fun h => h ▸ decodeInvertsEncode .reset⟩

/-- `RESET`'s opcode is no other command's (30_encoding.md R106). -/
theorem eq_reset_of_opcode {f : Frame} {i : Instr} (hop : f.opcode = 0x01) (h : decode f = .ok i) : i = .reset := by
  obtain ⟨fmt, hrow, -⟩ := decode_eq_ok_iff.1 h
  rw [hop] at hrow
  cases hrow
  rfl

theorem opcode_encode_reset : (encode .reset).opcode = 0x01 := opcode_headWord ..

/-- A faulted CORE answers a frame that spells no command by its opcode alone (30_encoding.md R102). -/
theorem rejectFrame_of_faulted {s : State} (h : s.st.faulted = true) (f : Frame) :
    rejectFrame f s = if f.opcode ≠ 0x01 then .next (s.finish .faulted 0 0) else .next (s.finish .illegal 0 0) := by
  simp [rejectFrame, h, raise_eq]

/-- A step on a frame that spells no command (R102 steps 1 to 3). -/
theorem step_eq_rejectFrame {s : State} {f : Frame} {rest : List Frame} {e : DecodeError} (hport : s.cmdPort = f :: rest)
    (he : decode f = .error e) : step s = rejectFrame f { s with cmdPort := rest } := by
  rw [step, accept_cons hport]
  simp only [he]

/-- Settles O9: a frame spells a command, which is refused unless it is `RESET` (`exec_of_faulted`), or none, and is then
answered by its opcode (`rejectFrame_of_faulted`). -/
theorem faultedCoreAcceptsOnlyReset : Obligations.FaultedCoreAcceptsOnlyReset := by
  intro s f rest hfaulted hflag hport
  have hrefused := State.finish_faulted (s := { s with cmdPort := rest }) hflag
  cases hdecode : decode f with
  | ok i =>
    have hrun : step s = exec i { s with cmdPort := rest } := stepTakesNextFrame.2 s f rest i hport hdecode
    refine ⟨fun hop => ?_, fun hop hne => ?_, fun hreset => ?_⟩
    · have hi : i ≠ .reset := by
        rintro rfl
        exact hop (decode_eq_reset_iff.1 hdecode ▸ opcode_encode_reset)
      rw [hrun, exec_of_faulted (s := { s with cmdPort := rest }) hi hfaulted, hrefused]
    · obtain rfl := eq_reset_of_opcode hop hdecode
      exact absurd (decode_eq_reset_iff.1 hdecode) hne
    · obtain rfl : i = .reset := eq_reset_of_opcode (hreset ▸ opcode_encode_reset) hdecode
      exact hrun
  | error e =>
    have hrun := (step_eq_rejectFrame hport hdecode).trans
      (rejectFrame_of_faulted (s := { s with cmdPort := rest }) hfaulted f)
    refine ⟨fun hop => ?_, fun hop _ => ?_, fun hreset => ?_⟩
    · rw [hrun, if_pos hop, hrefused]
    · rw [hrun, if_neg (not_not.2 hop)]
    · cases hdecode.symm.trans (decode_eq_reset_iff.2 hreset)

end Sys2Proof.Machine
